-- ==== Sys2Proof/Word.lean ====
section
/-! DEFINITION. The word types of the KM416 model: a byte as sent on a link port, and the 16-bit counters that wrap. -/

namespace Sys2Proof

/-- One byte, as a link port, a text or the settings memory carries it (R164). -/
abbrev Byte := BitVec 8

/-- A 16-bit quantity that wraps: the posting counter (R80) and the CRC-16 (Conventions). -/
abbrev HalfWord := BitVec 16

end Sys2Proof
end

