-- ==== Sys2Proof/Syntax.lean ====
section
/-! DEFINITION. The commands of the KM416: one constructor of Instr for each row of spec/opcode_table.json, with the operands the row's rule gives it. Meaning stands in Machine/ alone. -/

namespace Sys2Proof

/-- A side of the board (chapter 0, Terms). -/
inductive Face where
  | a | b
deriving DecidableEq, Repr

/-- A link port; its number is the origin of its requests (chapter 0, Masters and origins). -/
inductive Port where
  | lp0 | lp1 | lp2
deriving DecidableEq, Repr

/-- The level of an input line (R155). -/
inductive Level where
  | low | high
deriving DecidableEq, Repr

/-- How the write and read-back of a store ended (R184). -/
inductive StoreOutcome where
  | verified        -- every byte agrees
  | mismatch        -- the read-back differs
  | noAcknowledge   -- the memory did not acknowledge
deriving DecidableEq, Repr

/-- The commands. A request carries the port it arrives on, its TAG and its field bytes: the payload
after KIND and TAG as R164 and R171 to R174 lay it out, so that every length and every field code a
master can send is a term. Log entry 4: a request command stands for the arrival of its whole frame. -/
inductive Instr where
  /-- RESET (R182): power-on or the RESET pin; the four pin levels are those sampled at reset (R155). -/
  | reset (in0 in1 in2 in3 : Level)
  /-- SETTINGS_READ_COMPLETE (R182): the image read ends; whether the memory acknowledged. -/
  | settingsReadComplete (acknowledged : Bool)
  /-- BYTE_ARRIVAL (R165). -/
  | byteArrival (p : Port) (byte : Byte)
  /-- FRAMING_ERROR (R165). -/
  | framingError (p : Port)
  /-- GAP_TIMER_EXPIRY (R165). -/
  | gapTimerExpiry (p : Port)
  /-- FRAME_CRC_FAIL (R165): a complete frame fails its CRC. -/
  | frameCrcFail (p : Port)
  /-- UNKNOWN_KIND_FRAME (R171): a good frame whose KIND is not in the catalogue. -/
  | unknownKindFrame (p : Port) (kind tag : Byte) (fields : List Byte)
  /-- REPLY_SENT (R166). -/
  | replySent (p : Port)
  /-- PORT_SILENT (R170). -/
  | portSilent (p : Port)
  /-- PUT_DEPARTURE (R8, R9), KIND 0x01. -/
  | putDeparture (p : Port) (tag : Byte) (fields : List Byte)
  /-- AMEND (R12, R13), KIND 0x02. -/
  | amend (p : Port) (tag : Byte) (fields : List Byte)
  /-- AMEND_IF_RESERVED (R56), KIND 0x03. -/
  | amendIfReserved (p : Port) (tag : Byte) (fields : List Byte)
  /-- WITHDRAW_DEPARTURE (R14), KIND 0x04. -/
  | withdrawDeparture (p : Port) (tag : Byte) (fields : List Byte)
  /-- PIN (R15), KIND 0x05. -/
  | pin (p : Port) (tag : Byte) (fields : List Byte)
  /-- UNPIN (R16), KIND 0x06. -/
  | unpin (p : Port) (tag : Byte) (fields : List Byte)
  /-- READ_DEPARTURE (R17), KIND 0x07. -/
  | readDeparture (p : Port) (tag : Byte) (fields : List Byte)
  /-- LIST_DEPARTURES (R18), KIND 0x08. -/
  | listDepartures (p : Port) (tag : Byte) (fields : List Byte)
  /-- PUT_PLACE (R30), KIND 0x10. -/
  | putPlace (p : Port) (tag : Byte) (fields : List Byte)
  /-- WITHDRAW_PLACE (R31), KIND 0x11. -/
  | withdrawPlace (p : Port) (tag : Byte) (fields : List Byte)
  /-- READ_PLACE (R32), KIND 0x12. -/
  | readPlace (p : Port) (tag : Byte) (fields : List Byte)
  /-- RESERVE (R55), KIND 0x18. -/
  | reserve (p : Port) (tag : Byte) (fields : List Byte)
  /-- DROP_RESERVATION (R57), KIND 0x19. -/
  | dropReservation (p : Port) (tag : Byte) (fields : List Byte)
  /-- WRITE_ZONE (R48), KIND 0x20. -/
  | writeZone (p : Port) (tag : Byte) (fields : List Byte)
  /-- READ_ZONE (R50), KIND 0x21. -/
  | readZone (p : Port) (tag : Byte) (fields : List Byte)
  /-- PROBE_RIGHTS (R51, R52), KIND 0x22. -/
  | probeRights (p : Port) (tag : Byte) (fields : List Byte)
  /-- POST_NOTICE (R81 to R84), KIND 0x28. -/
  | postNotice (p : Port) (tag : Byte) (fields : List Byte)
  /-- WITHDRAW_NOTICE (R86), KIND 0x29. -/
  | withdrawNotice (p : Port) (tag : Byte) (fields : List Byte)
  /-- READ_NOTICE (R87), KIND 0x2A. -/
  | readNotice (p : Port) (tag : Byte) (fields : List Byte)
  /-- LIST_NOTICES (R88), KIND 0x2B. -/
  | listNotices (p : Port) (tag : Byte) (fields : List Byte)
  /-- SET_CLOCK (R70), KIND 0x30. -/
  | setClock (p : Port) (tag : Byte) (fields : List Byte)
  /-- READ_CLOCK (R71), KIND 0x31. -/
  | readClock (p : Port) (tag : Byte) (fields : List Byte)
  /-- SET_FACE (R94, R95), KIND 0x38. -/
  | setFace (p : Port) (tag : Byte) (fields : List Byte)
  /-- READ_FACE (R96), KIND 0x39. -/
  | readFace (p : Port) (tag : Byte) (fields : List Byte)
  /-- READ_SHOWN (R148), KIND 0x3A. -/
  | readShown (p : Port) (tag : Byte) (fields : List Byte)
  /-- READ_INPUTS (R162), KIND 0x3B. -/
  | readInputs (p : Port) (tag : Byte) (fields : List Byte)
  /-- SET_PARAMETER (R183), KIND 0x40. -/
  | setParameter (p : Port) (tag : Byte) (fields : List Byte)
  /-- READ_PARAMETER (R183), KIND 0x41. -/
  | readParameter (p : Port) (tag : Byte) (fields : List Byte)
  /-- STORE_SETTINGS (R184), KIND 0x42. -/
  | storeSettings (p : Port) (tag : Byte) (fields : List Byte)
  /-- STORE_COMPLETE (R184): write and read-back end. -/
  | storeComplete (outcome : StoreOutcome)
  /-- BOARD_RESTART (R185), KIND 0x43. -/
  | boardRestart (p : Port) (tag : Byte) (fields : List Byte)
  /-- READ_FAULTS (R178), KIND 0x48. -/
  | readFaults (p : Port) (tag : Byte) (fields : List Byte)
  /-- CLEAR_FAULTS (R178), KIND 0x49. -/
  | clearFaults (p : Port) (tag : Byte) (fields : List Byte)
  /-- READ_EVENTS (R180), KIND 0x4A. -/
  | readEvents (p : Port) (tag : Byte) (fields : List Byte)
  /-- OSCILLATOR_RUNNING (R63, R64). -/
  | oscillatorRunning
  /-- STARTUP_DEADLINE_EXPIRY (R64). -/
  | startupDeadlineExpiry
  /-- SECOND_EVENT (R67). -/
  | secondEvent
  /-- TIMER_EXPIRY (R73) of one of T0 to T5. -/
  | timerExpiry (t : Fin 6)
  /-- CONVERSION_COMPLETION (R150, R151) with its reading 0 to 1023. -/
  | conversionCompletion (reading : BitVec 10)
  /-- PLAN (R115) of a face. -/
  | plan (f : Face)
  /-- PAINT_COMPLETION (R117, R137): the face and the plan it belongs to. -/
  | paintCompletion (f : Face) (serial : Nat)
  /-- FRAME_BOUNDARY (R143) with what the four return lines gave back (R146). -/
  | frameBoundary (f : Face) (echo0 echo1 echo2 echo3 : BitVec 32)
  /-- PANEL_STARTUP_DELAY_EXPIRY (R144). -/
  | panelStartupDelayExpiry (f : Face)
  /-- CHANGE_COUNTS (R156): the pending change of a line counts. -/
  | changeCounts (l : Fin 4)
  /-- PIN_SAMPLE (R156): a line samples its pin at the level given. -/
  | pinSample (l : Fin 4) (level : Level)
deriving DecidableEq, Repr

end Sys2Proof
end

