-- ==== Sys2Proof/Config.lean ====
section
/-! DEFINITION. What the part fixes once (limits and sizes) and the free values: what the manual leaves open. A free value is an opaque constant with no body, so that a statement about the model holds for every value of it. -/

namespace Sys2Proof.Config

/-- The most departure records held (R3). -/
def maxRecords : Nat := 48
/-- The stop entries of the pool (R36). -/
def poolSize : Nat := 640
/-- The most stops of one record (R36). -/
def maxStops : Nat := 32
/-- The most pinned records (R15). -/
def maxPinned : Nat := 4
/-- The most notices held (R79). -/
def maxNotices : Nat := 8
/-- The columns of a face, and the field width of a whole line (R121). -/
def lineWidth : Nat := 256
/-- The bytes of the settings memory (chapter 12: 16 KiB). -/
def memorySize : Nat := 16384
/-- The bytes of the settings image (R181). -/
def imageSize : Nat := 10158
/-- The system ticks of the start-up deadline (R64). -/
def deadlineTicks : Nat := 2000
/-- The crystal cycles of the oscillator's start count and of one second (R63, R65). -/
def crystalSecond : Nat := 32768
/-- The system ticks of one second under the source SYSTEM (R65). -/
def systemSecond : Nat := 1000
/-- The gap timer's expiry: the first tick after the 20 ms that may pass between two bytes (R165).
DEDUCED, log entry 26. -/
def gapTicks : Nat := 21
/-- The check pattern of the first check after reset (R146). -/
def firstPattern : BitVec 32 := 0x96E15A0F

/-- What an abandoned store left in the settings memory (R184). -/
inductive StoreLeft where
  | former   -- no byte of the new image had been written
  | new      -- the write had ended
  | mixed    -- a mixed image that fails its CRC
deriving DecidableEq, Repr, Inhabited

/-- Free value (log entry 10): whether the font's glyph for the code is lit at the column of its
advance and the line row 2 to 13. R122 says the patterns are font data not given in the manual. -/
opaque fontPixel : (code : Byte) → (column row : Nat) → Bool

/-- Free value (log entry 11): a pixel of a back bitmap while the painter is at work on it (R141:
"in whatever state painting left it"). The first argument is the draw. -/
opaque halfPainted : (draw row column : Nat) → Bool

/-- Free value (log entry 13): whether the next clock edge of an idle step is a cycle of the
32.768 kHz crystal (true) or a 1 ms system tick (false). -/
opaque crystalTick : (draw : Nat) → Bool

/-- Free value (log entry 13): what a chain's return line gave back by a frame boundary that falls
due in an idle step. -/
opaque echo : (draw face chain : Nat) → BitVec 32

/-- Free value (log entry 13): whether the pin of an input line is high at an idle step's tick. -/
opaque pinHigh : (draw line : Nat) → Bool

/-- Free value (log entry 8): a byte of the image span after a store that failed (R184: "whatever
the store left in it"), and of the mixed image of an abandoned one. -/
opaque storeByte : (draw address : Nat) → Byte

/-- Free value (log entry 9): how far an abandoned store had come (R184). -/
opaque storeLeft : (draw : Nat) → StoreLeft

end Sys2Proof.Config
end

