-- ==== Sys2Proof/Machine/State.lean ====
section
/-! DEFINITION. The state of the KM416 as plain data: every register, collection, counter, buffer and mode that spec/ gives the part, the queue of waiting commands, and the state after reset. -/

namespace Sys2Proof.Machine

/-- One value for each face. -/
structure PerFace (α : Type) where
  a : α
  b : α
deriving DecidableEq, Repr

/-- One value for each link port. -/
structure PerPort (α : Type) where
  lp0 : α
  lp1 : α
  lp2 : α
deriving DecidableEq, Repr

/-- The source of an action: a port, or local, which is origin 3 (chapter 0, Masters and origins). -/
inductive Origin where
  | port (p : Port)
  | loc
deriving DecidableEq, Repr

/-! ## Departure table (file 01) and places (file 02) -/

/-- R1: the stored status of a record. -/
inductive Status where
  | running | cancelled
deriving DecidableEq, Repr

/-- R1, R36: a stop entry in use. -/
structure Stop where
  place : Nat
  time : Option Nat
deriving DecidableEq, Repr

/-- R1: a departure record. -/
structure Departure where
  code : Nat
  scheduled : Nat
  platform : Nat
  dest : Nat
  via : Option Nat
  delay : Option Nat
  status : Status
  carriages : Option Nat
  approaching : Bool
  stops : List Stop
  pinned : Bool
  owner : Origin
  writer : Origin
  revision : Byte
deriving DecidableEq, Repr

/-- R27: a defined place entry; an undefined entry is none. -/
structure Place where
  name : List Byte
  short : Option (List Byte)
deriving DecidableEq, Repr

/-! ## Access zones (file 03) -/

/-- R41: the four rights. -/
inductive Right where
  | depart | status | notice | config
deriving DecidableEq, Repr

/-- R41: a subset of the rights. -/
structure Rights where
  depart : Bool
  status : Bool
  notice : Bool
  config : Bool
deriving DecidableEq, Repr

/-- R41: which origins a zone matches. -/
inductive ZoneMatch where
  | global
  | origin (p : Port)
deriving DecidableEq, Repr

/-- R41: an access zone. -/
structure Zone where
  enabled : Bool
  who : ZoneMatch
  low : Nat
  high : Nat
  rights : Rights
deriving DecidableEq, Repr

/-! ## Notices (file 05) -/

/-- R77: the class of a notice. -/
inductive NoticeClass where
  | low | high
deriving DecidableEq, Repr

/-- R77: the scope of a notice. -/
inductive Scope where
  | bottom | full
deriving DecidableEq, Repr

/-- Face code 1 A, 2 B, 3 both: a notice's targets (R77) and an input line's face (R155). -/
inductive FaceSel where
  | a | b | both
deriving DecidableEq, Repr

/-- R77: a notice. -/
structure Notice where
  id : Nat
  cls : NoticeClass
  scope : Scope
  targets : FaceSel
  flash : Bool
  duration : Nat
  remaining : Nat
  text : List Byte
  origin : Port
  posting : HalfWord
deriving DecidableEq, Repr

/-! ## Station clock and interval timers (file 04) -/

/-- R63: the timekeeping oscillator. -/
inductive OscState where
  | starting | running
deriving DecidableEq, Repr

/-- R65: the second source. -/
inductive SecondSource where
  | none | timekeeper | system
deriving DecidableEq, Repr

/-- R63 to R66: the station clock and its sources. -/
structure Clock where
  hh : Nat
  mm : Nat
  ss : Nat
  valid : Bool
  /-- R66: the minute of day of the last minute event, or absent. -/
  prevMinute : Option Nat
  osc : OscState
  /-- R63: crystal cycles counted while STARTING. -/
  startCount : Nat
  /-- R64: ticks counted of the start-up deadline; none once it has expired or been discarded. -/
  deadline : Option Nat
  source : SecondSource
  /-- R65: cycles or ticks counted of the present second. -/
  divider : Nat
deriving DecidableEq, Repr

/-- R72: the size of one unit. -/
inductive TimerUnit where
  | ms1 | ms10
deriving DecidableEq, Repr

/-- R72: the mode of a timer. -/
inductive TimerMode where
  | auto | single
deriving DecidableEq, Repr

/-- R72: an interval timer. -/
structure Timer where
  reload : Nat
  unit : TimerUnit
  mode : TimerMode
  counter : Nat
  sub : Nat
  running : Bool
deriving DecidableEq, Repr

/-! ## Face composition (files 06 and 07) -/

/-- R93: the role of a text line. -/
inductive Role where
  | empty | first | calling | next | rotate | bottom
deriving DecidableEq, Repr

/-- R93: the wake mask. -/
structure WakeMask where
  notice : Bool
  departure : Bool
  input : Bool
deriving DecidableEq, Repr

/-- R93: the settings of a face; `second` 0 means none; `modeOn` is configured mode ON. -/
structure FaceSettings where
  primary : Nat
  second : Nat
  roles : Vector Role 4
  modeOn : Bool
  mask : WakeMask
deriving DecidableEq, Repr

/-- R97: the effective state of a face. -/
inductive EffState where
  | lit | dark | woken | lampTest
deriving DecidableEq, Repr

/-- R115: the rebuild state. -/
inductive Rebuild where
  | idle | painting | swapPending
deriving DecidableEq, Repr

/-- R109: an entry of the bottom rotation, by identity. -/
inductive BottomEntry where
  | clock
  | notice (id : Nat)
deriving DecidableEq, Repr

/-- R116: the source identity of a line of a plan. -/
inductive Source where
  | none
  | record (code : Nat) (revision : Byte)
  | phrase
  | clock
  | notice (id : Nat)
  | page (id page : Nat)
deriving DecidableEq, Repr

/-- R125: the alignment of a text in its field. -/
inductive Align where
  | left | right | centre
deriving DecidableEq, Repr

/-- R116: a field of a line in a plan: where it lies, its copied text, its ladder step (the destination
only), whether it flashes, and the ticker offset it copied when it runs on an active ticker. -/
structure PlanField where
  col : Nat
  width : Nat
  align : Align
  text : List Byte
  step : Option Nat
  flashing : Bool
  offset : Option Nat
deriving DecidableEq, Repr

/-- R116: what a line of a plan is: a role of the layout, or FULL. -/
inductive LineUse where
  | role (r : Role)
  | full
deriving DecidableEq, Repr

/-- R116: a line of a plan. -/
structure PlanLine where
  use : LineUse
  source : Source
  fields : List PlanField
deriving DecidableEq, Repr

/-- R111: the FULL notice a plan shows: its ID and its whole text. -/
structure FullShown where
  id : Nat
  text : List Byte
deriving DecidableEq, Repr

/-- R116: a plan. `serial` is the model's name for it (R137: a completion names its plan). -/
structure Plan where
  serial : Nat
  lines : Vector PlanLine 4
  flashOn : Bool
  full : Option FullShown
deriving DecidableEq, Repr

/-- R132: what a ticker was built for beside its text. -/
inductive TickerKey where
  | record (code : Nat)
  | entry (e : BottomEntry)
deriving DecidableEq, Repr

/-- R132: the phase of a ticker. -/
inductive TickerPhase where
  | hold | scroll
deriving DecidableEq, Repr

/-- R132: an active ticker. -/
structure Ticker where
  key : TickerKey
  text : List Byte
  width : Nat
  pos : Nat
  phase : TickerPhase
  holdLeft : Nat
deriving DecidableEq, Repr

/-- A face composer (R93, R97, R98, R104, R108, R109, R111, R114, R115). -/
structure Composer where
  settings : FaceSettings
  state : EffState
  countdown : Nat
  dirty : Bool
  rebuild : Rebuild
  /-- R141: the plan in hand, which is the back plan. -/
  inHand : Option Plan
  /-- The last plan taken (R104, R108 to R113 look at it). -/
  lastPlan : Option Plan
  /-- The model's own: the number of plans taken. -/
  serial : Nat
  calling : Option Ticker
  bottom : Option Ticker
  restartPending : Bool
  rotate : Nat
  entry : BottomEntry
  pass : Bool
  page : Nat
deriving DecidableEq, Repr

/-- R137: a plan held by the painter, by the face and the name of the plan in that face's hand. -/
structure Job where
  face : Face
  serial : Nat
deriving DecidableEq, Repr

/-- R137: the glyph painter. -/
structure Painter where
  current : Option Job
  waiting : Option Job
deriving DecidableEq, Repr

/-! ## Frame buffers, panel scan and brightness (file 08) -/

/-- R141: 64 rows of 256 pixels; bit x of a row is column x, set when lit. -/
abbrev Bitmap := Vector (BitVec 256) 64

/-- R144: the panel output state. -/
inductive PanelOut where
  | off | starting | driving
deriving DecidableEq, Repr

/-- R146: the check state; IN_FLIGHT holds the pattern that was sent. -/
inductive CheckState where
  | none
  | inFlight (pattern : BitVec 32)
deriving DecidableEq, Repr

/-- R147: the state of a chain. -/
inductive ChainState where
  | good | suspect1 | suspect2 | failed
deriving DecidableEq, Repr

/-- R145, R146, R154: what a frame shifts out: the pixels, the duties applied to it, and the check
pattern it carries after its data, if any. -/
structure ScanFrame where
  pixels : Bitmap
  duties : Vector Nat 32
  pattern : Option (BitVec 32)
deriving DecidableEq, Repr

/-- One face's buffers (R141), panel output (R144), frames (R143), chain checks (R146, R147) and
brightness (R153). -/
structure Panel where
  front : Bitmap
  back : Bitmap
  frontPlan : Plan
  out : PanelOut
  startLeft : Nat
  elapsed : Nat
  period : Nat
  counter : Nat
  check : CheckState
  nextPattern : BitVec 32
  chains : Vector ChainState 4
  frame : Option ScanFrame
  cap : Nat
  trims : Vector Nat 32
  faceDuty : Nat
  duties : Vector Nat 32
deriving DecidableEq, Repr

/-- R152: a point of the brightness curve. -/
structure CurvePoint where
  amb : Nat
  duty : Nat
deriving DecidableEq, Repr

/-- R150 to R152: ambient sampling and the curve; the ring stands oldest reading first. -/
structure Ambient where
  converting : Bool
  ring : Vector Nat 8
  filled : Bool
  level : Nat
  curve : Vector CurvePoint 8
deriving DecidableEq, Repr

/-! ## Input lines (file 09) -/

/-- R155: the function of an input line. -/
inductive LineFunction where
  | none | approach | blank | wake | lampTest
deriving DecidableEq, Repr

/-- R155: an input line; `sense` is the sense code 0 to 2. -/
structure InputLine where
  function : LineFunction
  face : FaceSel
  sense : Nat
  debounce : Nat
  settled : Level
  pending : Nat
deriving DecidableEq, Repr

/-! ## Link ports (file 10) -/

/-- R165: the state of a port. -/
inductive PortState where
  | hunt | receive | execute | reply
deriving DecidableEq, Repr

/-- R163: the baud codes. -/
inductive Baud where
  | b9600 | b19200 | b38400 | b115200
deriving DecidableEq, Repr

/-- R169: the stale action. -/
inductive Stale where
  | hold | hide
deriving DecidableEq, Repr

/-- R163, R165, R166, R169: a link port. -/
structure LinkPort where
  state : PortState
  /-- The receive buffer: LEN once it is held, then the payload and check bytes received. -/
  len : Option Nat
  data : List Byte
  /-- Ticks since the last byte of the frame in progress. -/
  gap : Nat
  /-- The port's baud as last written, and the baud the line runs at. -/
  baud : Baud
  lineBaud : Baud
  /-- The silence limit and the stale action, as parameters. -/
  limit : Nat
  stale : Stale
  /-- R169: the limit and the action that govern the port: the parameters' values, but through a BOARD RESTART, until the
  parameters are reloaded, those in force before it. -/
  limitInForce : Nat
  staleInForce : Stale
  count : Nat
  silent : Bool
  /-- The reply frame last handed to TX (log entry 6). -/
  reply : List Byte
deriving DecidableEq, Repr

/-! ## Faults and event sets (file 11) -/

/-- R175: the nine kinds. -/
inductive FaultKind where
  | glyphSubstituted | placeUndefined | linkFrameBad | zonesDefaulted | chainFailed
  | settingsAbsent | settingsInvalid | storeFailed | timekeeperNotReady
deriving DecidableEq, Repr

/-- R175: the unit of a locale. -/
inductive LocaleUnit where
  | none
  | face (f : Face)
  | port (p : Port)
deriving DecidableEq, Repr

/-- R175: a locale; `position` is a line 1 to 4 or a chain 0 to 3. -/
structure Locale where
  unit : LocaleUnit
  position : Option Nat
  place : Option Nat
deriving DecidableEq, Repr

/-- R177: a captured fault; the minute is none for "invalid". -/
structure Captured where
  kind : FaultKind
  locale : Locale
  minute : Option Nat
deriving DecidableEq, Repr

/-- R177: the capture record; it is locked exactly when a fault is held. -/
structure Capture where
  held : Option Captured
  more : Bool
deriving DecidableEq, Repr

/-- R179: an event set. -/
structure EventSet where
  reservationLost : Bool
  noticeDisplaced : Bool
  noticeExpired : Bool
  fault : Bool
  shownChanged : Bool
deriving DecidableEq, Repr

/-! ## Settings loader (file 12) -/

/-- Chapter 12: the loader state. -/
inductive LoaderPhase where
  | loading | ready | storing
deriving DecidableEq, Repr

/-- R184: a store that is running: the storing port, its request's TAG and the image formed. -/
structure StoreJob where
  port : Port
  tag : Byte
  image : List Byte
deriving DecidableEq, Repr

/-- The settings loader. -/
structure Loader where
  phase : LoaderPhase
  store : Option StoreJob
deriving DecidableEq, Repr

/-- The settings memory (R181): listed bytes by address, in canonical form (Memory.wf). -/
abbrev Memory := List Host.Cell

/-- The single-value parameters of R183 that no other structure holds. -/
structure Params where
  ro : Nat
  linger : Nat
  unknownHold : Nat
  wakeWindow : Nat
  wakeHold : Nat
  rotateDepth : Nat
  tickerHold : Nat
  framePeriod : Nat
  checkInterval : Nat
  startDelay : Nat
deriving DecidableEq, Repr

/-- The whole part. -/
structure State where
  params : Params
  table : List Departure
  pinCount : Nat
  freeStops : Nat
  places : Vector (Option Place) 255
  zones : Vector Zone 8
  reservations : PerPort (Option Nat)
  notices : List Notice
  postCounter : HalfWord
  clock : Clock
  timers : Vector Timer 6
  flashOn : Bool
  faces : PerFace Composer
  painter : Painter
  panels : PerFace Panel
  ambient : Ambient
  lines : Vector InputLine 4
  ports : PerPort LinkPort
  capture : Capture
  /-- R176: the seen-kinds set, by kind code minus one. -/
  seen : Vector Bool 9
  events : PerPort EventSet
  loader : Loader
  mem : Memory
  /-- The model's own: the next draw of the free values of Config (log entry 12). -/
  free : Nat
  /-- The commands waiting, first in, first out. -/
  pending : List Instr
deriving DecidableEq, Repr

/-- Why the block could stop with a fault: nothing in spec/ stops it. Its own faults (R175) are reports
held in State. No constructor, so no command faults. -/
inductive Fault : Type
deriving DecidableEq, Repr

/-- Why a command could be refused. -/
inductive Refusal where
  /-- Raised by an arm of exec for a command that has no meaning yet (safe); no arm uses it. -/
  | notModelled (mnemonic : String)
deriving DecidableEq, Repr

/-! ## The state after reset -/

/-- R116, R141: a line with source none that paints nothing. -/
def PlanLine.dark : PlanLine := ⟨.role .empty, .none, []⟩

/-- R141: the empty plan. -/
def Plan.empty : Plan := ⟨0, Vector.replicate 4 PlanLine.dark, true, none⟩

/-- R141: an all-dark bitmap. -/
def Bitmap.dark : Bitmap := Vector.replicate 64 0

/-- R41: the default zones. -/
def Zone.defaults : Vector Zone 8 :=
  let off : Zone := ⟨false, .global, 0, 31, ⟨false, false, false, false⟩⟩
  #v[⟨true, .global, 0, 31, ⟨true, true, true, true⟩⟩, off, off, off, off, off, off, off]

/-- R93: the default settings of each face. -/
def FaceSettings.defaults : PerFace FaceSettings :=
  ⟨⟨1, 0, #v[.first, .calling, .next, .bottom], true, ⟨true, true, true⟩⟩,
   ⟨2, 0, #v[.first, .calling, .next, .bottom], true, ⟨true, true, true⟩⟩⟩

/-- R120: a composer after reset, with the settings given. -/
def Composer.reset (settings : FaceSettings) : Composer where
  settings := settings
  state := .lit
  countdown := 0
  dirty := false
  rebuild := .idle
  inHand := none
  lastPlan := none
  serial := 0
  calling := none
  bottom := none
  restartPending := false
  rotate := 0
  entry := .clock
  pass := false
  page := 1

/-- R141 to R147, R153: a face's panel after reset. -/
def Panel.reset : Panel where
  front := Bitmap.dark
  back := Bitmap.dark
  frontPlan := Plan.empty
  out := .off
  startLeft := 0
  elapsed := 0
  period := 10
  counter := 0
  check := .none
  nextPattern := Config.firstPattern
  chains := Vector.replicate 4 .good
  frame := none
  cap := 255
  trims := Vector.replicate 32 128
  faceDuty := 0
  duties := Vector.replicate 32 0

/-- R150 to R152: brightness control after reset. -/
def Ambient.reset : Ambient where
  converting := false
  ring := Vector.replicate 8 0
  filled := false
  level := 0
  curve := #v[⟨0, 16⟩, ⟨64, 24⟩, ⟨128, 40⟩, ⟨256, 72⟩, ⟨384, 112⟩, ⟨512, 160⟩, ⟨768, 224⟩, ⟨1023, 255⟩]

/-- R72, R76: a timer after reset, with its default reload. -/
def Timer.reset (reload : Nat) : Timer := ⟨reload, .ms1, .auto, 0, 0, true⟩

/-- R155: an input line after reset, with the level sampled at reset. -/
def InputLine.reset (level : Level) : InputLine := ⟨.none, .both, 0, 20, level, 0⟩

/-- R163, R165, R169: a link port after reset. -/
def LinkPort.reset : LinkPort where
  state := .hunt
  len := none
  data := []
  gap := 0
  baud := .b38400
  lineBaud := .b38400
  limit := 120
  stale := .hold
  limitInForce := 120
  staleInForce := .hold
  count := 0
  silent := false
  reply := []

/-- R63 to R66: the clock after reset; the start-up deadline runs from 0. -/
def Clock.reset : Clock := ⟨0, 0, 0, false, none, .starting, 0, some 0, .none, 0⟩

/-- R179: the empty event set. -/
def EventSet.empty : EventSet := ⟨false, false, false, false, false⟩

/-- R183: the defaults of the single-value parameters. -/
def Params.defaults : Params := ⟨180, 2, 60, 15, 30, 3, 40, 10, 100, 64⟩

/-- The part right after reset (R25, R27, R41, R54, R66, R76, R79, R120, R137, R141, R151, R161, R165,
R169, R177, R179, R182). The levels of the input lines at reset are the RESET command's operands;
here they are low (log entry 14). The memory lists nothing (log entry 7). -/
def State.reset : State where
  params := Params.defaults
  table := []
  pinCount := 0
  freeStops := Config.poolSize
  places := Vector.replicate 255 none
  zones := Zone.defaults
  reservations := ⟨none, none, none⟩
  notices := []
  postCounter := 0
  clock := Clock.reset
  timers := #v[Timer.reset 25, Timer.reset 25, Timer.reset 4000, Timer.reset 5000, Timer.reset 500, Timer.reset 250]
  flashOn := true
  faces := ⟨Composer.reset FaceSettings.defaults.a, Composer.reset FaceSettings.defaults.b⟩
  painter := ⟨none, none⟩
  panels := ⟨Panel.reset, Panel.reset⟩
  ambient := Ambient.reset
  lines := Vector.replicate 4 (InputLine.reset .low)
  ports := ⟨LinkPort.reset, LinkPort.reset, LinkPort.reset⟩
  capture := ⟨none, false⟩
  seen := Vector.replicate 9 false
  events := ⟨EventSet.empty, EventSet.empty, EventSet.empty⟩
  loader := ⟨.loading, none⟩
  mem := []
  free := 0
  pending := []

end Sys2Proof.Machine
end

