-- ==== Sys2Proof/Machine/Ops.lean ====
section
/-! DEFINITION. The named operations every block shares: reaching the parts of State, big-endian bytes, the CRC-16, the settings memory, minutes and service keys, and the order of the departure table. -/

namespace Sys2Proof.Machine

/-! ## Reaching the parts of State -/

/-- The value of a face. -/
def PerFace.get {α : Type} (v : PerFace α) : Face → α
  | .a => v.a
  | .b => v.b

/-- The values with that of one face replaced. -/
def PerFace.set {α : Type} (v : PerFace α) (f : Face) (x : α) : PerFace α :=
  match f with
  | .a => { v with a := x }
  | .b => { v with b := x }

/-- The value of a port. -/
def PerPort.get {α : Type} (v : PerPort α) : Port → α
  | .lp0 => v.lp0
  | .lp1 => v.lp1
  | .lp2 => v.lp2

/-- The values with that of one port replaced. -/
def PerPort.set {α : Type} (v : PerPort α) (p : Port) (x : α) : PerPort α :=
  match p with
  | .lp0 => { v with lp0 := x }
  | .lp1 => { v with lp1 := x }
  | .lp2 => { v with lp2 := x }

/-- Each port's value changed by the same function of the port and the value. -/
def PerPort.mapWith {α β : Type} (g : Port → α → β) (v : PerPort α) : PerPort β :=
  ⟨g .lp0 v.lp0, g .lp1 v.lp1, g .lp2 v.lp2⟩

/-- Change one face's composer. -/
def State.modFace (s : State) (f : Face) (g : Composer → Composer) : State :=
  { s with faces := s.faces.set f (g (s.faces.get f)) }

/-- Change one face's panel. -/
def State.modPanel (s : State) (f : Face) (g : Panel → Panel) : State :=
  { s with panels := s.panels.set f (g (s.panels.get f)) }

/-- Change one link port. -/
def State.modPort (s : State) (p : Port) (g : LinkPort → LinkPort) : State :=
  { s with ports := s.ports.set p (g (s.ports.get p)) }

/-- Change one port's event set. -/
def State.modEvents (s : State) (p : Port) (g : EventSet → EventSet) : State :=
  { s with events := s.events.set p (g (s.events.get p)) }

/-- Change one input line. -/
def State.modLine (s : State) (l : Fin 4) (g : InputLine → InputLine) : State :=
  { s with lines := s.lines.set l (g s.lines[l]) }

/-- Change one interval timer. -/
def State.modTimer (s : State) (t : Fin 6) (g : Timer → Timer) : State :=
  { s with timers := s.timers.set t (g s.timers[t]) }

/-- Give one port a reservation, or none (R54). -/
def State.setReservation (s : State) (p : Port) (r : Option Nat) : State :=
  { s with reservations := s.reservations.set p r }

/-- The two faces, A before B. -/
def faceList : List Face := [.a, .b]

/-- The three ports in order. -/
def portList : List Port := [.lp0, .lp1, .lp2]

/-- Do the same for each face, A before B. -/
def State.eachFace (s : State) (g : Face → State → State) : State := g .b (g .a s)

/-- Face code 1 A, 2 B, 3 both: whether the selection holds a face (R174). -/
def FaceSel.has : FaceSel → Face → Bool
  | .a, .a => true
  | .b, .b => true
  | .both, _ => true
  | .a, .b => false
  | .b, .a => false

/-! ## Bytes and words on the wire (R164) -/

/-- A number as one byte. -/
def byte (n : Nat) : Byte := BitVec.ofNat 8 n

/-- A number as two bytes, high byte first (Conventions). -/
def be16 (n : Nat) : List Byte := [byte (n / 256), byte n]

/-- Two bytes as a number, high byte first. -/
def nat16 (high low : Byte) : Nat := high.toNat * 256 + low.toNat

/-- The bytes of a fixed text. -/
def str (s : String) : List Byte := s.toList.map fun c => byte c.toNat

/-- A yes or no byte (R174). -/
def yesNo (b : Bool) : Byte := if b then 1 else 0

/-- An absent two-byte time or delay is 0xFFFF (R164). -/
def optional16 : Option Nat → List Byte
  | some n => be16 n
  | none => [0xFF, 0xFF]

/-- An absent one-byte place or carriage count is 0 (R164). -/
def optional8 : Option Nat → Byte
  | some n => byte n
  | none => 0

/-! ## CRC-16 (Conventions): polynomial 0x1021, initial value 0xFFFF, no reflection, no final XOR -/

/-- One bit of the CRC-16. -/
def crcBit (c : HalfWord) : HalfWord := if c.msb then (c <<< 1) ^^^ 0x1021 else c <<< 1

/-- One byte of the CRC-16. -/
def crcByte (c : HalfWord) (b : Byte) : HalfWord :=
  crcBit (crcBit (crcBit (crcBit (crcBit (crcBit (crcBit (crcBit (c ^^^ (b.setWidth 16 <<< 8)))))))))

/-- The CRC-16 of a run of bytes. -/
def crc16 (bytes : List Byte) : HalfWord := bytes.foldl crcByte 0xFFFF

/-- The check word as sent or stored: high byte first. -/
def crcBytes (bytes : List Byte) : List Byte := be16 (crc16 bytes).toNat

/-! ## The settings memory (R181) -/

/-- What an address that is not listed reads as (DESIGN CHOICE, unsafe, log entry 7). -/
def Memory.blank : Byte := 0

/-- Addresses strictly rising from `low`, below the end of the memory, and no listed byte blank. -/
def Memory.rising : Nat → Memory → Bool
  | _, [] => true
  | low, (a, b) :: rest => low ≤ a && a < Config.memorySize && b != Memory.blank && Memory.rising (a + 1) rest

/-- The canonical form of the memory. -/
def Memory.wf (m : Memory) : Bool := Memory.rising 0 m

/-- The byte at an address. -/
def Memory.read : Memory → Nat → Byte
  | [], _ => Memory.blank
  | (a, b) :: rest, k => if a = k then b else Memory.read rest k

/-- The bytes of a run of addresses. -/
def Memory.readBlock (m : Memory) (base n : Nat) : List Byte := (List.range n).map fun i => m.read (base + i)

/-- The listed cells of a run of bytes from an address: the blank ones are left out. -/
def Memory.cells : Nat → List Byte → Memory
  | _, [] => []
  | a, b :: rest => if b = Memory.blank then Memory.cells (a + 1) rest else (a, b) :: Memory.cells (a + 1) rest

/-- Write a run of bytes from an address. -/
def Memory.writeBlock (m : Memory) (base : Nat) (bytes : List Byte) : Memory :=
  m.filter (fun c => c.1 < base) ++ Memory.cells base bytes ++ m.filter (fun c => base + bytes.length ≤ c.1)

/-! ## Minutes and service keys (chapter 0, Conventions) -/

/-- The service key of a minute: (m − RO) mod 1440. -/
def serviceKey (ro minute : Nat) : Nat := (minute + (1440 - ro % 1440)) % 1440

/-- The minute of day of the clock (R66). -/
def Clock.minute (c : Clock) : Nat := c.hh * 60 + c.mm

/-- The service key K of the clock's minute (R68). -/
def State.nowKey (s : State) : Nat := serviceKey s.params.ro s.clock.minute

/-! ## The departure table (R2) -/

/-- The scheduled service key of a record (R2). -/
def Departure.key (ro : Nat) (r : Departure) : Nat := serviceKey ro r.scheduled

/-- R2: ascending key, then ascending code. -/
def Departure.before (ro : Nat) (x y : Departure) : Bool :=
  x.key ro < y.key ro || (x.key ro == y.key ro && x.code < y.code)

/-- Put a record at its ordered position (R2, R8). -/
def insertRecord (ro : Nat) (r : Departure) : List Departure → List Departure
  | [] => [r]
  | x :: rest => if r.before ro x then r :: x :: rest else x :: insertRecord ro r rest

/-- All the records put in order under a rollover minute (R23). -/
def sortRecords (ro : Nat) (t : List Departure) : List Departure := t.foldr (insertRecord ro) []

/-- The record with a service code. -/
def State.record? (s : State) (code : Nat) : Option Departure := s.table.find? fun r => r.code == code

/-- The table without the record of a code. -/
def withoutRecord (code : Nat) (t : List Departure) : List Departure := t.filter fun r => r.code != code

/-- The stop entries in use: the sum of the stop-list lengths (R10). -/
def stopsInUse (t : List Departure) : Nat := (t.map fun r => r.stops.length).sum

/-- The pinned records held (R15). -/
def pinnedIn (t : List Departure) : Nat := t.countP fun r => r.pinned

/-! ## The place list (R27) -/

/-- The entry of a place number; 0 is not an entry (R27). -/
def State.place? (s : State) (n : Nat) : Option Place :=
  if h : 0 < n ∧ n ≤ 255 then s.places[n - 1] else none

/-- Replace the entry of a place number 1 to 255; no other number is an entry. -/
def State.setPlace (s : State) (n : Nat) (e : Option Place) : State :=
  if h : 0 < n ∧ n ≤ 255 then { s with places := s.places.set (n - 1) e } else s

end Sys2Proof.Machine
end

