-- ==== Sys2Proof/Machine/Flags.lean ====
section
/-! DEFINITION. The flags and reports of the part: event sets and attention lines, the capture record and the seen-kinds set, and the loss of reservations. -/

namespace Sys2Proof.Machine

/-- R179: the five flags of an event set. -/
inductive EventFlag where
  | reservationLost | noticeDisplaced | noticeExpired | fault | shownChanged
deriving DecidableEq, Repr

/-- R179: set a flag; a flag already held leaves the set as it was. -/
def EventSet.add (e : EventSet) : EventFlag → EventSet
  | .reservationLost => { e with reservationLost := true }
  | .noticeDisplaced => { e with noticeDisplaced := true }
  | .noticeExpired => { e with noticeExpired := true }
  | .fault => { e with fault := true }
  | .shownChanged => { e with shownChanged := true }

/-- R168: the summary byte: bit 0 RESERVATION_LOST to bit 4 SHOWN_CHANGED. -/
def EventSet.summary (e : EventSet) : Byte :=
  byte ((if e.reservationLost then 1 else 0) + (if e.noticeDisplaced then 2 else 0)
    + (if e.noticeExpired then 4 else 0) + (if e.fault then 8 else 0) + (if e.shownChanged then 16 else 0))

/-- Set a flag in one port's event set. -/
def State.signal (s : State) (p : Port) (e : EventFlag) : State := s.modEvents p fun set => set.add e

/-- Set a flag in every port's event set. -/
def State.signalAll (s : State) (e : EventFlag) : State :=
  { s with events := s.events.mapWith fun _ set => set.add e }

/-- R179: ATTNn is asserted while port n's event set is not empty. -/
def State.attn (s : State) (p : Port) : Bool := s.events.get p != EventSet.empty

/-! ## Faults (R175 to R177) -/

/-- R175: whether a kind is major. -/
def FaultKind.major : FaultKind → Bool
  | .glyphSubstituted | .placeUndefined | .linkFrameBad | .zonesDefaulted => false
  | .chainFailed | .settingsAbsent | .settingsInvalid | .storeFailed | .timekeeperNotReady => true

/-- R175: the kind's place in the seen-kinds set: its code minus one. -/
def FaultKind.index : FaultKind → Fin 9
  | .glyphSubstituted => 0
  | .placeUndefined => 1
  | .linkFrameBad => 2
  | .zonesDefaulted => 3
  | .chainFailed => 4
  | .settingsAbsent => 5
  | .settingsInvalid => 6
  | .storeFailed => 7
  | .timekeeperNotReady => 8

/-- R175: the code by which READ FAULTS returns a kind. -/
def FaultKind.code (k : FaultKind) : Nat := k.index.val + 1

/-- R175: no locale. -/
def Locale.none : Locale := ⟨.none, Option.none, Option.none⟩

/-- R177: a fault arriving at the capture record. -/
def Capture.take (c : Capture) (f : Captured) : Capture :=
  match c.held with
  | none => { c with held := some f }
  | some g =>
    if f.kind.major && !g.kind.major then { held := some f, more := true } else { c with more := true }

/-- R176: raise a fault: the capture record, the seen-kinds set, then FAULT in every event set. -/
def State.raise (s : State) (kind : FaultKind) (locale : Locale) : State :=
  let minute := if s.clock.valid then some s.clock.minute else none
  { s with
    capture := s.capture.take ⟨kind, locale, minute⟩
    seen := s.seen.set kind.index true
    events := s.events.mapWith fun _ set => set.add .fault }

/-- R176: several faults of one change, one after the other in the order given. -/
def State.raiseAll (s : State) (kind : FaultKind) (locales : List Locale) : State :=
  locales.foldl (fun t l => t.raise kind l) s

/-! ## Reservations (R58, R60) -/

/-- R58, R60: one port's reservation is deleted when it names the code, with RESERVATION_LOST when
the change's origin is not that port. -/
def State.loseReservation (s : State) (code : Nat) (origin : Origin) (p : Port) : State :=
  if s.reservations.get p = some code then
    let s := s.setReservation p none
    if origin = .port p then s else s.signal p .reservationLost
  else s

/-- R58: every reservation naming a record is deleted by a change of that record. -/
def State.loseReservations (s : State) (code : Nat) (origin : Origin) : State :=
  portList.foldl (fun t p => t.loseReservation code origin p) s

end Sys2Proof.Machine
end

