-- ==== Sys2Proof/Machine/Text.lean ====
section
/-! DEFINITION. Text fitting, glyphs and the ticker (chapter 7): the font's advances, widths, alignment, the destination ladder, word wrap, ticker arithmetic, and the pixels of a painted plan. -/

namespace Sys2Proof.Machine

/-! ## The font (R122, R123) -/

/-- R123: a code outside 0x20 to 0x7E is shown as the substitute glyph. -/
def isSubstitute (b : Byte) : Bool := b.toNat < 0x20 || 0x7E < b.toNat

/-- R122: the glyphs of each advance but 5. -/
def narrowTwo : List Byte := str "!',.:;il|"
/-- R122, advance 3. -/
def narrowThree : List Byte := str " ()[]Ij`"
/-- R122, advance 4: `" f r t`, the two braces (0x7B, 0x7D) and `-`. -/
def narrowFour : List Byte := str "\"frt-" ++ [0x7B, 0x7D]
/-- R122, advance 6. -/
def wideSix : List Byte := str "0123456789ABCDEFGHJKLNOPQRSTUVXYZ#%&"
/-- R122, advance 7. -/
def wideSeven : List Byte := str "MWmw@"

/-- R122: the advance of a character code; every glyph not listed, the substitute among them, has 5. -/
def advance (b : Byte) : Nat :=
  if narrowTwo.contains b then 2
  else if narrowThree.contains b then 3
  else if narrowFour.contains b then 4
  else if wideSix.contains b then 6
  else if wideSeven.contains b then 7
  else 5

/-- R124: the sum of the advances. -/
def advances (text : List Byte) : Nat := (text.map advance).sum

/-- R124: the width of a text: its advances and one gap column between two glyphs. -/
def textWidth (text : List Byte) : Nat := advances text + (text.length - 1)

/-- R125: the start column of a text of width `w` in a field of width `f`. -/
def Align.start (al : Align) (f w : Nat) : Nat :=
  match al with
  | .left => 0
  | .right => f - w
  | .centre => (f - w) / 2

/-! ## The destination ladder (R127, R128) -/

/-- R128: how many whole glyphs of a text fit in `f` columns when `used` columns are taken. -/
def fitCount (f : Nat) : (used : Nat) → List Byte → Nat
  | _, [] => 0
  | used, b :: rest => if used + advance b ≤ f then 1 + fitCount f (used + advance b + 1) rest else 0

/-- R128: the longest whole-glyph beginning of a text that fits. -/
def cutToFit (f : Nat) (text : List Byte) : List Byte := text.take (fitCount f 0 text)

/-- R127: the first step of the ladder that fits: the text and the step number. -/
def destinationLadder (f : Nat) (name : List Byte) (via short : Option (List Byte)) : List Byte × Nat :=
  let step1 := via.map fun v => name ++ str " via " ++ v
  match step1.filter (fun t => textWidth t ≤ f) with
  | some t => (t, 1)
  | none =>
    if textWidth name ≤ f then (name, 2)
    else match short.filter (fun t => textWidth t ≤ f) with
      | some t => (t, 3)
      | none => (cutToFit f name, 4)

/-! ## Word wrap (R129, R130, R131) -/

/-- R129: the words of a text; only 0x20 breaks. `cur` is the word being read, last byte first. -/
def wordsFrom (cur : List Byte) : List Byte → List (List Byte)
  | [] => if cur.isEmpty then [] else [cur.reverse]
  | b :: rest =>
    if b = 0x20 then (if cur.isEmpty then wordsFrom [] rest else cur.reverse :: wordsFrom [] rest)
    else wordsFrom (b :: cur) rest

/-- R130: cut a word on an empty line into whole lines and the remainder that is at most `f` wide. -/
def cutWord (f : Nat) : (fuel : Nat) → List Byte → List (List Byte) × List Byte
  | 0, w => ([], w)
  | fuel + 1, w =>
    if textWidth w ≤ f then ([], w)
    else
      let k := fitCount f 0 w
      let (lines, last) := cutWord f fuel (w.drop k)
      (w.take k :: lines, last)

/-- R130: place the words on lines of `f` columns; `cur` is the present line, empty or with its words
joined by one space (a gap, a space and a gap: 5 columns). -/
def placeWords (f : Nat) : List (List Byte) → (cur : List Byte) → List (List Byte)
  | [], cur => if cur.isEmpty then [] else [cur]
  | w :: rest, cur =>
    if !cur.isEmpty && textWidth cur + 5 + textWidth w ≤ f then placeWords f rest (cur ++ 0x20 :: w)
    else
      let (lines, last) := cutWord f w.length w
      (if cur.isEmpty then [] else [cur]) ++ lines ++ placeWords f rest last

/-- R129 to R131: the lines of a FULL notice's text; a text of spaces only wraps to one empty line. -/
def wrapText (text : List Byte) : List (List Byte) :=
  match placeWords Config.lineWidth (wordsFrom [] text) [] with
  | [] => [[]]
  | lines => lines

/-- R131: ceil(m / 4) pages. -/
def pageCount (text : List Byte) : Nat := ((wrapText text).length + 3) / 4

/-! ## Numbers and times as text -/

/-- One decimal digit. -/
def digit (n : Nat) : Byte := byte (0x30 + n % 10)

/-- Two decimal digits. -/
def twoDigits (n : Nat) : List Byte := [digit (n / 10), digit n]

/-- A number below 100 in decimal without leading zero (R105, R107). -/
def decimal (n : Nat) : List Byte := if n < 10 then [digit n] else twoDigits n

/-- A minute of day as "HH:MM" (Conventions). -/
def timeText (minute : Nat) : List Byte := twoDigits (minute / 60) ++ str ":" ++ twoDigits (minute % 60)

/-- R109: the clock entry: "HH:MM:SS", or "--:--:--" while the clock is invalid. -/
def clockText (c : Clock) : List Byte :=
  if c.valid then twoDigits c.hh ++ str ":" ++ twoDigits c.mm ++ str ":" ++ twoDigits c.ss
  else str "--:--:--"

/-! ## The ticker (R132 to R134) -/

/-- R133: build a ticker at p = F, in its hold, or scrolling when H is 0. -/
def Ticker.build (key : TickerKey) (text : List Byte) (hold : Nat) : Ticker where
  key := key
  text := text
  width := textWidth text
  pos := Config.lineWidth
  phase := if hold = 0 then .scroll else .hold
  holdLeft := hold

/-- R134: one step of an active ticker. -/
def Ticker.step (t : Ticker) (hold : Nat) : Ticker :=
  match t.phase with
  | .hold =>
    { t with holdLeft := t.holdLeft - 1, phase := if t.holdLeft - 1 = 0 then .scroll else .hold }
  | .scroll =>
    let p := if t.pos + 1 = Config.lineWidth + t.width then 0 else t.pos + 1
    if p = Config.lineWidth then
      { t with pos := p, phase := if hold = 0 then .scroll else .hold, holdLeft := hold }
    else { t with pos := p }

/-- R134: whether the step completes a pass: a scrolling ticker arrives at p = F. -/
def Ticker.stepCompletes (t : Ticker) : Bool :=
  t.phase == .scroll && t.pos + 1 == Config.lineWidth && t.pos + 1 != Config.lineWidth + t.width

/-- R108: keep a ticker that was built for this text, or build it afresh when a restart is due. -/
def Ticker.keepOrBuild (old : Option Ticker) (restart : Bool) (key : TickerKey) (text : List Byte) (hold : Nat) : Ticker :=
  match old with
  | some t => if !restart && t.key == key && t.text == text then t else .build key text hold
  | none => .build key text hold

/-! ## Painting (R121 to R123, R135, R138) -/

/-- R121 to R123: whether a glyph is lit at a column of its advance and a row of its line. -/
def glyphPixel (b : Byte) (column row : Nat) : Bool :=
  if row < 2 || 13 < row || advance b ≤ column then false
  else if isSubstitute b then column == 0 || column == 4 || row == 2 || row == 13
  else if b = 0x20 then false
  else Config.fontPixel b column row

/-- R121, R124: whether a text is lit at a text column and a row of its line. -/
def textPixel (row : Nat) : List Byte → (column : Nat) → Bool
  | [], _ => false
  | b :: rest, c =>
    if c < advance b then glyphPixel b c row
    else if c = advance b then false
    else textPixel row rest (c - advance b - 1)

/-- R125, R135: the text column painted at a column of the field, if any. -/
def PlanField.textColumn (fd : PlanField) (x : Nat) : Option Nat :=
  match fd.offset with
  | none =>
    let start := fd.align.start fd.width (textWidth fd.text)
    if start ≤ x then some (x - start) else none
  | some p => if fd.width ≤ x + p then some (x + p - fd.width) else none

/-- R138: whether a field paints a face column lit in a row of its line. -/
def PlanField.pixel (fd : PlanField) (flashOn : Bool) (x row : Nat) : Bool :=
  if x < fd.col || fd.col + fd.width ≤ x || (fd.flashing && !flashOn) then false
  else match fd.textColumn (x - fd.col) with
    | some c => textPixel row fd.text c
    | none => false

/-- R138: whether a plan paints the pixel at face column `x` and face row `y` lit. -/
def Plan.pixel (p : Plan) (x y : Nat) : Bool :=
  match p.lines[y / 16]? with
  | some line => line.fields.any fun fd => fd.pixel p.flashOn x (y % 16)
  | none => false

/-- A bitmap given pixel by pixel. -/
def Bitmap.ofPixels (g : (x y : Nat) → Bool) : Bitmap :=
  Vector.ofFn fun y => BitVec.ofFnLE fun x => g x.val y.val

/-- R138: every pixel dark, then lines 1 to 4 painted from the plan alone. -/
def Plan.paint (p : Plan) : Bitmap := Bitmap.ofPixels p.pixel

/-- Whether a pixel of a bitmap is lit. -/
def Bitmap.lit (m : Bitmap) (x y : Nat) : Bool :=
  match m[y]? with
  | some row => row.getLsbD x
  | none => false

/-! ## Substitute glyphs painted (R139) -/

/-- R125, R135: whether a text column of a field falls inside the field. -/
def PlanField.shows (fd : PlanField) (c : Nat) : Bool :=
  match fd.offset with
  | none => fd.align.start fd.width (textWidth fd.text) + c < fd.width
  | some p => p ≤ fd.width + c && c < p

/-- R139: how many substitute glyphs of a text have a column that the field shows. -/
def substitutesShown (shows : Nat → Bool) : (column : Nat) → List Byte → Nat
  | _, [] => 0
  | c, b :: rest =>
    (if isSubstitute b && (List.range (advance b)).any (fun j => shows (c + j)) then 1 else 0)
      + substitutesShown shows (c + advance b + 1) rest

/-- R139: the substitute glyphs a field paints; none when it is painted dark for flashing. -/
def PlanField.substitutes (fd : PlanField) (flashOn : Bool) : Nat :=
  if fd.flashing && !flashOn then 0 else substitutesShown fd.shows 0 fd.text

/-- R139, R176: the locales of GLYPH_SUBSTITUTED for a painted plan, in line order. -/
def Plan.substituteLocales (f : Face) (p : Plan) : List Locale :=
  (List.finRange 4).flatMap fun k =>
    let n := ((p.lines[k].fields.map fun fd => fd.substitutes p.flashOn)).sum
    List.replicate n ⟨.face f, some (k.val + 1), none⟩

end Sys2Proof.Machine
end

