-- ==== Sys2Proof/Machine/Panel.lean ====
section
/-! DEFINITION. Frame buffers, panel scan and brightness (chapter 8): duties, the panel output, chain checks, the swap, the ambient ring, and the painter's work on the back bitmaps. -/

namespace Sys2Proof.Machine

/-! ## The curve and the duties (R152, R153) -/

/-- R152: the curve duty beyond the first point: the segment that holds the level, or the last point. -/
def curveFrom (al : Nat) : List CurvePoint → Nat
  | [] => 0
  | [p] => p.duty
  | p :: q :: rest =>
    if al < q.amb then p.duty + (al - p.amb) * (q.duty - p.duty) / (q.amb - p.amb) else curveFrom al (q :: rest)

/-- R152: the curve duty for a level. -/
def curveDuty (curve : Vector CurvePoint 8) (al : Nat) : Nat :=
  if al ≤ curve[0].amb then curve[0].duty else curveFrom al curve.toList

/-- R152: the order conditions of a curve. -/
def curveFits (curve : List CurvePoint) : Bool :=
  curve.all (fun p => p.amb ≤ 1023 && p.duty ≤ 255)
    && decide (curve.IsChain fun p q => p.amb < q.amb ∧ p.duty ≤ q.duty)

/-- R153: the face duty. -/
def State.faceDutyOf (s : State) (f : Face) : Nat :=
  match (s.panels.get f).out, (s.faces.get f).state with
  | .off, _ | .starting, _ | .driving, .dark => 0
  | .driving, .lampTest => (s.panels.get f).cap
  | .driving, .lit | .driving, .woken => min (curveDuty s.ambient.curve s.ambient.level) (s.panels.get f).cap

/-- R153: the duty of a module of a trim. -/
def moduleDuty (faceDuty trim : Nat) : Nat := min 255 (faceDuty * trim / 128)

/-- R154: work out the face duty and the 32 module duties of a face again. -/
def State.recomputeDuties (s : State) (f : Face) : State :=
  let d := s.faceDutyOf f
  s.modPanel f fun p => { p with faceDuty := d, duties := p.trims.map (moduleDuty d) }

/-! ## The painter (R137) -/

/-- R137, R138: the painter begins a plan: what the back bitmap of its face holds is open until the
paint completion (log entry 11). -/
def State.beginPaint (s : State) (j : Job) : State :=
  let s := s.modPanel j.face fun p => { p with back := Bitmap.ofPixels fun x y => Config.halfPainted s.free y x }
  { s with painter := { s.painter with current := some j }, free := s.free + 1 }

/-- R137: a plan handed to the painter is begun at once, or waits while it is busy. -/
def State.handToPainter (s : State) (j : Job) : State :=
  match s.painter.current with
  | none => s.beginPaint j
  | some _ => { s with painter := { s.painter with waiting := some j } }

/-- R137: the painting in hand ends, and the painter begins the waiting plan, if there is one. -/
def State.painterNext (s : State) : State :=
  match s.painter.waiting with
  | none => { s with painter := ⟨none, none⟩ }
  | some j => State.beginPaint { s with painter := ⟨none, none⟩ } j

/-- R137: the plans of a face that is abandoned: a waiting one is dropped, one being painted is stopped. -/
def State.dropJobs (s : State) (f : Face) : State :=
  let s := { s with painter := { s.painter with waiting := s.painter.waiting.filter fun j => j.face ≠ f } }
  match s.painter.current with
  | some j => if j.face = f then s.painterNext else s
  | none => s

/-- R100: the rebuild of a face is abandoned: its plan in hand goes, and the front is kept. -/
def State.abandonRebuild (s : State) (f : Face) : State :=
  (s.modFace f fun c => { c with rebuild := .idle, inHand := none }).dropJobs f

/-! ## The panel output (R144) -/

/-- R144, FA_EN and FB_EN: PANEL_EN is asserted in STARTING and DRIVING. -/
def State.panelEn (s : State) (f : Face) : Bool := (s.panels.get f).out != .off

/-- R144, R146: the panel output goes to OFF: a running start-up delay is discarded, a check in flight
is abandoned, and no frame data is shifted. -/
def Panel.turnOff (p : Panel) : Panel := { p with out := .off, startLeft := 0, check := .none, frame := none }

/-- R144: the panel output enters STARTING from OFF, with the start-up delay as it then stands. -/
def Panel.start (delay : Nat) (p : Panel) : Panel :=
  match p.out with
  | .off => { p with out := .starting, startLeft := delay }
  | .starting | .driving => p

/-! ## Chain checks (R146, R147) -/

/-- R147: a result from a judged check moves a chain; `good` is a good check. -/
def ChainState.judge (c : ChainState) (good : Bool) : ChainState :=
  if good then .good
  else match c with
    | .good => .suspect1
    | .suspect1 => .suspect2
    | .suspect2 | .failed => .failed

/-- R147: whether a judged check makes a chain enter FAILED. -/
def ChainState.fails (c : ChainState) (good : Bool) : Bool := !good && c == .suspect2

/-- R146 step 1: judge the check in flight by the four echoes; CHAIN_FAILED for each chain that enters
FAILED, chain 0 to 3, an order that is the model's choice (DESIGN CHOICE, log entry 39). -/
def State.judgeCheck (s : State) (f : Face) (echo : Vector (BitVec 32) 4) : State :=
  let p := s.panels.get f
  match p.check with
  | .none => s
  | .inFlight sent =>
    let failed := (List.finRange 4).filter fun c => p.chains[c].fails (echo[c] == sent)
    (s.modPanel f fun p =>
        { p with check := .none, chains := Vector.ofFn fun c => p.chains[c].judge (echo[c] == sent) }).raiseAll
      .chainFailed (failed.map fun c => ⟨.face f, some c.val, none⟩)

/-- R146 steps 2 and 3: count the frame, and send a check when the counter has reached CI. -/
def Panel.countCheck (interval : Nat) (p : Panel) : Panel :=
  if interval ≤ p.counter + 1 then
    { p with counter := 0, check := .inFlight p.nextPattern, nextPattern := ~~~p.nextPattern }
  else { p with counter := p.counter + 1 }

/-- R146: what the panel scan does with the chain check at a frame boundary: nothing unless DRIVING. -/
def State.chainCheck (s : State) (f : Face) (echo : Vector (BitVec 32) 4) : State :=
  match (s.panels.get f).out with
  | .off | .starting => s
  | .driving => (s.judgeCheck f echo).modPanel f (Panel.countCheck s.params.checkInterval)

/-! ## Swap and frame (R142, R143, R145, R149) -/

/-- R149: the source list of a plan. -/
def Plan.sources (p : Plan) : Vector Source 4 := p.lines.map fun l => l.source

/-- R142: the buffers are exchanged, the plan in hand becomes the front plan, and the rebuild is IDLE. -/
def State.swapBuffers (s : State) (f : Face) (plan : Plan) : State :=
  (s.modPanel f fun p => { p with front := p.back, back := p.front, frontPlan := plan }).modFace f fun c =>
    { c with rebuild := .idle, inHand := none }

/-- R142, R149: take the swap of a face whose rebuild is SWAP_PENDING. -/
def State.swap (s : State) (f : Face) : State :=
  match (s.faces.get f).rebuild, (s.faces.get f).inHand with
  | .swapPending, some plan =>
    if plan.sources = (s.panels.get f).frontPlan.sources then s.swapBuffers f plan
    else (s.swapBuffers f plan).signalAll .shownChanged
  | _, _ => s

/-- R145: every pixel lit. -/
def Bitmap.allLit : Bitmap := Vector.replicate 64 (BitVec.allOnes 256)

/-- R145, R146, R154: the frame that begins at a boundary: none unless DRIVING; its pixels, duties and
check pattern are those held at that moment (log entry 20). -/
def State.frameOf (s : State) (f : Face) : Option ScanFrame :=
  let p := s.panels.get f
  match p.out with
  | .off | .starting => none
  | .driving =>
    some
      { pixels := if (s.faces.get f).state = .lampTest then Bitmap.allLit else p.front
        duties := p.duties
        pattern := match p.check with
          | .inFlight sent => some sent
          | .none => none }

/-- R145: chain c carries line c + 1: row r of its 16 is face row 16c + r, across all 256 columns. -/
def ScanFrame.chainRow (fr : ScanFrame) (c : Fin 4) (r : Fin 16) : BitVec 256 := fr.pixels[16 * c.val + r.val]

/-- R145: the module of a face that holds the pixel at column x and row y: position x / 32 on chain y / 16. -/
def moduleAt (x : Fin 256) (y : Fin 64) : Fin 32 := ⟨8 * (y.val / 16) + x.val / 32, by omega⟩

/-- R145: the part of its row time, in 255ths, for which a pixel of a frame is lit: the duty of its module where
the bit its chain carries is set, and 0 elsewhere. -/
def ScanFrame.light (fr : ScanFrame) (x : Fin 256) (y : Fin 64) : Nat :=
  if (fr.chainRow ⟨y.val / 16, by omega⟩ ⟨y.val % 16, by omega⟩)[x] then fr.duties[moduleAt x y] else 0

/-- R144, R145: what the modules of a face show at a pixel, in 255ths of its row time: the frame in progress, and
nothing where none is shifted. -/
def State.light (s : State) (f : Face) (x : Fin 256) (y : Fin 64) : Nat :=
  match (s.panels.get f).frame with
  | some fr => fr.light x y
  | none => 0

/-- R143: a frame boundary of a face: the chain check, the swap, and the frame that begins. -/
def State.frameBoundary (s : State) (f : Face) (echo : Vector (BitVec 32) 4) : State :=
  let s := (s.chainCheck f echo).swap f
  s.modPanel f fun p => { p with frame := s.frameOf f, elapsed := 0, period := s.params.framePeriod }

/-- R143: the frame in progress has reached the period it began with. -/
def Panel.frameOver (p : Panel) : Bool := p.period ≤ p.elapsed

/-- FRAME_BOUNDARY (R143). -/
def execFrameBoundary (f : Face) (echo0 echo1 echo2 echo3 : BitVec 32) (s : State) : Host.Outcome State Fault Refusal :=
  .next (s.frameBoundary f #v[echo0, echo1, echo2, echo3])

/-- R144: the start-up delay of a STARTING output has run out. -/
def Panel.startOver (p : Panel) : Bool := p.out == .starting && p.startLeft == 0

/-- R144: STARTING becomes DRIVING with the check counter at 0. -/
def State.startDriving (s : State) (f : Face) : State :=
  (s.modPanel f fun p => { p with out := .driving, counter := 0 }).recomputeDuties f

/-- PANEL_STARTUP_DELAY_EXPIRY (R144): in OFF the delay was discarded. -/
def execPanelStartupDelayExpiry (f : Face) (s : State) : Host.Outcome State Fault Refusal :=
  .next (if (s.panels.get f).out = .starting then s.startDriving f else s)

/-! ## Ambient sampling (R150, R151) -/

/-- R151: the sum of the 8 readings over 8. -/
def ringLevel (ring : Vector Nat 8) : Nat := ring.toList.sum / 8

/-- R151: a reading enters the ring. -/
def Ambient.enter (m : Ambient) (reading : Nat) : Ambient :=
  let ring :=
    if m.filled then Vector.ofFn fun i : Fin 8 => if h : i.val < 7 then m.ring[i.val + 1] else reading
    else Vector.replicate 8 reading
  { m with converting := false, ring := ring, filled := true, level := ringLevel ring }

/-- CONVERSION_COMPLETION (R150, R151): in CONVERTING the reading enters the ring, and the duties are
worked out again when AL changes. -/
def execConversionCompletion (reading : BitVec 10) (s : State) : Host.Outcome State Fault Refusal :=
  if s.ambient.converting then
    let t := { s with ambient := s.ambient.enter reading.toNat }
    .next (if t.ambient.level = s.ambient.level then t else t.eachFace fun f u => u.recomputeDuties f)
  else .next s

/-- R150: a T5 expiry starts a conversion in IDLE, and is dropped in CONVERTING. -/
def State.sampleAmbient (s : State) : State := { s with ambient := { s.ambient with converting := true } }

end Sys2Proof.Machine
end

