-- ==== Sys2Proof/Machine/Composer.lean ====
section
/-! DEFINITION. What the face composers share (chapter 6): bound platforms and views, holdings of the input lines, effective states and their changes, wake events, and the dirty marks of touched platforms. -/

namespace Sys2Proof.Machine

/-! ## Platforms and views (R93, R102) -/

/-- R93: the bound platforms of a face. -/
def FaceSettings.platforms (c : FaceSettings) : List Nat :=
  if c.second = 0 then [c.primary] else [c.primary, c.second]

/-- Whether a face is bound to one of the platforms. -/
def State.bound (s : State) (f : Face) (platforms : List Nat) : Bool :=
  platforms.any fun p => (s.faces.get f).settings.platforms.contains p

/-- R102, R170: a record is left out while its writer is a port that is SILENT with stale action HIDE. -/
def State.hidden (s : State) (r : Departure) : Bool :=
  match r.writer with
  | .loc => false
  | .port p => (s.ports.get p).silent && (s.ports.get p).staleInForce == .hide

/-- R102: the view of a face, in table order. -/
def State.view (s : State) (f : Face) : List Departure :=
  s.table.filter fun r => (s.faces.get f).settings.platforms.contains r.platform && !s.hidden r

/-! ## Input line holdings (R155, R159) -/

/-- R155: whether a level function is active: its settled level agrees with its sense. -/
def InputLine.active (l : InputLine) : Bool :=
  match l.function with
  | .blank | .lampTest => if l.sense = 0 then l.settled == .high else l.settled == .low
  | .none | .approach | .wake => false

/-- R159: both faces are held in LAMP_TEST. -/
def State.lampTestHeld (s : State) : Bool := s.lines.toList.any fun l => l.function == .lampTest && l.active

/-- R159: a face is held DARK by a BLANK line that selects it. -/
def State.blankHeld (s : State) (f : Face) : Bool :=
  s.lines.toList.any fun l => l.function == .blank && l.face.has f && l.active

/-! ## Effective state (R97, R100, R101) -/

/-- R97: the effective state by the first condition that holds. -/
def State.effState (s : State) (f : Face) : EffState :=
  let c := s.faces.get f
  if s.lampTestHeld then .lampTest
  else if s.blankHeld f || (!c.settings.modeOn && c.countdown == 0) then .dark
  else if !c.settings.modeOn then .woken
  else .lit

/-- R100: entering DARK. -/
def State.enterDark (s : State) (f : Face) : State := (s.abandonRebuild f).modPanel f Panel.turnOff

/-- R101, R144: leaving DARK. -/
def State.leaveDark (s : State) (f : Face) : State :=
  (s.modFace f fun c => { c with restartPending := true, pass := false, dirty := true }).modPanel f
    (Panel.start s.params.startDelay)

/-- R100, R101: the effects of a change of effective state from `old` to the state now held. -/
def State.stateEffects (s : State) (f : Face) (old : EffState) : State :=
  match (s.faces.get f).state, old with
  | .dark, _ => s.enterDark f
  | _, .dark => s.leaveDark f
  | .lit, .lampTest | .woken, .lampTest => s.modFace f fun c => { c with dirty := true }
  | _, _ => s

/-- R97: work out the effective state of a face afresh; a change takes its effects, the duties among
them (R154). -/
def State.settle (s : State) (f : Face) : State :=
  let old := (s.faces.get f).state
  let new := s.effState f
  if new = old then s
  else ((s.modFace f fun c => { c with state := new }).stateEffects f old).recomputeDuties f

/-- R97: a face is LIT or WOKEN. -/
def Composer.showing (c : Composer) : Bool := c.state == .lit || c.state == .woken

/-! ## Wake events (R98, R99) -/

/-- R98: the sources of wake events. -/
inductive WakeSource where
  | notice | departure | input
deriving DecidableEq, Repr

/-- R98: whether a wake mask selects a source. -/
def WakeMask.selects (m : WakeMask) : WakeSource → Bool
  | .notice => m.notice
  | .departure => m.departure
  | .input => m.input

/-- R98: a selected wake event of a face in mode OFF sets the countdown to WH, unless WH is 0. -/
def Composer.wake (hold : Nat) (source : WakeSource) (c : Composer) : Composer :=
  if c.settings.mask.selects source && !c.settings.modeOn && hold != 0 then { c with countdown := hold } else c

/-- R98: a wake event reaches a face; the effective state is worked out at the end of the change. -/
def State.wake (s : State) (f : Face) (source : WakeSource) : State :=
  s.modFace f (Composer.wake s.params.wakeHold source)

/-- R99: 0 ≤ S + D − K ≤ WW. -/
def State.inWakeWindow (s : State) (r : Departure) : Bool :=
  let sum := r.key s.params.ro + r.delay.getD 0
  s.nowKey ≤ sum && sum ≤ s.nowKey + s.params.wakeWindow

/-- R99: the departure wake check of a face, made only while the clock is valid. -/
def State.departureWake (s : State) (f : Face) : State :=
  if s.clock.valid && (s.view f).any s.inWakeWindow then s.wake f .departure else s

/-! ## Dirty marks (R6, R114) -/

/-- R114: set the dirty flag of a face. -/
def State.markDirty (s : State) (f : Face) : State := s.modFace f fun c => { c with dirty := true }

/-- R114: set the dirty flag of both faces. -/
def State.markBoth (s : State) : State := s.eachFace fun f t => t.markDirty f

/-- R6: mark dirty each face bound to one of the touched platforms. -/
def State.markTouched (s : State) (platforms : List Nat) : State :=
  s.eachFace fun f t => if t.bound f platforms then t.markDirty f else t

/-- R6, R99: a taken change of the table touches platforms: each face bound to one is marked dirty, its
wake check runs, and its effective state is worked out. -/
def State.touch (s : State) (platforms : List Nat) : State :=
  let s := s.eachFace fun f t => if t.bound f platforms then (t.markDirty f).departureWake f else t
  s.eachFace fun f t => if t.bound f platforms then t.settle f else t

end Sys2Proof.Machine
end

