-- ==== Sys2Proof/Machine/Operands.lean ====
section
/-! DEFINITION. The operands of the requests: reading the field bytes of each request (length step 1b and field step 2 of R167, layouts of R171 to R174), and writing the coded fields of replies and of the settings image. -/

namespace Sys2Proof.Machine

/-- R168: the reply codes. -/
inductive ReplyCode where
  | ok | refused | notFound | tableFull | poolFull | pinLimit | noticeFull | badField | badKind
  | badLength | lost | lockout | busy | notReady | storeFailed
deriving DecidableEq, Repr

/-- R168: the code of each reply. -/
def ReplyCode.byte : ReplyCode → Byte
  | .ok => 0x00
  | .refused => 0x01
  | .notFound => 0x02
  | .tableFull => 0x03
  | .poolFull => 0x04
  | .pinLimit => 0x05
  | .noticeFull => 0x06
  | .badField => 0x07
  | .badKind => 0x08
  | .badLength => 0x09
  | .lost => 0x0A
  | .lockout => 0x0B
  | .busy => 0x0C
  | .notReady => 0x0D
  | .storeFailed => 0x0E

/-- What the length and field steps of a request give: its operands, or the reply code of the step that
fails. -/
abbrev Parsed (α : Type) := Except ReplyCode α

/-- Operands that fit, or BAD_FIELD. -/
def inRange {α : Type} (ok : Bool) (x : α) : Parsed α := if ok then .ok x else .error .badField

/-! ## One-field requests (R171) -/

/-- A request without fields: LEN is 2. -/
def parseNone : List Byte → Parsed Unit
  | [] => .ok ()
  | _ => .error .badLength

/-- A request that carries one byte: LEN is 3. -/
def parseByte : List Byte → Parsed Nat
  | [b] => .ok b.toNat
  | _ => .error .badLength

/-- A request that names a service code: LEN is 4; code 0 is BAD_FIELD (R5). -/
def parseCode : List Byte → Parsed Nat
  | [hi, lo] => inRange (nat16 hi lo != 0) (nat16 hi lo)
  | _ => .error .badLength

/-- A request that carries one byte which is not 0: a place number (R31, R32) or a notice ID (R86, R87). -/
def parseNonZero (fields : List Byte) : Parsed Nat := do
  let n ← parseByte fields
  inRange (n != 0) n

/-- LIST DEPARTURES (R18): a platform 0 to 31. -/
def parsePlatform (fields : List Byte) : Parsed Nat := do
  let n ← parseByte fields
  inRange (n ≤ 31) n

/-! ## Coded fields (R174) -/

/-- Yes or no: 0 no, 1 yes. -/
def readYesNo (b : Byte) : Option Bool :=
  match b.toNat with
  | 0 => some false
  | 1 => some true
  | _ => none

/-- Face code 1 A, 2 B. -/
def readFace (n : Nat) : Option Face :=
  match n with
  | 1 => some .a
  | 2 => some .b
  | _ => none

/-- Face code 1 A, 2 B, 3 both. -/
def readFaceSel (n : Nat) : Option FaceSel :=
  match n with
  | 1 => some .a
  | 2 => some .b
  | 3 => some .both
  | _ => none

/-- Face code of a face. -/
def Face.code : Face → Nat
  | .a => 1
  | .b => 2

/-- Face code of a selection. -/
def FaceSel.code : FaceSel → Nat
  | .a => 1
  | .b => 2
  | .both => 3

/-- The number of a port, which is its origin. -/
def Port.number : Port → Nat
  | .lp0 => 0
  | .lp1 => 1
  | .lp2 => 2

/-- The port with an origin number. -/
def readPort (n : Nat) : Option Port :=
  match n with
  | 0 => some .lp0
  | 1 => some .lp1
  | 2 => some .lp2
  | _ => none

/-- Origin 0 to 3. -/
def Origin.code : Origin → Nat
  | .port p => Port.number p
  | .loc => 3

/-- Line role codes. -/
def Role.code : Role → Nat
  | .empty => 0
  | .first => 1
  | .calling => 2
  | .next => 3
  | .rotate => 4
  | .bottom => 5

/-- The role of a code. -/
def readRole (b : Byte) : Option Role :=
  match b.toNat with
  | 0 => some .empty
  | 1 => some .first
  | 2 => some .calling
  | 3 => some .next
  | 4 => some .rotate
  | 5 => some .bottom
  | _ => none

/-- Effective state codes. -/
def EffState.code : EffState → Nat
  | .lit => 0
  | .dark => 1
  | .woken => 2
  | .lampTest => 3

/-- Panel output state codes. -/
def PanelOut.code : PanelOut → Nat
  | .off => 0
  | .starting => 1
  | .driving => 2

/-- Chain state codes. -/
def ChainState.code : ChainState → Nat
  | .good => 0
  | .suspect1 => 1
  | .suspect2 => 2
  | .failed => 3

/-- Oscillator state codes. -/
def OscState.code : OscState → Nat
  | .starting => 0
  | .running => 1

/-- Second source codes. -/
def SecondSource.code : SecondSource → Nat
  | .none => 0
  | .timekeeper => 1
  | .system => 2

/-- Level codes. -/
def Level.code : Level → Nat
  | .low => 0
  | .high => 1

/-- Status codes (R172). -/
def Status.code : Status → Nat
  | .running => 0
  | .cancelled => 1

/-- The status of a code (R172). -/
def readStatus (b : Byte) : Option Status :=
  match b.toNat with
  | 0 => some .running
  | 1 => some .cancelled
  | _ => none

/-- Notice class codes (R173). -/
def NoticeClass.code : NoticeClass → Nat
  | .low => 0
  | .high => 1

/-- The class of a code (R173). -/
def readClass (b : Byte) : Option NoticeClass :=
  match b.toNat with
  | 0 => some .low
  | 1 => some .high
  | _ => none

/-- Notice scope codes (R173). -/
def Scope.code : Scope → Nat
  | .bottom => 0
  | .full => 1

/-- The scope of a code (R173). -/
def readScope (b : Byte) : Option Scope :=
  match b.toNat with
  | 0 => some .bottom
  | 1 => some .full
  | _ => none

/-- Baud codes (R183). -/
def Baud.code : Baud → Nat
  | .b9600 => 0
  | .b19200 => 1
  | .b38400 => 2
  | .b115200 => 3

/-- The baud of a code (R183). -/
def readBaud (n : Nat) : Option Baud :=
  match n with
  | 0 => some .b9600
  | 1 => some .b19200
  | 2 => some .b38400
  | 3 => some .b115200
  | _ => none

/-- Stale action codes (R183). -/
def Stale.code : Stale → Nat
  | .hold => 0
  | .hide => 1

/-- The stale action of a code (R183). -/
def readStale (n : Nat) : Option Stale :=
  match n with
  | 0 => some .hold
  | 1 => some .hide
  | _ => none

/-- Timer unit codes (R183). -/
def TimerUnit.code : TimerUnit → Nat
  | .ms1 => 0
  | .ms10 => 1

/-- The timer unit of a code (R183). -/
def readUnit (n : Nat) : Option TimerUnit :=
  match n with
  | 0 => some .ms1
  | 1 => some .ms10
  | _ => none

/-- Timer mode codes (R183). -/
def TimerMode.code : TimerMode → Nat
  | .auto => 0
  | .single => 1

/-- The timer mode of a code (R183). -/
def readMode (n : Nat) : Option TimerMode :=
  match n with
  | 0 => some .auto
  | 1 => some .single
  | _ => none

/-- Input line function codes (R183). -/
def LineFunction.code : LineFunction → Nat
  | .none => 0
  | .approach => 1
  | .blank => 2
  | .wake => 3
  | .lampTest => 4

/-- The input line function of a code (R183). -/
def readFunction (n : Nat) : Option LineFunction :=
  match n with
  | 0 => some .none
  | 1 => some .approach
  | 2 => some .blank
  | 3 => some .wake
  | 4 => some .lampTest
  | _ => none

/-- Right codes of a REFUSED reply (R168). -/
def Right.code : Right → Nat
  | .depart => 1
  | .status => 2
  | .notice => 3
  | .config => 4

/-! ## Departure records (R5, R172) -/

/-- The operands of PUT DEPARTURE, clamped (R5). -/
structure PutRequest where
  code : Nat
  scheduled : Nat
  platform : Nat
  dest : Nat
  via : Option Nat
  delay : Option Nat
  status : Status
  carriages : Option Nat
  approaching : Bool
  stops : List Stop
deriving DecidableEq, Repr

/-- An absent one-byte field is 0. -/
def readOptional8 (b : Byte) : Option Nat := if b.toNat = 0 then none else some b.toNat

/-- An absent two-byte field is 0xFFFF. -/
def readOptional16 (n : Nat) : Option Nat := if n = 0xFFFF then none else some n

/-- R5: a delay of 1000 to 65534 becomes 999; 0xFFFF is absent. -/
def clampDelay (n : Nat) : Option Nat := (readOptional16 n).map fun d => min d 999

/-- R5: 17 to 255 carriages become 16; 0 is absent. -/
def clampCarriages (b : Byte) : Option Nat := (readOptional8 b).map fun c => min c 16

/-- R172: the stops of a record block. -/
def readStops : List Byte → List Stop
  | place :: hi :: lo :: rest => ⟨place.toNat, readOptional16 (nat16 hi lo)⟩ :: readStops rest
  | _ => []

/-- R5: a stop's place is not 0 and its time is absent or a minute of day. -/
def Stop.fits (st : Stop) : Bool :=
  st.place != 0 && (match st.time with
    | some t => t < 1440
    | none => true)

/-- PUT DEPARTURE (R171: LEN is 16 + 3n; R172; the ranges and clamps of R5). -/
def parsePut : List Byte → Parsed PutRequest
  | c1 :: c0 :: m1 :: m0 :: platform :: dest :: via :: d1 :: d0 :: status :: carriages :: approaching :: _revision :: n :: rest =>
    if rest.length != 3 * n.toNat then .error .badLength
    else
      match readStatus status, readYesNo approaching with
      | some st, some ap =>
        let stops := readStops rest
        inRange
          (nat16 c1 c0 != 0 && nat16 m1 m0 < 1440 && platform.toNat != 0 && platform.toNat ≤ 31
            && dest.toNat != 0 && n.toNat ≤ Config.maxStops && stops.all Stop.fits)
          { code := nat16 c1 c0, scheduled := nat16 m1 m0, platform := platform.toNat, dest := dest.toNat,
            via := readOptional8 via, delay := clampDelay (nat16 d1 d0), status := st,
            carriages := clampCarriages carriages, approaching := ap, stops := stops }
      | _, _ => .error .badField
  | _ => .error .badLength

/-- R11: an action that leaves a field, or sets it to a value. -/
inductive Action (α : Type) where
  | leave
  | set (x : α)
deriving DecidableEq, Repr

/-- R11: the status action. -/
inductive StatusAction where
  | leave
  | set (st : Status)
  | departed
deriving DecidableEq, Repr

/-- The operands of AMEND and AMEND IF RESERVED (R11). -/
structure AmendRequest where
  code : Nat
  delay : Action (Option Nat)
  status : StatusAction
  platform : Action Nat
  approaching : Action Bool
  carriages : Action (Option Nat)
deriving DecidableEq, Repr

/-- R172: action 0 leave, 1 set, 2 clear, of a field that may be absent. -/
def readAction (b : Byte) (value : Option Nat) : Option (Action (Option Nat)) :=
  match b.toNat with
  | 0 => some .leave
  | 1 => some (.set value)
  | 2 => some (.set none)
  | _ => none

/-- R172: status action 0 leave, 1 RUNNING, 2 CANCELLED, 3 departed. -/
def readStatusAction (b : Byte) : Option StatusAction :=
  match b.toNat with
  | 0 => some .leave
  | 1 => some (.set .running)
  | 2 => some (.set .cancelled)
  | 3 => some .departed
  | _ => none

/-- R172: approaching action 0 leave, 1 yes, 2 no. -/
def readApproachAction (b : Byte) : Option (Action Bool) :=
  match b.toNat with
  | 0 => some .leave
  | 1 => some (.set true)
  | 2 => some (.set false)
  | _ => none

/-- AMEND and AMEND IF RESERVED (R11, R171: LEN is 12, R172). -/
def parseAmend : List Byte → Parsed AmendRequest
  | [c1, c0, da, d1, d0, sa, platform, aa, ca, cv] =>
    match readAction da (clampDelay (nat16 d1 d0)), readStatusAction sa, readApproachAction aa,
        readAction ca (clampCarriages cv) with
    | some delay, some status, some approaching, some carriages =>
      inRange (nat16 c1 c0 != 0 && platform.toNat ≤ 31)
        { code := nat16 c1 c0, delay := delay, status := status,
          platform := if platform.toNat = 0 then .leave else .set platform.toNat,
          approaching := approaching, carriages := carriages }
    | _, _, _, _ => .error .badField
  | _ => .error .badLength

/-- R172: a record as READ DEPARTURE and RESERVE return it. -/
def Departure.bytes (r : Departure) : List Byte :=
  be16 r.code ++ be16 r.scheduled ++ [byte r.platform, byte r.dest, optional8 r.via] ++ optional16 r.delay
    ++ [byte r.status.code, optional8 r.carriages, yesNo r.approaching, r.revision, byte r.stops.length]
    ++ r.stops.flatMap (fun st => byte st.place :: optional16 st.time)
    ++ [yesNo r.pinned, byte r.owner.code, byte r.writer.code]

/-! ## Places (R29, R173) -/

/-- The operands of PUT PLACE. -/
structure PlaceRequest where
  number : Nat
  place : Place
deriving DecidableEq, Repr

/-- R29: a short name of length 0 means absent. -/
def shortName (bytes : List Byte) : Option (List Byte) := if bytes.isEmpty then none else some bytes

/-- PUT PLACE (R29, R171: LEN is 5 + nl + sl, R173). -/
def parsePlace : List Byte → Parsed PlaceRequest
  | number :: nl :: rest =>
    match rest.drop nl.toNat with
    | sl :: short =>
      if short.length != sl.toNat then .error .badLength
      else
        inRange (number.toNat != 0 && nl.toNat != 0 && nl.toNat ≤ 24 && sl.toNat ≤ 12)
          ⟨number.toNat, rest.take nl.toNat, shortName short⟩
    | [] => .error .badLength
  | _ => .error .badLength

/-- R173: a place as READ PLACE returns it, without its number. -/
def Place.bytes (e : Place) : List Byte :=
  let short := e.short.getD []
  byte e.name.length :: e.name ++ byte short.length :: short

/-! ## Zones (R41, R48, R51, R174) -/

/-- R174: the rights byte. -/
def Rights.bits (r : Rights) : Nat :=
  (if r.depart then 1 else 0) + (if r.status then 2 else 0) + (if r.notice then 4 else 0) + (if r.config then 8 else 0)

/-- R174: the rights of a byte; bits 4 to 7 must be 0. -/
def readRights (b : Byte) : Option Rights :=
  if b.toNat < 16 then some ⟨b.getLsbD 0, b.getLsbD 1, b.getLsbD 2, b.getLsbD 3⟩ else none

/-- R174: the match byte: 0, 1 or 2 the origin, 0xFF GLOBAL. -/
def ZoneMatch.code : ZoneMatch → Nat
  | .global => 0xFF
  | .origin p => Port.number p

/-- R174: the match of a byte. -/
def readMatch (b : Byte) : Option ZoneMatch :=
  if b.toNat = 0xFF then some .global else (readPort b.toNat).map .origin

/-- R174: a zone block. -/
def Zone.bytes (z : Zone) : List Byte :=
  [yesNo z.enabled, byte z.who.code, byte z.low, byte z.high, byte z.rights.bits]

/-- R48, R174: the zone of a zone block whose values WRITE ZONE accepts. -/
def readZone : List Byte → Option Zone
  | [enabled, who, low, high, rights] =>
    match readYesNo enabled, readMatch who, readRights rights with
    | some e, some w, some r =>
      if low.toNat ≤ 31 && high.toNat ≤ 31 then some ⟨e, w, low.toNat, high.toNat, r⟩ else none
    | _, _, _ => none
  | _ => none

/-- WRITE ZONE (R48, R171: LEN is 8). -/
def parseWriteZone : List Byte → Parsed (Fin 8 × Zone)
  | [n, enabled, who, low, high, rights] =>
    match readZone [enabled, who, low, high, rights] with
    | some z => if h : n.toNat < 8 then .ok (⟨n.toNat, h⟩, z) else .error .badField
    | none => .error .badField
  | _ => .error .badLength

/-- READ ZONE (R50): a zone number 0 to 7. -/
def parseZoneNumber (fields : List Byte) : Parsed (Fin 8) := do
  let n ← parseByte fields
  if h : n < 8 then .ok ⟨n, h⟩ else .error .badField

/-- The operands of PROBE RIGHTS (R51). -/
structure ProbeRequest where
  origin : Port
  low : Nat
  high : Nat
deriving DecidableEq, Repr

/-- PROBE RIGHTS (R51, R171: LEN is 5); the platform fields are not refused for range. -/
def parseProbe : List Byte → Parsed ProbeRequest
  | [o, low, high] =>
    match readPort o.toNat with
    | some p => .ok ⟨p, low.toNat, high.toNat⟩
    | none => .error .badField
  | _ => .error .badLength

/-! ## Notices (R81, R173) -/

/-- The operands of POST NOTICE. -/
structure NoticeRequest where
  id : Nat
  cls : NoticeClass
  scope : Scope
  targets : FaceSel
  flash : Bool
  duration : Nat
  text : List Byte
deriving DecidableEq, Repr

/-- POST NOTICE (R81, R171: LEN is 10 + tl, R173). -/
def parseNotice : List Byte → Parsed NoticeRequest
  | id :: cls :: scope :: targets :: flash :: d1 :: d0 :: tl :: text =>
    if text.length != tl.toNat then .error .badLength
    else
      match readClass cls, readScope scope, readFaceSel targets.toNat, readYesNo flash with
      | some c, some sc, some t, some fl =>
        inRange (id.toNat != 0 && tl.toNat != 0 && tl.toNat ≤ 160)
          ⟨id.toNat, c, sc, t, fl, nat16 d1 d0, text⟩
      | _, _, _, _ => .error .badField
  | _ => .error .badLength

/-- R173: a notice as READ NOTICE returns it. -/
def Notice.bytes (n : Notice) : List Byte :=
  [byte n.id, byte n.cls.code, byte n.scope.code, byte n.targets.code, yesNo n.flash] ++ be16 n.duration
    ++ byte n.text.length :: n.text ++ be16 n.remaining ++ [byte (Port.number n.origin)] ++ be16 n.posting.toNat

/-! ## Clock and faces (R70, R94, R174) -/

/-- SET CLOCK (R70, R171: LEN is 5). -/
def parseClock : List Byte → Parsed (Nat × Nat × Nat)
  | [hh, mm, ss] =>
    inRange (hh.toNat ≤ 23 && mm.toNat ≤ 59 && ss.toNat ≤ 59) (hh.toNat, mm.toNat, ss.toNat)
  | _ => .error .badLength

/-- R93: at most one FIRST, one CALLING and one BOTTOM line. -/
def rolesFit (roles : Vector Role 4) : Bool :=
  roles.toList.count .first ≤ 1 && roles.toList.count .calling ≤ 1 && roles.toList.count .bottom ≤ 1

/-- R174: the wake mask byte. -/
def WakeMask.bits (m : WakeMask) : Nat :=
  (if m.notice then 1 else 0) + (if m.departure then 2 else 0) + (if m.input then 4 else 0)

/-- R174: the wake mask of a byte; bits 3 to 7 must be 0. -/
def readMask (b : Byte) : Option WakeMask :=
  if b.toNat < 8 then some ⟨b.getLsbD 0, b.getLsbD 1, b.getLsbD 2⟩ else none

/-- R174: a face block. -/
def FaceSettings.bytes (c : FaceSettings) : List Byte :=
  [byte c.primary, byte c.second, byte c.roles[0].code, byte c.roles[1].code, byte c.roles[2].code,
   byte c.roles[3].code, yesNo c.modeOn, byte c.mask.bits]

/-- R94, R174: the settings of a face block whose values SET FACE accepts. -/
def readSettings : List Byte → Option FaceSettings
  | [primary, second, r1, r2, r3, r4, mode, mask] =>
    match readRole r1, readRole r2, readRole r3, readRole r4, readYesNo mode, readMask mask with
    | some r1, some r2, some r3, some r4, some on, some m =>
      let roles := #v[r1, r2, r3, r4]
      if primary.toNat != 0 && primary.toNat ≤ 31 && second.toNat ≤ 31 && second.toNat != primary.toNat
          && rolesFit roles then
        some ⟨primary.toNat, second.toNat, roles, on, m⟩
      else none
    | _, _, _, _, _, _ => none
  | _ => none

/-- SET FACE (R94, R171: LEN is 11). -/
def parseSetFace : List Byte → Parsed (Face × FaceSettings)
  | f :: block =>
    if block.length != 8 then .error .badLength
    else match readFace f.toNat, readSettings block with
      | some face, some c => .ok (face, c)
      | _, _ => .error .badField
  | [] => .error .badLength

/-- READ FACE (R96): a face code A or B. -/
def parseFace (fields : List Byte) : Parsed Face := do
  let n ← parseByte fields
  match readFace n with
  | some f => .ok f
  | none => .error .badField

/-- R174: a source identity, 4 bytes. -/
def Source.bytes : Source → List Byte
  | .none => [0, 0, 0, 0]
  | .record code revision => 1 :: be16 code ++ [revision]
  | .phrase => [2, 0, 0, 0]
  | .clock => [3, 0, 0, 0]
  | .notice id => [4, byte id, 0, 0]
  | .page id pg => [5, byte id, byte pg, 0]

end Sys2Proof.Machine
end

