-- ==== Sys2Proof/Machine/Link.lean ====
section
/-! DEFINITION. Link ports (chapter 10): a good frame taken by a port, the check order's first step, the reply frame, the return to HUNT, silence; and the rights step that every request shares (R43, R47). -/

namespace Sys2Proof.Machine

/-! ## Rights (R43, R45, R47) -/

/-- R41: whether a set of rights holds a right. -/
def Rights.has (r : Rights) : Right → Bool
  | .depart => r.depart
  | .status => r.status
  | .notice => r.notice
  | .config => r.config

/-- R41: whether a zone matches an origin. -/
def ZoneMatch.has : ZoneMatch → Port → Bool
  | .global, _ => true
  | .origin q, p => q == p

/-- R41, R42: a zone covers low to high; an inert zone covers nothing. -/
def Zone.covers (z : Zone) (platform : Nat) : Bool := z.low ≤ platform && platform ≤ z.high

/-- R43: a right on a platform is granted to an origin by at least one zone. -/
def granted (zones : Vector Zone 8) (p : Port) (right : Right) (platform : Nat) : Bool :=
  zones.toList.any fun z => z.enabled && z.who.has p && z.covers platform && z.rights.has right

/-- R45, R47: the first platform, in the order examined, on which the right is missing. -/
def missing (zones : Vector Zone 8) (p : Port) (right : Right) (platforms : List Nat) : Option Nat :=
  platforms.find? fun pl => !granted zones p right pl

/-! ## Replies (R168) -/

/-- R168: what a request is answered: the reply code and the result fields. -/
structure Reply where
  code : ReplyCode
  fields : List Byte
deriving DecidableEq, Repr

/-- A reply code without result fields. -/
def Reply.plain (code : ReplyCode) : Reply := ⟨code, []⟩

/-- OK with result fields. -/
def Reply.okWith (fields : List Byte) : Reply := ⟨.ok, fields⟩

/-- R47: REFUSED, naming the right and the platform. -/
def Reply.refusal (right : Right) (platform : Nat) : Reply := ⟨.refused, [byte right.code, byte platform]⟩

/-- R164: the frame of a payload. -/
def frameOfPayload (payload : List Byte) : List Byte :=
  0xA5 :: byte payload.length :: payload ++ crcBytes (byte payload.length :: payload)

/-- R168: the reply frame of a request on a port, with the port's event set as it then stands. -/
def State.replyFrame (s : State) (p : Port) (kind tag : Byte) (r : Reply) : List Byte :=
  frameOfPayload ([kind ||| 0x80, tag, r.code.byte, (s.events.get p).summary] ++ r.fields)

/-- R166: the port enters REPLY and sends the reply frame. -/
def State.sendReply (s : State) (p : Port) (kind tag : Byte) (r : Reply) : State :=
  let frame := s.replyFrame p kind tag r
  s.modPort p fun port => { port with state := .reply, reply := frame }

/-! ## Port states (R163, R165, R166, R169, R170) -/

/-- R163, R165: a port enters HUNT: the receive buffer is empty and the line takes the port's baud. -/
def LinkPort.toHunt (port : LinkPort) : LinkPort :=
  { port with state := .hunt, len := none, data := [], gap := 0, lineBaud := port.baud }

/-- R165, R166: whether a port takes bytes: they are discarded in EXECUTE and REPLY. -/
def LinkPort.listening (port : LinkPort) : Bool := port.state == .hunt || port.state == .receive

/-- R165, R169, R170: a frame passes the CRC: the silence count restarts, a SILENT port becomes LIVE
with both faces marked dirty, and the port enters EXECUTE. -/
def State.acceptFrame (s : State) (p : Port) : State :=
  let t := s.modPort p fun port =>
    { port with state := .execute, len := none, data := [], gap := 0, count := 0, silent := false }
  if (s.ports.get p).silent then t.markBoth else t

/-- R165, R167: a good frame on a port: lost in EXECUTE and REPLY; else the port takes it, answers
NOT_READY at step 0 while the loader is LOADING, and otherwise does `h`. -/
def State.serveWith (p : Port) (kind tag : Byte) (h : State → State) (s : State) : State :=
  if (s.ports.get p).listening then
    let t := s.acceptFrame p
    if t.loader.phase = .loading then t.sendReply p kind tag (.plain .notReady) else h t
  else s

/-- R166, R167: a good frame whose request is answered as soon as it is taken. -/
def State.serve (p : Port) (kind tag : Byte) (take : State → State × Reply) (s : State) : State :=
  s.serveWith p kind tag fun t => (take t).1.sendReply p kind tag (take t).2

/-- R167 steps 1b and 2: answer the failing step, or go on with the operands. -/
def withOperands {α : Type} (parsed : Parsed α) (s : State) (k : α → State × Reply) : State × Reply :=
  match parsed with
  | .error code => (s, .plain code)
  | .ok x => k x

/-- R167 step 3, R47: answer REFUSED, or go on. -/
def withRights (p : Port) (right : Right) (platforms : List Nat) (s : State) (k : State × Reply) : State × Reply :=
  match missing s.zones p right platforms with
  | some pl => (s, .refusal right pl)
  | none => k

/-- R165: LINK_FRAME_BAD with the port as locale. -/
def State.frameBad (s : State) (p : Port) : State := s.raise .linkFrameBad ⟨.port p, none, none⟩

/-- R165: a frame in RECEIVE is dropped; the port is back in HUNT. -/
def State.dropFrame (s : State) (p : Port) : State := s.modPort p LinkPort.toHunt

/-- FRAMING_ERROR (R165). -/
def execFramingError (p : Port) (s : State) : Host.Outcome State Fault Refusal :=
  match (s.ports.get p).state with
  | .receive => .next ((s.dropFrame p).frameBad p)
  | .hunt | .execute | .reply => .next s

/-- R165: the gap timer has reached its expiry: it runs in RECEIVE, and a byte restarts it. -/
def LinkPort.gapOver (port : LinkPort) : Bool := port.state == .receive && Config.gapTicks ≤ port.gap

/-- GAP_TIMER_EXPIRY (R165): no fault. -/
def execGapTimerExpiry (p : Port) (s : State) : Host.Outcome State Fault Refusal :=
  .next (if (s.ports.get p).state = .receive then s.dropFrame p else s)

/-- R165: a complete frame that fails its CRC is dropped without reply; the silence count is kept. -/
def State.crcFail (s : State) (p : Port) : State := (s.dropFrame p).frameBad p

/-- FRAME_CRC_FAIL (R165): the whole frame is lost on a port in EXECUTE or REPLY. -/
def execFrameCrcFail (p : Port) (s : State) : Host.Outcome State Fault Refusal :=
  .next (if (s.ports.get p).listening then s.crcFail p else s)

/-- REPLY_SENT (R166, R163): the last byte leaves the line; the port returns to HUNT and applies any
new baud. -/
def execReplySent (p : Port) (s : State) : Host.Outcome State Fault Refusal :=
  match (s.ports.get p).state with
  | .reply => .next (s.modPort p LinkPort.toHunt)
  | .hunt | .receive | .execute => .next s

/-- R169: the silence count of a LIVE port whose limit is not off has reached the limit; a good frame taken first
restarts the count, and the port stays LIVE (R170). -/
def LinkPort.silenceOver (port : LinkPort) : Bool :=
  !port.silent && port.limitInForce != 0 && port.limitInForce * 1000 ≤ port.count

/-- R170: the port becomes SILENT: its reservation is deleted without an event, and both faces are marked dirty. -/
def State.silence (s : State) (p : Port) : State :=
  ((s.modPort p fun port => { port with silent := true }).setReservation p none).markBoth

/-- PORT_SILENT (R170): a frame taken first leaves the port LIVE. -/
def execPortSilent (p : Port) (s : State) : Host.Outcome State Fault Refusal :=
  .next (if (s.ports.get p).silenceOver then s.silence p else s)

end Sys2Proof.Machine
end

