-- ==== Sys2Proof/Machine/Faults.lean ====
section
/-! DEFINITION. The requests of the fault capture and of the event sets (chapter 11). -/

namespace Sys2Proof.Machine

/-- R178: the unit of a locale, coded. -/
def LocaleUnit.code : LocaleUnit → Nat
  | .none => 0
  | .face f => Face.code f
  | .port p => 3 + Port.number p

/-- R178: the position of a locale, coded: a line as its number, chain c as c + 1, 0 for none. -/
def Captured.positionCode (c : Captured) : Nat :=
  match c.locale.position with
  | none => 0
  | some n => if c.kind = .chainFailed then n + 1 else n

/-- R178: class, kind, locale and minute of the capture record, coded. -/
def Captured.bytes (c : Captured) : List Byte :=
  [byte (if c.kind.major then 2 else 1), byte c.kind.code, byte c.locale.unit.code, byte c.positionCode,
   optional8 c.locale.place] ++ optional16 c.minute

/-- R178: the codes of the kinds seen, ascending. -/
def seenCodes (seen : Vector Bool 9) : List Nat :=
  ((List.finRange 9).filter fun i => seen[i]).map fun i => i.val + 1

/-- R178: the READ FAULTS reply. -/
def State.faultBytes (s : State) : List Byte :=
  [yesNo s.capture.held.isSome, yesNo s.capture.more]
    ++ (match s.capture.held with
      | some c => c.bytes
      | none => [0, 0, 0, 0, 0, 0xFF, 0xFF])
    ++ byte (seenCodes s.seen).length :: (seenCodes s.seen).map byte

/-- READ FAULTS taken (R178). -/
def takeReadFaults (fields : List Byte) (s : State) : State × Reply :=
  withOperands (parseNone fields) s fun _ => (s, .okWith s.faultBytes)

/-- READ_FAULTS (R178). -/
def execReadFaults (p : Port) (tag : Byte) (fields : List Byte) (s : State) : Host.Outcome State Fault Refusal :=
  .next (s.serve p 0x48 tag (takeReadFaults fields))

/-- CLEAR FAULTS taken (R178): the record is opened, more cleared and the seen-kinds set emptied. -/
def takeClearFaults (p : Port) (fields : List Byte) (s : State) : State × Reply :=
  withOperands (parseNone fields) s fun _ =>
    withRights p .config [0] s
      ({ s with capture := ⟨none, false⟩, seen := Vector.replicate 9 false }, .plain .ok)

/-- CLEAR_FAULTS (R178). -/
def execClearFaults (p : Port) (tag : Byte) (fields : List Byte) (s : State) : Host.Outcome State Fault Refusal :=
  .next (s.serve p 0x49 tag (takeClearFaults p fields))

/-- READ EVENTS taken (R180): the flags held are returned and the set is emptied. -/
def takeReadEvents (p : Port) (fields : List Byte) (s : State) : State × Reply :=
  withOperands (parseNone fields) s fun _ =>
    (s.modEvents p fun _ => EventSet.empty, .okWith [(s.events.get p).summary])

/-- READ_EVENTS (R180). -/
def execReadEvents (p : Port) (tag : Byte) (fields : List Byte) (s : State) : Host.Outcome State Fault Refusal :=
  .next (s.serve p 0x4A tag (takeReadEvents p fields))

end Sys2Proof.Machine
end

