-- ==== Sys2Proof/Machine/Departures.lean ====
section
/-! DEFINITION. The departure table (chapter 1) and the amend reservations (chapter 3): changes, removals, the table's requests and the local approach. -/

namespace Sys2Proof.Machine

/-! ## Changes of the table (R4, R6, R22) -/

/-- R4: a change of a displayed field moves the revision on and sets the writer origin. -/
def Departure.changedBy (r : Departure) (origin : Origin) : Departure :=
  { r with revision := r.revision + 1, writer := origin }

/-- R12: put a changed record in the place of the record of its code. -/
def State.putInPlace (s : State) (r : Departure) : State :=
  { s with table := s.table.map fun x => if x.code = r.code then r else x }

/-- R4, R6, R12: a change of displayed fields in place, with its reservations and touched platforms. -/
def State.changeRecord (s : State) (old new : Departure) (origin : Origin) : State :=
  (((s.putInPlace (new.changedBy origin)).loseReservations old.code origin).touch [old.platform, new.platform])

/-- R22: a record leaves the table: its stops and pin are freed and its reservations deleted. The
touched platform is marked by the caller. -/
def State.takeOut (s : State) (r : Departure) (origin : Origin) : State :=
  State.loseReservations
    { s with
      table := withoutRecord r.code s.table
      freeStops := s.freeStops + r.stops.length
      pinCount := if r.pinned then s.pinCount - 1 else s.pinCount }
    r.code origin

/-- R22: a removal by a request, with its touched platform. -/
def State.removeRecord (s : State) (r : Departure) (origin : Origin) : State :=
  (s.takeOut r origin).touch [r.platform]

/-- R22: the removals of a minute event: each has the effects of R22, and its platform's faces are
marked dirty; the wake checks are part 3 of the event (R68, log entry 18). -/
def State.takeOutAll (s : State) (gone : List Departure) : State :=
  gone.foldl (fun t r => (t.takeOut r .loc).markTouched [r.platform]) s

/-! ## PUT DEPARTURE (R8, R9, R10) -/

/-- R8: the new record of an insert. -/
def PutRequest.record (q : PutRequest) (p : Port) : Departure where
  code := q.code
  scheduled := q.scheduled
  platform := q.platform
  dest := q.dest
  via := q.via
  delay := q.delay
  status := q.status
  carriages := q.carriages
  approaching := q.approaching
  stops := q.stops
  pinned := false
  owner := .port p
  writer := .port p
  revision := 0

/-- R9: a replacement keeps the pin, the owner and the code; the revision moves on. -/
def PutRequest.replacing (q : PutRequest) (old : Departure) (p : Port) : Departure :=
  { q.record p with pinned := old.pinned, owner := old.owner, revision := old.revision + 1 }

/-- R8: take an insert. -/
def State.insertDeparture (s : State) (r : Departure) : State :=
  State.touch
    { s with
      table := insertRecord s.params.ro r s.table
      freeStops := s.freeStops - r.stops.length }
    [r.platform]

/-- R9: take a replacement: the old stops are freed and the new ones drawn in the same change. -/
def State.replaceDeparture (s : State) (old new : Departure) (origin : Origin) : State :=
  (State.loseReservations
    { s with
      table := insertRecord s.params.ro new (withoutRecord old.code s.table)
      freeStops := s.freeStops + old.stops.length - new.stops.length }
    old.code origin).touch [old.platform, new.platform]

/-- R7: the platforms of a request that names a code and may carry a platform. -/
def platformsFor (present : Option Departure) (new : Option Nat) : List Nat :=
  match present, new with
  | some r, some n => if n = r.platform then [r.platform] else [r.platform, n]
  | some r, none => [r.platform]
  | none, some n => [n]
  | none, none => []

/-- PUT DEPARTURE taken (R3, R5, R7 to R10). -/
def takePutDeparture (p : Port) (fields : List Byte) (s : State) : State × Reply :=
  withOperands (parsePut fields) s fun q =>
    withRights p .depart (platformsFor (s.record? q.code) (some q.platform)) s
      (match s.record? q.code with
        | none =>
          if Config.maxRecords ≤ s.table.length then (s, .plain .tableFull)
          else if s.freeStops < q.stops.length then (s, .plain .poolFull)
          else (s.insertDeparture (q.record p), .plain .ok)
        | some old =>
          if s.freeStops + old.stops.length < q.stops.length then (s, .plain .poolFull)
          else (s.replaceDeparture old (q.replacing old p) (.port p), .plain .ok))

/-- PUT_DEPARTURE (R8, R9). -/
def execPutDeparture (p : Port) (tag : Byte) (fields : List Byte) (s : State) : Host.Outcome State Fault Refusal :=
  .next (s.serve p 0x01 tag (takePutDeparture p fields))

/-! ## AMEND (R11, R12, R13) -/

/-- R11: an action applied to a field. -/
def Action.apply {α : Type} (a : Action α) (old : α) : α :=
  match a with
  | .leave => old
  | .set x => x

/-- R11: the platform an AMEND sets, if any. -/
def Action.toOption {α : Type} : Action α → Option α
  | .leave => none
  | .set x => some x

/-- R12: the record with every action applied, before the revision and writer move. -/
def AmendRequest.applied (q : AmendRequest) (r : Departure) : Departure :=
  { r with
    delay := q.delay.apply r.delay
    status := match q.status with
      | .set st => st
      | .leave | .departed => r.status
    platform := q.platform.apply r.platform
    approaching := q.approaching.apply r.approaching
    carriages := q.carriages.apply r.carriages }

/-- R12, R13: the effect of AMEND on a record that is present. -/
def State.amendRecord (s : State) (q : AmendRequest) (r : Departure) (p : Port) : State :=
  match q.status with
  | .departed => s.removeRecord r (.port p)
  | .leave | .set _ => if q.applied r = r then s else s.changeRecord r (q.applied r) (.port p)

/-- AMEND taken (R7, R11 to R13). -/
def takeAmend (p : Port) (fields : List Byte) (s : State) : State × Reply :=
  withOperands (parseAmend fields) s fun q =>
    withRights p .status (platformsFor (s.record? q.code) q.platform.toOption) s
      (match s.record? q.code with
        | none => (s, .plain .notFound)
        | some r => (s.amendRecord q r p, .plain .ok))

/-- AMEND (R12). -/
def execAmend (p : Port) (tag : Byte) (fields : List Byte) (s : State) : Host.Outcome State Fault Refusal :=
  .next (s.serve p 0x02 tag (takeAmend p fields))

/-- AMEND IF RESERVED taken (R56): past the existence step the port's own reservation is deleted, and
the amendment is made when it named the record. -/
def takeAmendIfReserved (p : Port) (fields : List Byte) (s : State) : State × Reply :=
  withOperands (parseAmend fields) s fun q =>
    withRights p .status (platformsFor (s.record? q.code) q.platform.toOption) s
      (match s.record? q.code with
        | none => (s, .plain .notFound)
        | some r =>
          let t := s.setReservation p none
          if s.reservations.get p = some q.code then (t.amendRecord q r p, .plain .ok)
          else (t, .plain .lost))

/-- AMEND_IF_RESERVED (R56). -/
def execAmendIfReserved (p : Port) (tag : Byte) (fields : List Byte) (s : State) : Host.Outcome State Fault Refusal :=
  .next (s.serve p 0x03 tag (takeAmendIfReserved p fields))

/-! ## Requests that name one record -/

/-- R7, R14 to R16, R55: a request that names a code, needs a right on the record's platform and answers
NOT_FOUND for a code that is not present. -/
def takeOnRecord (p : Port) (right : Right) (fields : List Byte) (s : State) (k : Departure → State × Reply) : State × Reply :=
  withOperands (parseCode fields) s fun code =>
    withRights p right (platformsFor (s.record? code) none) s
      (match s.record? code with
        | none => (s, .plain .notFound)
        | some r => k r)

/-- WITHDRAW DEPARTURE taken (R14). -/
def takeWithdrawDeparture (p : Port) (fields : List Byte) (s : State) : State × Reply :=
  takeOnRecord p .depart fields s fun r => (s.removeRecord r (.port p), .plain .ok)

/-- WITHDRAW_DEPARTURE (R14). -/
def execWithdrawDeparture (p : Port) (tag : Byte) (fields : List Byte) (s : State) : Host.Outcome State Fault Refusal :=
  .next (s.serve p 0x04 tag (takeWithdrawDeparture p fields))

/-- PIN taken (R15). -/
def takePin (p : Port) (fields : List Byte) (s : State) : State × Reply :=
  takeOnRecord p .status fields s fun r =>
    if r.pinned then (s, .plain .ok)
    else if Config.maxPinned ≤ s.pinCount then (s, .plain .pinLimit)
    else (State.putInPlace { s with pinCount := s.pinCount + 1 } { r with pinned := true }, .plain .ok)

/-- PIN (R15). -/
def execPin (p : Port) (tag : Byte) (fields : List Byte) (s : State) : Host.Outcome State Fault Refusal :=
  .next (s.serve p 0x05 tag (takePin p fields))

/-- UNPIN taken (R16). -/
def takeUnpin (p : Port) (fields : List Byte) (s : State) : State × Reply :=
  takeOnRecord p .status fields s fun r =>
    if r.pinned then (State.putInPlace { s with pinCount := s.pinCount - 1 } { r with pinned := false }, .plain .ok)
    else (s, .plain .ok)

/-- UNPIN (R16). -/
def execUnpin (p : Port) (tag : Byte) (fields : List Byte) (s : State) : Host.Outcome State Fault Refusal :=
  .next (s.serve p 0x06 tag (takeUnpin p fields))

/-- READ DEPARTURE taken (R17). -/
def takeReadDeparture (fields : List Byte) (s : State) : State × Reply :=
  withOperands (parseCode fields) s fun code =>
    match s.record? code with
    | none => (s, .plain .notFound)
    | some r => (s, .okWith r.bytes)

/-- READ_DEPARTURE (R17). -/
def execReadDeparture (p : Port) (tag : Byte) (fields : List Byte) (s : State) : Host.Outcome State Fault Refusal :=
  .next (s.serve p 0x07 tag (takeReadDeparture fields))

/-- R18: the records of a platform in table order; platform 0 stands for the whole table. -/
def State.listed (s : State) (platform : Nat) : List Departure :=
  s.table.filter fun r => platform == 0 || r.platform == platform

/-- LIST DEPARTURES taken (R18): the number and the codes. -/
def takeListDepartures (fields : List Byte) (s : State) : State × Reply :=
  withOperands (parsePlatform fields) s fun platform =>
    (s, .okWith (byte (s.listed platform).length :: (s.listed platform).flatMap fun r => be16 r.code))

/-- LIST_DEPARTURES (R18). -/
def execListDepartures (p : Port) (tag : Byte) (fields : List Byte) (s : State) : Host.Outcome State Fault Refusal :=
  .next (s.serve p 0x08 tag (takeListDepartures fields))

/-- RESERVE taken (R55): the reservation and the record it is taken on. -/
def takeReserve (p : Port) (fields : List Byte) (s : State) : State × Reply :=
  takeOnRecord p .status fields s fun r => (s.setReservation p (some r.code), .okWith r.bytes)

/-- RESERVE (R55). -/
def execReserve (p : Port) (tag : Byte) (fields : List Byte) (s : State) : Host.Outcome State Fault Refusal :=
  .next (s.serve p 0x18 tag (takeReserve p fields))

/-- DROP RESERVATION taken (R57). -/
def takeDropReservation (p : Port) (fields : List Byte) (s : State) : State × Reply :=
  withOperands (parseNone fields) s fun _ => (s.setReservation p none, .plain .ok)

/-- DROP_RESERVATION (R57). -/
def execDropReservation (p : Port) (tag : Byte) (fields : List Byte) (s : State) : Host.Outcome State Fault Refusal :=
  .next (s.serve p 0x19 tag (takeDropReservation p fields))

/-! ## The local approach (R19, R158) -/

/-- R19: the local approach on a named record; a record whose approaching is yes is left. -/
def State.approach (s : State) (code : Nat) : State :=
  match s.record? code with
  | some r => if r.approaching then s else s.changeRecord r { r with approaching := true } .loc
  | none => s

/-- R158: the service code of view entry 1 of a selected face. -/
def State.namedBy (s : State) (sel : FaceSel) (f : Face) : Option Nat :=
  if sel.has f then (s.view f).head?.map fun r => r.code else none

/-- R19, R158: an APPROACH edge: the named codes, once when both faces name one record, face A's first. -/
def State.approachEdge (s : State) (sel : FaceSel) : State :=
  match s.namedBy sel .a, s.namedBy sel .b with
  | some x, some y => if x = y then s.approach x else (s.approach x).approach y
  | some x, none => s.approach x
  | none, some y => s.approach y
  | none, none => s

/-! ## Expiry and day close (R20, R21, R23) -/

/-- R20: whether an unpinned record expires at the service key K. -/
def Departure.expires (params : Params) (now : Nat) (r : Departure) : Bool :=
  !r.pinned && (match r.status, r.delay with
    | .running, some d => r.key params.ro + d + params.linger < now
    | .running, none => r.key params.ro + params.unknownHold < now
    | .cancelled, _ => r.key params.ro + params.linger < now)

/-- R20: the removals of expiry at the clock's key. -/
def State.expiry (s : State) : State := s.takeOutAll (s.table.filter (Departure.expires s.params s.nowKey))

/-- R21: day close removes every unpinned record. -/
def State.dayClose (s : State) : State := s.takeOutAll (s.table.filter fun r => !r.pinned)

/-- R23: a re-sort touches every platform, so both faces are touched (R6, log entry 17). -/
def State.touchEvery (s : State) : State :=
  s.touch (s.faces.a.settings.platforms ++ s.faces.b.settings.platforms)

end Sys2Proof.Machine
end

