-- ==== Sys2Proof/Machine/Notices.lean ====
section
/-! DEFINITION. The notice store (chapter 5): its requests, displacement, and the countdown at second events. -/

namespace Sys2Proof.Machine

/-- The held notice of an ID. -/
def State.notice? (s : State) (id : Nat) : Option Notice := s.notices.find? fun n => n.id == id

/-- R46: the platforms of the faces selected, face A before face B. -/
def State.facePlatforms (s : State) (sel : Face → Bool) : List Nat :=
  faceList.flatMap fun f => if sel f then (s.faces.get f).settings.platforms else []

/-- R85: mark dirty each face that one of the target sets holds. -/
def State.markTargets (s : State) (targets : List FaceSel) : State :=
  s.eachFace fun f t => if targets.any (fun x => x.has f) then t.markDirty f else t

/-- R85, R98: a HIGH notice hands a wake event to each face it targets; the effective states are worked
out at the end of the change. -/
def State.wakeForNotice (s : State) (cls : NoticeClass) (targets : FaceSel) : State :=
  match cls with
  | .low => s
  | .high =>
    let s := s.eachFace fun f t => if targets.has f then t.wake f .notice else t
    s.eachFace fun f t => if targets.has f then t.settle f else t

/-- R85: what a post or replacement hands on: dirty marks for the old and new targets, then wakes. -/
def State.handOnPost (s : State) (old : List FaceSel) (n : Notice) : State :=
  (s.markTargets (n.targets :: old)).wakeForNotice n.cls n.targets

/-- R82: the notice of a post, under a posting number. -/
def NoticeRequest.notice (q : NoticeRequest) (p : Port) (posting : HalfWord) : Notice where
  id := q.id
  cls := q.cls
  scope := q.scope
  targets := q.targets
  flash := q.flash
  duration := q.duration
  remaining := q.duration
  text := q.text
  origin := p
  posting := posting

/-- R82: a new post takes the counter as its number and joins the end of the list. -/
def State.appendNotice (s : State) (n : Notice) : State :=
  { s with notices := s.notices ++ [n], postCounter := s.postCounter + 1 }

/-- R84: the oldest-posted LOW notice. -/
def State.oldestLow (s : State) : Option Notice := s.notices.find? fun n => n.cls == .low

/-- The store without the notice of an ID. -/
def State.dropNotice (s : State) (id : Nat) : State := { s with notices := s.notices.filter fun n => n.id != id }

/-- R82, R84: the result fields of a POST NOTICE reply. -/
def postReply (posting : HalfWord) (displaced : Nat) : Reply := .okWith (be16 posting.toNat ++ [byte displaced])

/-- R82: a new post with room in the store. -/
def State.postNew (s : State) (n : Notice) : State := (s.appendNotice n).handOnPost [] n

/-- R83: a replacement keeps the posting number and the place in the list. -/
def State.replaceNotice (s : State) (old new : Notice) : State :=
  State.handOnPost { s with notices := s.notices.map fun n => if n.id = old.id then new else n } [old.targets] new

/-- R84: a post with displacement. -/
def State.postDisplacing (s : State) (gone n : Notice) : State :=
  (((s.dropNotice gone.id).signal gone.origin .noticeDisplaced).appendNotice n).handOnPost [gone.targets] n

/-- POST NOTICE past its rights (R82, R83, R84). -/
def State.post (s : State) (q : NoticeRequest) (p : Port) : State × Reply :=
  match s.notice? q.id with
  | some old => (s.replaceNotice old (q.notice p old.posting), postReply old.posting 0)
  | none =>
    let n := q.notice p s.postCounter
    if s.notices.length < Config.maxNotices then (s.postNew n, postReply s.postCounter 0)
    else match q.cls, s.oldestLow with
      | .high, some gone => (s.postDisplacing gone n, postReply s.postCounter gone.id)
      | _, _ => (s, .plain .noticeFull)

/-- R46: the faces whose platforms POST NOTICE examines: those of the held notice and of the new one. -/
def State.postFaces (s : State) (q : NoticeRequest) (f : Face) : Bool :=
  q.targets.has f || ((s.notice? q.id).any fun n => n.targets.has f)

/-- POST NOTICE taken (R81). -/
def takePostNotice (p : Port) (fields : List Byte) (s : State) : State × Reply :=
  withOperands (parseNotice fields) s fun q =>
    withRights p .notice (s.facePlatforms (s.postFaces q)) s (s.post q p)

/-- POST_NOTICE (R81). -/
def execPostNotice (p : Port) (tag : Byte) (fields : List Byte) (s : State) : Host.Outcome State Fault Refusal :=
  .next (s.serve p 0x28 tag (takePostNotice p fields))

/-- WITHDRAW NOTICE taken (R46, R86). -/
def takeWithdrawNotice (p : Port) (fields : List Byte) (s : State) : State × Reply :=
  withOperands (parseNonZero fields) s fun id =>
    match s.notice? id with
    | none => (s, .plain .notFound)
    | some n =>
      withRights p .notice (s.facePlatforms n.targets.has) s ((s.dropNotice id).markTargets [n.targets], .plain .ok)

/-- WITHDRAW_NOTICE (R86). -/
def execWithdrawNotice (p : Port) (tag : Byte) (fields : List Byte) (s : State) : Host.Outcome State Fault Refusal :=
  .next (s.serve p 0x29 tag (takeWithdrawNotice p fields))

/-- READ NOTICE taken (R87). -/
def takeReadNotice (fields : List Byte) (s : State) : State × Reply :=
  withOperands (parseNonZero fields) s fun id =>
    match s.notice? id with
    | none => (s, .plain .notFound)
    | some n => (s, .okWith n.bytes)

/-- READ_NOTICE (R87). -/
def execReadNotice (p : Port) (tag : Byte) (fields : List Byte) (s : State) : Host.Outcome State Fault Refusal :=
  .next (s.serve p 0x2A tag (takeReadNotice fields))

/-- LIST NOTICES taken (R88): the number and the IDs in posting order. -/
def takeListNotices (fields : List Byte) (s : State) : State × Reply :=
  withOperands (parseNone fields) s fun _ =>
    (s, .okWith (byte s.notices.length :: s.notices.map fun n => byte n.id))

/-- LIST_NOTICES (R88). -/
def execListNotices (p : Port) (tag : Byte) (fields : List Byte) (s : State) : Host.Outcome State Fault Refusal :=
  .next (s.serve p 0x2B tag (takeListNotices fields))

/-! ## Durations (R89, R90) -/

/-- R89: a notice expires at this second event: its remaining is 1. -/
def Notice.expiring (n : Notice) : Bool := n.remaining == 1

/-- R89, R90: the countdown of a second event: every remaining that is not 0 falls by one, and the
notices that reach 0 go, with NOTICE_EXPIRED for their origins and their faces marked dirty. -/
def State.countNotices (s : State) : State :=
  let gone := s.notices.filter Notice.expiring
  let kept := (s.notices.filter fun n => !n.expiring).map fun n => { n with remaining := n.remaining - 1 }
  let s := { s with notices := kept }
  let s := gone.foldl (fun t n => t.signal n.origin .noticeExpired) s
  s.markTargets (gone.map fun n => n.targets)

end Sys2Proof.Machine
end

