-- ==== Sys2Proof/Machine/Clock.lean ====
section
/-! DEFINITION. The station clock (chapter 4): the oscillator, the second source, second and minute events, day-close detection and the clock's requests. -/

namespace Sys2Proof.Machine

/-- R63: the start count of a STARTING oscillator has reached 32768. -/
def Clock.startOver (c : Clock) : Bool := c.osc == .starting && Config.crystalSecond ≤ c.startCount

/-- R64: the start-up deadline runs and has reached 2000 ticks. -/
def Clock.deadlineOver (c : Clock) : Bool := c.deadline.any fun n => Config.deadlineTicks ≤ n

/-- R65: the divider of the second source has counted a second; SET CLOCK taken first puts it back to 0, and the
second event does not occur (R70). -/
def Clock.secondOver (c : Clock) : Bool :=
  match c.source with
  | .none => false
  | .timekeeper => Config.crystalSecond ≤ c.divider
  | .system => Config.systemSecond ≤ c.divider

/-- R63, R64: the oscillator enters RUNNING. Before the deadline the second source becomes TIMEKEEPER, with its
divider at 0, and the deadline is discarded. That the start count, which R63 says is not used in RUNNING, then
holds 0 is the model's choice (DESIGN CHOICE, log entry 32). -/
def Clock.enterRunning (c : Clock) : Clock :=
  match c.deadline with
  | none => { c with osc := .running, startCount := 0 }
  | some _ => { c with osc := .running, startCount := 0, deadline := none, source := .timekeeper, divider := 0 }

/-- OSCILLATOR_RUNNING (R63, R64). The start count it leaves is the model's choice (log entry 32). -/
def execOscillatorRunning (s : State) : Host.Outcome State Fault Refusal :=
  .next (if s.clock.osc = .starting then { s with clock := s.clock.enterRunning } else s)

/-- R64: the deadline has expired: the fault, and the second source becomes SYSTEM. -/
def State.deadlineExpires (s : State) : State :=
  State.raise { s with clock := { s.clock with deadline := none, source := .system, divider := 0 } }
    .timekeeperNotReady Locale.none

/-- STARTUP_DEADLINE_EXPIRY (R64): a deadline discarded does not expire. -/
def execStartupDeadlineExpiry (s : State) : Host.Outcome State Fault Refusal :=
  .next (if s.clock.deadline.isSome then s.deadlineExpires else s)

/-! ## Minute events (R68, R69) -/

/-- R69: whether a day close is found, for the validity before the event. -/
def State.dayCloses (s : State) (validBefore : Bool) : Bool :=
  validBefore && (match s.clock.prevMinute with
    | none => false
    | some m => s.nowKey + 720 < serviceKey s.params.ro m)

/-- R68 part 3, R98: every countdown that is not 0 falls by one. -/
def State.countDownWake (s : State) : State :=
  s.eachFace fun f t => t.modFace f fun c => { c with countdown := c.countdown - 1 }

/-- R68 part 3, R99: countdowns, then the wake checks, then the effective states of both faces. -/
def State.wakePart (s : State) : State :=
  let s := s.countDownWake.eachFace fun f t => t.departureWake f
  s.eachFace fun f t => t.settle f

/-- R68 part 1: day close, when one is found. -/
def State.closeIfDue (s : State) (validBefore : Bool) : State := if s.dayCloses validBefore then s.dayClose else s

/-- R68 part 2: expiry, while the clock is valid. -/
def State.expireIfValid (s : State) : State := if s.clock.valid then s.expiry else s

/-- R68 part 5: the previous minute becomes the new minute of day. -/
def State.notePrevMinute (s : State) : State :=
  { s with clock := { s.clock with prevMinute := some s.clock.minute } }

/-- R68: a minute event, in its five parts. -/
def State.minuteEvent (s : State) (validBefore : Bool) : State :=
  (s.closeIfDue validBefore).expireIfValid.wakePart.markBoth.notePrevMinute

/-! ## Second events (R67) -/

/-- R67 part 1: the clock advances by one second. -/
def Clock.advance (c : Clock) : Clock :=
  if c.ss + 1 < 60 then { c with ss := c.ss + 1 }
  else if c.mm + 1 < 60 then { c with ss := 0, mm := c.mm + 1 }
  else if c.hh + 1 < 24 then { c with ss := 0, mm := 0, hh := c.hh + 1 }
  else { c with ss := 0, mm := 0, hh := 0 }

/-- R111: the last plan taken showed a FULL notice. -/
def Composer.showedFull (c : Composer) : Bool := (c.lastPlan.bind fun p => p.full).isSome

/-- R109: the face stands at the clock entry. -/
def Composer.atClock (c : Composer) : Bool :=
  c.settings.roles.toList.contains .bottom && c.entry == .clock && !c.showedFull

/-- R67 part 3: each face that is not DARK and stands at the clock entry is marked dirty. -/
def State.markClockLines (s : State) : State :=
  s.eachFace fun f t =>
    if (t.faces.get f).state != .dark && (t.faces.get f).atClock then t.markDirty f else t

/-- R67: a second event, in its four parts. -/
def State.second (s : State) : State :=
  let t := State.markClockLines (State.countNotices { s with clock := { s.clock.advance with divider := 0 } })
  if t.clock.ss = 0 then t.minuteEvent t.clock.valid else t

/-- SECOND_EVENT (R67): none occurs while the second source is NONE (R65), nor where SET CLOCK has put the divider
back first (R70). -/
def execSecondEvent (s : State) : Host.Outcome State Fault Refusal :=
  .next (if s.clock.secondOver then s.second else s)

/-! ## Requests (R70, R71) -/

/-- R70: the clock is set: the time, valid, the divider back to 0, and a minute event. -/
def State.setClock (s : State) (hh mm ss : Nat) : State :=
  State.minuteEvent
    { s with clock := { s.clock with hh := hh, mm := mm, ss := ss, valid := true, divider := 0 } }
    s.clock.valid

/-- SET CLOCK taken (R70). -/
def takeSetClock (p : Port) (fields : List Byte) (s : State) : State × Reply :=
  withOperands (parseClock fields) s fun q =>
    withRights p .config [0] s (s.setClock q.1 q.2.1 q.2.2, .plain .ok)

/-- SET_CLOCK (R70). -/
def execSetClock (p : Port) (tag : Byte) (fields : List Byte) (s : State) : Host.Outcome State Fault Refusal :=
  .next (s.serve p 0x30 tag (takeSetClock p fields))

/-- R71, R174: the READ CLOCK reply. -/
def Clock.bytes (c : Clock) : List Byte :=
  [byte c.hh, byte c.mm, byte c.ss, yesNo c.valid, byte c.osc.code, byte c.source.code]

/-- READ CLOCK taken (R71). -/
def takeReadClock (fields : List Byte) (s : State) : State × Reply :=
  withOperands (parseNone fields) s fun _ => (s, .okWith s.clock.bytes)

/-- READ_CLOCK (R71). -/
def execReadClock (p : Port) (tag : Byte) (fields : List Byte) (s : State) : Host.Outcome State Fault Refusal :=
  .next (s.serve p 0x31 tag (takeReadClock fields))

end Sys2Proof.Machine
end

