-- ==== Sys2Proof/Machine/Plan.lean ====
section
/-! DEFINITION. Taking a plan and painting it (chapters 2, 6 and 7): place references, the lines of a plan, the choice of a FULL notice, ticker restarts, PLAN and PAINT_COMPLETION. -/

namespace Sys2Proof.Machine

/-! ## Fixed texts and fields (R105 to R107, R126) -/

/-- A text over the whole line of 256 columns. -/
def lineField (al : Align) (text : List Byte) (flashing : Bool) (offset : Option Nat) : PlanField :=
  ⟨0, Config.lineWidth, al, text, none, flashing, offset⟩

/-- A dark line of a role. -/
def darkLine (r : Role) : PlanLine := ⟨.role r, .none, []⟩

/-- R106: the status text of a record, and whether it flashes. -/
def statusText (onFirst : Bool) (r : Departure) : List Byte × Bool :=
  match r.status with
  | .cancelled => (str "Cancelled", false)
  | .running =>
    if r.approaching && onFirst then (str "Approaching", true)
    else match r.delay with
      | none => (str "Delayed", false)
      | some 0 => (str "On time", false)
      | some d => (str "Exp " ++ timeText ((r.scheduled + d) % 1440), false)

/-- R34, R127: the destination field's text and ladder step, and the undefined places it resolved. -/
def State.destination (s : State) (fieldWidth : Nat) (r : Departure) : List Byte × Option Nat × List Nat :=
  match s.place? r.dest with
  | none => ([], none, [r.dest])
  | some e =>
    let via := r.via.bind fun v => s.place? v
    let l := destinationLadder fieldWidth e.name (via.map fun v => v.name) e.short
    (l.1, some l.2, if via.isNone then r.via.toList else [])

/-- R105, R126: the fields of a line that shows a record, and the undefined places it resolved. -/
def State.recordLine (s : State) (f : Face) (role : Role) (r : Departure) : PlanLine × List Nat :=
  let two := (s.faces.get f).settings.second != 0
  let status := statusText (role == .first) r
  let statusField : PlanField := ⟨192, 64, .right, status.1, none, status.2, none⟩
  if two then
    let d := s.destination 134 r
    (⟨.role role, .record r.code r.revision,
      [⟨0, 16, .left, decimal r.platform, none, false, none⟩,
       ⟨18, 32, .left, timeText r.scheduled, none, false, none⟩,
       ⟨54, 134, .left, d.1, d.2.1, false, none⟩, statusField]⟩, d.2.2)
  else
    let d := s.destination 152 r
    (⟨.role role, .record r.code r.revision,
      [⟨0, 32, .left, timeText r.scheduled, none, false, none⟩,
       ⟨36, 152, .left, d.1, d.2.1, false, none⟩, statusField]⟩, d.2.2)

/-! ## The calling text (R34, R107) -/

/-- R107: a stop item: the stop's name, with its time when it has one. -/
def stopItem (name : List Byte) (time : Option Nat) : List Byte :=
  match time with
  | some t => name ++ str " (" ++ timeText t ++ str ")"
  | none => name

/-- R107: items joined by ", ", with " and " in place of the last. -/
def joinItems : List (List Byte) → List Byte
  | [] => []
  | [x] => x
  | [x, y] => x ++ str " and " ++ y
  | x :: rest => x ++ str ", " ++ joinItems rest

/-- R107: the carriage suffix. -/
def carriageSuffix : Option Nat → List Byte
  | none => []
  | some n => str "  Formed of " ++ decimal n ++ (if n = 1 then str " coach." else str " coaches.")

/-- R107: the items of the stops whose places are defined. -/
def State.stopItems (s : State) (r : Departure) : List (List Byte) :=
  r.stops.filterMap fun st => (s.place? st.place).map fun e => stopItem e.name st.time

/-- R107: the calling text from the stop items and the destination's name. -/
def callingBody (stops : List (List Byte)) (dest : Option (List Byte)) : List Byte :=
  match stops, dest with
  | [], none => str "Calling at:"
  | [], some d => str "Calling at: " ++ d ++ str " only."
  | _, _ => str "Calling at: " ++ joinItems (stops ++ dest.toList) ++ str "."

/-- R107: the calling text of a record. -/
def State.callingText (s : State) (r : Departure) : List Byte :=
  match r.status with
  | .cancelled => str "This train has been cancelled."
  | .running =>
    callingBody (s.stopItems r) ((s.place? r.dest).map fun e => e.name) ++ carriageSuffix r.carriages

/-- R34, R35: the undefined places the calling text resolves: stops in calling order, then the
destination; none for a cancelled record. -/
def State.callingUndefined (s : State) (r : Departure) : List Nat :=
  match r.status with
  | .cancelled => []
  | .running =>
    ((r.stops.map fun st => st.place) ++ [r.dest]).filter fun n => (s.place? n).isNone

/-! ## Rotation (R104) and the bottom list (R109) -/

/-- The NEXT lines of a face. -/
def FaceSettings.nextLines (c : FaceSettings) : Nat := c.roles.toList.count .next

/-- The lines of a role above line k. -/
def FaceSettings.linesAbove (c : FaceSettings) (k : Nat) (r : Role) : Nat := (c.roles.toList.take k).count r

/-- R104: the size P of the rotation pool, entries n + 2 to min(V, n + 1 + RD). -/
def State.poolEntries (s : State) (f : Face) : Nat :=
  let n := (s.faces.get f).settings.nextLines
  let v := (s.view f).length
  if v < n + 2 then 0 else min v (n + 1 + s.params.rotateDepth) - (n + 1)

/-- R104: the record that ROTATE line r shows. -/
def State.rotateRecord (s : State) (f : Face) (r : Nat) : Option Departure :=
  let c := s.faces.get f
  let p := s.poolEntries f
  if r < p then (s.view f)[c.settings.nextLines + 1 + (c.rotate + r) % p]? else none

/-- R109: the bottom rotation list: the clock, then HIGH, then LOW BOTTOM notices of the face. -/
def State.bottomList (s : State) (f : Face) : List BottomEntry :=
  let mine := s.notices.filter fun n => n.scope == .bottom && n.targets.has f
  .clock :: ((mine.filter fun n => n.cls == .high) ++ (mine.filter fun n => n.cls == .low)).map fun n => .notice n.id

/-- R109, R113: the text of a bottom entry, and whether it flashes. -/
def State.bottomText (s : State) (e : BottomEntry) : List Byte × Bool :=
  match e with
  | .clock => (clockText s.clock, false)
  | .notice id =>
    match s.notice? id with
    | some n => (n.text, n.flash)
    | none => ([], false)

/-- R116: the source identity of a bottom entry. -/
def BottomEntry.source : BottomEntry → Source
  | .clock => .clock
  | .notice id => .notice id

/-! ## Ticker restarts (R108, R115 part 6) -/

/-- The text wider than 256 columns that a face's CALLING line shows, with its record's code. -/
def State.wideCalling (s : State) (f : Face) : Option (Nat × List Byte) :=
  if (s.faces.get f).settings.roles.toList.contains .calling then
    ((s.view f).head?.map fun r => (r.code, s.callingText r)).filter fun x => Config.lineWidth < textWidth x.2
  else none

/-- The text wider than 256 columns that a face's BOTTOM line shows. -/
def State.wideBottom (s : State) (f : Face) : Option (BottomEntry × List Byte) :=
  let c := s.faces.get f
  if c.settings.roles.toList.contains .bottom then
    (some (c.entry, (s.bottomText c.entry).1)).filter fun x => Config.lineWidth < textWidth x.2
  else none

/-- R108: the tickers of a face for the texts of the plan being taken. -/
def State.restartTickers (s : State) (f : Face) : State :=
  let calling := s.wideCalling f
  let bottom := s.wideBottom f
  s.modFace f fun c =>
    { c with
      calling := calling.map fun x => Ticker.keepOrBuild c.calling c.restartPending (.record x.1) x.2 s.params.tickerHold
      bottom := bottom.map fun x => Ticker.keepOrBuild c.bottom c.restartPending (.entry x.1) x.2 s.params.tickerHold
      restartPending := false }

/-! ## The lines of a plan (R103, R105 to R109) -/

/-- A line that shows a record, or a dark line beyond the end of the view. -/
def State.recordOrDark (s : State) (f : Face) (role : Role) (r : Option Departure) : PlanLine × List Nat :=
  match r with
  | some r => s.recordLine f role r
  | none => (darkLine role, [])

/-- R103: line k of a plan of the departure view, with the undefined places it resolved in order. -/
def State.planLine (s : State) (f : Face) (k : Fin 4) : PlanLine × List Nat :=
  let c := s.faces.get f
  let view := s.view f
  match c.settings.roles[k] with
  | .empty => (darkLine .empty, [])
  | .first =>
    match view.head? with
    | some r => s.recordLine f .first r
    | none => (⟨.role .first, .phrase, [lineField .centre (str "No departures") false none]⟩, [])
  | .next => s.recordOrDark f .next view[c.settings.linesAbove k .next + 1]?
  | .rotate => s.recordOrDark f .rotate (s.rotateRecord f (c.settings.linesAbove k .rotate))
  | .calling =>
    match view.head? with
    | some r =>
      (⟨.role .calling, .record r.code r.revision,
        [lineField .left (s.callingText r) false (c.calling.map fun t => t.pos)]⟩, s.callingUndefined r)
    | none => (darkLine .calling, [])
  | .bottom =>
    let text := s.bottomText c.entry
    (⟨.role .bottom, c.entry.source, [lineField .centre text.1 text.2 (c.bottom.map fun t => t.pos)]⟩, [])

/-! ## FULL notices (R111, R112) -/

/-- R111: the FULL notice chosen for a face. -/
def State.chooseFull (s : State) (f : Face) : Option Notice :=
  let mine := s.notices.filter fun n => n.scope == .full && n.targets.has f
  (mine.find? fun n => n.cls == .high) <|> (mine.find? fun n => n.cls == .low)

/-- R111, R112: the page of a chosen FULL notice. -/
def Composer.pageFor (c : Composer) (n : Notice) : Nat :=
  if c.lastPlan.bind (fun p => p.full) = some ⟨n.id, n.text⟩ && c.page ≤ pageCount n.text then c.page else 1

/-- R112, R116, R131: line k of a page of a FULL notice; a line without text is dark (log entry 15). -/
def fullLine (n : Notice) (page : Nat) (k : Fin 4) : PlanLine :=
  let text := (wrapText n.text).getD (4 * (page - 1) + k) []
  ⟨.full, if text.isEmpty then .none else .page n.id page, [lineField .centre text n.flash none]⟩

/-! ## PLAN (R115) -/

/-- R115: whether a plan of a face is taken: IDLE, dirty, LIT or WOKEN, and not LOADING. -/
def State.planDue (s : State) (f : Face) : Bool :=
  let c := s.faces.get f
  c.rebuild == .idle && c.dirty && c.showing && s.loader.phase != .loading

/-- R115 part 8: a plan becomes the plan in hand and the last plan taken, and goes to the painter. -/
def State.handPlan (s : State) (f : Face) (plan : Plan) : State :=
  (s.modFace f fun c =>
    { c with rebuild := .painting, inHand := some plan, lastPlan := some plan, serial := plan.serial }).handToPainter
      ⟨f, plan.serial⟩

/-- R111: a plan that shows a FULL notice. -/
def State.planFull (s : State) (f : Face) (n : Notice) : State :=
  let c := s.faces.get f
  let page := c.pageFor n
  let plan : Plan := ⟨c.serial + 1, Vector.ofFn (fullLine n page), s.flashOn, some ⟨n.id, n.text⟩⟩
  (s.modFace f fun c => { c with calling := none, bottom := none, page := page }).handPlan f plan

/-- R110, R112: the composer before the lines of a departure view are decided: after a FULL notice a
restart is pending and the pass flag clear; an entry no longer in the list gives way to the clock. -/
def Composer.backToView (list : List BottomEntry) (c : Composer) : Composer :=
  let c := if c.showedFull then { c with restartPending := true, pass := false } else c
  if list.contains c.entry then c else { c with entry := .clock, pass := false }

/-- R35: the locales of PLACE_UNDEFINED for the undefined places of line k. -/
def undefinedLocales (f : Face) (k : Fin 4) (places : List Nat) : List Locale :=
  places.map fun n => ⟨.face f, some (k.val + 1), some n⟩

/-- R108 to R110, R112: the rotation and the tickers brought up for a plan of the departure view. -/
def State.prepareView (s : State) (f : Face) : State :=
  (s.modFace f (Composer.backToView (s.bottomList f))).restartTickers f

/-- R103 to R107: the plan of the departure view. -/
def State.viewPlan (s : State) (f : Face) : Plan :=
  ⟨(s.faces.get f).serial + 1, Vector.ofFn fun k => (s.planLine f k).1, s.flashOn, none⟩

/-- R35: the faults of the plan of the departure view, in line order. -/
def State.viewFaults (s : State) (f : Face) : List Locale :=
  (List.finRange 4).flatMap fun k => undefinedLocales f k (s.planLine f k).2

/-- R103 to R110: take a plan of the departure view. -/
def State.planView (s : State) (f : Face) : State :=
  let t := s.prepareView f
  (t.raiseAll .placeUndefined (t.viewFaults f)).handPlan f (t.viewPlan f)

/-- R115: take a plan of a face. -/
def State.takePlan (s : State) (f : Face) : State :=
  let s := s.modFace f fun c => { c with dirty := false }
  match s.chooseFull f with
  | some n => s.planFull f n
  | none => s.planView f

/-- PLAN (R115): no plan is taken unless its conditions hold. -/
def execPlan (f : Face) (s : State) : Host.Outcome State Fault Refusal :=
  .next (if s.planDue f then s.takePlan f else s)

/-! ## PAINT_COMPLETION (R117, R137, R139) -/

/-- R117, R137, R139: a composer takes the completion of its plan in hand: the back bitmap holds the
painted plan, the substitute glyphs painted are reported, and the rebuild enters SWAP_PENDING. -/
def State.takeCompletion (s : State) (f : Face) (serial : Nat) : State :=
  let c := s.faces.get f
  match c.rebuild, c.inHand with
  | .painting, some plan =>
    if plan.serial = serial then
      ((s.modPanel f fun p => { p with back := plan.paint }).modFace f fun c =>
        { c with rebuild := .swapPending }).raiseAll .glyphSubstituted (plan.substituteLocales f)
    else s
  | _, _ => s

/-- PAINT_COMPLETION (R117): the painter ends the plan it is painting and begins any waiting one; a
completion of any other plan is discarded. -/
def execPaintCompletion (f : Face) (serial : Nat) (s : State) : Host.Outcome State Fault Refusal :=
  .next (if s.painter.current = some ⟨f, serial⟩ then s.painterNext.takeCompletion f serial else s)

end Sys2Proof.Machine
end

