-- ==== Sys2Proof/Machine/Faces.lean ====
section
/-! DEFINITION. The face requests (chapters 6 and 8): SET FACE, READ FACE and READ SHOWN. -/

namespace Sys2Proof.Machine

/-- R93, R95: whether the bound platforms or the line roles of two settings differ (log entry 38). -/
def FaceSettings.layoutDiffers (old new : FaceSettings) : Bool :=
  !(old.platforms.all new.platforms.contains && new.platforms.all old.platforms.contains)
    || old.roles.toList != new.roles.toList

/-- R95 parts 1 to 3: the settings, the layout state and the wake countdown. -/
def Composer.setSettings (new : FaceSettings) (c : Composer) : Composer :=
  let countdown := if new.modeOn || c.settings.modeOn then 0 else c.countdown
  if c.settings.layoutDiffers new then
    { c with settings := new, countdown := countdown, rotate := 0, entry := .clock, pass := false, page := 1,
             restartPending := true }
  else { c with settings := new, countdown := countdown }

/-- R95: SET FACE taken as one change of the named face. -/
def State.setFaceSettings (s : State) (f : Face) (new : FaceSettings) : State :=
  (((s.modFace f (Composer.setSettings new)).departureWake f).settle f).markDirty f

/-- SET FACE taken (R94, R95). -/
def takeSetFace (p : Port) (fields : List Byte) (s : State) : State × Reply :=
  withOperands (parseSetFace fields) s fun q =>
    withRights p .config [0] s (s.setFaceSettings q.1 q.2, .plain .ok)

/-- SET_FACE (R95). -/
def execSetFace (p : Port) (tag : Byte) (fields : List Byte) (s : State) : Host.Outcome State Fault Refusal :=
  .next (s.serve p 0x38 tag (takeSetFace p fields))

/-- READ FACE taken (R96). -/
def takeReadFace (fields : List Byte) (s : State) : State × Reply :=
  withOperands (parseFace fields) s fun f =>
    let c := s.faces.get f
    (s, .okWith (c.settings.bytes ++ [byte c.state.code, byte c.countdown]))

/-- READ_FACE (R96). -/
def execReadFace (p : Port) (tag : Byte) (fields : List Byte) (s : State) : Host.Outcome State Fault Refusal :=
  .next (s.serve p 0x39 tag (takeReadFace fields))

/-- R148: a line is confirmed unless its chain is FAILED. -/
def ChainState.confirmed (c : ChainState) : Bool := c != .failed

/-- R148, R174: what READ SHOWN returns of a face. -/
def State.shownBytes (s : State) (f : Face) : List Byte :=
  let p := s.panels.get f
  [byte (s.faces.get f).state.code, byte p.out.code, byte p.faceDuty]
    ++ (List.finRange 4).flatMap fun k =>
      p.frontPlan.lines[k].source.bytes ++ [byte p.chains[k].code, yesNo p.chains[k].confirmed]

/-- READ SHOWN taken (R148). -/
def takeReadShown (fields : List Byte) (s : State) : State × Reply :=
  withOperands (parseNone fields) s fun _ =>
    (s, .okWith (be16 s.ambient.level ++ s.shownBytes .a ++ s.shownBytes .b))

/-- READ_SHOWN (R148). -/
def execReadShown (p : Port) (tag : Byte) (fields : List Byte) (s : State) : Host.Outcome State Fault Refusal :=
  .next (s.serve p 0x3A tag (takeReadShown fields))

end Sys2Proof.Machine
end

