-- ==== Sys2Proof/Machine/Inputs.lean ====
section
/-! DEFINITION. Input lines (chapter 9): sampling and debounce, what a counted change hands on, and READ INPUTS. -/

namespace Sys2Proof.Machine

/-- The other level. -/
def flipLevel : Level → Level
  | .low => .high
  | .high => .low

/-- R155: whether a change to a level is an edge for a sense. -/
def isEdge (sense : Nat) (level : Level) : Bool :=
  match sense, level with
  | 0, .high => true
  | 0, .low => false
  | 1, .low => true
  | 1, .high => false
  | _, _ => true

/-- R97: work out afresh the effective state of each face of a selection. -/
def State.settleSelected (s : State) (sel : FaceSel) : State :=
  s.eachFace fun f t => if sel.has f then t.settle f else t

/-- R160: a WAKE edge hands one wake event of source INPUT to each selected face. -/
def State.wakeEdge (s : State) (sel : FaceSel) : State :=
  State.settleSelected (s.eachFace fun f t => if sel.has f then t.wake f .input else t) sel

/-- R156: what a line hands on when its settled level has taken a new value; `before` is the line as it
was. -/
def State.handLineOn (s : State) (l : Fin 4) (before : InputLine) : State :=
  let line := s.lines[l]
  match line.function with
  | .none => s
  | .blank => if line.active = before.active then s else s.settleSelected line.face
  | .lampTest => if line.active = before.active then s else s.settleSelected .both
  | .approach => if isEdge line.sense line.settled then s.approachEdge line.face else s
  | .wake => if isEdge line.sense line.settled then s.wakeEdge line.face else s

/-- R156: a change counts: the settled level moves, the pending count is 0, and the line hands on. -/
def State.countChange (s : State) (l : Fin 4) : State :=
  (s.modLine l fun x => { x with settled := flipLevel x.settled, pending := 0 }).handLineOn l s.lines[l]

/-- CHANGE_COUNTS (R156): the command is the count of a change itself, and looks at no count (log entry 35). -/
def execChangeCounts (l : Fin 4) (s : State) : Host.Outcome State Fault Refusal :=
  .next (s.countChange l)

/-- PIN_SAMPLE (R156): one sample of a pin. -/
def execPinSample (l : Fin 4) (level : Level) (s : State) : Host.Outcome State Fault Refusal :=
  let line := s.lines[l]
  .next
    (if level = line.settled then s.modLine l fun x => { x with pending := 0 }
    else if line.pending < line.debounce then s.modLine l fun x => { x with pending := x.pending + 1 }
    else s.countChange l)

/-- R162, R174: what READ INPUTS returns of a line. -/
def InputLine.bytes (l : InputLine) : List Byte :=
  [byte l.function.code, byte l.face.code, byte l.sense, byte l.debounce, byte (Level.code l.settled),
   yesNo l.active, yesNo (l.pending != 0)]

/-- READ INPUTS taken (R162). -/
def takeReadInputs (fields : List Byte) (s : State) : State × Reply :=
  withOperands (parseNone fields) s fun _ => (s, .okWith (s.lines.toList.flatMap InputLine.bytes))

/-- READ_INPUTS (R162). -/
def execReadInputs (p : Port) (tag : Byte) (fields : List Byte) (s : State) : Host.Outcome State Fault Refusal :=
  .next (s.serve p 0x3B tag (takeReadInputs fields))

end Sys2Proof.Machine
end

