-- ==== Sys2Proof/Machine/Timers.lean ====
section
/-! DEFINITION. Expiries of the interval timers (chapter 4) and what they drive: ticker steps, rotation, pages, the bottom rotation, the flash phase and ambient sampling. -/

namespace Sys2Proof.Machine

/-- R73: the timer itself at an expiry: back to 0, and stopped in mode SINGLE. -/
def Timer.expire (t : Timer) : Timer :=
  { t with counter := 0, sub := 0, running := match t.mode with
      | .auto => t.running
      | .single => false }

/-- R74: a timer after a write of its settings. -/
def Timer.restart (t : Timer) : Timer := { t with counter := 0, sub := 0, running := t.reload != 0 }

/-- R108, R134: a T0 or T1 expiry at a composer: each active ticker steps, a completed pass of the
bottom ticker sets the pass flag, and the face is marked dirty when a ticker is active. -/
def Composer.stepTickers (hold : Nat) (c : Composer) : Composer :=
  if c.showing then
    { c with
      calling := c.calling.map fun t => t.step hold
      bottom := c.bottom.map fun t => t.step hold
      pass := c.pass || c.bottom.any Ticker.stepCompletes
      dirty := c.dirty || c.calling.isSome || c.bottom.isSome }
  else c

/-- R112: a T2 expiry of a face whose last plan showed a FULL notice: the page advances. -/
def Composer.advancePage (pages : Nat) (c : Composer) : Composer :=
  { c with page := if pages ≤ c.page then 1 else c.page + 1, dirty := c.dirty || 2 ≤ pages }

/-- R104: a T2 expiry of a face whose last plan showed no FULL notice: the ROTATE index moves. -/
def Composer.advanceRotate (pool : Nat) (c : Composer) : Composer :=
  { c with
    rotate := if pool = 0 then 0 else (c.rotate + 1) % pool
    dirty := c.dirty || (c.settings.roles.toList.contains .rotate && 2 ≤ pool) }

/-- R104, R112: a T2 expiry at a face. -/
def State.rotateStep (s : State) (f : Face) : State :=
  let c := s.faces.get f
  if c.showing then
    match c.lastPlan.bind fun p => p.full with
    | some shown => s.modFace f (Composer.advancePage (pageCount shown.text))
    | none => s.modFace f (Composer.advanceRotate (s.poolEntries f))
  else s

/-- R110: the entry after one in the list; after the last, the clock entry. -/
def entryAfter (e : BottomEntry) : List BottomEntry → BottomEntry
  | [] => .clock
  | x :: rest => if x = e then rest.headD .clock else entryAfter e rest

/-- R110: the current bottom entry after a T3 expiry. -/
def Composer.nextEntry (list : List BottomEntry) (c : Composer) : BottomEntry :=
  if !list.contains c.entry then .clock
  else if c.bottom.isSome && !c.pass then c.entry
  else entryAfter c.entry list

/-- R110: a T3 expiry at a composer; an entry change clears the pass flag and marks the face dirty. -/
def Composer.rotateBottom (list : List BottomEntry) (c : Composer) : Composer :=
  if c.showing && c.settings.roles.toList.contains .bottom && !c.showedFull && c.nextEntry list != c.entry then
    { c with entry := c.nextEntry list, pass := false, dirty := true }
  else c

/-- R110: a T3 expiry at a face. -/
def State.bottomStep (s : State) (f : Face) : State := s.modFace f (Composer.rotateBottom (s.bottomList f))

/-- R113: a plan has a flashing field. -/
def Plan.flashes (p : Plan) : Bool := p.lines.toList.any fun l => l.fields.any fun fd => fd.flashing

/-- R113: a flash toggle at a composer. -/
def Composer.flashToggle (c : Composer) : Composer :=
  if c.showing && c.lastPlan.any Plan.flashes then { c with dirty := true } else c

/-- R75: a T4 expiry toggles the flash phase and hands the toggle to both composers. -/
def State.toggleFlash (s : State) : State :=
  State.eachFace { s with flashOn := !s.flashOn } fun f t => t.modFace f Composer.flashToggle

/-- R72, R75: the expiry handed to the block that takes it. -/
def State.handExpiry (s : State) (t : Fin 6) : State :=
  match t with
  | 0 => s.modFace .a (Composer.stepTickers s.params.tickerHold)
  | 1 => s.modFace .b (Composer.stepTickers s.params.tickerHold)
  | 2 => s.eachFace fun f u => u.rotateStep f
  | 3 => s.eachFace fun f u => u.bottomStep f
  | 4 => s.toggleFlash
  | 5 => s.sampleAmbient

/-- R73: the counter of a running timer has reached its reload; a write taken first puts it back to 0, and the
expiry that was due does not come (R74). -/
def Timer.over (t : Timer) : Bool := t.running && t.reload ≤ t.counter

/-- TIMER_EXPIRY (R73): neither a stopped timer nor one short of its reload expires. -/
def execTimerExpiry (t : Fin 6) (s : State) : Host.Outcome State Fault Refusal :=
  .next (if s.timers[t].over then (s.modTimer t Timer.expire).handExpiry t else s)

end Sys2Proof.Machine
end

