-- ==== Sys2Proof/Machine/Zones.lean ====
section
/-! DEFINITION. The access zone table's requests (chapter 3). -/

namespace Sys2Proof.Machine

/-- R49: the lockout test: some zone is enabled, has low platform 0 and carries CONFIG. -/
def lockoutPasses (zones : Vector Zone 8) : Bool :=
  zones.toList.any fun z => z.enabled && z.low == 0 && z.rights.config

/-- WRITE ZONE taken (R48, R49). -/
def takeWriteZone (p : Port) (fields : List Byte) (s : State) : State × Reply :=
  withOperands (parseWriteZone fields) s fun q =>
    withRights p .config [0] s
      (let zones := s.zones.set q.1 q.2
        if lockoutPasses zones then ({ s with zones := zones }, .plain .ok) else (s, .plain .lockout))

/-- WRITE_ZONE (R48). -/
def execWriteZone (p : Port) (tag : Byte) (fields : List Byte) (s : State) : Host.Outcome State Fault Refusal :=
  .next (s.serve p 0x20 tag (takeWriteZone p fields))

/-- READ ZONE taken (R50). -/
def takeReadZone (fields : List Byte) (s : State) : State × Reply :=
  withOperands (parseZoneNumber fields) s fun n => (s, .okWith s.zones[n].bytes)

/-- READ_ZONE (R50). -/
def execReadZone (p : Port) (tag : Byte) (fields : List Byte) (s : State) : Host.Outcome State Fault Refusal :=
  .next (s.serve p 0x21 tag (takeReadZone fields))

/-- R52: the platforms from low to high. -/
def platformRange (low high : Nat) : List Nat := (List.range (high + 1)).filter fun p => low ≤ p

/-- R52: the all and some flags of a right over a range. -/
def probeFlags (zones : Vector Zone 8) (q : ProbeRequest) (right : Right) : List Byte :=
  let span := platformRange q.low q.high
  [yesNo (span.all (granted zones q.origin right)), yesNo (span.any (granted zones q.origin right))]

/-- R52: the PROBE RIGHTS reply: OV, then all and some of each right (log entry 23). -/
def probeReply (zones : Vector Zone 8) (q : ProbeRequest) : List Byte :=
  if q.high < q.low || 31 < q.high then 1 :: List.replicate 8 0
  else 0 :: [Right.depart, .status, .notice, .config].flatMap (probeFlags zones q)

/-- PROBE RIGHTS taken (R51): CONFIG on platform 0 for another origin than the requester's. -/
def takeProbeRights (p : Port) (fields : List Byte) (s : State) : State × Reply :=
  withOperands (parseProbe fields) s fun q =>
    withRights p .config (if q.origin = p then [] else [0]) s (s, .okWith (probeReply s.zones q))

/-- PROBE_RIGHTS (R51). -/
def execProbeRights (p : Port) (tag : Byte) (fields : List Byte) (s : State) : Host.Outcome State Fault Refusal :=
  .next (s.serve p 0x22 tag (takeProbeRights p fields))

end Sys2Proof.Machine
end

