-- ==== Sys2Proof/Machine/Settings.lean ====
section
/-! DEFINITION. Parameters, the settings image and the loader (chapter 12): SET and READ PARAMETER, the image's bytes and validity, and loading. -/

namespace Sys2Proof.Machine

/-! ## Parameters (R183) -/

/-- R183: the parameters. -/
inductive Param where
  | ro | linger | unknownHold | wakeWindow | wakeHold | rotateDepth | tickerHold
  | reload (t : Fin 6) | unit (t : Fin 6) | mode (t : Fin 6)
  | curve | cap (f : Face)
  | framePeriod | checkInterval | startDelay
  | baud (p : Port) | limit (p : Port) | stale (p : Port)
  | line (l : Fin 4)
  | trim (f : Face) (m : Fin 32)
deriving DecidableEq, Repr

/-- R183: the number of a parameter. -/
def Param.number : Param → Nat
  | .ro => 0x01
  | .linger => 0x02
  | .unknownHold => 0x03
  | .wakeWindow => 0x04
  | .wakeHold => 0x05
  | .rotateDepth => 0x06
  | .tickerHold => 0x07
  | .reload t => 0x10 + t
  | .unit t => 0x18 + t
  | .mode t => 0x20 + t
  | .curve => 0x28
  | .cap .a => 0x29
  | .cap .b => 0x2A
  | .framePeriod => 0x30
  | .checkInterval => 0x31
  | .startDelay => 0x32
  | .baud p => 0x38 + Port.number p
  | .limit p => 0x3C + Port.number p
  | .stale p => 0x40 + Port.number p
  | .line l => 0x48 + l
  | .trim .a m => 0x80 + m
  | .trim .b m => 0xA0 + m

/-- R183: every parameter, in ascending number. -/
def Param.all : List Param :=
  [.ro, .linger, .unknownHold, .wakeWindow, .wakeHold, .rotateDepth, .tickerHold]
    ++ (List.finRange 6).map .reload ++ (List.finRange 6).map .unit ++ (List.finRange 6).map .mode
    ++ [.curve, .cap .a, .cap .b, .framePeriod, .checkInterval, .startDelay]
    ++ portList.map .baud ++ portList.map .limit ++ portList.map .stale
    ++ (List.finRange 4).map .line
    ++ (List.finRange 32).map (.trim .a) ++ (List.finRange 32).map (.trim .b)

/-- The parameter of a number, if it is in the table. -/
def Param.ofNumber (n : Nat) : Option Param := Param.all.find? fun p => p.number == n

/-- R183: the value length of a parameter. -/
def Param.bytes : Param → Nat
  | .ro | .reload _ | .checkInterval | .limit _ => 2
  | .curve => 24
  | .line _ => 4
  | .linger | .unknownHold | .wakeWindow | .wakeHold | .rotateDepth | .tickerHold
  | .unit _ | .mode _ | .cap _ | .framePeriod | .startDelay | .baud _ | .stale _ | .trim _ _ => 1

/-- A value as a big-endian number. -/
def beValue (bytes : List Byte) : Nat := bytes.foldl (fun n b => n * 256 + b.toNat) 0

/-- R152, R183: the points of a curve value: eight of a_i (2) and d_i (1). -/
def readPoints : List Byte → List CurvePoint
  | hi :: lo :: d :: rest => ⟨nat16 hi lo, d.toNat⟩ :: readPoints rest
  | _ => []

/-- R152: a curve of eight points. -/
def curveOf (points : List CurvePoint) : Vector CurvePoint 8 := Vector.ofFn fun i => points.getD i ⟨0, 0⟩

/-- R155: the four settings of an input line. -/
structure LineSettings where
  function : LineFunction
  face : FaceSel
  sense : Nat
  debounce : Nat
deriving DecidableEq, Repr

/-- R155: the settings of an input line value; sense code 2 is refused for a level function. -/
def readLine : List Byte → Option LineSettings
  | [function, face, sense, debounce] =>
    match readFunction function.toNat, readFaceSel face.toNat with
    | some fn, some sel =>
      if sense.toNat ≤ 1 || (sense.toNat == 2 && fn != .blank && fn != .lampTest) then
        some ⟨fn, sel, sense.toNat, debounce.toNat⟩
      else none
    | _, _ => none
  | _ => none

/-- R183: whether a value of the parameter's length is accepted. -/
def Param.accepts (p : Param) (value : List Byte) : Bool :=
  let n := beValue value
  match p with
  | .ro => n < 1440
  | .linger => n ≤ 30
  | .unknownHold => n ≤ 240
  | .wakeWindow | .wakeHold => n ≤ 120
  | .rotateDepth => 1 ≤ n && n ≤ 6
  | .tickerHold | .reload _ | .cap _ | .trim _ _ => true
  | .unit _ => (readUnit n).isSome
  | .mode _ => (readMode n).isSome
  | .curve => curveFits (readPoints value)
  | .framePeriod => 5 ≤ n && n ≤ 20
  | .checkInterval => 1 ≤ n && n ≤ 1000
  | .startDelay => n == 4 || n == 16 || n == 64
  | .baud _ => (readBaud n).isSome
  | .limit _ => n ≤ 600
  | .stale _ => (readStale n).isSome
  | .line _ => (readLine value).isSome

/-- R163: a change of a port's baud: held at once, and applied to the line at once in HUNT. -/
def LinkPort.setBaud (b : Baud) (port : LinkPort) : LinkPort :=
  { port with baud := b, lineBaud := if port.state = .hunt then b else port.lineBaud }

/-- R157: a write of a line's settings: the pending count becomes 0 and the settled level is kept. -/
def InputLine.write (c : LineSettings) (l : InputLine) : InputLine :=
  { l with function := c.function, face := c.face, sense := c.sense, debounce := c.debounce, pending := 0 }

/-- R169, R183: a silence limit written governs at once. -/
def LinkPort.setLimit (n : Nat) (port : LinkPort) : LinkPort := { port with limit := n, limitInForce := n }

/-- R170, R183: a stale action written governs at once. -/
def LinkPort.setStale (action : Stale) (port : LinkPort) : LinkPort := { port with stale := action, staleInForce := action }

/-- R183: the value takes its place in the owner; the table is re-sorted (R23), timers restart (R74), an input line drops its pending
count (R157), a port takes its baud (R163), a silence limit or stale action governs (R169). A coded value that is not accepted changes nothing. -/
def State.writeParam (s : State) (p : Param) (value : List Byte) : State :=
  let n := beValue value
  match p with
  | .ro => { s with params := { s.params with ro := n }, table := sortRecords n s.table }
  | .linger => { s with params := { s.params with linger := n } }
  | .unknownHold => { s with params := { s.params with unknownHold := n } }
  | .wakeWindow => { s with params := { s.params with wakeWindow := n } }
  | .wakeHold => { s with params := { s.params with wakeHold := n } }
  | .rotateDepth => { s with params := { s.params with rotateDepth := n } }
  | .tickerHold => { s with params := { s.params with tickerHold := n } }
  | .framePeriod => { s with params := { s.params with framePeriod := n } }
  | .checkInterval => { s with params := { s.params with checkInterval := n } }
  | .startDelay => { s with params := { s.params with startDelay := n } }
  | .reload t => s.modTimer t fun x => Timer.restart { x with reload := n }
  | .unit t => s.modTimer t fun x => Timer.restart { x with unit := (readUnit n).getD x.unit }
  | .mode t => s.modTimer t fun x => Timer.restart { x with mode := (readMode n).getD x.mode }
  | .curve => { s with ambient := { s.ambient with curve := curveOf (readPoints value) } }
  | .cap f => s.modPanel f fun x => { x with cap := n }
  | .trim f m => s.modPanel f fun x => { x with trims := x.trims.set m n }
  | .baud q => s.modPort q fun x => x.setBaud ((readBaud n).getD x.baud)
  | .limit q => s.modPort q (LinkPort.setLimit n)
  | .stale q => s.modPort q fun x => x.setStale ((readStale n).getD x.stale)
  | .line l =>
    match readLine value with
    | some c => s.modLine l (InputLine.write c)
    | none => s

/-- R157: whether the holdings of a face differ between two states. -/
def State.holdingDiffers (s t : State) (f : Face) : Bool :=
  s.lampTestHeld != t.lampTestHeld || s.blankHeld f != t.blankHeld f

/-- R183: the further effects of a SET PARAMETER write, given the state `before` it. -/
def State.paramEffects (s before : State) (p : Param) : State :=
  match p with
  | .ro => s.touchEvery.markBoth
  | .rotateDepth | .tickerHold | .stale _ => s.markBoth
  | .curve => s.eachFace fun f t => t.recomputeDuties f
  | .cap f | .trim f _ => s.recomputeDuties f
  | .line _ => s.eachFace fun f t => if before.holdingDiffers s f then t.settle f else t
  | .linger | .unknownHold | .wakeWindow | .wakeHold | .reload _ | .unit _ | .mode _
  | .framePeriod | .checkInterval | .startDelay | .baud _ | .limit _ => s

/-- SET PARAMETER (R171, R183): the parameter and its value. -/
def parseSetParameter : List Byte → Parsed (Param × List Byte)
  | n :: value =>
    match Param.ofNumber n.toNat with
    | none => .error .badField
    | some p => if value.length != p.bytes then .error .badLength else inRange (p.accepts value) (p, value)
  | [] => .error .badLength

/-- SET PARAMETER taken (R183). -/
def takeSetParameter (p : Port) (fields : List Byte) (s : State) : State × Reply :=
  withOperands (parseSetParameter fields) s fun q =>
    withRights p .config [0] s ((s.writeParam q.1 q.2).paramEffects s q.1, .plain .ok)

/-- SET_PARAMETER (R183). -/
def execSetParameter (p : Port) (tag : Byte) (fields : List Byte) (s : State) : Host.Outcome State Fault Refusal :=
  .next (s.serve p 0x40 tag (takeSetParameter p fields))

/-- R183: the value held, in the same layout. -/
def State.readParam (s : State) (p : Param) : List Byte :=
  match p with
  | .ro => be16 s.params.ro
  | .linger => [byte s.params.linger]
  | .unknownHold => [byte s.params.unknownHold]
  | .wakeWindow => [byte s.params.wakeWindow]
  | .wakeHold => [byte s.params.wakeHold]
  | .rotateDepth => [byte s.params.rotateDepth]
  | .tickerHold => [byte s.params.tickerHold]
  | .framePeriod => [byte s.params.framePeriod]
  | .checkInterval => be16 s.params.checkInterval
  | .startDelay => [byte s.params.startDelay]
  | .reload t => be16 s.timers[t].reload
  | .unit t => [byte s.timers[t].unit.code]
  | .mode t => [byte s.timers[t].mode.code]
  | .curve => s.ambient.curve.toList.flatMap fun x => be16 x.amb ++ [byte x.duty]
  | .cap f => [byte (s.panels.get f).cap]
  | .trim f m => [byte (s.panels.get f).trims[m]]
  | .baud q => [byte (s.ports.get q).baud.code]
  | .limit q => be16 (s.ports.get q).limit
  | .stale q => [byte (s.ports.get q).stale.code]
  | .line l => [byte s.lines[l].function.code, byte s.lines[l].face.code, byte s.lines[l].sense, byte s.lines[l].debounce]

/-- READ PARAMETER taken (R183). -/
def takeReadParameter (fields : List Byte) (s : State) : State × Reply :=
  withOperands (parseByte fields) s fun n =>
    match Param.ofNumber n with
    | none => (s, .plain .badField)
    | some p => (s, .okWith (s.readParam p))

/-- READ_PARAMETER (R183). -/
def execReadParameter (p : Port) (tag : Byte) (fields : List Byte) (s : State) : Host.Outcome State Fault Refusal :=
  .next (s.serve p 0x41 tag (takeReadParameter fields))

/-! ## The settings image (R181) -/

/-- R181: bytes filled up with 0 to a length. -/
def padTo (n : Nat) (bytes : List Byte) : List Byte := bytes ++ List.replicate (n - bytes.length) 0

/-- R181: a place list entry of the image, 39 bytes. -/
def placeBlock : Option Place → List Byte
  | none => List.replicate 39 0
  | some e =>
    let short := e.short.getD []
    1 :: byte e.name.length :: padTo 24 e.name ++ byte short.length :: padTo 12 short

/-- R181: every byte of the image before its CRC. -/
def State.imageBody (s : State) : List Byte :=
  0x01 :: s.zones.toList.flatMap Zone.bytes
    ++ s.faces.a.settings.bytes ++ s.faces.b.settings.bytes
    ++ Param.all.flatMap s.readParam
    ++ s.places.toList.flatMap placeBlock

/-- R184: the image formed from a snapshot of the settings. -/
def State.image (s : State) : List Byte := s.imageBody ++ crcBytes s.imageBody

/-- The settings that an image or the defaults give (R182). -/
structure Settings where
  zones : Vector Zone 8
  faces : PerFace FaceSettings
  params : List (Param × List Byte)
  places : Vector (Option Place) 255
deriving DecidableEq, Repr

/-- The settings held by a state. -/
def State.settings (s : State) : Settings where
  zones := s.zones
  faces := ⟨s.faces.a.settings, s.faces.b.settings⟩
  params := Param.all.map fun p => (p, s.readParam p)
  places := s.places

/-- R182: the defaults, which every block takes at reset. -/
def Settings.defaults : Settings := State.reset.settings

/-- A run of the image's bytes. -/
def slice (bytes : List Byte) (start n : Nat) : List Byte := (bytes.drop start).take n

/-- R181: the values of the parameters, each in its value length. -/
def splitParams : List Param → List Byte → List (Param × List Byte)
  | [], _ => []
  | p :: rest, bytes => (p, bytes.take p.bytes) :: splitParams rest (bytes.drop p.bytes)

/-- R181: the entry of a place block, or none where it is not valid. -/
def readPlaceBlock (bytes : List Byte) : Option (Option Place) :=
  let nl := (bytes.getD 1 0).toNat
  let sl := (bytes.getD 26 0).toNat
  match (bytes.getD 0 0).toNat with
  | 0 => if nl = 0 ∧ sl = 0 then some none else none
  | 1 =>
    if 1 ≤ nl ∧ nl ≤ 24 ∧ sl ≤ 12 then some (some ⟨slice bytes 2 nl, shortName (slice bytes 27 sl)⟩) else none
  | _ => none

/-- R181: the zones of an image. -/
def imageZones (bytes : List Byte) : List (Option Zone) :=
  (List.range 8).map fun i => readZone (slice bytes (1 + 5 * i) 5)

/-- R181: the parameters of an image. -/
def imageParams (bytes : List Byte) : List (Param × List Byte) := splitParams Param.all (slice bytes 57 154)

/-- R181: the place entries of an image. -/
def imagePlaces (bytes : List Byte) : List (Option (Option Place)) :=
  (List.range 255).map fun i => readPlaceBlock (slice bytes (211 + 39 * i) 39)

/-- R181: the check word of an image agrees. -/
def imageCrcPasses (bytes : List Byte) : Bool :=
  slice bytes (Config.imageSize - 2) 2 == crcBytes (bytes.take (Config.imageSize - 2))

/-- R181: the settings of a valid image; none for an image that is not valid. -/
def readImage (bytes : List Byte) : Option Settings :=
  if bytes.getD 0 0 != 0x01 then none
  else if !imageCrcPasses bytes then none
  else
    match readSettings (slice bytes 41 8), readSettings (slice bytes 49 8) with
    | some a, some b =>
      if (imageZones bytes).all Option.isSome && (imageParams bytes).all (fun x => x.1.accepts x.2)
          && (imagePlaces bytes).all Option.isSome then
        some
          { zones := Vector.ofFn fun i => ((imageZones bytes).getD i none).getD Zone.defaults[i]
            faces := ⟨a, b⟩
            params := imageParams bytes
            places := Vector.ofFn fun i => ((imagePlaces bytes).getD i none).getD none }
      else none
    | _, _ => none

/-! ## Loading (R182) -/

/-- R182: the outcomes of a load. -/
inductive LoadOutcome where
  | absent | invalid
  | zonesFail (st : Settings)
  | valid (st : Settings)
deriving DecidableEq, Repr

/-- R182: the loader decides the outcome: whether the memory acknowledged, and what it holds. -/
def loadOutcome (acknowledged : Bool) (m : Memory) : LoadOutcome :=
  if !acknowledged then .absent
  else if m.read 0 != 0x01 then .invalid
  else match readImage (m.readBlock 0 Config.imageSize) with
    | none => .invalid
    | some st => if lockoutPasses st.zones then .valid st else .zonesFail st

/-- R182: the settings an outcome applies. -/
def LoadOutcome.applied : LoadOutcome → Settings
  | .absent | .invalid => Settings.defaults
  | .zonesFail st => { st with zones := Zone.defaults }
  | .valid st => st

/-- R182: the fault an outcome raises. -/
def LoadOutcome.fault : LoadOutcome → Option FaultKind
  | .absent => some .settingsAbsent
  | .invalid => some .settingsInvalid
  | .zonesFail _ => some .zonesDefaulted
  | .valid _ => none

/-- R182: the outcome's fault is raised with no locale. -/
def State.raiseLoad (s : State) : Option FaultKind → State
  | some kind => s.raise kind Locale.none
  | none => s

/-- R182 part 1: the place list, zones and face settings. -/
def State.takeSettings (s : State) (st : Settings) : State :=
  let s := { s with zones := st.zones, places := st.places }
  s.eachFace fun f t => t.modFace f fun c => { c with settings := st.faces.get f }

/-- R182 part 2: every parameter is written. -/
def State.writeParams (s : State) (values : List (Param × List Byte)) : State :=
  values.foldl (fun t x => t.writeParam x.1 x.2) s

/-- R120, R182 parts 3 and 4: a face works out its state without a transition; a LIT or WOKEN face is
marked dirty; the panel output of a face that is not DARK enters STARTING. -/
def State.wakeUpFace (s : State) (f : Face) : State :=
  let new := s.effState f
  let s := s.modFace f fun c => { c with state := new, dirty := c.dirty || new == .lit || new == .woken }
  let s := if new = .dark then s else s.modPanel f (Panel.start s.params.startDelay)
  s.recomputeDuties f

/-- R182: an outcome applied as one change, which ends LOADING. -/
def State.applySettings (s : State) (st : Settings) : State :=
  let s := ((s.takeSettings st).writeParams st.params).eachFace fun f t => t.wakeUpFace f
  { s with loader := { s.loader with phase := .ready } }

/-- SETTINGS_READ_COMPLETE (R182): the fault, then the settings; only LOADING reads the image. -/
def execSettingsReadComplete (acknowledged : Bool) (s : State) : Host.Outcome State Fault Refusal :=
  match s.loader.phase with
  | .ready | .storing => .next s
  | .loading =>
    let out := loadOutcome acknowledged s.mem
    .next ((s.raiseLoad out.fault).applySettings out.applied)

end Sys2Proof.Machine
end

