-- ==== Sys2Proof/Machine/Loader.lean ====
section
/-! DEFINITION. Storing the settings, RESET and BOARD RESTART (chapter 12). -/

namespace Sys2Proof.Machine

/-! ## STORE SETTINGS and STORE_COMPLETE (R184) -/

/-- R184 part 1: the loader enters STORING with the image formed from a snapshot; the port stays in
EXECUTE without a reply (R166). -/
def State.startStore (s : State) (p : Port) (tag : Byte) : State :=
  { s with loader := ⟨.storing, some ⟨p, tag, s.image⟩⟩ }

/-- STORE SETTINGS taken: the reply of the step that fails, or none while the store runs. -/
def takeStoreSettings (p : Port) (tag : Byte) (fields : List Byte) (s : State) : State × Option Reply :=
  match parseNone fields with
  | .error code => (s, some (.plain code))
  | .ok _ =>
    match missing s.zones p .config [0] with
    | some pl => (s, some (.refusal .config pl))
    | none => if s.loader.phase = .storing then (s, some (.plain .busy)) else (s.startStore p tag, none)

/-- A request's reply is sent, when it has one already. -/
def State.sendReply? (s : State) (p : Port) (kind tag : Byte) : Option Reply → State
  | some r => s.sendReply p kind tag r
  | none => s

/-- A good STORE SETTINGS frame. -/
def State.serveStore (p : Port) (tag : Byte) (fields : List Byte) (s : State) : State :=
  s.serveWith p 0x42 tag fun t =>
    (takeStoreSettings p tag fields t).1.sendReply? p 0x42 tag (takeStoreSettings p tag fields t).2

/-- STORE_SETTINGS (R184). -/
def execStoreSettings (p : Port) (tag : Byte) (fields : List Byte) (s : State) : Host.Outcome State Fault Refusal :=
  .next (s.serveStore p tag fields)

/-- Free bytes over the image span (log entry 8). -/
def freeImage (draw : Nat) : List Byte := (List.range Config.imageSize).map (Config.storeByte draw)

/-- R184: the memory holds the image; the loader returns to READY. -/
def State.endStore (s : State) (image : List Byte) : State :=
  { s with mem := s.mem.writeBlock 0 image, loader := ⟨.ready, none⟩ }

/-- R184: a store that did not verify leaves free bytes in the image span (log entry 8). -/
def State.failStore (s : State) : State :=
  (State.endStore { s with free := s.free + 1 } (freeImage s.free)).raise .storeFailed Locale.none

/-- STORE_COMPLETE (R184): only a store that runs can end. -/
def execStoreComplete (outcome : StoreOutcome) (s : State) : Host.Outcome State Fault Refusal :=
  match s.loader.phase, s.loader.store with
  | .storing, some job =>
    match outcome with
    | .verified => .next ((s.endStore job.image).sendReply job.port 0x42 job.tag (.plain .ok))
    | .mismatch | .noAcknowledge => .next (s.failStore.sendReply job.port 0x42 job.tag (.plain .storeFailed))
  | _, _ => .next s

/-! ## A store that is abandoned (R184) -/

/-- A run of bytes with its last byte changed. -/
def spoilLast (bytes : List Byte) : List Byte := bytes.dropLast ++ [bytes.getLastD 0 ^^^ 1]

/-- R184: a mixed image, which fails its CRC: free bytes, with the check word spoilt should they pass
it (log entry 9). -/
def mixedImage (draw : Nat) : List Byte :=
  if imageCrcPasses (freeImage draw) then spoilLast (freeImage draw) else freeImage draw

/-- R184: what the memory holds after a store was abandoned. -/
def State.abandonedMemory (s : State) : Memory :=
  match s.loader.phase, s.loader.store with
  | .storing, some job =>
    match Config.storeLeft s.free with
    | .former => s.mem
    | .new => s.mem.writeBlock 0 job.image
    | .mixed => s.mem.writeBlock 0 (mixedImage s.free)
  | _, _ => s.mem

/-! ## RESET (R182) -/

/-- The part after a reset with the levels then sampled: the settings memory, the free values and the
queue stay (log entry 33). -/
def State.resetTo (s : State) (levels : Vector Level 4) : State :=
  { State.reset with
    lines := levels.map InputLine.reset
    mem := s.abandonedMemory
    free := s.free + 1
    pending := s.pending }

/-- RESET (R182). -/
def execReset (in0 in1 in2 in3 : Level) (s : State) : Host.Outcome State Fault Refusal :=
  .next (s.resetTo #v[in0, in1, in2, in3])

/-! ## BOARD RESTART (R185) -/

/-- R166: what a restart from port `p` does to the state of port `q`; `frame` is the reply that `p` has
sent in full. -/
def LinkPort.cutBy (p : Port) (frame : List Byte) (q : Port) (port : LinkPort) : LinkPort :=
  if q = p then { port.toHunt with reply := frame }
  else match port.state with
    | .hunt | .receive => port
    | .execute => port.toHunt
    | .reply => { port.toHunt with reply := [] }

/-- R163, R169, R183, R185: the port's parameters take their defaults; its silence count and flag are kept, and so are the
silence limit and the stale action in force, until the parameters are reloaded. That they are reloaded when LOADING ends,
by every outcome of it, is the model's reading (log entry 40). -/
def LinkPort.withDefaults (port : LinkPort) : LinkPort :=
  LinkPort.setBaud .b38400 { port with limit := 120, stale := .hold }

/-- R143, R146, R185: a panel through a restart: the frame timing and the check counter are kept. -/
def Panel.restart (p : Panel) : Panel :=
  { Panel.reset with elapsed := p.elapsed, period := p.period, counter := p.counter }

/-- R120, R185: a composer through a restart: as after reset; the model's plan numbers go on. -/
def Composer.restart (settings : FaceSettings) (c : Composer) : Composer :=
  { Composer.reset settings with serial := c.serial }

/-- R185 parts 2 to 4: the part after a restart taken from port `p`, whose reply was `frame`. -/
def State.restart (s : State) (p : Port) (frame : List Byte) : State :=
  { State.reset with
    clock := s.clock
    faces := ⟨Composer.restart FaceSettings.defaults.a s.faces.a, Composer.restart FaceSettings.defaults.b s.faces.b⟩
    panels := ⟨s.panels.a.restart, s.panels.b.restart⟩
    ambient := { Ambient.reset with converting := s.ambient.converting }
    lines := s.lines.map fun l => InputLine.reset l.settled
    ports := s.ports.mapWith fun q port => (port.cutBy p frame q).withDefaults
    capture := s.capture
    seen := s.seen
    events := s.events
    mem := s.abandonedMemory
    free := s.free + 1
    pending := s.pending }

/-- BOARD RESTART past its steps, or the reply of the step that fails (R185, log entry 21). -/
def State.takeBoardRestart (s : State) (p : Port) (tag : Byte) (fields : List Byte) : State :=
  match parseNone fields with
  | .error code => s.sendReply p 0x43 tag (.plain code)
  | .ok _ =>
    match missing s.zones p .config [0] with
    | some pl => s.sendReply p 0x43 tag (.refusal .config pl)
    | none => s.restart p (s.replyFrame p 0x43 tag (.plain .ok))

/-- A good BOARD RESTART frame. -/
def State.serveRestart (p : Port) (tag : Byte) (fields : List Byte) (s : State) : State :=
  s.serveWith p 0x43 tag fun t => t.takeBoardRestart p tag fields

/-- BOARD_RESTART (R185). -/
def execBoardRestart (p : Port) (tag : Byte) (fields : List Byte) (s : State) : Host.Outcome State Fault Refusal :=
  .next (s.serveRestart p tag fields)

end Sys2Proof.Machine
end

