-- ==== Sys2Proof/Machine/Places.lean ====
section
/-! DEFINITION. The place list's requests (chapter 2). -/

namespace Sys2Proof.Machine

/-- PUT PLACE taken (R29, R30): always a change; both faces are marked dirty. -/
def takePutPlace (p : Port) (fields : List Byte) (s : State) : State × Reply :=
  withOperands (parsePlace fields) s fun q =>
    withRights p .depart [0] s ((s.setPlace q.number (some q.place)).markBoth, .plain .ok)

/-- PUT_PLACE (R30). -/
def execPutPlace (p : Port) (tag : Byte) (fields : List Byte) (s : State) : Host.Outcome State Fault Refusal :=
  .next (s.serve p 0x10 tag (takePutPlace p fields))

/-- WITHDRAW PLACE taken (R31). -/
def takeWithdrawPlace (p : Port) (fields : List Byte) (s : State) : State × Reply :=
  withOperands (parseNonZero fields) s fun n =>
    withRights p .depart [0] s
      (match s.place? n with
        | none => (s, .plain .notFound)
        | some _ => ((s.setPlace n none).markBoth, .plain .ok))

/-- WITHDRAW_PLACE (R31). -/
def execWithdrawPlace (p : Port) (tag : Byte) (fields : List Byte) (s : State) : Host.Outcome State Fault Refusal :=
  .next (s.serve p 0x11 tag (takeWithdrawPlace p fields))

/-- READ PLACE taken (R32). -/
def takeReadPlace (fields : List Byte) (s : State) : State × Reply :=
  withOperands (parseNonZero fields) s fun n =>
    match s.place? n with
    | none => (s, .plain .notFound)
    | some e => (s, .okWith e.bytes)

/-- READ_PLACE (R32). -/
def execReadPlace (p : Port) (tag : Byte) (fields : List Byte) (s : State) : Host.Outcome State Fault Refusal :=
  .next (s.serve p 0x12 tag (takeReadPlace fields))

end Sys2Proof.Machine
end

