-- ==== Sys2Proof/Machine/Frames.lean ====
section
/-! DEFINITION. Byte arrivals and good frames (chapter 10): the request catalogue by KIND, BYTE_ARRIVAL and UNKNOWN_KIND_FRAME. -/

namespace Sys2Proof.Machine

/-- R167 step 1a: a KIND outside the catalogue is answered BAD_KIND. -/
def State.badKind (p : Port) (kind tag : Byte) (s : State) : State := s.serve p kind tag fun t => (t, .plain .badKind)

/-- R166, R171: a frame that passes its CRC is handed to the request of its KIND. -/
def State.takeFrame (p : Port) (kind tag : Byte) (fields : List Byte) (s : State) : State :=
  match kind.toNat with
  | 0x01 => s.serve p kind tag (takePutDeparture p fields)
  | 0x02 => s.serve p kind tag (takeAmend p fields)
  | 0x03 => s.serve p kind tag (takeAmendIfReserved p fields)
  | 0x04 => s.serve p kind tag (takeWithdrawDeparture p fields)
  | 0x05 => s.serve p kind tag (takePin p fields)
  | 0x06 => s.serve p kind tag (takeUnpin p fields)
  | 0x07 => s.serve p kind tag (takeReadDeparture fields)
  | 0x08 => s.serve p kind tag (takeListDepartures fields)
  | 0x10 => s.serve p kind tag (takePutPlace p fields)
  | 0x11 => s.serve p kind tag (takeWithdrawPlace p fields)
  | 0x12 => s.serve p kind tag (takeReadPlace fields)
  | 0x18 => s.serve p kind tag (takeReserve p fields)
  | 0x19 => s.serve p kind tag (takeDropReservation p fields)
  | 0x20 => s.serve p kind tag (takeWriteZone p fields)
  | 0x21 => s.serve p kind tag (takeReadZone fields)
  | 0x22 => s.serve p kind tag (takeProbeRights p fields)
  | 0x28 => s.serve p kind tag (takePostNotice p fields)
  | 0x29 => s.serve p kind tag (takeWithdrawNotice p fields)
  | 0x2A => s.serve p kind tag (takeReadNotice fields)
  | 0x2B => s.serve p kind tag (takeListNotices fields)
  | 0x30 => s.serve p kind tag (takeSetClock p fields)
  | 0x31 => s.serve p kind tag (takeReadClock fields)
  | 0x38 => s.serve p kind tag (takeSetFace p fields)
  | 0x39 => s.serve p kind tag (takeReadFace fields)
  | 0x3A => s.serve p kind tag (takeReadShown fields)
  | 0x3B => s.serve p kind tag (takeReadInputs fields)
  | 0x40 => s.serve p kind tag (takeSetParameter p fields)
  | 0x41 => s.serve p kind tag (takeReadParameter fields)
  | 0x42 => s.serveStore p tag fields
  | 0x43 => s.serveRestart p tag fields
  | 0x48 => s.serve p kind tag (takeReadFaults fields)
  | 0x49 => s.serve p kind tag (takeClearFaults p fields)
  | 0x4A => s.serve p kind tag (takeReadEvents p fields)
  | _ => s.badKind p kind tag

/-- UNKNOWN_KIND_FRAME (R171): a good frame of a KIND outside the catalogue is answered BAD_KIND; a KIND
of the catalogue is the request of that KIND (log entry 5). -/
def execUnknownKindFrame (p : Port) (kind tag : Byte) (fields : List Byte) (s : State) : Host.Outcome State Fault Refusal :=
  .next (s.takeFrame p kind tag fields)

/-- R165: a complete frame, its LEN and the payload and check bytes that came. -/
def State.completeFrame (s : State) (p : Port) (len : Nat) (data : List Byte) : State :=
  if data.drop len = crcBytes (byte len :: data.take len) then
    match data.take len with
    | kind :: tag :: fields => s.takeFrame p kind tag fields
    | _ => s.crcFail p
  else s.crcFail p

/-- R165: a byte in RECEIVE once LEN is held: it joins the buffer, which may now be complete. -/
def State.holdByte (s : State) (p : Port) (len : Nat) (b : Byte) : State :=
  let data := (s.ports.get p).data ++ [b]
  let t := s.modPort p fun port => { port with data := data, gap := 0 }
  if data.length = len + 2 then t.completeFrame p len data else t

/-- R165: a byte in RECEIVE before LEN is held. -/
def State.takeLen (s : State) (p : Port) (b : Byte) : State :=
  if 2 ≤ b.toNat && b.toNat ≤ 250 then s.modPort p fun port => { port with len := some b.toNat, gap := 0 }
  else (s.dropFrame p).frameBad p

/-- BYTE_ARRIVAL (R165). -/
def execByteArrival (p : Port) (b : Byte) (s : State) : Host.Outcome State Fault Refusal :=
  match (s.ports.get p).state, (s.ports.get p).len with
  | .hunt, _ =>
    if b = 0xA5 then
      .next (s.modPort p fun port => { port with state := .receive, len := none, data := [], gap := 0 })
    else .next s
  | .receive, none => .next (s.takeLen p b)
  | .receive, some len => .next (s.holdByte p len b)
  | .execute, _ | .reply, _ => .next s

end Sys2Proof.Machine
end

