-- ==== Sys2Proof/Machine/Tick.lean ====
section
/-! DEFINITION. What the block does while no command waits (log entry 1): it queues the plans that are due, and otherwise meets the next clock edge, a 1 ms system tick or a cycle of the 32.768 kHz crystal, and queues the events that fall due. -/

namespace Sys2Proof.Machine

/-- R115: the plans due, face A before face B (log entry 31). -/
def State.plansDue (s : State) : List Instr := (faceList.filter s.planDue).map Instr.plan

/-! ## A cycle of the timekeeping crystal (R63, R65) -/

/-- R63, R65: a crystal cycle counts towards RUNNING while STARTING, and in the divider of TIMEKEEPER. -/
def Clock.cycle (c : Clock) : Clock :=
  { c with
    startCount := if c.osc = .starting then c.startCount + 1 else c.startCount
    divider := if c.source = .timekeeper then c.divider + 1 else c.divider }

/-- R63, R65: the events due after a crystal cycle, in the order of the queue (log entry 3). -/
def Clock.cycleDue (c : Clock) : List Instr :=
  (if c.startOver then [Instr.oscillatorRunning] else [])
    ++ (if c.source == .timekeeper && c.secondOver then [Instr.secondEvent] else [])

/-! ## A 1 ms system tick -/

/-- R64, R65: a tick counts in the start-up deadline and in the divider of SYSTEM. -/
def Clock.tick (c : Clock) : Clock :=
  { c with
    deadline := c.deadline.map fun n => n + 1
    divider := if c.source = .system then c.divider + 1 else c.divider }

/-- R64, R65: the clock's events due after a tick. -/
def Clock.tickDue (c : Clock) : List Instr :=
  (if c.deadlineOver then [Instr.startupDeadlineExpiry] else [])
    ++ (if c.source == .system && c.secondOver then [Instr.secondEvent] else [])

/-- R73: a tick counted by a running timer. -/
def Timer.tick (t : Timer) : Timer :=
  if t.running then
    match t.unit with
    | .ms1 => { t with counter := t.counter + 1 }
    | .ms10 =>
      if t.sub + 1 < 10 then { t with sub := t.sub + 1 } else { t with sub := 0, counter := t.counter + 1 }
  else t

/-- R165, R169: a tick counted by the gap timer of a port in RECEIVE and by the silence count of a LIVE
port whose limit is not 0. -/
def LinkPort.tick (port : LinkPort) : LinkPort :=
  { port with
    gap := if port.state = .receive then port.gap + 1 else port.gap
    count := if port.silent || port.limitInForce == 0 then port.count else port.count + 1 }

/-- R165, R169: the events of a port due after a tick; the gap timer before the silence is the model's order
(DESIGN CHOICE, log entry 3). -/
def LinkPort.tickDue (p : Port) (port : LinkPort) : List Instr :=
  (if port.gapOver then [Instr.gapTimerExpiry p] else [])
    ++ (if port.silenceOver then [Instr.portSilent p] else [])

/-- R143, R144: a tick counted by the start-up delay of a STARTING output and by the frame. -/
def Panel.tick (p : Panel) : Panel :=
  { p with
    startLeft := if p.out = .starting then p.startLeft - 1 else p.startLeft
    elapsed := p.elapsed + 1 }

/-- R143, R144: the events of a face's panel due after a tick. The spec gives no order for a start-up delay and a
frame that end at one tick: that the expiry is queued first, so that the boundary is already a driven and counted
one, is the model's choice (DESIGN CHOICE, log entry 3). The echoes are free (log entry 13). -/
def Panel.tickDue (draw : Nat) (f : Face) (p : Panel) : List Instr :=
  let echo := Config.echo draw (match f with
    | .a => 0
    | .b => 1)
  (if p.startOver then [Instr.panelStartupDelayExpiry f] else [])
    ++ (if p.frameOver then [Instr.frameBoundary f (echo 0) (echo 1) (echo 2) (echo 3)] else [])

/-- R156: every line samples its pin at each tick; the levels are free (log entry 13). -/
def pinSamples (draw : Nat) : List Instr :=
  (List.finRange 4).map fun l => Instr.pinSample l (if Config.pinHigh draw l then .high else .low)

/-- The events due after a system tick, in the order of the queue (log entry 3). -/
def State.tickDue (s : State) : List Instr :=
  s.clock.tickDue
    ++ (((List.finRange 6).filter fun t => s.timers[t].over).map Instr.timerExpiry)
    ++ portList.flatMap (fun p => (s.ports.get p).tickDue p)
    ++ faceList.flatMap (fun f => (s.panels.get f).tickDue s.free f)
    ++ pinSamples s.free

/-- Every counter of the system tick moves on. -/
def State.countTick (s : State) : State :=
  { s with
    clock := s.clock.tick
    timers := s.timers.map Timer.tick
    ports := s.ports.mapWith fun _ port => port.tick
    panels := ⟨s.panels.a.tick, s.panels.b.tick⟩ }

/-- A crystal cycle of an idle step: the count, then the events that are due. -/
def State.crystalCycle (s : State) : State :=
  { s with clock := s.clock.cycle, free := s.free + 1, pending := s.pending ++ s.clock.cycle.cycleDue }

/-- A system tick of an idle step: the counts, then the events that are due. -/
def State.systemTick (s : State) : State :=
  { s.countTick with free := s.free + 1, pending := s.pending ++ s.countTick.tickDue }

/-- What a step does when no command waits. -/
def State.idle (s : State) : State :=
  match s.plansDue with
  | [] => if Config.crystalTick s.free then s.crystalCycle else s.systemTick
  | plans => { s with pending := s.pending ++ plans }

end Sys2Proof.Machine
end

