-- ==== Sys2Proof/Machine/Dispatch.lean ====
section
/-! DEFINITION. The meaning of every command: one arm per constructor of Instr. -/

namespace Sys2Proof.Machine

/-- The effect of a command on everything but the queue. -/
def exec (i : Instr) (s : State) : Host.Outcome State Fault Refusal :=
  match i with
  | .reset in0 in1 in2 in3 => Sys2Proof.Machine.execReset in0 in1 in2 in3 s
  | .settingsReadComplete acknowledged => Sys2Proof.Machine.execSettingsReadComplete acknowledged s
  | .byteArrival p b => Sys2Proof.Machine.execByteArrival p b s
  | .framingError p => Sys2Proof.Machine.execFramingError p s
  | .gapTimerExpiry p => Sys2Proof.Machine.execGapTimerExpiry p s
  | .frameCrcFail p => Sys2Proof.Machine.execFrameCrcFail p s
  | .unknownKindFrame p kind tag fields => Sys2Proof.Machine.execUnknownKindFrame p kind tag fields s
  | .replySent p => Sys2Proof.Machine.execReplySent p s
  | .portSilent p => Sys2Proof.Machine.execPortSilent p s
  | .putDeparture p tag fields => Sys2Proof.Machine.execPutDeparture p tag fields s
  | .amend p tag fields => Sys2Proof.Machine.execAmend p tag fields s
  | .amendIfReserved p tag fields => Sys2Proof.Machine.execAmendIfReserved p tag fields s
  | .withdrawDeparture p tag fields => Sys2Proof.Machine.execWithdrawDeparture p tag fields s
  | .pin p tag fields => Sys2Proof.Machine.execPin p tag fields s
  | .unpin p tag fields => Sys2Proof.Machine.execUnpin p tag fields s
  | .readDeparture p tag fields => Sys2Proof.Machine.execReadDeparture p tag fields s
  | .listDepartures p tag fields => Sys2Proof.Machine.execListDepartures p tag fields s
  | .putPlace p tag fields => Sys2Proof.Machine.execPutPlace p tag fields s
  | .withdrawPlace p tag fields => Sys2Proof.Machine.execWithdrawPlace p tag fields s
  | .readPlace p tag fields => Sys2Proof.Machine.execReadPlace p tag fields s
  | .reserve p tag fields => Sys2Proof.Machine.execReserve p tag fields s
  | .dropReservation p tag fields => Sys2Proof.Machine.execDropReservation p tag fields s
  | .writeZone p tag fields => Sys2Proof.Machine.execWriteZone p tag fields s
  | .readZone p tag fields => Sys2Proof.Machine.execReadZone p tag fields s
  | .probeRights p tag fields => Sys2Proof.Machine.execProbeRights p tag fields s
  | .postNotice p tag fields => Sys2Proof.Machine.execPostNotice p tag fields s
  | .withdrawNotice p tag fields => Sys2Proof.Machine.execWithdrawNotice p tag fields s
  | .readNotice p tag fields => Sys2Proof.Machine.execReadNotice p tag fields s
  | .listNotices p tag fields => Sys2Proof.Machine.execListNotices p tag fields s
  | .setClock p tag fields => Sys2Proof.Machine.execSetClock p tag fields s
  | .readClock p tag fields => Sys2Proof.Machine.execReadClock p tag fields s
  | .setFace p tag fields => Sys2Proof.Machine.execSetFace p tag fields s
  | .readFace p tag fields => Sys2Proof.Machine.execReadFace p tag fields s
  | .readShown p tag fields => Sys2Proof.Machine.execReadShown p tag fields s
  | .readInputs p tag fields => Sys2Proof.Machine.execReadInputs p tag fields s
  | .setParameter p tag fields => Sys2Proof.Machine.execSetParameter p tag fields s
  | .readParameter p tag fields => Sys2Proof.Machine.execReadParameter p tag fields s
  | .storeSettings p tag fields => Sys2Proof.Machine.execStoreSettings p tag fields s
  | .storeComplete outcome => Sys2Proof.Machine.execStoreComplete outcome s
  | .boardRestart p tag fields => Sys2Proof.Machine.execBoardRestart p tag fields s
  | .readFaults p tag fields => Sys2Proof.Machine.execReadFaults p tag fields s
  | .clearFaults p tag fields => Sys2Proof.Machine.execClearFaults p tag fields s
  | .readEvents p tag fields => Sys2Proof.Machine.execReadEvents p tag fields s
  | .oscillatorRunning => Sys2Proof.Machine.execOscillatorRunning s
  | .startupDeadlineExpiry => Sys2Proof.Machine.execStartupDeadlineExpiry s
  | .secondEvent => Sys2Proof.Machine.execSecondEvent s
  | .timerExpiry t => Sys2Proof.Machine.execTimerExpiry t s
  | .conversionCompletion reading => Sys2Proof.Machine.execConversionCompletion reading s
  | .plan f => Sys2Proof.Machine.execPlan f s
  | .paintCompletion f serial => Sys2Proof.Machine.execPaintCompletion f serial s
  | .frameBoundary f echo0 echo1 echo2 echo3 => Sys2Proof.Machine.execFrameBoundary f echo0 echo1 echo2 echo3 s
  | .panelStartupDelayExpiry f => Sys2Proof.Machine.execPanelStartupDelayExpiry f s
  | .changeCounts l => Sys2Proof.Machine.execChangeCounts l s
  | .pinSample l level => Sys2Proof.Machine.execPinSample l level s

end Sys2Proof.Machine
end

