-- ==== Sys2Proof/Safety.lean ====
section
/-! DEFINITION. What it means that a change leaves parts of the state alone, that a port is ready for a request, and that a state is sound: the conditions that every step is meant to keep. -/

namespace Sys2Proof.Machine

/-! ## What a change may touch -/

/-- The parts of State, one for each field. -/
inductive Part where
  | params | table | pinCount | freeStops | places | zones | reservations | notices | postCounter
  | clock | timers | flashOn | faces | painter | panels | ambient | lines | ports | capture | seen
  | events | loader | mem | free | pending
deriving DecidableEq, Repr

/-- A part is the same in two states. -/
def Part.same (q : Part) (s t : State) : Prop :=
  match q with
  | .params => t.params = s.params
  | .table => t.table = s.table
  | .pinCount => t.pinCount = s.pinCount
  | .freeStops => t.freeStops = s.freeStops
  | .places => t.places = s.places
  | .zones => t.zones = s.zones
  | .reservations => t.reservations = s.reservations
  | .notices => t.notices = s.notices
  | .postCounter => t.postCounter = s.postCounter
  | .clock => t.clock = s.clock
  | .timers => t.timers = s.timers
  | .flashOn => t.flashOn = s.flashOn
  | .faces => t.faces = s.faces
  | .painter => t.painter = s.painter
  | .panels => t.panels = s.panels
  | .ambient => t.ambient = s.ambient
  | .lines => t.lines = s.lines
  | .ports => t.ports = s.ports
  | .capture => t.capture = s.capture
  | .seen => t.seen = s.seen
  | .events => t.events = s.events
  | .loader => t.loader = s.loader
  | .mem => t.mem = s.mem
  | .free => t.free = s.free
  | .pending => t.pending = s.pending

/-- `t` differs from `s` in the parts listed at most. -/
def OnlyIn (parts : List Part) (s t : State) : Prop := ∀ q, q ∉ parts → q.same s t

/-- The parts that the work on a face may change: composer, panel, painter and the free draw. -/
def faceParts : List Part := [.faces, .panels, .painter, .free]

/-! ## Requests -/

/-- R165 to R167: a good frame on the port is taken past step 0: the port takes bytes and the loader is
not in LOADING. -/
def State.ready (s : State) (p : Port) : Prop := (s.ports.get p).listening = true ∧ s.loader.phase ≠ .loading

/-- R43: every platform of the list is granted. -/
def State.allows (s : State) (p : Port) (right : Right) (platforms : List Nat) : Prop :=
  ∀ pl ∈ platforms, granted s.zones p right pl = true

/-- Conventions, CRC-16: one bit of the span enters the register, polynomial 0x1021. -/
def crcShift (c : HalfWord) (bit : Bool) : HalfWord := if c.msb = bit then c <<< 1 else (c <<< 1) ^^^ 0x1021

/-- Conventions, CRC-16: the check word of a span as sent and stored, high byte first: the bits of each byte from the
highest down enter the register, from 0xFFFF on, and nothing is reflected or inverted at the end. -/
def checkBytes (span : List Byte) : List Byte :=
  be16 ((span.flatMap fun b => [b[7], b[6], b[5], b[4], b[3], b[2], b[1], b[0]]).foldl crcShift 0xFFFF).toNat

/-- R168: the code byte of a reply. -/
def replyCodeByte (c : ReplyCode) : Byte :=
  match c with
  | .ok => 0x00 | .refused => 0x01 | .notFound => 0x02 | .tableFull => 0x03 | .poolFull => 0x04
  | .pinLimit => 0x05 | .noticeFull => 0x06 | .badField => 0x07 | .badKind => 0x08 | .badLength => 0x09
  | .lost => 0x0A | .lockout => 0x0B | .busy => 0x0C | .notReady => 0x0D | .storeFailed => 0x0E

/-- R168: the event-set summary: bit 0 RESERVATION_LOST to bit 4 SHOWN_CHANGED. -/
def summaryByte (e : EventSet) : Byte :=
  byte ((if e.reservationLost then 1 else 0) + (if e.noticeDisplaced then 2 else 0) + (if e.noticeExpired then 4 else 0)
    + (if e.fault then 8 else 0) + (if e.shownChanged then 16 else 0))

/-- R164, R168: a reply frame: SYNC, LEN, the payload of KIND with its top bit set, TAG, reply code, summary and result
fields, and the check word over LEN and the payload. -/
def replyBytes (kind tag : Byte) (r : Reply) (e : EventSet) : List Byte :=
  let payload := [kind ||| 0x80, tag, replyCodeByte r.code, summaryByte e] ++ r.fields
  0xA5 :: byte payload.length :: payload ++ checkBytes (byte payload.length :: payload)

/-- R165, R166, R168, R169: what a request that was answered did to the ports: its own port is LIVE, its
silence count is 0, its buffer is empty, and it is in REPLY with the reply frame, whose summary is that of its event
set at the end; the other ports and the settings of its own stand as they did. -/
def Served (s t : State) (p : Port) (kind tag : Byte) (r : Reply) : Prop :=
  t.ports = s.ports.set p
    { s.ports.get p with
      state := .reply, len := none, data := [], gap := 0, count := 0, silent := false,
      reply := replyBytes kind tag r (t.events.get p) }

/-- R169, R170: beside its port and the parts listed, a request on the port touched nothing but the dirty marks, which
both faces carry from then on where the port was SILENT. -/
def RequestTouches (parts : List Part) (s t : State) (p : Port) : Prop :=
  OnlyIn (.ports :: .faces :: parts) s t ∧
    ∀ f, t.faces.get f = { s.faces.get f with dirty := (s.faces.get f).dirty || (s.ports.get p).silent }

/-- R163, R165: a port that has entered HUNT: the buffer empty, the line at the port's baud. -/
def LinkPort.hunting (port : LinkPort) : LinkPort :=
  { port with state := .hunt, len := none, data := [], gap := 0, lineBaud := port.baud }

/-- R171: the command for a good frame of a KIND. -/
def requestOf (p : Port) (kind tag : Byte) (fields : List Byte) : Instr :=
  match kind.toNat with
  | 0x01 => .putDeparture p tag fields
  | 0x02 => .amend p tag fields
  | 0x03 => .amendIfReserved p tag fields
  | 0x04 => .withdrawDeparture p tag fields
  | 0x05 => .pin p tag fields
  | 0x06 => .unpin p tag fields
  | 0x07 => .readDeparture p tag fields
  | 0x08 => .listDepartures p tag fields
  | 0x10 => .putPlace p tag fields
  | 0x11 => .withdrawPlace p tag fields
  | 0x12 => .readPlace p tag fields
  | 0x18 => .reserve p tag fields
  | 0x19 => .dropReservation p tag fields
  | 0x20 => .writeZone p tag fields
  | 0x21 => .readZone p tag fields
  | 0x22 => .probeRights p tag fields
  | 0x28 => .postNotice p tag fields
  | 0x29 => .withdrawNotice p tag fields
  | 0x2A => .readNotice p tag fields
  | 0x2B => .listNotices p tag fields
  | 0x30 => .setClock p tag fields
  | 0x31 => .readClock p tag fields
  | 0x38 => .setFace p tag fields
  | 0x39 => .readFace p tag fields
  | 0x3A => .readShown p tag fields
  | 0x3B => .readInputs p tag fields
  | 0x40 => .setParameter p tag fields
  | 0x41 => .readParameter p tag fields
  | 0x42 => .storeSettings p tag fields
  | 0x43 => .boardRestart p tag fields
  | 0x48 => .readFaults p tag fields
  | 0x49 => .clearFaults p tag fields
  | 0x4A => .readEvents p tag fields
  | _ => .unknownKindFrame p kind tag fields

/-- R58, R60: every reservation naming the code is deleted, with RESERVATION_LOST for each port that held one,
but the port the change comes from; every other reservation and event set stands. -/
def LosesReservations (s t : State) (code : Nat) (origin : Origin) : Prop :=
  ∀ p, t.reservations.get p = (if s.reservations.get p = some code then none else s.reservations.get p) ∧
    t.events.get p =
      (if s.reservations.get p = some code ∧ origin ≠ .port p then { s.events.get p with reservationLost := true }
        else s.events.get p)

/-- R58, R60: a change from another origin deletes the reservations of the ports of a choice, each with RESERVATION_LOST;
every other reservation and event set stands. -/
def ReservationsLost (s t : State) (lost : Port → Prop) : Prop :=
  ∀ p, (lost p → t.reservations.get p = none ∧ t.events.get p = { s.events.get p with reservationLost := true }) ∧
    (¬ lost p → t.reservations.get p = s.reservations.get p ∧ t.events.get p = s.events.get p)

/-- The records of every code but one are the same. -/
def OthersSame (s t : State) (code : Nat) : Prop := ∀ c, c ≠ code → t.record? c = s.record? c

/-! ## Effective states and wakes -/

/-- R155: an input line of a level function is active: it is settled at the level of its sense. -/
abbrev State.lineHolds (s : State) (fn : LineFunction) (l : Fin 4) : Prop :=
  s.lines[l].function = fn ∧ s.lines[l].settled = if s.lines[l].sense = 0 then .high else .low

/-- R159: both faces are held in LAMP_TEST. -/
abbrev State.heldLamp (s : State) : Prop := ∃ l, s.lineHolds .lampTest l

/-- R159: a face is held DARK by a BLANK line that selects it. -/
abbrev State.heldBlank (s : State) (f : Face) : Prop := ∃ l, s.lineHolds .blank l ∧ s.lines[l].face.has f = true

/-- R97: the effective state of a face, by the first condition that holds: an active LAMP_TEST line, an active BLANK
line that selects the face or mode OFF with the countdown at 0, mode OFF, mode ON. -/
def State.stateByRule (s : State) (f : Face) : EffState :=
  if s.heldLamp then .lampTest
  else if s.heldBlank f ∨ ((s.faces.get f).settings.modeOn = false ∧ (s.faces.get f).countdown = 0) then .dark
  else if (s.faces.get f).settings.modeOn = false then .woken
  else .lit

/-- R137: the painter holds a plan, painted or waiting. -/
def State.paints (s : State) (j : Job) : Prop := s.painter.current = some j ∨ s.painter.waiting = some j

/-- R137: no plan of a face comes to wait at the painter, and the face's back bitmap stands, unless the plan that waited
for it waits no longer: it was begun, or dropped. What painting leaves there is open (log entry 11). -/
def BackLeft (s t : State) (f : Face) : Prop :=
  (∀ j, j.face = f → t.painter.waiting = some j → s.painter.waiting = some j) ∧
    ((∀ j, j.face = f → s.painter.waiting = some j → t.painter.waiting = some j) →
      (t.panels.get f).back = (s.panels.get f).back)

/-- A face that a change did not reach: its composer stands, dirty where `marked` holds, and so does its panel, but for
a back bitmap that the painter begins, freed of a plan of the other face (R137). -/
def FaceLeft (s t : State) (f : Face) (marked : Bool) : Prop :=
  t.faces.get f = { s.faces.get f with dirty := (s.faces.get f).dirty || marked } ∧
    { t.panels.get f with back := (s.panels.get f).back } = s.panels.get f ∧ BackLeft s t f

/-- R100, R101, R144, R153, R154: what a change did to a face by taking its effective state from that of `s` to that of
`t`. Entering DARK abandons the rebuild, the painter's plan of it too, and turns the output OFF; leaving DARK makes a
restart of the tickers pending, clears the pass flag, marks the face dirty and starts an output that is OFF; leaving
LAMP_TEST for LIT or WOKEN marks it dirty. In every case the last plan, the tickers, the front with its plan and the
panel's settings and chain states stand, a mark once set stays and a cleared pass flag stays clear, and no plan of the
face comes to the painter; a rebuild goes on but for entering DARK, and the duties are worked out again where the state
has changed. -/
def StateEffects (s t : State) (f : Face) : Prop :=
  let c := s.faces.get f
  let d := t.faces.get f
  let p := s.panels.get f
  let q := t.panels.get f
  d.calling = c.calling ∧ d.bottom = c.bottom ∧ d.lastPlan = c.lastPlan ∧ d.serial = c.serial ∧
  { q with
    back := p.back, out := p.out, startLeft := p.startLeft, check := p.check, frame := p.frame,
    faceDuty := p.faceDuty, duties := p.duties } = p ∧
  BackLeft s t f ∧
  (c.dirty = true → d.dirty = true) ∧ (c.restartPending = true → d.restartPending = true) ∧
  (c.pass = false → d.pass = false) ∧ (∀ j, j.face = f → t.paints j → s.paints j) ∧
  (c.state ≠ .dark → d.state = .dark →
    d.rebuild = .idle ∧ d.inHand = none ∧
    (∀ j, t.paints j → j.face ≠ f) ∧
    q.out = .off ∧ q.startLeft = 0 ∧ q.check = .none ∧ q.frame = none) ∧
  (c.state = .dark ∨ d.state ≠ .dark →
    d.rebuild = c.rebuild ∧ d.inHand = c.inHand ∧ q.check = p.check ∧ q.frame = p.frame) ∧
  (c.state = .dark → d.state ≠ .dark →
    d.restartPending = true ∧ d.pass = false ∧ d.dirty = true ∧
    (p.out = .off → q.out = .starting ∧ q.startLeft = s.params.startDelay) ∧
    (p.out ≠ .off → q.out = p.out ∧ q.startLeft = p.startLeft)) ∧
  (c.state = .lampTest → d.state = .lit ∨ d.state = .woken → d.dirty = true) ∧
  ((c.state = .dark ↔ d.state = .dark) → q.out = p.out ∧ q.startLeft = p.startLeft) ∧
  (c.state = d.state → q.faceDuty = p.faceDuty ∧ q.duties = p.duties) ∧
  (c.state ≠ d.state →
    q.faceDuty = (if q.out ≠ .driving ∨ d.state = .dark then 0 else if d.state = .lampTest then p.cap
      else min (curveDuty s.ambient.curve s.ambient.level) p.cap) ∧
    ∀ m : Fin 32, q.duties[m] = min 255 (q.faceDuty * p.trims[m] / 128))

/-- R101, R104, R109, R111: what a change of effective state alone leaves of a composer: the settings, the ROTATE index,
the bottom entry and the FULL page, and unless the face left DARK its restart mark and its pass flag. -/
def LayoutLeft (s t : State) (f : Face) : Prop :=
  let c := s.faces.get f
  let d := t.faces.get f
  d.settings = c.settings ∧ d.rotate = c.rotate ∧ d.entry = c.entry ∧ d.page = c.page ∧
    (c.state ≠ .dark ∨ d.state = .dark → d.restartPending = c.restartPending ∧ d.pass = c.pass)

/-- R101: a face is dirty by leaving DARK, by leaving LAMP_TEST for LIT or WOKEN, or as it was or was marked. -/
def DirtyByState (s t : State) (f : Face) (marked : Bool) : Prop :=
  let c := s.faces.get f
  let d := t.faces.get f
  d.dirty = (c.dirty || marked ||
    decide (d.state ≠ .dark ∧ (c.state = .dark ∨ (c.state = .lampTest ∧ d.state ≠ .lampTest))))

/-- R98: a selected wake event acts on a face: the mask selects its source, the mode is OFF and WH is not 0. -/
def State.wakes (s : State) (f : Face) (selected : Bool) : Prop :=
  selected = true ∧ (s.faces.get f).settings.modeOn = false ∧ s.params.wakeHold ≠ 0

/-- R98: what a wake check leaves of a face: the countdown set to WH where the face was woken, and otherwise as it was
counted; the effective state worked out, with the effects of its change; the layout as it was. -/
def Wakens (s t : State) (f : Face) (woken : Prop) (otherwise : Nat) : Prop :=
  (woken → (t.faces.get f).countdown = s.params.wakeHold) ∧ (¬ woken → (t.faces.get f).countdown = otherwise) ∧
    (t.faces.get f).state = t.effState f ∧ StateEffects s t f ∧ LayoutLeft s t f

/-- R99: the departure wake check of a face finds a record of its view in the wake window and wakes it. -/
def State.departureWakes (s : State) (f : Face) : Prop :=
  s.clock.valid = true ∧ s.wakes f (s.faces.get f).settings.mask.departure ∧
    ∃ r ∈ s.view f, s.nowKey ≤ r.key s.params.ro + r.delay.getD 0 ∧
      r.key s.params.ro + r.delay.getD 0 ≤ s.nowKey + s.params.wakeWindow

/-- R85, R98: a notice taken marks the faces of the targets it had and has, each dirty; a HIGH notice wakes the faces it
targets; every other face stands, dirty where it is marked or its port turned LIVE. -/
def NoticeReaches (s t : State) (q : NoticeRequest) (marked : Face → Bool) (live : Bool) : Prop :=
  ∀ f, (marked f = true → (t.faces.get f).dirty = true) ∧
    (q.cls = .high ∧ q.targets.has f = true →
      Wakens s t f (s.wakes f (s.faces.get f).settings.mask.notice) (s.faces.get f).countdown) ∧
    (q.cls = .low ∨ q.targets.has f = false → FaceLeft s t f (live || marked f))

/-- R6, R99: what a change of the table did at the faces: each bound to a touched platform is dirty, has made its
departure wake check against the view after the change, and has worked out its effective state; every other face is as
it was, but dirty where `marked` holds. -/
def TouchWakes (s t : State) (platforms : List Nat) (marked : Bool) : Prop :=
  ∀ f, (t.bound f platforms = true → (t.faces.get f).dirty = true ∧
      Wakens s t f (t.departureWakes f) (s.faces.get f).countdown) ∧
    (t.bound f platforms = false → FaceLeft s t f marked)

/-! ## Changes of the table -/

/-- R12, R22: what a change of a record in place leaves: the new record under its code, the others and the order as
they were, its reservations lost, and the faces of both platforms touched. -/
def ChangesRecord (s t : State) (old new : Departure) (p : Port) : Prop :=
  t.record? old.code = some new ∧ OthersSame s t old.code ∧
    t.table.map (fun r => r.code) = s.table.map (fun r => r.code) ∧
    LosesReservations s t old.code (.port p) ∧
    TouchWakes s t [old.platform, new.platform] (s.ports.get p).silent ∧
    OnlyIn ([.table, .reservations, .events, .ports] ++ faceParts) s t

/-- R22: what a removal of a record by a request leaves: its stops and its pin freed, its reservations lost, and the
faces of its platform touched. -/
def RemovesRecord (s t : State) (r : Departure) (p : Port) : Prop :=
  t.record? r.code = none ∧ OthersSame s t r.code ∧ t.freeStops = s.freeStops + r.stops.length ∧
    t.pinCount = (if r.pinned then s.pinCount - 1 else s.pinCount) ∧
    LosesReservations s t r.code (.port p) ∧ TouchWakes s t [r.platform] (s.ports.get p).silent ∧
    OnlyIn ([.table, .freeStops, .pinCount, .reservations, .events, .ports] ++ faceParts) s t

/-! ## Blocks on the wire and the rules' conditions, written from the tables -/

/-- R172: a record block, and the pin, the owner and the writer that follow it in a reply. -/
def departureBlock (r : Departure) : List Byte :=
  be16 r.code ++ be16 r.scheduled ++ [byte r.platform, byte r.dest, byte (r.via.getD 0)] ++ be16 (r.delay.getD 65535)
    ++ [if r.status = .running then 0 else 1, byte (r.carriages.getD 0), if r.approaching then 1 else 0,
        r.revision, byte r.stops.length]
    ++ r.stops.flatMap (fun st => byte st.place :: be16 (st.time.getD 65535))
    ++ [if r.pinned then 1 else 0, byte r.owner.code, byte r.writer.code]

/-- R8: the record an insert makes: the fields of the request, revision 0, not pinned, and its port as owner and
writer. -/
def recordOf (q : PutRequest) (p : Port) : Departure :=
  { code := q.code, scheduled := q.scheduled, platform := q.platform, dest := q.dest, via := q.via, delay := q.delay,
    status := q.status, carriages := q.carriages, approaching := q.approaching, stops := q.stops,
    pinned := false, owner := .port p, writer := .port p, revision := 0 }

/-- R174: a zone block. -/
def zoneBlock (z : Zone) : List Byte :=
  [if z.enabled then 1 else 0,
   if z.who = .origin .lp0 then 0 else if z.who = .origin .lp1 then 1 else if z.who = .origin .lp2 then 2 else 0xFF,
   byte z.low, byte z.high,
   byte ((if z.rights.depart then 1 else 0) + (if z.rights.status then 2 else 0)
    + (if z.rights.notice then 4 else 0) + (if z.rights.config then 8 else 0))]

/-- R174: the code of a line role. -/
def roleByte (r : Role) : Byte :=
  if r = .first then 1 else if r = .calling then 2 else if r = .next then 3 else if r = .rotate then 4
  else if r = .bottom then 5 else 0

/-- R174: a face block. -/
def faceBlock (c : FaceSettings) : List Byte :=
  [byte c.primary, byte c.second] ++ c.roles.toList.map roleByte
    ++ [if c.modeOn then 1 else 0,
        byte ((if c.mask.notice then 1 else 0) + (if c.mask.departure then 2 else 0) + (if c.mask.input then 4 else 0))]

/-- R93, R94: the settings of a face that SET FACE accepts. -/
def FaceSettings.allowed (c : FaceSettings) : Prop :=
  1 ≤ c.primary ∧ c.primary ≤ 31 ∧ c.second ≤ 31 ∧ c.second ≠ c.primary ∧
    ∀ r ∈ [Role.first, .calling, .bottom], c.roles.toList.count r ≤ 1

/-- R173: a notice block as POST NOTICE carries it. -/
def noticeBlock (q : NoticeRequest) : List Byte :=
  [byte q.id, if q.cls = .high then 1 else 0, if q.scope = .full then 1 else 0,
   if q.targets = .a then 1 else if q.targets = .b then 2 else 3, if q.flash then 1 else 0]
    ++ be16 q.duration ++ byte q.text.length :: q.text

/-- R77, R82: the notice that a post makes. -/
def noticeOf (q : NoticeRequest) (p : Port) (posting : HalfWord) : Notice :=
  ⟨q.id, q.cls, q.scope, q.targets, q.flash, q.duration, q.duration, q.text, p, posting⟩

/-- R178: the coded unit of a locale. -/
def unitByte (u : LocaleUnit) : Byte :=
  if u = .face .a then 1 else if u = .face .b then 2 else if u = .port .lp0 then 3 else if u = .port .lp1 then 4
  else if u = .port .lp2 then 5 else 0

/-- R178: class, kind, locale and minute of a capture record. -/
def capturedBlock (c : Captured) : List Byte :=
  [if c.kind.index.val < 4 then 1 else 2, byte (c.kind.index.val + 1), unitByte c.locale.unit,
   byte ((c.locale.position.map fun n => if c.kind = .chainFailed then n + 1 else n).getD 0),
   byte (c.locale.place.getD 0)] ++ be16 (c.minute.getD 65535)

/-- R116: the source identity of a line that shows a record, or nothing. -/
def shownSource : Option Departure → Source
  | some r => .record r.code r.revision
  | none => .none

/-- R174: a source identity: kind, then three value bytes. -/
def sourceBlock : Source → List Byte
  | .none => [0, 0, 0, 0]
  | .record code revision => 1 :: be16 code ++ [revision]
  | .phrase => [2, 0, 0, 0]
  | .clock => [3, 0, 0, 0]
  | .notice id => [4, byte id, 0, 0]
  | .page id page => [5, byte id, byte page, 0]

/-- R183: a row of the parameter table for one parameter: its number, the bytes of its value, the values taken, the
default, and the value as its owner holds it. -/
structure ParamRow where
  number : Nat
  bytes : Nat
  takes : List Byte → Prop
  default : List Byte
  held : State → List Byte

/-- R183: a value of one or two bytes as a number, high byte first. -/
def wireNumber (value : List Byte) : Nat :=
  match value with
  | [b] => b.toNat
  | [high, low] => high.toNat * 256 + low.toNat
  | _ => 0

/-- R152: a curve value: eight points whose levels rise and whose duties do not fall. -/
def curveTaken (value : List Byte) : Prop :=
  ∃ points : List (Nat × Nat), points.length = 8 ∧ value = points.flatMap (fun p => be16 p.1 ++ [byte p.2]) ∧
    (∀ p ∈ points, p.1 ≤ 1023 ∧ p.2 ≤ 255) ∧ points.IsChain fun p q => p.1 < q.1 ∧ p.2 ≤ q.2

/-- R155, R183: an input line value: function, face, sense and debounce; sense 2 is refused for BLANK and LAMP_TEST. -/
def lineTaken (value : List Byte) : Prop :=
  ∃ function face sense debounce : Byte, value = [function, face, sense, debounce] ∧ function ≤ 4 ∧
    1 ≤ face ∧ face ≤ 3 ∧ sense ≤ 2 ∧ (function = 2 ∨ function = 4 → sense ≤ 1)

/-- R183: the parameter table. -/
def Param.row : Param → ParamRow
  | .ro => ⟨0x01, 2, fun v => wireNumber v ≤ 1439, be16 180, fun s => be16 s.params.ro⟩
  | .linger => ⟨0x02, 1, fun v => wireNumber v ≤ 30, [2], fun s => [byte s.params.linger]⟩
  | .unknownHold => ⟨0x03, 1, fun v => wireNumber v ≤ 240, [60], fun s => [byte s.params.unknownHold]⟩
  | .wakeWindow => ⟨0x04, 1, fun v => wireNumber v ≤ 120, [15], fun s => [byte s.params.wakeWindow]⟩
  | .wakeHold => ⟨0x05, 1, fun v => wireNumber v ≤ 120, [30], fun s => [byte s.params.wakeHold]⟩
  | .rotateDepth => ⟨0x06, 1, fun v => 1 ≤ wireNumber v ∧ wireNumber v ≤ 6, [3], fun s => [byte s.params.rotateDepth]⟩
  | .tickerHold => ⟨0x07, 1, fun _ => True, [40], fun s => [byte s.params.tickerHold]⟩
  | .reload t => ⟨0x10 + t, 2, fun _ => True, be16 #v[25, 25, 4000, 5000, 500, 250][t], fun s => be16 s.timers[t].reload⟩
  | .unit t => ⟨0x18 + t, 1, fun v => wireNumber v ≤ 1, [0], fun s => [if s.timers[t].unit = .ms1 then 0 else 1]⟩
  | .mode t => ⟨0x20 + t, 1, fun v => wireNumber v ≤ 1, [0], fun s => [if s.timers[t].mode = .auto then 0 else 1]⟩
  | .curve => ⟨0x28, 24, curveTaken,
      [(0, 16), (64, 24), (128, 40), (256, 72), (384, 112), (512, 160), (768, 224), (1023, 255)].flatMap
        fun p => be16 p.1 ++ [byte p.2],
      fun s => s.ambient.curve.toList.flatMap fun p => be16 p.amb ++ [byte p.duty]⟩
  | .cap f => ⟨if f = .a then 0x29 else 0x2A, 1, fun _ => True, [255], fun s => [byte (s.panels.get f).cap]⟩
  | .framePeriod => ⟨0x30, 1, fun v => 5 ≤ wireNumber v ∧ wireNumber v ≤ 20, [10], fun s => [byte s.params.framePeriod]⟩
  | .checkInterval =>
      ⟨0x31, 2, fun v => 1 ≤ wireNumber v ∧ wireNumber v ≤ 1000, be16 100, fun s => be16 s.params.checkInterval⟩
  | .startDelay => ⟨0x32, 1, fun v => wireNumber v = 4 ∨ wireNumber v = 16 ∨ wireNumber v = 64, [64],
      fun s => [byte s.params.startDelay]⟩
  | .baud p => ⟨if p = .lp0 then 0x38 else if p = .lp1 then 0x39 else 0x3A, 1, fun v => wireNumber v ≤ 3, [2],
      fun s => let b := (s.ports.get p).baud
        [if b = .b9600 then 0 else if b = .b19200 then 1 else if b = .b38400 then 2 else 3]⟩
  | .limit p => ⟨if p = .lp0 then 0x3C else if p = .lp1 then 0x3D else 0x3E, 2, fun v => wireNumber v ≤ 600, be16 120,
      fun s => be16 (s.ports.get p).limit⟩
  | .stale p => ⟨if p = .lp0 then 0x40 else if p = .lp1 then 0x41 else 0x42, 1, fun v => wireNumber v ≤ 1, [0],
      fun s => [if (s.ports.get p).stale = .hold then 0 else 1]⟩
  | .line l => ⟨0x48 + l, 4, lineTaken, [0, 3, 0, 20], fun s =>
      [if s.lines[l].function = .approach then 1 else if s.lines[l].function = .blank then 2
        else if s.lines[l].function = .wake then 3 else if s.lines[l].function = .lampTest then 4 else 0,
       if s.lines[l].face = .a then 1 else if s.lines[l].face = .b then 2 else 3,
       byte s.lines[l].sense, byte s.lines[l].debounce]⟩
  | .trim f m => ⟨(if f = .a then 0x80 else 0xA0) + m, 1, fun _ => True, [128], fun s => [byte (s.panels.get f).trims[m]]⟩

/-! ## The settings image, written from R181's table -/

/-- R181: a place list entry as stored, 39 bytes; unused name bytes are 0. -/
def placeImage : Option Place → List Byte
  | none => List.replicate 39 0
  | some e =>
    let short := e.short.getD []
    1 :: byte e.name.length :: e.name ++ List.replicate (24 - e.name.length) 0
      ++ byte short.length :: short ++ List.replicate (12 - short.length) 0

/-- R181: the parts of the image before its check word, in their order: version, zones, faces, the parameters by rising
number, and the places. -/
def ImageBody (s : State) (body : List Byte) : Prop :=
  ∃ byNumber : List Param, byNumber.Pairwise (fun p q => p.row.number < q.row.number) ∧ (∀ q, q ∈ byNumber) ∧
    body = 0x01 :: s.zones.toList.flatMap zoneBlock ++ faceBlock s.faces.a.settings ++ faceBlock s.faces.b.settings
      ++ byNumber.flatMap (fun q => q.row.held s) ++ s.places.toList.flatMap placeImage

/-- A run of `n` bytes from an offset on. -/
def bytesAt (bytes : List Byte) (start n : Nat) : List Byte := (bytes.drop start).take n

/-- R181: the entry that a valid place block of 39 bytes holds: defined, name length, name, short name length and short
name; bytes beyond the lengths are not read. -/
def PlaceHeld (block : List Byte) (entry : Option Place) : Prop :=
  (entry = none → bytesAt block 0 2 = [0, 0] ∧ bytesAt block 26 1 = [0]) ∧
  ∀ e, entry = some e →
    let short := e.short.getD []
    1 ≤ e.name.length ∧ e.name.length ≤ 24 ∧ short.length ≤ 12 ∧ e.short ≠ some [] ∧
      bytesAt block 0 2 = [1, byte e.name.length] ∧ bytesAt block 2 e.name.length = e.name ∧
      bytesAt block 26 1 = [byte short.length] ∧ bytesAt block 27 short.length = short

/-- R181: an image of 10158 bytes is valid and holds these settings: the check word passes, the version is 1, every zone,
face setting and parameter is one that its request accepts, and every place block is one of R181's. -/
structure ImageHolds (bytes : List Byte) (st : Settings) : Prop where
  check : bytesAt bytes 10156 2 = checkBytes (bytes.take 10156)
  version : bytesAt bytes 0 1 = [0x01]
  zones : ∀ n : Fin 8, st.zones[n].low ≤ 31 ∧ st.zones[n].high ≤ 31 ∧
    bytesAt bytes (1 + 5 * n.val) 5 = zoneBlock st.zones[n]
  faces : ∀ f, (st.faces.get f).allowed ∧ bytesAt bytes (if f = .a then 41 else 49) 8 = faceBlock (st.faces.get f)
  /-- The values taken stand one after the other, by rising number. -/
  params : st.params.Pairwise (fun x y => x.1.row.number < y.1.row.number) ∧ (∀ q, ∃ value, (q, value) ∈ st.params) ∧
    (∀ x ∈ st.params, x.2.length = x.1.row.bytes ∧ x.1.row.takes x.2) ∧
    bytesAt bytes 57 154 = st.params.flatMap fun x => x.2
  places : ∀ n : Fin 255, PlaceHeld (bytesAt bytes (211 + 39 * n.val) 39) st.places[n]

/-- R184: what the settings memory holds after a store of an image was abandoned: the former image, with nothing written;
the new image, written whole; or, over the image's span of 10158 bytes, a mixed image, which fails its check word and is
read as none. Which of them is open (log entry 9). Outside the image written and the span every byte stands. -/
def StoreAbandoned (s t : State) (image : List Byte) : Prop :=
  t.mem = s.mem ∨
  (∀ a, t.mem.read a = if h : a < image.length then image[a] else s.mem.read a) ∨
  ((∀ a, 10158 ≤ a → t.mem.read a = s.mem.read a) ∧
    let held := t.mem.readBlock 0 10158
    bytesAt held 10156 2 ≠ checkBytes (held.take 10156) ∧ readImage held = none)

/-- R65: a second event is due: the divider of the second source has counted 32768 crystal cycles or 1000 ticks. -/
def Clock.secondDue (c : Clock) : Prop :=
  (c.source = .timekeeper ∧ 32768 ≤ c.divider) ∨ (c.source = .system ∧ 1000 ≤ c.divider)

/-- R109: a face stands at the clock entry: it has a BOTTOM line, the clock is its current entry, and its last plan
showed no FULL notice. -/
def Composer.standsAtClock (c : Composer) : Prop :=
  .bottom ∈ c.settings.roles.toList ∧ c.entry = .clock ∧ (c.lastPlan.bind fun plan => plan.full) = none

/-- R21, R69: a minute event at `minute` finds a day close. -/
def State.closesDay (s : State) (validBefore : Bool) (minute : Nat) : Prop :=
  validBefore = true ∧
    ∃ m, s.clock.prevMinute = some m ∧ serviceKey s.params.ro minute + 720 < serviceKey s.params.ro m

/-- R20: a record's time has passed at the service key K of `minute`. -/
def State.passed (s : State) (minute : Nat) (r : Departure) : Prop :=
  let key := serviceKey s.params.ro r.scheduled
  let now := serviceKey s.params.ro minute
  (r.status = .cancelled ∧ key + s.params.linger < now) ∨
    (r.status = .running ∧ r.delay = none ∧ key + s.params.unknownHold < now) ∨
    (r.status = .running ∧ ∃ d, r.delay = some d ∧ key + d + s.params.linger < now)

/-- R20, R21, R68: what a minute event leaves of the table: the pinned records, and without a day close the
records whose time has not passed, or all while the clock is invalid. -/
def State.stays (s : State) (validBefore validNow : Bool) (minute : Nat) (r : Departure) : Prop :=
  r.pinned = true ∨ (¬ s.closesDay validBefore minute ∧ (validNow = true → ¬ s.passed minute r))

/-! ## What a plan shows, written from the tables -/

/-- R129, R130: words placed on lines of 256 columns, on from a line that holds `cur`, rule by rule: the end of the
words, a word on an empty line, a word that joins a line, a line closed before a word, a word cut. -/
inductive Wraps : (cur : List Byte) → (words lines : List (List Byte)) → Prop
  | nothing : Wraps [] [] []
  | last {cur} : cur ≠ [] → Wraps cur [] [cur]
  | first {w ws lines} : textWidth w ≤ 256 → Wraps w ws lines → Wraps [] (w :: ws) lines
  | join {cur w ws lines} : cur ≠ [] → textWidth cur + 5 + textWidth w ≤ 256 →
      Wraps (cur ++ 0x20 :: w) ws lines → Wraps cur (w :: ws) lines
  | close {cur w ws lines} : cur ≠ [] → 256 < textWidth cur + 5 + textWidth w →
      Wraps [] (w :: ws) lines → Wraps cur (w :: ws) (cur :: lines)
  | cut {a b rest ws lines} : textWidth a ≤ 256 → 256 < textWidth (a ++ [b]) →
      Wraps [] ((b :: rest) :: ws) lines → Wraps [] ((a ++ b :: rest) :: ws) (a :: lines)

/-- R106, R113: the status text of a record, and whether it flashes. -/
def statusShown (onFirst : Bool) (r : Departure) : List Byte × Bool :=
  if r.status = .cancelled then (str "Cancelled", false)
  else if r.approaching = true ∧ onFirst = true then (str "Approaching", true)
  else if r.delay = none then (str "Delayed", false)
  else if r.delay = some 0 then (str "On time", false)
  else (str "Exp " ++ timeText ((r.scheduled + r.delay.getD 0) % 1440), false)

/-- R34, R127: the destination field's text and ladder step in a field of a width: blank for an undefined place. -/
def State.destinationShown (s : State) (width : Nat) (r : Departure) : List Byte × Option Nat :=
  match s.place? r.dest with
  | none => ([], none)
  | some e =>
    let chosen := destinationLadder width e.name ((r.via.bind s.place?).map fun v => v.name) e.short
    (chosen.1, some chosen.2)

/-- R105, R113, R116, R126: a FIRST, NEXT or ROTATE line of a face that shows a record, and a dark one. -/
def State.recordShown (s : State) (f : Face) (role : Role) : Option Departure → PlanLine
  | none => ⟨.role role, .none, []⟩
  | some r =>
    let two := (s.faces.get f).settings.second ≠ 0
    let dest := s.destinationShown (if two then 134 else 152) r
    let status := statusShown (role = .first) r
    ⟨.role role, .record r.code r.revision,
      (if two then
        [⟨0, 16, .left, decimal r.platform, none, false, none⟩, ⟨18, 32, .left, timeText r.scheduled, none, false, none⟩,
         ⟨54, 134, .left, dest.1, dest.2, false, none⟩]
      else [⟨0, 32, .left, timeText r.scheduled, none, false, none⟩, ⟨36, 152, .left, dest.1, dest.2, false, none⟩])
        ++ [⟨192, 64, .right, status.1, none, status.2, none⟩]⟩

/-- R107: items joined by ", ", with " and " in place of the last. -/
def itemsJoined (items : List (List Byte)) : List Byte :=
  if items.length < 2 then items.headD []
  else (str ", ").intercalate items.dropLast ++ str " and " ++ items.getLastD []

/-- R107: the calling text of a record. -/
def State.callingShown (s : State) (r : Departure) : List Byte :=
  let stops := r.stops.filterMap fun st => (s.place? st.place).map fun e =>
    e.name ++ ((st.time.map fun m => str " (" ++ timeText m ++ str ")").getD [])
  let dest := ((s.place? r.dest).map fun e => e.name).toList
  if r.status = .cancelled then str "This train has been cancelled."
  else
    (if stops = [] ∧ dest = [] then str "Calling at:"
      else if stops = [] then str "Calling at: " ++ itemsJoined dest ++ str " only."
      else str "Calling at: " ++ itemsJoined (stops ++ dest) ++ str ".")
    ++ ((r.carriages.map fun n =>
        str "  Formed of " ++ decimal n ++ (if n = 1 then str " coach." else str " coaches.")).getD [])

/-- R109, R113: the text of a bottom entry, and whether it flashes. -/
def State.bottomShown (s : State) : BottomEntry → List Byte × Bool
  | .clock => (if s.clock.valid = true then
      twoDigits s.clock.hh ++ str ":" ++ twoDigits s.clock.mm ++ str ":" ++ twoDigits s.clock.ss else str "--:--:--", false)
  | .notice id => ((s.notice? id).map fun n => (n.text, n.flash)).getD ([], false)

/-- R109: the bottom rotation list: the clock, then the HIGH and then the LOW BOTTOM notices of the face, in posting
order. -/
def State.bottomEntries (s : State) (f : Face) : List BottomEntry :=
  .clock :: ((s.notices.filter fun n => n.scope == .bottom && n.targets.has f && n.cls == .high)
    ++ (s.notices.filter fun n => n.scope == .bottom && n.targets.has f && n.cls == .low)).map fun n => .notice n.id

/-- R104: the size of the rotation pool of a face. -/
def State.poolSize (s : State) (f : Face) : Nat :=
  let n := (s.faces.get f).settings.roles.toList.count .next
  if (s.view f).length < n + 2 then 0 else min (s.view f).length (n + 1 + s.params.rotateDepth) - (n + 1)

/-- R103, R104: the record that the ROTATE line with `above` ROTATE lines above it shows. -/
def State.rotateShown (s : State) (f : Face) (above : Nat) : Option Departure :=
  if above < s.poolSize f then
    (s.view f)[(s.faces.get f).settings.roles.toList.count .next + 1 + ((s.faces.get f).rotate + above) % s.poolSize f]?
  else none

/-- R108, R133: the ticker of a text at a plan: none for a text that fits, the one held when it was built for the same
and no restart is due, and otherwise one built afresh. -/
def tickerFor (held : Option Ticker) (restart : Prop) [Decidable restart] (key : TickerKey) (text : List Byte)
    (hold : Nat) : Option Ticker :=
  if textWidth text ≤ 256 then none
  else if ¬ restart ∧ ∃ k ∈ held, k.key = key ∧ k.text = text then held
  else some (Ticker.build key text hold)

/-- R34: the undefined places that the destination field of a record resolves: the destination, or else its via. -/
def State.undefinedInField (s : State) (r : Departure) : List Nat :=
  if s.place? r.dest = none then [r.dest] else r.via.toList.filter fun v => s.place? v = none

/-- R34, R35, R176: the undefined places that line k of a plan of the departure view resolves, in order: those of the
destination field of a line that shows a record; on the CALLING line of a record that is not cancelled, the stops in
calling order and then the destination. -/
def State.undefinedOn (s : State) (f : Face) (k : Fin 4) : List Nat :=
  let roles := (s.faces.get f).settings.roles
  let field (r : Option Departure) : List Nat := (r.map s.undefinedInField).getD []
  if roles[k] = .first then field (s.view f).head?
  else if roles[k] = .next then field (s.view f)[(roles.toList.take k).count .next + 1]?
  else if roles[k] = .rotate then field (s.rotateShown f ((roles.toList.take k).count .rotate))
  else if roles[k] = .calling then
    ((s.view f).head?.map fun r => if r.status = .cancelled then []
      else (r.stops.map (fun st => st.place) ++ [r.dest]).filter fun n => s.place? n = none).getD []
  else []

/-- R176: the reports left when faults of a kind are raised one after the other. -/
def ReportsRaised (s t : State) (kind : FaultKind) (locales : List Locale) : Prop :=
  let after := locales.foldl (fun u l => u.raise kind l) s
  t.capture = after.capture ∧ t.seen = after.seen ∧ t.events = after.events

/-! ## What a plan paints, written from the tables -/

/-- R122, R123: the advance of a character code. -/
def glyphColumns (b : Byte) : Nat :=
  if b ∈ str "!',.:;il|" then 2
  else if b ∈ str " ()[]Ij`" then 3
  else if b ∈ str "\"frt-" ∨ b = 0x7B ∨ b = 0x7D then 4
  else if b ∈ str "0123456789ABCDEFGHJKLNOPQRSTUVXYZ#%&" then 6
  else if b ∈ str "MWmw@" then 7
  else 5

/-- R121, R124: the text column at which the glyph after a run of glyphs begins: their advances, and a gap after
each. -/
def columnsBefore (glyphs : List Byte) : Nat := (glyphs.map glyphColumns).sum + glyphs.length

/-- R121 to R123: whether a glyph is lit at a column of its advance in a row of its line: rows 2 to 13 alone; a hollow
box for a code outside 0x20 to 0x7E; the space dark; the font's pattern, which is open (log entry 10), for the others. -/
def GlyphLit (b : Byte) (column row : Nat) : Prop :=
  2 ≤ row ∧ row ≤ 13 ∧
    if b < 0x20 ∨ 0x7E < b then column = 0 ∨ column = 4 ∨ row = 2 ∨ row = 13
    else b ≠ 0x20 ∧ Config.fontPixel b column row = true

/-- R125, R135: the face column at which a field paints a column of its text, where that falls inside the field: from
the start that the alignment gives, or F - p on at a ticker's position p. -/
def PlanField.landsAt (fd : PlanField) (c : Nat) : Option Nat :=
  let w := (fd.text.map glyphColumns).sum + (fd.text.length - 1)
  match fd.offset with
  | none =>
    let start := if fd.align = .left then 0 else if fd.align = .right then fd.width - w else (fd.width - w) / 2
    if start + c < fd.width then some (fd.col + (start + c)) else none
  | some p => if p ≤ fd.width + c ∧ c < p then some (fd.col + (fd.width + c - p)) else none

/-- R113, R138: a field planned flashing is dark in flash phase OFF. -/
abbrev PlanField.shown (fd : PlanField) (flashOn : Bool) : Prop := fd.flashing = true → flashOn = true

/-- R121, R138: a plan paints a pixel lit: some glyph of a field of the line that holds row y is lit there. -/
def Plan.Lights (plan : Plan) (x y : Nat) : Prop :=
  ∃ k : Fin 4, y / 16 = k.val ∧ ∃ fd ∈ plan.lines[k].fields, fd.shown plan.flashOn ∧
    ∃ before b after column, fd.text = before ++ b :: after ∧ column < glyphColumns b ∧
      fd.landsAt (columnsBefore before + column) = some x ∧ GlyphLit b column (y % 16)

/-- R139: glyph i of a field is a substitute glyph with a column inside the field. -/
abbrev PlanField.paintsSubstitute (fd : PlanField) (i : Nat) : Prop :=
  (fd.text.getD i 0x20 < 0x20 ∨ 0x7E < fd.text.getD i 0x20) ∧
    ∃ column < 5, (fd.landsAt (columnsBefore (fd.text.take i) + column)).isSome = true

/-- R139: how many substitute glyphs a field paints. -/
def PlanField.substitutesPainted (fd : PlanField) (flashOn : Bool) : Nat :=
  if fd.shown flashOn then (List.range fd.text.length).countP fun i => decide (fd.paintsSubstitute i) else 0

/-! ## Sound states -/

/-- R2, R3, R10, R15, R36, R54: the departure table, its pool, pins and reservations. -/
structure TableSound (s : State) : Prop where
  atMost : s.table.length ≤ Config.maxRecords
  codesDistinct : (s.table.map fun r => r.code).Nodup
  ordered : s.table.Pairwise fun x y => x.before s.params.ro y = true
  stopsEach : ∀ r ∈ s.table, r.stops.length ≤ Config.maxStops
  pool : s.freeStops + stopsInUse s.table = Config.poolSize
  pins : s.pinCount = pinnedIn s.table
  pinsMost : s.pinCount ≤ Config.maxPinned
  reserved : ∀ p code, s.reservations.get p = some code → code ∈ s.table.map fun r => r.code

/-- R77, R79, R89: the notice store. -/
structure NoticesSound (s : State) : Prop where
  atMost : s.notices.length ≤ Config.maxNotices
  idsDistinct : (s.notices.map fun n => n.id).Nodup
  texts : ∀ n ∈ s.notices, 1 ≤ n.text.length ∧ n.text.length ≤ 160
  remaining : ∀ n ∈ s.notices, n.remaining ≤ n.duration ∧ (n.duration ≠ 0 → n.remaining ≠ 0)

/-- R29: a name fits its entry. -/
def Place.fits (e : Place) : Bool := e.name.length ≤ 24 && (e.short.getD []).length ≤ 12

/-- R181, R184: the settings memory is in canonical form, names fit the image, and a store's image has
the image's length. -/
structure MemorySound (s : State) : Prop where
  canonical : s.mem.wf = true
  names : ∀ n e, s.place? n = some e → e.fits = true
  job : ∀ j, s.loader.store = some j → j.image.length = Config.imageSize

/-- R165, R166, R169, R170, R184: a port's buffer fits its state, only the port of a running store stays in
EXECUTE, a SILENT port holds no reservation, and outside LOADING the silence limit and the stale action in force are the
parameters' values. -/
structure PortSound (s : State) (p : Port) : Prop where
  quiet : (s.ports.get p).state ≠ .receive → (s.ports.get p).len = none ∧ (s.ports.get p).data = []
  noLen : (s.ports.get p).len = none → (s.ports.get p).data = []
  lenFits : ∀ n, (s.ports.get p).len = some n → 2 ≤ n ∧ n ≤ 250 ∧ (s.ports.get p).data.length < n + 2
  executing : (s.ports.get p).state = .execute → ∃ j, s.loader.store = some j ∧ j.port = p
  silent : (s.ports.get p).silent = true → s.reservations.get p = none
  inForce : s.loader.phase ≠ .loading →
    (s.ports.get p).limitInForce = (s.ports.get p).limit ∧ (s.ports.get p).staleInForce = (s.ports.get p).stale

/-- R184: the loader holds a store exactly in STORING, and the storing port is in EXECUTE. -/
structure LoaderSound (s : State) : Prop where
  running : s.loader.phase = .storing ↔ s.loader.store.isSome = true
  port : ∀ j, s.loader.store = some j → (s.ports.get j.port).state = .execute

/-- R63 to R66: the time of day lies in its ranges, and the start-up deadline runs only while the second
source is NONE and the oscillator STARTING. -/
structure ClockSound (s : State) : Prop where
  hours : s.clock.hh < 24
  minutes : s.clock.mm < 60
  seconds : s.clock.ss < 60
  undecided : s.clock.deadline.isSome = true ↔ s.clock.source = .none
  starting : s.clock.deadline.isSome = true → s.clock.osc = .starting

/-- R97, R100, R115, R137, R144, R146, R153: a face. -/
structure FaceSound (s : State) (f : Face) : Prop where
  /-- DARK: no rebuild, output OFF. -/
  dark : (s.faces.get f).state = .dark → (s.faces.get f).rebuild = .idle ∧ (s.panels.get f).out = .off
  /-- Otherwise the output is on, but in LOADING. -/
  driven : s.loader.phase ≠ .loading → (s.faces.get f).state ≠ .dark → (s.panels.get f).out ≠ .off
  /-- The effective state is that of R97, but in LOADING. -/
  settled : s.loader.phase ≠ .loading → (s.faces.get f).state = s.effState f
  /-- LOADING: LIT, no rebuild, output OFF. -/
  loading : s.loader.phase = .loading →
    (s.faces.get f).settings.modeOn = true ∧ (s.faces.get f).state = .lit ∧ (s.faces.get f).rebuild = .idle
      ∧ (s.panels.get f).out = .off
  /-- OFF: no check in flight, nothing shifted. -/
  off : (s.panels.get f).out = .off → (s.panels.get f).check = .none ∧ (s.panels.get f).frame = none
  /-- The duties are those of R153. -/
  duty : (s.panels.get f).faceDuty = s.faceDutyOf f
  duties : (s.panels.get f).duties = (s.panels.get f).trims.map (moduleDuty (s.panels.get f).faceDuty)

/-- R155: in LOADING no input line has a function. -/
def LinesSound (s : State) : Prop := s.loader.phase = .loading → ∀ l : Fin 4, s.lines[l].function = .none

/-- R115, R116, R137: a face has a plan in hand exactly during a rebuild, and the painter holds exactly the
plans of the faces that are PAINTING, one as its present plan and one waiting at most. -/
structure PainterSound (s : State) : Prop where
  inHand : ∀ f, (s.faces.get f).inHand.isSome = true ↔ (s.faces.get f).rebuild ≠ .idle
  held : ∀ f plan, (s.faces.get f).rebuild = .painting → (s.faces.get f).inHand = some plan →
    s.painter.current = some ⟨f, plan.serial⟩ ∨ s.painter.waiting = some ⟨f, plan.serial⟩
  jobs : ∀ j, s.painter.current = some j ∨ s.painter.waiting = some j →
    (s.faces.get j.face).rebuild = .painting ∧ ∃ plan, (s.faces.get j.face).inHand = some plan ∧ plan.serial = j.serial
  waits : s.painter.current = none → s.painter.waiting = none
  apart : ∀ j k, s.painter.current = some j → s.painter.waiting = some k → j.face ≠ k.face

/-- R183: every setting that the image holds is one that its request would accept. -/
structure SettingsInRange (s : State) : Prop where
  params : ∀ q : Param, (s.readParam q).length = q.bytes ∧ q.accepts (s.readParam q) = true
  zones : ∀ n : Fin 8, readZone s.zones[n].bytes = some s.zones[n]
  faces : ∀ f, readSettings (s.faces.get f).settings.bytes = some (s.faces.get f).settings
  names : ∀ n e, s.place? n = some e → e.name ≠ [] ∧ e.short ≠ some [] ∧ e.fits = true

end Sys2Proof.Machine
end

