-- ==== Sys2Proof/WellFormed.lean ====
section
/-! DEFINITION. When a command is one the hardware can meet: a request's fields fit a frame, and a frame of unknown KIND has a KIND outside the catalogue. -/

namespace Sys2Proof

/-- The KINDs of the catalogue, in its order (R171). -/
def catalogue : List Nat :=
  [0x01, 0x02, 0x03, 0x04, 0x05, 0x06, 0x07, 0x08, 0x10, 0x11, 0x12, 0x18, 0x19, 0x20, 0x21, 0x22,
   0x28, 0x29, 0x2A, 0x2B, 0x30, 0x31, 0x38, 0x39, 0x3A, 0x3B, 0x40, 0x41, 0x42, 0x43, 0x48, 0x49, 0x4A]

/-- The field bytes of a request fit a frame: LEN is at most 250 and counts KIND and TAG (R164). -/
def fieldsFit (fields : List Byte) : Bool := fields.length ≤ 248

/-- The fields a command carries in a frame; none for a command that is no frame. -/
def Instr.fields : Instr → List Byte
  | .unknownKindFrame _ _ _ fs => fs
  | .putDeparture _ _ fs | .amend _ _ fs | .amendIfReserved _ _ fs | .withdrawDeparture _ _ fs
  | .pin _ _ fs | .unpin _ _ fs | .readDeparture _ _ fs | .listDepartures _ _ fs
  | .putPlace _ _ fs | .withdrawPlace _ _ fs | .readPlace _ _ fs
  | .reserve _ _ fs | .dropReservation _ _ fs
  | .writeZone _ _ fs | .readZone _ _ fs | .probeRights _ _ fs
  | .postNotice _ _ fs | .withdrawNotice _ _ fs | .readNotice _ _ fs | .listNotices _ _ fs
  | .setClock _ _ fs | .readClock _ _ fs
  | .setFace _ _ fs | .readFace _ _ fs | .readShown _ _ fs | .readInputs _ _ fs
  | .setParameter _ _ fs | .readParameter _ _ fs | .storeSettings _ _ fs | .boardRestart _ _ fs
  | .readFaults _ _ fs | .clearFaults _ _ fs | .readEvents _ _ fs => fs
  | .reset _ _ _ _ | .settingsReadComplete _ | .byteArrival _ _ | .framingError _
  | .gapTimerExpiry _ | .frameCrcFail _ | .replySent _ | .portSilent _ | .storeComplete _
  | .oscillatorRunning | .startupDeadlineExpiry | .secondEvent | .timerExpiry _
  | .conversionCompletion _ | .plan _ | .paintCompletion _ _ | .frameBoundary _ _ _ _ _
  | .panelStartupDelayExpiry _ | .changeCounts _ | .pinSample _ _ => []

/-- The KIND byte of an UNKNOWN_KIND_FRAME is outside the catalogue (R171). -/
def Instr.kindUnknown : Instr → Bool
  | .unknownKindFrame _ kind _ _ => !(catalogue.contains kind.toNat)
  | _ => true

/-- The whole check. -/
def Instr.wellFormed (i : Instr) : Bool := fieldsFit i.fields && i.kindUnknown

end Sys2Proof
end

