-- ==== Sys2Proof/Certificates/Slice0/Obligations.lean ====
section
/-! DEFINITION. The statements for the provers, in the order of the spec's files, after what holds of every command. -/

open Sys2Proof Sys2Proof.Machine

/-! ## Every command -/

/-- A step takes the command at the front of the queue and runs it on the rest. -/
def Obligations.StepRunsTheFrontCommand : Prop :=
  ∀ (c : Instr) (rest : List Instr) (s : State),
    step { s with pending := c :: rest } = exec c { s with pending := rest }

/-- On an empty queue a step queues the plans due (R115), face A's first; with none due it is a system tick or a
crystal cycle, and what R63 to R65, R73, R143, R144, R165 and R169 count moves on by one, an event joining the queue
where its count is then reached: 32768 cycles of the start count and of the TIMEKEEPER divider; 2000 ticks of the
deadline, 1000 of the SYSTEM divider, the reload of a timer (in units of 1 or 10 ticks), 21 of the gap timer, the
limit in force times 1000 of the silence count, the start-up delay, the frame period; and one sample of each pin. That
an empty queue meets an edge, which edge, and the order of the events are the model's choices (log entries 1, 3, 13,
31), and so is the reading of 20 ms as 21 ticks (log entry 26). -/
def Obligations.StepOnEmptyQueueIsAClockEdge : Prop :=
  ∀ s : State, s.pending = [] →
    let plans : List Instr := [Face.a, .b].flatMap fun f =>
      if (s.faces.get f).rebuild = .idle ∧ (s.faces.get f).dirty = true ∧
          ((s.faces.get f).state = .lit ∨ (s.faces.get f).state = .woken) ∧ s.loader.phase ≠ .loading
        then [.plan f] else []
    ∃ t, step s = .next t ∧
      (plans ≠ [] → t = { s with pending := plans }) ∧
      (plans = [] → Config.crystalTick s.free = true →
        t.clock = { s.clock with
          startCount := (if s.clock.osc = .starting then s.clock.startCount + 1 else s.clock.startCount)
          divider := (if s.clock.source = .timekeeper then s.clock.divider + 1 else s.clock.divider) } ∧
        t.pending = (if t.clock.osc = .starting ∧ 32768 ≤ t.clock.startCount then [.oscillatorRunning] else [])
          ++ (if t.clock.source = .timekeeper ∧ 32768 ≤ t.clock.divider then [.secondEvent] else []) ∧
        t.free = s.free + 1 ∧ OnlyIn [.clock, .free, .pending] s t) ∧
      (plans = [] → Config.crystalTick s.free = false →
        t.clock = { s.clock with
          deadline := (s.clock.deadline.map fun n => n + 1)
          divider := (if s.clock.source = .system then s.clock.divider + 1 else s.clock.divider) } ∧
        (∀ i : Fin 6, t.timers[i] =
          if s.timers[i].running = false then s.timers[i]
          else if s.timers[i].unit = .ms1 then { s.timers[i] with counter := s.timers[i].counter + 1 }
          else if s.timers[i].sub + 1 < 10 then { s.timers[i] with sub := s.timers[i].sub + 1 }
          else { s.timers[i] with sub := 0, counter := s.timers[i].counter + 1 }) ∧
        (∀ p, t.ports.get p = { s.ports.get p with
          gap := (if (s.ports.get p).state = .receive then (s.ports.get p).gap + 1 else (s.ports.get p).gap)
          count := (if (s.ports.get p).silent = true ∨ (s.ports.get p).limitInForce = 0 then (s.ports.get p).count
            else (s.ports.get p).count + 1) }) ∧
        (∀ f, t.panels.get f = { s.panels.get f with
          startLeft := (if (s.panels.get f).out = .starting then (s.panels.get f).startLeft - 1
            else (s.panels.get f).startLeft)
          elapsed := (s.panels.get f).elapsed + 1 }) ∧
        t.pending = (if 2000 ≤ t.clock.deadline.getD 0 then [.startupDeadlineExpiry] else [])
          ++ (if t.clock.source = .system ∧ 1000 ≤ t.clock.divider then [.secondEvent] else [])
          ++ ((List.finRange 6).flatMap fun i =>
            if t.timers[i].running = true ∧ t.timers[i].reload ≤ t.timers[i].counter then [.timerExpiry i] else [])
          ++ ([Port.lp0, .lp1, .lp2].flatMap fun p =>
            (if (t.ports.get p).state = .receive ∧ 21 ≤ (t.ports.get p).gap then [.gapTimerExpiry p] else [])
              ++ (if (t.ports.get p).silent = false ∧ (t.ports.get p).limitInForce ≠ 0 ∧
                  (t.ports.get p).limitInForce * 1000 ≤ (t.ports.get p).count then [.portSilent p] else []))
          ++ ([Face.a, .b].flatMap fun f =>
            (if (t.panels.get f).out = .starting ∧ (t.panels.get f).startLeft = 0
                then [.panelStartupDelayExpiry f] else [])
              ++ (if (t.panels.get f).period ≤ (t.panels.get f).elapsed then
                  let echo := Config.echo s.free (if f = .a then 0 else 1)
                  [.frameBoundary f (echo 0) (echo 1) (echo 2) (echo 3)] else []))
          ++ ((List.finRange 4).map fun l => .pinSample l (if Config.pinHigh s.free l then .high else .low)) ∧
        t.free = s.free + 1 ∧ OnlyIn [.clock, .timers, .ports, .panels, .free, .pending] s t)

/-- No command stops the block: every command answers a next state, and leaves the queue to step. -/
def Obligations.EveryCommandAnswersNext : Prop :=
  ∀ (c : Instr) (s : State), ∃ t, exec c s = .next t ∧ t.pending = s.pending

/-! ## Link ports (file 10) -/

/-- R165, the HUNT rows: 0xA5 opens a frame with an empty buffer; any other byte is discarded. -/
def Obligations.ByteInHuntOpensAFrame : Prop :=
  ∀ (p : Port) (b : Byte) (s : State), (s.ports.get p).state = .hunt →
    ∃ t, exec (.byteArrival p b) s = .next t ∧ OnlyIn [.ports] s t ∧
      (b = 0xA5 → t.ports = s.ports.set p
        { s.ports.get p with state := .receive, len := none, data := [], gap := 0 }) ∧
      (b ≠ 0xA5 → t = s)

/-- R165, the LEN rows: 2 to 250 is held as LEN; any other LEN drops the frame with LINK_FRAME_BAD. A later
byte that does not complete the frame joins the buffer. Either byte held restarts the gap timer. -/
def Obligations.LenAndPayloadBytesAreHeld : Prop :=
  ∀ (p : Port) (b : Byte) (s : State), (s.ports.get p).state = .receive →
    ((s.ports.get p).len = none → 2 ≤ b.toNat → b.toNat ≤ 250 →
      exec (.byteArrival p b) s
        = .next { s with ports := (s.ports.set p ({ s.ports.get p with len := some b.toNat, gap := 0 })) }) ∧
    ((s.ports.get p).len = none → b.toNat < 2 ∨ 250 < b.toNat →
      exec (.byteArrival p b) s = .next ((s.dropFrame p).raise .linkFrameBad ⟨.port p, none, none⟩)) ∧
    (∀ n, (s.ports.get p).len = some n → (s.ports.get p).data.length + 1 ≠ n + 2 →
      exec (.byteArrival p b) s = .next { s with ports := (s.ports.set p
        ({ s.ports.get p with data := (s.ports.get p).data ++ [b], gap := 0 })) })

/-- R164 to R166: the last byte of a good frame, one whose check word is the CRC-16 of LEN and payload, is the request
of its KIND, whatever the KIND: a frame received byte by byte and the request command do the same. That a request
command stands for its whole frame, and that a frame of the catalogue's KIND under UNKNOWN_KIND_FRAME is that request,
are the model's (log entries 4, 5). -/
def Obligations.LastByteOfAGoodFrameIsTheRequest : Prop :=
  ∀ (p : Port) (kind tag b : Byte) (fields data : List Byte) (s : State),
    (s.ports.get p).state = .receive → (s.ports.get p).len = some (fields.length + 2) →
    fields.length ≤ 248 → (s.ports.get p).data = data →
    data ++ [b] = (kind :: tag :: fields) ++ checkBytes (byte (fields.length + 2) :: kind :: tag :: fields) →
    exec (.byteArrival p b) s = exec (requestOf p kind tag fields) s

/-- R165: on a port that takes bytes, FRAME_CRC_FAIL drops the frame without a reply: the port is back in HUNT, its
silence count goes on, and LINK_FRAME_BAD is raised with the port as locale. The last byte of a frame that fails its
CRC does the same. That FRAME_CRC_FAIL stands for the whole bad frame, so that it acts on a port in HUNT as well as in
RECEIVE, is the model's reading (log entry 4). -/
def Obligations.BadFrameIsDroppedWithAFault : Prop :=
  ∀ (p : Port) (s : State),
    ((s.ports.get p).state = .hunt ∨ (s.ports.get p).state = .receive →
      exec (.frameCrcFail p) s
        = .next (State.raise { s with ports := s.ports.set p (s.ports.get p).hunting } .linkFrameBad
          ⟨.port p, none, none⟩)) ∧
    (∀ (b : Byte) (n : Nat), (s.ports.get p).state = .receive →
      (s.ports.get p).len = some n → (s.ports.get p).data.length + 1 = n + 2 →
      ((s.ports.get p).data ++ [b]).drop n ≠ checkBytes (byte n :: ((s.ports.get p).data ++ [b]).take n) →
      exec (.byteArrival p b) s = exec (.frameCrcFail p) s)

/-- R163, R165, R166, R176: a framing error or an expired gap timer drops the frame in RECEIVE, the first with
LINK_FRAME_BAD, the port its locale, and the second without; the end of a reply takes a port in REPLY back to HUNT.
Entering HUNT, the line takes the port's baud. In any other state each changes nothing. That an expiry command is
taken whatever the gap count holds is the model's choice (log entry 2). -/
def Obligations.PortsReturnToHunt : Prop :=
  ∀ (p : Port) (s : State),
    let hunting : LinkPort := { s.ports.get p with
      state := .hunt, len := none, data := [], gap := 0, lineBaud := (s.ports.get p).baud }
    ((s.ports.get p).state = .receive →
      (∃ t, exec (.framingError p) s = .next t ∧ t.ports = s.ports.set p hunting ∧
        (∀ q, t.events.get q = { s.events.get q with fault := true }) ∧ t.seen = s.seen.set 2 true ∧
        ReportsRaised s t .linkFrameBad [⟨.port p, none, none⟩] ∧
        OnlyIn [.ports, .capture, .seen, .events] s t) ∧
      exec (.gapTimerExpiry p) s = .next { s with ports := (s.ports.set p hunting) }) ∧
    ((s.ports.get p).state = .reply →
      exec (.replySent p) s = .next { s with ports := (s.ports.set p hunting) }) ∧
    ((s.ports.get p).state ≠ .receive →
      exec (.framingError p) s = .next s ∧ exec (.gapTimerExpiry p) s = .next s) ∧
    ((s.ports.get p).state ≠ .reply → exec (.replySent p) s = .next s)

/-- R169, R170: a LIVE port whose silence count has reached the limit in force becomes SILENT: its reservation goes,
no event is set, and both faces are marked dirty; a SILENT port, one whose limit is off, and one whose count is below
the limit are left. A good frame taken first therefore leaves the port LIVE. -/
def Obligations.PortBecomesSilent : Prop :=
  ∀ (p : Port) (s : State),
    ((s.ports.get p).silent = false → (s.ports.get p).limitInForce ≠ 0 →
      (s.ports.get p).limitInForce * 1000 ≤ (s.ports.get p).count →
      ∃ t, exec (.portSilent p) s = .next t ∧
        t.ports = s.ports.set p { s.ports.get p with silent := true } ∧
        t.reservations = s.reservations.set p none ∧
        (∀ f, t.faces.get f = { s.faces.get f with dirty := true }) ∧
        OnlyIn [.ports, .reservations, .faces] s t) ∧
    ((s.ports.get p).silent = true ∨ (s.ports.get p).limitInForce = 0 ∨
        (s.ports.get p).count < (s.ports.get p).limitInForce * 1000 → exec (.portSilent p) s = .next s) ∧
    (∀ (kind tag : Byte) (fields : List Byte), (s.ports.get p).listening = true →
      ∃ t, exec (requestOf p kind tag fields) s = .next t ∧ (t.ports.get p).silent = false ∧
        (t.ports.get p).count = 0 ∧ exec (.portSilent p) t = .next t)

/-- R165, R169, R170: before anything else a frame that passes its CRC empties the buffer, restarts the silence count
and makes a SILENT port LIVE with both faces marked dirty: whatever its KIND, the request does what it does on the
port so changed. -/
def Obligations.GoodFrameMakesThePortLive : Prop :=
  ∀ (p : Port) (kind tag : Byte) (fields : List Byte) (s : State), (s.ports.get p).listening = true →
    exec (requestOf p kind tag fields) s = exec (requestOf p kind tag fields) { s with
      ports := s.ports.set p { s.ports.get p with len := none, data := [], gap := 0, count := 0, silent := false }
      faces := ⟨{ s.faces.a with dirty := s.faces.a.dirty || (s.ports.get p).silent },
        { s.faces.b with dirty := s.faces.b.dirty || (s.ports.get p).silent }⟩ }

/-- R164, R167 step 0, R168, R182: while the loader is LOADING every good frame, of whatever KIND, is answered
NOT_READY and does nothing else. Every reply to a request is the frame of R164 and R168: SYNC, LEN, KIND with its top
bit set, TAG, code byte, summary of the port's event set, result fields and the check word over LEN and the payload.
-/
def Obligations.LoadingAnswersNotReady : Prop :=
  ∀ (p : Port) (kind tag : Byte) (fields : List Byte) (s : State),
    (s.ports.get p).listening = true → s.loader.phase = .loading →
    ∃ t, exec (requestOf p kind tag fields) s = .next t ∧
      Served s t p kind tag (.plain .notReady) ∧ RequestTouches [] s t p ∧
      let e := t.events.get p
      let payload : List Byte := [kind ||| 0x80, tag, 0x0D,
        byte ((if e.reservationLost then 1 else 0) + (if e.noticeDisplaced then 2 else 0)
          + (if e.noticeExpired then 4 else 0) + (if e.fault then 8 else 0) + (if e.shownChanged then 16 else 0))]
      (t.ports.get p).reply = [0xA5, 4] ++ payload ++ checkBytes (4 :: payload)

/-- R165, R166: what arrives on a port in EXECUTE or REPLY is discarded: bytes, framing errors and whole
frames, which the model takes as lost whole (log entry 4). -/
def Obligations.BusyPortDiscards : Prop :=
  ∀ (p : Port) (kind tag b : Byte) (fields : List Byte) (s : State),
    (s.ports.get p).state = .execute ∨ (s.ports.get p).state = .reply →
    exec (requestOf p kind tag fields) s = .next s ∧ exec (.byteArrival p b) s = .next s ∧
    exec (.framingError p) s = .next s ∧ exec (.frameCrcFail p) s = .next s

/-- R165, R167 steps 1 and 2, R171 to R174: a good frame whose KIND is outside the catalogue is answered
BAD_KIND; one whose LEN does not fit its KIND, or the lengths carried in its fields, BAD_LENGTH; a field out of range,
BAD_FIELD, by R5, R29, R31, R32, R51, R70, R81, R86, R87, R94 and the parameter table of R183. Nothing else changes. The
first list gives KIND and LEN less 2; that of the requests that name one code, place or notice gives 0 in its place.
What a PUT DEPARTURE block is refused for is PutDepartureBlockIsRead's. -/
def Obligations.BadKindsAndLengthsAreAnswered : Prop :=
  ∀ (p : Port) (tag : Byte) (s : State), s.ready p →
    let Answers (kind : Byte) (fields : List Byte) (code : ReplyCode) : Prop :=
      ∃ t, exec (requestOf p kind tag fields) s = .next t ∧ Served s t p kind tag (.plain code) ∧
        RequestTouches [] s t p
    (∀ (kind : Byte) (fields : List Byte), catalogue.contains kind.toNat = false →
      ∃ t, exec (.unknownKindFrame p kind tag fields) s = .next t ∧
        Served s t p kind tag (.plain .badKind) ∧ RequestTouches [] s t p) ∧
    (∀ kl ∈ ([(0x02, 10), (0x03, 10), (0x04, 2), (0x05, 2), (0x06, 2), (0x07, 2), (0x08, 1), (0x11, 1), (0x12, 1),
        (0x18, 2), (0x19, 0), (0x20, 6), (0x21, 1), (0x22, 3), (0x29, 1), (0x2A, 1), (0x2B, 0), (0x30, 3),
        (0x31, 0), (0x38, 9), (0x39, 1), (0x3A, 0), (0x3B, 0), (0x41, 1), (0x42, 0), (0x43, 0), (0x48, 0),
        (0x49, 0), (0x4A, 0)] : List (Byte × Nat)),
      ∀ fields : List Byte, fields.length ≠ kl.2 → Answers kl.1 fields .badLength) ∧
    (∀ fields : List Byte,
      (fields.length ≠ 14 + 3 * (fields.getD 13 0).toNat → Answers 0x01 fields .badLength) ∧
      (fields.length ≠ 3 + (fields.getD 1 0).toNat + (fields.getD (2 + (fields.getD 1 0).toNat) 0).toNat →
        Answers 0x10 fields .badLength) ∧
      (fields.length ≠ 8 + (fields.getD 7 0).toNat → Answers 0x28 fields .badLength)) ∧
    (Answers 0x40 [] .badLength ∧
      ∀ (n : Byte) (value : List Byte),
        ((∀ q : Param, q.row.number ≠ n.toNat) → Answers 0x40 (n :: value) .badField) ∧
        ∀ q : Param, q.row.number = n.toNat →
          (value.length ≠ q.row.bytes → Answers 0x40 (n :: value) .badLength) ∧
          (value.length = q.row.bytes → ¬ q.row.takes value → Answers 0x40 (n :: value) .badField)) ∧
    (∀ (fields : List Byte) (code : ReplyCode), parsePut fields = .error code → Answers 0x01 fields code) ∧
    (∀ kf ∈ ([(0x04, [0, 0]), (0x05, [0, 0]), (0x06, [0, 0]), (0x07, [0, 0]), (0x18, [0, 0]), (0x11, [0]), (0x12, [0]), (0x29, [0]),
        (0x2A, [0])] : List (Byte × List Byte)), Answers kf.1 kf.2 .badField) ∧
    (∀ (n : Byte) (name short : List Byte), name.length < 256 → short.length < 256 →
      n = 0 ∨ name.length = 0 ∨ 24 < name.length ∨ 12 < short.length →
      Answers 0x10 (n :: byte name.length :: name ++ byte short.length :: short) .badField) ∧
    (∀ origin low high : Byte, 2 < origin → Answers 0x22 [origin, low, high] .badField) ∧
    (∀ hh mm ss : Byte, 23 < hh ∨ 59 < mm ∨ 59 < ss → Answers 0x30 [hh, mm, ss] .badField) ∧
    (∀ c1 c0 da d1 d0 sa pl aa ca cv : Byte,
      (c1 = 0 ∧ c0 = 0) ∨ 2 < da ∨ 3 < sa ∨ 31 < pl ∨ 2 < aa ∨ 2 < ca →
      Answers 0x02 [c1, c0, da, d1, d0, sa, pl, aa, ca, cv] .badField ∧
      Answers 0x03 [c1, c0, da, d1, d0, sa, pl, aa, ca, cv] .badField) ∧
    (∀ (id cls scope targets flash d1 d0 : Byte) (text : List Byte), text.length < 256 →
      id = 0 ∨ 1 < cls ∨ 1 < scope ∨ targets = 0 ∨ 3 < targets ∨ 1 < flash ∨ text.length = 0 ∨ 160 < text.length →
      Answers 0x28 ([id, cls, scope, targets, flash, d1, d0, byte text.length] ++ text) .badField) ∧
    (∀ f first second r1 r2 r3 r4 mode mask : Byte,
      (f ≠ 1 ∧ f ≠ 2) ∨ first = 0 ∨ 31 < first ∨ 31 < second ∨ second = first ∨ 5 < r1 ∨ 5 < r2 ∨ 5 < r3 ∨ 5 < r4 ∨
        (∃ r ∈ ([1, 2, 5] : List Byte), 1 < [r1, r2, r3, r4].count r) ∨ 1 < mode ∨ 7 < mask →
      Answers 0x38 [f, first, second, r1, r2, r3, r4, mode, mask] .badField)

/-! ## The departure table and the reservations (files 01 to 03) -/

/-- R5, R171, R172: a PUT DEPARTURE block of any number of stops that a frame holds is read field by field, with delay
clamped to 999 and carriages to 16, an absent via, delay or carriage count where the wire says so, the revision not
read, BAD_LENGTH for a stop count that disagrees with the length, and BAD_FIELD for a field out of range. -/
def Obligations.PutDepartureBlockIsRead : Prop :=
  ∀ (code scheduled platform dest via delay carriages : Nat) (status approaching revision count : Byte)
    (stops : List Stop),
    code < 65536 → scheduled < 65536 → platform < 256 → dest < 256 → via < 256 → delay < 65536 →
    carriages < 256 → stops.length ≤ 78 →
    (∀ st ∈ stops, st.place < 256 ∧ ∀ m, st.time = some m → m < 65535) →
    parsePut (be16 code ++ be16 scheduled ++ [byte platform, byte dest, byte via] ++ be16 delay
        ++ [status, byte carriages, approaching, revision, count]
        ++ stops.flatMap fun st => byte st.place :: be16 (st.time.getD 65535))
      = if count.toNat ≠ stops.length then .error .badLength
        else if status ≤ 1 ∧ approaching ≤ 1 ∧ 1 ≤ code ∧ scheduled ≤ 1439 ∧ 1 ≤ platform ∧ platform ≤ 31 ∧
            1 ≤ dest ∧ stops.length ≤ 32 ∧ ∀ st ∈ stops, 1 ≤ st.place ∧ ∀ m, st.time = some m → m ≤ 1439 then
          .ok { code := code, scheduled := scheduled, platform := platform, dest := dest,
                via := if via = 0 then none else some via,
                delay := if delay = 65535 then none else some (min delay 999),
                status := if status = 0 then .running else .cancelled,
                carriages := if carriages = 0 then none else some (min carriages 16),
                approaching := decide (approaching = 1), stops := stops }
        else .error .badField

/-- R2, R8: an insert that passes its steps: the record, with the fields of the request, revision 0, not pinned, and
its port as owner and writer, stands at its ordered place, with the stops drawn from the pool; each face bound to its
platform is dirty, makes its departure wake check and works out its state (R6, R99), and every other face is left;
nothing else of the table moves.
The order is that of the scheduled service keys, the minutes after the rollover minute RO, and then of the codes: in
an ordered table the record is put where it stays ordered. -/
def Obligations.PutDepartureInserts : Prop :=
  (∀ ro : Nat, ro ≤ 1439 →
    (∀ minute, serviceKey ro minute = (minute + 1440 - ro) % 1440) ∧
    (∀ x y : Departure,
      let key (r : Departure) := (r.scheduled + 1440 - ro) % 1440
      x.before ro y = true ↔ key x < key y ∨ (key x = key y ∧ x.code < y.code)) ∧
    ∀ (r : Departure) (table : List Departure), (insertRecord ro r table).Perm (r :: table) ∧
      ((∀ x ∈ table, x.code ≠ r.code) → table.Pairwise (fun x y => x.before ro y = true) →
        (insertRecord ro r table).Pairwise fun x y => x.before ro y = true)) ∧
  ∀ (p : Port) (tag : Byte) (fields : List Byte) (q : PutRequest) (s : State), s.ready p →
    parsePut fields = .ok q → s.record? q.code = none → s.allows p .depart [q.platform] →
    s.table.length < 48 → q.stops.length ≤ s.freeStops →
    ∃ t, exec (.putDeparture p tag fields) s = .next t ∧ Served s t p 0x01 tag (.plain .ok) ∧
      t.table = insertRecord s.params.ro (recordOf q p) s.table ∧
      t.record? q.code = some (recordOf q p) ∧ OthersSame s t q.code ∧
      t.freeStops + q.stops.length = s.freeStops ∧ TouchWakes s t [q.platform] (s.ports.get p).silent ∧
      OnlyIn ([.table, .freeStops, .ports] ++ faceParts) s t

/-- R9: a replacement that passes its steps takes every displayed field of the request, moves the revision
on, keeps the pin and the owner, frees the old stops and draws the new ones, and deletes the reservations; the faces
bound to the old or the new platform are touched (R6, R99), and every other face is left. -/
def Obligations.PutDepartureReplaces : Prop :=
  ∀ (p : Port) (tag : Byte) (fields : List Byte) (q : PutRequest) (old : Departure) (s : State), s.ready p →
    parsePut fields = .ok q → s.record? q.code = some old → s.allows p .depart [old.platform, q.platform] →
    q.stops.length ≤ s.freeStops + old.stops.length →
    ∃ t, exec (.putDeparture p tag fields) s = .next t ∧ Served s t p 0x01 tag (.plain .ok) ∧
      t.record? q.code = some { recordOf q p with
        pinned := old.pinned, owner := old.owner, revision := old.revision + 1 } ∧
      OthersSame s t q.code ∧
      t.freeStops + q.stops.length = s.freeStops + old.stops.length ∧
      LosesReservations s t q.code (.port p) ∧
      TouchWakes s t [old.platform, q.platform] (s.ports.get p).silent ∧
      OnlyIn ([.table, .freeStops, .reservations, .events, .ports] ++ faceParts) s t

/-- R3, R10: TABLE_FULL is decided on the record count alone, then POOL_FULL on the net need; a refused
request changes neither the table nor the pool. -/
def Obligations.PutDepartureCapacity : Prop :=
  ∀ (p : Port) (tag : Byte) (fields : List Byte) (q : PutRequest) (s : State), s.ready p →
    parsePut fields = .ok q →
    (s.record? q.code = none → s.allows p .depart [q.platform] → 48 ≤ s.table.length →
      ∃ t, exec (.putDeparture p tag fields) s = .next t ∧ Served s t p 0x01 tag (.plain .tableFull) ∧
        RequestTouches [] s t p) ∧
    (s.record? q.code = none → s.allows p .depart [q.platform] → s.table.length < 48 →
      s.freeStops < q.stops.length →
      ∃ t, exec (.putDeparture p tag fields) s = .next t ∧ Served s t p 0x01 tag (.plain .poolFull) ∧
        RequestTouches [] s t p) ∧
    (∀ old, s.record? q.code = some old → s.allows p .depart [old.platform, q.platform] →
      s.freeStops + old.stops.length < q.stops.length →
      ∃ t, exec (.putDeparture p tag fields) s = .next t ∧ Served s t p 0x01 tag (.plain .poolFull) ∧
        RequestTouches [] s t p)

/-- R11, R12, R172: the ten field bytes of an AMEND are read action by action. One that changes a field changes the
record in place: the actions applied, the revision moved on, the writer its port, the reservations deleted, and the
faces bound to its platforms touched (R6, R99), every other face left; one that changes none leaves the table as it
was. -/
def Obligations.AmendChangesTheRecordInPlace : Prop :=
  (∀ (p : Port) (tag : Byte) (fields : List Byte) (q : AmendRequest) (r : Departure) (s : State), s.ready p →
    parseAmend fields = .ok q → q.status ≠ .departed → s.record? q.code = some r →
    s.allows p .status (r.platform :: q.platform.toOption.toList) →
    (q.applied r ≠ r →
      ∃ t, exec (.amend p tag fields) s = .next t ∧ Served s t p 0x02 tag (.plain .ok) ∧
        ChangesRecord s t r { q.applied r with revision := r.revision + 1, writer := .port p } p) ∧
    (q.applied r = r →
      ∃ t, exec (.amend p tag fields) s = .next t ∧ Served s t p 0x02 tag (.plain .ok) ∧
        RequestTouches [] s t p)) ∧
  (∀ c1 c0 da d1 d0 sa pl aa ca cv : Byte,
    let bad : Prop := (c1 = 0 ∧ c0 = 0) ∨ 2 < da ∨ 3 < sa ∨ 31 < pl ∨ 2 < aa ∨ 2 < ca
    (bad → parseAmend [c1, c0, da, d1, d0, sa, pl, aa, ca, cv] = .error .badField) ∧
    (¬ bad → ∃ q, parseAmend [c1, c0, da, d1, d0, sa, pl, aa, ca, cv] = .ok q ∧
      q.code = c1.toNat * 256 + c0.toNat ∧ (q.status = .departed ↔ sa = 3) ∧
      q.platform.toOption = (if pl = 0 then none else some pl.toNat) ∧
      ∀ r : Departure, q.applied r = { r with
        delay := (if da = 1 then (if d1 = 0xFF ∧ d0 = 0xFF then none else some (min (d1.toNat * 256 + d0.toNat) 999))
          else if da = 2 then none else r.delay)
        status := (if sa = 1 then .running else if sa = 2 then .cancelled else r.status)
        platform := (if pl = 0 then r.platform else pl.toNat)
        approaching := (if aa = 1 then true else if aa = 2 then false else r.approaching)
        carriages := (if ca = 1 then (if cv = 0 then none else some (min cv.toNat 16))
          else if ca = 2 then none else r.carriages) }))

/-- R13, R14, R22: the departed action and WITHDRAW DEPARTURE remove the record, with its stops, its pin and
the reservations that name it; the faces bound to its platform are touched (R6, R99), and every other face is left. -/
def Obligations.DepartedAndWithdrawRemoveTheRecord : Prop :=
  ∀ (p : Port) (tag : Byte) (fields : List Byte) (code : Nat) (r : Departure) (s : State), s.ready p →
    s.record? code = some r →
    (∀ q, parseAmend fields = .ok q → q.code = code → q.status = .departed →
      s.allows p .status (r.platform :: q.platform.toOption.toList) →
      ∃ t, exec (.amend p tag fields) s = .next t ∧ Served s t p 0x02 tag (.plain .ok) ∧ RemovesRecord s t r p) ∧
    (parseCode fields = .ok code → s.allows p .depart [r.platform] →
      ∃ t, exec (.withdrawDeparture p tag fields) s = .next t ∧ Served s t p 0x04 tag (.plain .ok) ∧
        RemovesRecord s t r p)

/-- R56, R58, R60, R61: AMEND IF RESERVED on a record the port has reserved does what AMEND does: a change or a removal
deletes every reservation of the record, with RESERVATION_LOST for the other ports; no change leaves the others. The
port's own reservation goes silently in each case. Without the reservation it answers LOST, and the port holds none
afterwards. -/
def Obligations.AmendIfReservedNeedsTheReservation : Prop :=
  ∀ (p : Port) (tag : Byte) (fields : List Byte) (q : AmendRequest) (r : Departure) (s : State), s.ready p →
    parseAmend fields = .ok q → s.record? q.code = some r →
    s.allows p .status (r.platform :: q.platform.toOption.toList) →
    (s.reservations.get p = some q.code → q.status ≠ .departed → q.applied r ≠ r →
      ∃ t, exec (.amendIfReserved p tag fields) s = .next t ∧ Served s t p 0x03 tag (.plain .ok) ∧
        ChangesRecord s t r { q.applied r with revision := r.revision + 1, writer := .port p } p) ∧
    (s.reservations.get p = some q.code → q.status ≠ .departed → q.applied r = r →
      ∃ t, exec (.amendIfReserved p tag fields) s = .next t ∧ Served s t p 0x03 tag (.plain .ok) ∧
        t.reservations = s.reservations.set p none ∧ RequestTouches [.reservations] s t p) ∧
    (s.reservations.get p = some q.code → q.status = .departed →
      ∃ t, exec (.amendIfReserved p tag fields) s = .next t ∧ Served s t p 0x03 tag (.plain .ok) ∧
        RemovesRecord s t r p) ∧
    (s.reservations.get p ≠ some q.code →
      ∃ t, exec (.amendIfReserved p tag fields) s = .next t ∧ Served s t p 0x03 tag (.plain .lost) ∧
        t.reservations = s.reservations.set p none ∧ RequestTouches [.reservations] s t p)

/-- R15, R16: PIN pins a record while fewer than 4 are pinned and answers PIN_LIMIT otherwise; UNPIN frees
the pin; either leaves everything on a record that stands as asked, and neither touches a reservation. -/
def Obligations.PinAndUnpin : Prop :=
  ∀ (p : Port) (tag : Byte) (fields : List Byte) (code : Nat) (r : Departure) (s : State), s.ready p →
    parseCode fields = .ok code → s.record? code = some r → s.allows p .status [r.platform] →
    (r.pinned = false → s.pinCount < 4 →
      ∃ t, exec (.pin p tag fields) s = .next t ∧ Served s t p 0x05 tag (.plain .ok) ∧
        t.record? code = some { r with pinned := true } ∧ OthersSame s t code ∧
        t.pinCount = s.pinCount + 1 ∧ RequestTouches [.table, .pinCount] s t p) ∧
    (r.pinned = false → 4 ≤ s.pinCount →
      ∃ t, exec (.pin p tag fields) s = .next t ∧ Served s t p 0x05 tag (.plain .pinLimit) ∧
        RequestTouches [] s t p) ∧
    (r.pinned = true →
      ∃ t, exec (.pin p tag fields) s = .next t ∧ Served s t p 0x05 tag (.plain .ok) ∧
        RequestTouches [] s t p) ∧
    (r.pinned = true →
      ∃ t, exec (.unpin p tag fields) s = .next t ∧ Served s t p 0x06 tag (.plain .ok) ∧
        t.record? code = some { r with pinned := false } ∧ OthersSame s t code ∧
        t.pinCount = s.pinCount - 1 ∧ RequestTouches [.table, .pinCount] s t p) ∧
    (r.pinned = false →
      ∃ t, exec (.unpin p tag fields) s = .next t ∧ Served s t p 0x06 tag (.plain .ok) ∧
        RequestTouches [] s t p)

/-- R17, R18, R172: READ DEPARTURE returns the record's block, its pin, owner and writer; LIST DEPARTURES the
number and codes of the records on the platform, or of all for 0, in table order; neither changes the table. -/
def Obligations.ReadAndListDepartures : Prop :=
  ∀ (p : Port) (tag : Byte) (fields : List Byte) (s : State), s.ready p →
    (∀ code r, parseCode fields = .ok code → s.record? code = some r →
      ∃ t, exec (.readDeparture p tag fields) s = .next t ∧ RequestTouches [] s t p ∧
        Served s t p 0x07 tag ⟨.ok, departureBlock r⟩) ∧
    (∀ code, parseCode fields = .ok code → s.record? code = none →
      ∃ t, exec (.readDeparture p tag fields) s = .next t ∧ RequestTouches [] s t p ∧
        Served s t p 0x07 tag (.plain .notFound)) ∧
    (∀ b : Byte, fields = [b] →
      ∃ t, exec (.listDepartures p tag fields) s = .next t ∧ RequestTouches [] s t p ∧
        Served s t p 0x08 tag (if 31 < b.toNat then .plain .badField else
          let listed := s.table.filter fun r => b = 0 || r.platform = b.toNat
          ⟨.ok, byte listed.length :: listed.flatMap fun r => be16 r.code⟩))

/-- R55, R57: RESERVE passes through its steps: BAD_LENGTH, BAD_FIELD for code 0, REFUSED without STATUS on the platform
of a record that is present, NOT_FOUND. One that passes replaces the port's reservation by the record's code and
returns the record as READ DEPARTURE does; one refused leaves the reservation as it was. DROP RESERVATION deletes it,
held or not. Neither touches a record, an event set or another port's reservation. -/
def Obligations.ReserveAndDrop : Prop :=
  ∀ (p : Port) (tag : Byte) (fields : List Byte) (s : State), s.ready p →
    (fields.length ≠ 2 →
      ∃ t, exec (.reserve p tag fields) s = .next t ∧ Served s t p 0x18 tag (.plain .badLength) ∧
        RequestTouches [] s t p) ∧
    (fields = [0, 0] →
      ∃ t, exec (.reserve p tag fields) s = .next t ∧ Served s t p 0x18 tag (.plain .badField) ∧
        RequestTouches [] s t p) ∧
    (∀ c1 c0 : Byte, fields = [c1, c0] → ¬ (c1 = 0 ∧ c0 = 0) →
      let code := c1.toNat * 256 + c0.toNat
      (∀ r, s.record? code = some r → s.allows p .status [r.platform] →
        ∃ t, exec (.reserve p tag fields) s = .next t ∧ Served s t p 0x18 tag ⟨.ok, departureBlock r⟩ ∧
          t.reservations = s.reservations.set p (some code) ∧ RequestTouches [.reservations] s t p) ∧
      (∀ r, s.record? code = some r → ¬ s.allows p .status [r.platform] →
        ∃ t, exec (.reserve p tag fields) s = .next t ∧ Served s t p 0x18 tag ⟨.refused, [2, byte r.platform]⟩ ∧
          RequestTouches [] s t p) ∧
      (s.record? code = none →
        ∃ t, exec (.reserve p tag fields) s = .next t ∧ Served s t p 0x18 tag (.plain .notFound) ∧
          RequestTouches [] s t p)) ∧
    (fields = [] →
      ∃ t, exec (.dropReservation p tag fields) s = .next t ∧ Served s t p 0x19 tag (.plain .ok) ∧
        t.reservations = s.reservations.set p none ∧ RequestTouches [.reservations] s t p)

/-- R7, R47: a request on a code that is not present answers NOT_FOUND; on a present record whose right is
missing it answers REFUSED with the right and the platform; neither changes anything else. -/
def Obligations.RecordRequestsRefused : Prop :=
  ∀ (p : Port) (tag : Byte) (fields : List Byte) (code : Nat) (s : State), s.ready p →
    parseCode fields = .ok code →
    ∀ kr ∈ ([(0x04, .depart), (0x05, .status), (0x06, .status), (0x18, .status)] : List (Byte × Right)),
      (s.record? code = none →
        ∃ t, exec (requestOf p kr.1 tag fields) s = .next t ∧ Served s t p kr.1 tag (.plain .notFound) ∧
          RequestTouches [] s t p) ∧
      (∀ r, s.record? code = some r → granted s.zones p kr.2 r.platform = false →
        ∃ t, exec (requestOf p kr.1 tag fields) s = .next t ∧
          Served s t p kr.1 tag ⟨.refused, [if kr.2 = .depart then 1 else 2, byte r.platform]⟩ ∧
          RequestTouches [] s t p)

/-! ## Places (file 02) -/

/-- R29 to R32: PUT PLACE with DEPART on platform 0 defines the entry, whatever it held, and WITHDRAW PLACE makes
a defined one undefined, each marking both faces dirty; every other entry stands. READ PLACE returns name and
short name. Withdrawing or reading an undefined entry answers NOT_FOUND. -/
def Obligations.PlacesAreDefinedWithdrawnAndRead : Prop :=
  ∀ (p : Port) (tag : Byte) (n : Nat) (s : State), s.ready p → 1 ≤ n → n ≤ 255 →
    (∀ name short : List Byte, 1 ≤ name.length → name.length ≤ 24 → short.length ≤ 12 → s.allows p .depart [0] →
      ∃ t, exec (.putPlace p tag (byte n :: byte name.length :: name ++ byte short.length :: short)) s = .next t ∧
        Served s t p 0x10 tag (.plain .ok) ∧
        t.place? n = some ⟨name, if short = [] then none else some short⟩ ∧
        (∀ m, m ≠ n → t.place? m = s.place? m) ∧ (∀ f, t.faces.get f = { s.faces.get f with dirty := true }) ∧
        OnlyIn [.places, .ports, .faces] s t) ∧
    (∀ e, s.place? n = some e → s.allows p .depart [0] →
      ∃ t, exec (.withdrawPlace p tag [byte n]) s = .next t ∧ Served s t p 0x11 tag (.plain .ok) ∧
        t.place? n = none ∧ (∀ m, m ≠ n → t.place? m = s.place? m) ∧ (∀ f, t.faces.get f = { s.faces.get f with dirty := true }) ∧
        OnlyIn [.places, .ports, .faces] s t) ∧
    (s.place? n = none → s.allows p .depart [0] →
      ∃ t, exec (.withdrawPlace p tag [byte n]) s = .next t ∧ Served s t p 0x11 tag (.plain .notFound) ∧
        RequestTouches [] s t p) ∧
    (∀ e, s.place? n = some e →
      ∃ t, exec (.readPlace p tag [byte n]) s = .next t ∧ RequestTouches [] s t p ∧
        Served s t p 0x12 tag ⟨.ok, byte e.name.length :: e.name
          ++ byte (e.short.getD []).length :: e.short.getD []⟩) ∧
    (s.place? n = none →
      ∃ t, exec (.readPlace p tag [byte n]) s = .next t ∧ RequestTouches [] s t p ∧
        Served s t p 0x12 tag (.plain .notFound))

/-! ## Access zones (file 03) -/

/-- R48, R49: a WRITE ZONE whose table would pass the lockout test replaces the zone; any other is answered
LOCKOUT, and a code or platform out of range BAD_FIELD; neither changes a zone. -/
def Obligations.WriteZoneUnderTheLockoutTest : Prop :=
  ∀ (p : Port) (tag : Byte) (s : State), s.ready p →
    (∀ (n : Fin 8) (z : Zone), z.low ≤ 31 → z.high ≤ 31 → s.allows p .config [0] →
      let after := s.zones.set n z
      let passes : Prop := ∃ m : Fin 8, after[m].enabled = true ∧ after[m].low = 0 ∧ after[m].rights.config = true
      (passes →
        ∃ t, exec (.writeZone p tag (byte n :: zoneBlock z)) s = .next t ∧ Served s t p 0x20 tag (.plain .ok) ∧
          t.zones = after ∧ RequestTouches [.zones] s t p) ∧
      (¬ passes →
        ∃ t, exec (.writeZone p tag (byte n :: zoneBlock z)) s = .next t ∧ Served s t p 0x20 tag (.plain .lockout) ∧
          RequestTouches [] s t p)) ∧
    (∀ n enabled who low high rights : Byte,
      7 < n ∨ 1 < enabled ∨ (2 < who ∧ who ≠ 0xFF) ∨ 31 < low ∨ 31 < high ∨ 15 < rights →
      ∃ t, exec (.writeZone p tag [n, enabled, who, low, high, rights]) s = .next t ∧
        Served s t p 0x20 tag (.plain .badField) ∧ RequestTouches [] s t p)

/-- R43, R51, R52: a right on a platform is granted to an origin by one zone that is enabled, matches it, covers the
platform and carries the right. PROBE RIGHTS reports, for each right, whether some enabled zone that matches the
origin and carries the right covers every platform of the range, and whether one covers some of them; OV for a range
out of bounds. The layout of the nine result bytes is the model's (log entry 23). -/
def Obligations.ProbeRightsReportsTheGrants : Prop :=
  ∀ (p o : Port) (tag low high : Byte) (s : State), s.ready p →
    let grants (right : Right) (pl : Nat) : Prop := ∃ m : Fin 8, s.zones[m].enabled = true ∧
      (s.zones[m].who = .global ∨ s.zones[m].who = .origin o) ∧
      s.zones[m].low ≤ pl ∧ pl ≤ s.zones[m].high ∧ (match right with
        | .depart => s.zones[m].rights.depart | .status => s.zones[m].rights.status
        | .notice => s.zones[m].rights.notice | .config => s.zones[m].rights.config) = true
    (∀ right pl, granted s.zones o right pl = true ↔ grants right pl) ∧
    (o = p ∨ s.allows p .config [0] →
      ∃ t flags, exec (.probeRights p tag [byte (Port.number o), low, high]) s = .next t ∧
        Served s t p 0x22 tag ⟨.ok, flags⟩ ∧ RequestTouches [] s t p ∧
        (high < low ∨ 31 < high → flags = 1 :: List.replicate 8 0) ∧
        (low ≤ high → high ≤ 31 → flags.length = 9 ∧ flags.head? = some 0 ∧ (∀ b ∈ flags, b = 0 ∨ b = 1) ∧
          ∀ ir ∈ ([(1, .depart), (3, .status), (5, .notice), (7, .config)] : List (Nat × Right)),
            (flags[ir.1]? = some 1 ↔ ∀ pl, low.toNat ≤ pl → pl ≤ high.toNat → grants ir.2 pl) ∧
            (flags[ir.1 + 1]? = some 1 ↔ ∃ pl, low.toNat ≤ pl ∧ pl ≤ high.toNat ∧ grants ir.2 pl))) ∧
    (o ≠ p → ¬ s.allows p .config [0] →
      ∃ t, exec (.probeRights p tag [byte (Port.number o), low, high]) s = .next t ∧
        Served s t p 0x22 tag ⟨.refused, [4, 0]⟩ ∧ RequestTouches [] s t p)

/-- R45, R47: a request that passes its length and field steps and lacks its right on platform 0 (DEPART for
the two place requests, CONFIG for the others) is answered REFUSED with the right and platform 0, and nothing
else changes. -/
def Obligations.StationRequestsRefused : Prop :=
  ∀ (p : Port) (tag : Byte) (fields : List Byte) (right : Right) (s : State), s.ready p →
    granted s.zones p right 0 = false →
    ∀ kf ∈ ([(0x10, .depart, (parsePlace fields).isOk), (0x11, .depart, (parseNonZero fields).isOk),
        (0x20, .config, (parseWriteZone fields).isOk), (0x30, .config, (parseClock fields).isOk),
        (0x38, .config, (parseSetFace fields).isOk), (0x40, .config, (parseSetParameter fields).isOk),
        (0x42, .config, fields.isEmpty), (0x43, .config, fields.isEmpty), (0x49, .config, fields.isEmpty)]
        : List (Byte × Right × Bool)),
      kf.2 = (right, true) →
      ∃ t, exec (requestOf p kf.1 tag fields) s = .next t ∧
        Served s t p kf.1 tag ⟨.refused, [if right = .depart then 1 else 4, 0]⟩ ∧ RequestTouches [] s t p

/-! ## Reads that change nothing (files 03, 04, 05, 06, 08, 09) -/

/-- R50, R71, R88, R96, R148, R162, R174: READ ZONE, READ CLOCK, LIST NOTICES, READ FACE, READ SHOWN and READ
INPUTS return what is held, field by field, and change nothing. -/
def Obligations.ReadsReturnWhatIsHeld : Prop :=
  ∀ (p : Port) (tag : Byte) (s : State), s.ready p →
    (∀ n : Byte, ∃ t, exec (.readZone p tag [n]) s = .next t ∧ RequestTouches [] s t p ∧
      (∀ h : n.toNat < 8, Served s t p 0x21 tag ⟨.ok, zoneBlock s.zones[n.toNat]⟩) ∧
      (8 ≤ n.toNat → Served s t p 0x21 tag (.plain .badField))) ∧
    (∃ t, exec (.readClock p tag []) s = .next t ∧ RequestTouches [] s t p ∧
      Served s t p 0x31 tag ⟨.ok, [byte s.clock.hh, byte s.clock.mm, byte s.clock.ss,
        if s.clock.valid then 1 else 0, if s.clock.osc = .running then 1 else 0,
        if s.clock.source = .timekeeper then 1 else if s.clock.source = .system then 2 else 0]⟩) ∧
    (∃ t, exec (.listNotices p tag []) s = .next t ∧ RequestTouches [] s t p ∧
      Served s t p 0x2B tag ⟨.ok, byte s.notices.length :: s.notices.map fun n => byte n.id⟩) ∧
    (∀ f : Face, ∃ t, exec (.readFace p tag [if f = .a then 1 else 2]) s = .next t ∧ RequestTouches [] s t p ∧
      Served s t p 0x39 tag ⟨.ok, faceBlock (s.faces.get f).settings
        ++ [if (s.faces.get f).state = .dark then 1 else if (s.faces.get f).state = .woken then 2
            else if (s.faces.get f).state = .lampTest then 3 else 0, byte (s.faces.get f).countdown]⟩) ∧
    (∀ b : Byte, b ≠ 1 → b ≠ 2 → ∃ t, exec (.readFace p tag [b]) s = .next t ∧ RequestTouches [] s t p ∧
      Served s t p 0x39 tag (.plain .badField)) ∧
    (let side (f : Face) : List Byte :=
        [if (s.faces.get f).state = .dark then 1 else if (s.faces.get f).state = .woken then 2
            else if (s.faces.get f).state = .lampTest then 3 else 0,
         if (s.panels.get f).out = .starting then 1 else if (s.panels.get f).out = .driving then 2 else 0,
         byte (s.panels.get f).faceDuty]
          ++ (List.finRange 4).flatMap fun k => sourceBlock (s.panels.get f).frontPlan.lines[k].source
            ++ [if (s.panels.get f).chains[k] = .suspect1 then 1 else if (s.panels.get f).chains[k] = .suspect2 then 2
                else if (s.panels.get f).chains[k] = .failed then 3 else 0,
                if (s.panels.get f).chains[k] = .failed then 0 else 1]
      ∃ t, exec (.readShown p tag []) s = .next t ∧ RequestTouches [] s t p ∧
        Served s t p 0x3A tag ⟨.ok, be16 s.ambient.level ++ side .a ++ side .b⟩) ∧
    (∃ t, exec (.readInputs p tag []) s = .next t ∧ RequestTouches [] s t p ∧
      Served s t p 0x3B tag ⟨.ok, (List.finRange 4).flatMap fun l =>
        let line := s.lines[l]
        [if line.function = .approach then 1 else if line.function = .blank then 2
            else if line.function = .wake then 3 else if line.function = .lampTest then 4 else 0,
         if line.face = .a then 1 else if line.face = .b then 2 else 3, byte line.sense, byte line.debounce,
         if line.settled = .high then 1 else 0,
         if (line.function = .blank ∨ line.function = .lampTest) ∧ (line.sense = 0 ↔ line.settled = .high) then 1 else 0,
         if line.pending = 0 then 0 else 1]⟩)

/-! ## Notices (file 05) -/

/-- R78, R80, R82 to R85, R98: POST NOTICE by its four cases: a new post, a replacement, a post with displacement,
and NOTICE_FULL. The text is taken as sent. A HIGH notice taken wakes the faces it targets. Every other face is left,
composer and panel, but for its dirty mark, set where the notice, the one it replaces or the one it displaces targets
the face, or where a SILENT port turned LIVE, and for a back bitmap that the painter begins, freed of a plan of a face
gone DARK. What painting leaves there is open (log entry 11). -/
def Obligations.PostNoticePosts : Prop :=
  ∀ (p : Port) (tag : Byte) (q : NoticeRequest) (s : State), s.ready p →
    1 ≤ q.id → q.id ≤ 255 → q.duration ≤ 65535 → 1 ≤ q.text.length → q.text.length ≤ 160 →
    (∀ old, s.notice? q.id = some old →
      s.allows p .notice (s.facePlatforms fun f => q.targets.has f || old.targets.has f) →
      ∃ t, exec (.postNotice p tag (noticeBlock q)) s = .next t ∧
        Served s t p 0x28 tag ⟨.ok, be16 old.posting.toNat ++ [0]⟩ ∧
        t.notices = s.notices.map (fun n => if n.id = q.id then noticeOf q p old.posting else n) ∧
        NoticeReaches s t q (fun f => q.targets.has f || old.targets.has f) (s.ports.get p).silent ∧
        OnlyIn ([.notices, .ports] ++ faceParts) s t) ∧
    (s.notice? q.id = none → s.allows p .notice (s.facePlatforms q.targets.has) →
      (s.notices.length < 8 →
        ∃ t, exec (.postNotice p tag (noticeBlock q)) s = .next t ∧
          Served s t p 0x28 tag ⟨.ok, be16 s.postCounter.toNat ++ [0]⟩ ∧
          t.notices = s.notices ++ [noticeOf q p s.postCounter] ∧ t.postCounter = s.postCounter + 1 ∧
          NoticeReaches s t q (fun f => q.targets.has f) (s.ports.get p).silent ∧
          OnlyIn ([.notices, .postCounter, .ports] ++ faceParts) s t) ∧
      (∀ gone, 8 ≤ s.notices.length → q.cls = .high → s.notices.find? (fun n => n.cls == .low) = some gone →
        ∃ t, exec (.postNotice p tag (noticeBlock q)) s = .next t ∧
          Served s t p 0x28 tag ⟨.ok, be16 s.postCounter.toNat ++ [byte gone.id]⟩ ∧
          t.notices = s.notices.filter (fun n => n.id != gone.id) ++ [noticeOf q p s.postCounter] ∧
          t.postCounter = s.postCounter + 1 ∧
          (∀ o, t.events.get o =
            if o = gone.origin then { s.events.get o with noticeDisplaced := true } else s.events.get o) ∧
          NoticeReaches s t q (fun f => q.targets.has f || gone.targets.has f) (s.ports.get p).silent ∧
          OnlyIn ([.notices, .postCounter, .events, .ports] ++ faceParts) s t) ∧
      (8 ≤ s.notices.length → q.cls = .low ∨ (∀ n ∈ s.notices, n.cls = .high) →
        ∃ t, exec (.postNotice p tag (noticeBlock q)) s = .next t ∧
          Served s t p 0x28 tag (.plain .noticeFull) ∧ RequestTouches [] s t p))

/-- R46, R86, R87: WITHDRAW NOTICE removes a held notice and marks its faces dirty, telling no port; READ
NOTICE returns its fields; each answers NOT_FOUND for an ID not held. -/
def Obligations.WithdrawAndReadNotice : Prop :=
  ∀ (p : Port) (tag : Byte) (id : Nat) (s : State), s.ready p → 1 ≤ id → id ≤ 255 →
    (∀ n, s.notice? id = some n →
      (s.allows p .notice (s.facePlatforms n.targets.has) →
        ∃ t, exec (.withdrawNotice p tag [byte id]) s = .next t ∧ Served s t p 0x29 tag (.plain .ok) ∧
          t.notices = s.notices.filter (fun m => m.id != id) ∧
          (∀ f, t.faces.get f = { s.faces.get f with
            dirty := (s.faces.get f).dirty || (s.ports.get p).silent || n.targets.has f }) ∧
          OnlyIn [.notices, .ports, .faces] s t) ∧
      (∃ t, exec (.readNotice p tag [byte id]) s = .next t ∧ RequestTouches [] s t p ∧
        Served s t p 0x2A tag ⟨.ok,
          [byte n.id, if n.cls = .high then 1 else 0, if n.scope = .full then 1 else 0,
           if n.targets = .a then 1 else if n.targets = .b then 2 else 3, if n.flash then 1 else 0]
            ++ be16 n.duration ++ byte n.text.length :: n.text ++ be16 n.remaining
            ++ [if n.origin = .lp0 then 0 else if n.origin = .lp1 then 1 else 2] ++ be16 n.posting.toNat⟩)) ∧
    (s.notice? id = none →
      (∃ t, exec (.withdrawNotice p tag [byte id]) s = .next t ∧ Served s t p 0x29 tag (.plain .notFound) ∧
        RequestTouches [] s t p) ∧
      (∃ t, exec (.readNotice p tag [byte id]) s = .next t ∧ Served s t p 0x2A tag (.plain .notFound) ∧
        RequestTouches [] s t p))

/-! ## Station clock and interval timers (file 04) -/

/-- R63, R64, R176: the oscillator reaching RUNNING before the deadline makes TIMEKEEPER the second source; the
deadline makes it SYSTEM and raises TIMEKEEPER_NOT_READY; each does nothing where it cannot occur. That the counts
are not looked at is the model's choice (log entry 2), and so is the start count of 0 from the entry to RUNNING on
(log entry 32). -/
def Obligations.TheSecondSourceIsDecidedOnce : Prop :=
  ∀ s : State,
    (s.clock.osc = .starting → s.clock.deadline ≠ none →
      exec .oscillatorRunning s = .next { s with clock := { s.clock with
        osc := .running, startCount := 0, deadline := none, source := .timekeeper, divider := 0 } }) ∧
    (s.clock.osc = .starting → s.clock.deadline = none →
      exec .oscillatorRunning s = .next { s with clock := { s.clock with osc := .running, startCount := 0 } }) ∧
    (s.clock.osc = .running → exec .oscillatorRunning s = .next s) ∧
    (s.clock.deadline ≠ none →
      ∃ t, exec .startupDeadlineExpiry s = .next t ∧
        t.clock = { s.clock with deadline := none, source := .system, divider := 0 } ∧
        (∀ o, t.events.get o = { s.events.get o with fault := true }) ∧ t.seen = s.seen.set 8 true ∧
        ReportsRaised s t .timekeeperNotReady [⟨.none, none, none⟩] ∧
        OnlyIn [.clock, .capture, .seen, .events] s t) ∧
    (s.clock.deadline = none → exec .startupDeadlineExpiry s = .next s)

/-- R65, R67, R70, R89, R90, R109: a second event moves the time on by one second, counts the notices down, removes
those that reach 0, telling their origins and marking their faces, and marks each face that is not DARK and stands at
the clock entry; away from a whole minute it touches nothing else. There is none where the divider has not counted a
second of the second source, as after a SET CLOCK taken first, nor while the source is NONE. That before its first
plan a face counts as showing no FULL notice, so that it may stand at the clock entry, is the model's reading (log
entry 30). -/
def Obligations.SecondEventCountsASecond : Prop :=
  ∀ s : State, ClockSound s →
    (¬ s.clock.secondDue → exec .secondEvent s = .next s) ∧
    (s.clock.secondDue →
      ∃ t, exec .secondEvent s = .next t ∧
        t.clock.hh * 3600 + t.clock.mm * 60 + t.clock.ss
          = (s.clock.hh * 3600 + s.clock.mm * 60 + s.clock.ss + 1) % 86400 ∧
        t.clock = { s.clock with
          hh := t.clock.hh, mm := t.clock.mm, ss := t.clock.ss, divider := 0, prevMinute := t.clock.prevMinute } ∧
        t.notices = (s.notices.filter fun n => n.remaining != 1).map (fun n => { n with remaining := n.remaining - 1 }) ∧
        (∀ o, (∃ n ∈ s.notices, n.remaining = 1 ∧ n.origin = o) → (t.events.get o).noticeExpired = true) ∧
        (∀ n ∈ s.notices, n.remaining = 1 → ∀ f, n.targets.has f = true → (t.faces.get f).dirty = true) ∧
        (∀ f, (s.faces.get f).state ≠ .dark → (s.faces.get f).standsAtClock → (t.faces.get f).dirty = true) ∧
        (s.clock.ss ≠ 59 →
          (∀ o, (∀ n ∈ s.notices, n.remaining = 1 → n.origin ≠ o) → t.events.get o = s.events.get o) ∧
          (∀ f, { t.faces.get f with dirty := (s.faces.get f).dirty } = s.faces.get f) ∧
          (∀ f, (∀ n ∈ s.notices, n.remaining = 1 → n.targets.has f = false) →
            (s.faces.get f).state = .dark ∨ ¬ (s.faces.get f).standsAtClock → t.faces.get f = s.faces.get f) ∧
          t.clock.prevMinute = s.clock.prevMinute ∧ OnlyIn [.clock, .notices, .events, .faces] s t) ∧
        OnlyIn ([.clock, .notices, .table, .freeStops, .pinCount, .reservations, .events] ++ faceParts) s t)

/-- R20, R21, R60, R68 to R70, R97 to R99: a minute event, made by the second event that wraps to 0 or by SET CLOCK,
leaves exactly the records that day close and expiry leave, in their order, deletes the reservations of the others
with RESERVATION_LOST, counts every wake countdown down by one, makes the departure wake check of each face against
what is then its view, works out both effective states, notes the minute and marks both faces dirty. SET CLOCK sets
the time and the valid flag and puts the divider back to 0, and its day close looks at the validity before. That each
face makes one wake check, at the end of the event, and none at the single removals, is the model's reading (log entry
18). -/
def Obligations.MinuteEventsRemoveWhatHasPassed : Prop :=
  ∀ s : State, TableSound s →
    let Left (t : State) (validNow : Bool) (minute : Nat) : Prop :=
      (∀ r, r ∈ t.table ↔ r ∈ s.table ∧ s.stays s.clock.valid validNow minute r) ∧
      t.table.Sublist s.table ∧ (∀ f, (t.faces.get f).dirty = true) ∧
      (∀ f, Wakens s t f (t.departureWakes f) ((s.faces.get f).countdown - 1)) ∧
      (∀ p code, s.reservations.get p = some code →
        (code ∈ t.table.map (fun r => r.code) → t.reservations.get p = some code) ∧
        (code ∉ t.table.map (fun r => r.code) →
          t.reservations.get p = none ∧ (t.events.get p).reservationLost = true))
    (ClockSound s → s.clock.secondDue → s.clock.ss = 59 →
      ∃ t, exec .secondEvent s = .next t ∧
        let minute := (s.clock.hh * 60 + s.clock.mm + 1) % 1440
        t.clock.hh * 60 + t.clock.mm = minute ∧ t.clock.prevMinute = some minute ∧ Left t s.clock.valid minute) ∧
    (∀ (p : Port) (tag : Byte) (hh mm ss : Nat), s.ready p → hh ≤ 23 → mm ≤ 59 → ss ≤ 59 → s.allows p .config [0] →
      ∃ t, exec (.setClock p tag [byte hh, byte mm, byte ss]) s = .next t ∧ Served s t p 0x30 tag (.plain .ok) ∧
        t.clock = { s.clock with
          hh := hh, mm := mm, ss := ss, valid := true, divider := 0, prevMinute := some (hh * 60 + mm) } ∧
        Left t true (hh * 60 + mm) ∧
        OnlyIn ([.clock, .table, .freeStops, .pinCount, .reservations, .events, .ports] ++ faceParts) s t)

/-- R73, R74, R75, R108, R150: an expiry puts the timer back to 0, stops it in mode SINGLE, and reaches its block: T0
and T1 the tickers of one face, T2 and T3 both faces, T4 the flash phase, T5 the ambient sampling. A stopped timer,
and one whose counter has not reached its reload, as after a write taken first, does not expire. That before its first
plan a face counts as having no flashing field is the model's reading (log entry 30). -/
def Obligations.TimerExpiryReachesItsBlock : Prop :=
  ∀ (i : Fin 6) (s : State),
    (s.timers[i].running = false ∨ s.timers[i].counter < s.timers[i].reload → exec (.timerExpiry i) s = .next s) ∧
    (s.timers[i].running = true → s.timers[i].reload ≤ s.timers[i].counter →
      ∃ t, exec (.timerExpiry i) s = .next t ∧
        t.timers = s.timers.set i { s.timers[i] with
          counter := 0, sub := 0, running := decide (s.timers[i].mode = .auto) } ∧
        (∀ f, i.val = (if f = .a then 0 else 1) →
          let c := s.faces.get f
          t.faces = s.faces.set f (if c.state = .lit ∨ c.state = .woken then
            { c with
              calling := (c.calling.map fun k => k.step s.params.tickerHold)
              bottom := (c.bottom.map fun k => k.step s.params.tickerHold)
              pass := c.pass || c.bottom.any Ticker.stepCompletes
              dirty := c.dirty || c.calling.isSome || c.bottom.isSome } else c) ∧
          OnlyIn [.timers, .faces] s t) ∧
        (i.val = 2 ∨ i.val = 3 → OnlyIn [.timers, .faces] s t ∧
          ∀ f, (s.faces.get f).state = .dark ∨ (s.faces.get f).state = .lampTest → t.faces.get f = s.faces.get f) ∧
        (i.val = 4 → t.flashOn = !s.flashOn ∧ OnlyIn [.timers, .flashOn, .faces] s t ∧
          ∀ f,
            let flashes : Prop := ((s.faces.get f).state = .lit ∨ (s.faces.get f).state = .woken) ∧
              ∃ plan, (s.faces.get f).lastPlan = some plan ∧ ∃ line ∈ plan.lines.toList, ∃ fd ∈ line.fields,
                fd.flashing = true
            (flashes → t.faces.get f = { s.faces.get f with dirty := true }) ∧
            (¬ flashes → t.faces.get f = s.faces.get f)) ∧
        (i.val = 5 → t.ambient = { s.ambient with converting := true } ∧ OnlyIn [.timers, .ambient] s t))

/-- R104, R110, R112: what T2 and T3 do to a LIT or WOKEN face: the page of the FULL notice last planned or the ROTATE
index moves, and the bottom entry gives way, is held for its pass, or passes on. That the pages are those of the text
last planned is the model's reading (log entry 16), and so is that before its first plan a face counts as showing no
FULL notice, so that its ROTATE index and its bottom entry move (log entry 30). -/
def Obligations.RotationAndPagesAdvance : Prop :=
  ∀ (f : Face) (s : State), (s.faces.get f).state = .lit ∨ (s.faces.get f).state = .woken →
    let c := s.faces.get f
    let full := c.lastPlan.bind fun plan => plan.full
    let nextLines := c.settings.roles.toList.count .next
    let entries := (s.view f).length
    let pool := if entries < nextLines + 2 then 0
      else min entries (nextLines + 1 + s.params.rotateDepth) - (nextLines + 1)
    let list := BottomEntry.clock :: ((s.notices.filter fun n =>
        n.scope == .bottom && n.targets.has f && n.cls == .high) ++ (s.notices.filter fun n =>
        n.scope == .bottom && n.targets.has f && n.cls == .low)).map fun n => .notice n.id
    (s.timers[2].running = true → s.timers[2].reload ≤ s.timers[2].counter → ∃ t, exec (.timerExpiry 2) s = .next t ∧
      (∀ shown, full = some shown →
        t.faces.get f = { c with
          page := (if pageCount shown.text ≤ c.page then 1 else c.page + 1)
          dirty := c.dirty || decide (2 ≤ pageCount shown.text) }) ∧
      (full = none →
        t.faces.get f = { c with
          rotate := (if pool = 0 then 0 else (c.rotate + 1) % pool)
          dirty := c.dirty || decide (.rotate ∈ c.settings.roles.toList ∧ 2 ≤ pool) })) ∧
    (s.timers[3].running = true → s.timers[3].reload ≤ s.timers[3].counter → ∃ t, exec (.timerExpiry 3) s = .next t ∧
      (full = none → .bottom ∈ c.settings.roles.toList →
        (c.entry ∉ list → t.faces.get f = { c with entry := .clock, pass := false, dirty := true }) ∧
        (c.entry ∈ list → c.bottom ≠ none → c.pass = false → t.faces.get f = c) ∧
        (∀ before after, list = before ++ c.entry :: after → c.entry ∉ before → c.bottom = none ∨ c.pass = true →
          t.faces.get f = (if after.headD .clock = c.entry then c
            else { c with entry := after.headD .clock, pass := false, dirty := true }))) ∧
      (full ≠ none ∨ .bottom ∉ c.settings.roles.toList → t.faces.get f = c))

/-! ## Text fitting and tickers (file 07) -/

/-- R122, R124, R127 to R131: the advances are those of R122's table, and a text is as wide as its advances and one gap
column between two glyphs; the destination text chosen fits its field and is the first of the ladder that does; the
lines of a FULL notice are its words placed by R130, a text without words giving one empty line; they fit 256 columns,
hold every byte of the text but the spaces, in order, and stand four to a page. -/
def Obligations.FittedTextsFit : Prop :=
  (∀ b : Byte, advance b = glyphColumns b) ∧
  (∀ text : List Byte, textWidth text = (text.map glyphColumns).sum + (text.length - 1)) ∧
  (∀ (width : Nat) (name : List Byte) (via short : Option (List Byte)),
    let chosen := destinationLadder width name via short
    textWidth chosen.1 ≤ width ∧ 1 ≤ chosen.2 ∧ chosen.2 ≤ 4 ∧
      (chosen.2 = 1 ↔ ∃ v, via = some v ∧ textWidth (name ++ str " via " ++ v) ≤ width) ∧
      (chosen.2 = 1 → ∃ v, via = some v ∧ chosen.1 = name ++ str " via " ++ v) ∧
      (chosen.2 = 2 → chosen.1 = name) ∧ (2 < chosen.2 → width < textWidth name) ∧
      (chosen.2 = 3 → short = some chosen.1) ∧
      (chosen.2 = 4 → (∀ t, short = some t → width < textWidth t) ∧
        ∃ n, chosen.1 = name.take n ∧ n < name.length ∧ width < textWidth (name.take (n + 1)))) ∧
  (∀ text : List Byte,
    (∃ lines, Wraps [] ((text.splitOn 0x20).filter fun w => w ≠ []) lines ∧
      wrapText text = if lines = [] then [[]] else lines) ∧
    (∀ line ∈ wrapText text, textWidth line ≤ 256) ∧
    (wrapText text).flatten.filter (fun b => b != 0x20) = text.filter (fun b => b != 0x20) ∧
    1 ≤ (wrapText text).length ∧
    pageCount text * 4 < (wrapText text).length + 4 ∧ (wrapText text).length ≤ pageCount text * 4)

/-- R133, R134: a ticker is built at position 256 in its hold; a step in HOLD only counts the hold, a step in
SCROLL moves the position on and wraps it, and a ticker comes back to the state it was built in after
256 + W + H steps. -/
def Obligations.TickerGoesRound : Prop :=
  (∀ (t : Ticker) (hold : Nat),
    (t.phase = .hold → t.step hold = { t with
      holdLeft := t.holdLeft - 1, phase := (if t.holdLeft ≤ 1 then .scroll else .hold) }) ∧
    (t.phase = .scroll → t.pos < 256 + t.width →
      (t.step hold).pos = (t.pos + 1) % (256 + t.width) ∧
      (t.step hold).phase = (if t.pos + 1 = 256 ∧ hold ≠ 0 ∧ 0 < t.width then .hold else .scroll) ∧
      (t.pos + 1 = 256 → 0 < t.width → t.stepCompletes = true ∧ (t.step hold).holdLeft = hold) ∧
      (t.pos + 1 ≠ 256 → t.stepCompletes = false ∧ (t.step hold).holdLeft = t.holdLeft))) ∧
  (∀ (key : TickerKey) (text : List Byte) (hold : Nat), 256 < textWidth text →
    let start : Ticker := ⟨key, text, textWidth text, 256, if hold = 0 then .scroll else .hold, hold⟩
    Ticker.build key text hold = start ∧
      Nat.repeat (fun t => Ticker.step t hold) (256 + textWidth text + hold) start = start)

/-! ## Faces (files 06 and 08) -/

/-- R94, R95, R97, R100, R101: SET FACE takes the five settings, starts the layout afresh when the bound platforms or
the line roles differ, sets the wake countdown and makes the departure wake check, works out the effective state with
the effects of its change, and marks the face dirty. The other face is left, composer and panel, but for its dirty mark
where a SILENT port turns LIVE and for a back bitmap that the painter begins, freed of a plan of the face gone DARK; what
painting leaves there is open (log entry 11). That platforms are compared as sets is the model's reading (log entry 38). -/
def Obligations.SetFaceTakesTheSettings : Prop :=
  ∀ (p : Port) (tag : Byte) (f : Face) (c : FaceSettings) (s : State), s.ready p → c.allowed → s.allows p .config [0] →
    ∃ t, exec (.setFace p tag ((if f = .a then 1 else 2) :: faceBlock c)) s = .next t ∧
      Served s t p 0x38 tag (.plain .ok) ∧
      (t.faces.get f).settings = c ∧ (t.faces.get f).dirty = true ∧ (t.faces.get f).state = t.effState f ∧
      StateEffects s t f ∧
      (let old := s.faces.get f
       let woken : Prop := s.clock.valid = true ∧ t.wakes f c.mask.departure ∧
         ∃ r ∈ t.view f, s.nowKey ≤ r.key s.params.ro + r.delay.getD 0 ∧
           r.key s.params.ro + r.delay.getD 0 ≤ s.nowKey + s.params.wakeWindow
       let sameLayout : Prop := (∀ pl, pl ∈ c.platforms ↔ pl ∈ old.settings.platforms) ∧ c.roles = old.settings.roles
       (woken → (t.faces.get f).countdown = s.params.wakeHold) ∧
       (¬ woken → (t.faces.get f).countdown
         = if c.modeOn = true ∨ old.settings.modeOn = true then 0 else old.countdown) ∧
       (sameLayout → (t.faces.get f).rotate = old.rotate ∧ (t.faces.get f).entry = old.entry ∧
         (t.faces.get f).page = old.page) ∧
       (¬ sameLayout → (t.faces.get f).rotate = 0 ∧ (t.faces.get f).entry = .clock ∧ (t.faces.get f).page = 1 ∧
         (t.faces.get f).pass = false ∧ (t.faces.get f).restartPending = true)) ∧
      (∀ g, g ≠ f → FaceLeft s t g (s.ports.get p).silent) ∧
      OnlyIn (.ports :: faceParts) s t

/-- R111 to R113, R115, R116, R131, R137: a plan is taken exactly of an IDLE, dirty, LIT or WOKEN face outside
LOADING; it clears the flag, becomes the plan in hand with the flash phase and the FULL notice chosen, and goes to the
painter, at once or to wait; every panel is left but the face's back bitmap. A FULL notice chosen shows, on all four
lines, a page of its wrapped text, centred and flashing as it was posted: the page held when the last plan showed the
same notice and text and has that page, and page 1 otherwise; it leaves the bottom entry, its pass flag and a restart
pending as they were, and holds no ticker. The serial that names a plan is the model's (log entry 25), and a line of
the page without text is read as dark (log entry 15). That before its first plan a face counts as showing no FULL
notice, so that one chosen starts at page 1, is the model's reading (log entry 30). -/
def Obligations.PlanIsTakenAndHandedOn : Prop :=
  ∀ (f : Face) (s : State),
    let c := s.faces.get f
    let due : Prop := c.rebuild = .idle ∧ c.dirty = true ∧ (c.state = .lit ∨ c.state = .woken) ∧ s.loader.phase ≠ .loading
    let fulls := s.notices.filter fun n => n.scope == .full && n.targets.has f
    let chosen := ((fulls.find? fun n => n.cls == .high).or (fulls.find? fun n => n.cls == .low))
    (¬ due → exec (.plan f) s = .next s) ∧
    (due → ∃ t plan, exec (.plan f) s = .next t ∧
      (t.faces.get f).dirty = false ∧ (t.faces.get f).rebuild = .painting ∧ (t.faces.get f).inHand = some plan ∧
      (t.faces.get f).lastPlan = some plan ∧ plan.serial = c.serial + 1 ∧ (t.faces.get f).serial = plan.serial ∧
      plan.flashOn = s.flashOn ∧ plan.full = chosen.map (fun n => ⟨n.id, n.text⟩) ∧
      (t.faces.get f).settings = c.settings ∧ (t.faces.get f).state = c.state ∧
      (t.faces.get f).countdown = c.countdown ∧ (t.faces.get f).rotate = c.rotate ∧
      (∀ g, g ≠ f → t.faces.get g = s.faces.get g ∧ t.panels.get g = s.panels.get g) ∧
      { t.panels.get f with back := (s.panels.get f).back } = s.panels.get f ∧
      (s.painter.current = none → t.painter = ⟨some ⟨f, plan.serial⟩, s.painter.waiting⟩) ∧
      (s.painter.current ≠ none → t.painter = ⟨s.painter.current, some ⟨f, plan.serial⟩⟩ ∧ t.panels = s.panels) ∧
      (∀ n, chosen = some n →
        let page := if (c.lastPlan.bind fun last => last.full) = some ⟨n.id, n.text⟩ ∧ c.page ≤ pageCount n.text
          then c.page else 1
        (t.faces.get f).page = page ∧ (t.faces.get f).entry = c.entry ∧ (t.faces.get f).pass = c.pass ∧
        (t.faces.get f).restartPending = c.restartPending ∧
        (∀ k : Fin 4,
          let text := ((wrapText n.text)[4 * (page - 1) + k.val]?).getD []
          plan.lines[k] = ⟨.full, if text = [] then .none else .page n.id page,
            [⟨0, 256, .centre, text, none, n.flash, none⟩]⟩) ∧
        (t.faces.get f).calling = none ∧ (t.faces.get f).bottom = none ∧ OnlyIn faceParts s t) ∧
      OnlyIn ([.capture, .seen, .events] ++ faceParts) s t)

/-- R34, R35, R102 to R110, R112, R113, R115, R116, R126, R176: the view of a face holds, in table order, the records
of its bound platforms but those whose writer is a SILENT port with stale action HIDE. The lines of a plan of the
departure view follow their roles, with their source, texts, fields and flash: FIRST view entry 1, the k-th NEXT line
entry k + 1, ROTATE the pool from its index on, CALLING the calling text of entry 1, BOTTOM the current entry, EMPTY
nothing. Without entries FIRST shows the phrase; every other departure line beyond the view or the pool is dark. A
text wider than 256 columns runs on its ticker, kept or built afresh at the plan. Each undefined place that a line
resolves raises PLACE_UNDEFINED, line by line, with face, line and place. The bottom pass flag is cleared where the
departure view returns after a FULL notice and where a current entry no longer in the list gives way to the clock, and
stands otherwise. That this plan itself shows the clock and leaves the face clean (log entry 29), that one restart
mark serves both tickers and is cleared at every plan of the departure view (log entry 22), and that before its first
plan a face counts as showing no FULL notice (log entry 30) are the model's readings. -/
def Obligations.PlanLinesFollowTheirRoles : Prop :=
  (∀ (f : Face) (s : State), s.view f = s.table.filter fun r => decide
    ((r.platform = (s.faces.get f).settings.primary ∨
        ((s.faces.get f).settings.second ≠ 0 ∧ r.platform = (s.faces.get f).settings.second)) ∧
      ¬ ∃ p ∈ [Port.lp0, .lp1, .lp2], r.writer = .port p ∧ (s.ports.get p).silent = true ∧
        (s.ports.get p).staleInForce = .hide)) ∧
  ∀ (f : Face) (s : State), s.planDue f = true →
    (∀ n ∈ s.notices, n.scope = .full → n.targets.has f = false) →
    ∃ t plan, exec (.plan f) s = .next t ∧ (t.faces.get f).inHand = some plan ∧
      let c := s.faces.get f
      let roles := c.settings.roles
      let entry := if c.entry ∈ s.bottomEntries f then c.entry else .clock
      let restart : Prop := c.restartPending = true ∨ (c.lastPlan.bind fun last => last.full) ≠ none
      let bottom := s.bottomShown entry
      ReportsRaised s t .placeUndefined ((List.finRange 4).flatMap fun k =>
        (s.undefinedOn f k).map fun n => ⟨.face f, some (k.val + 1), some n⟩) ∧
      (t.faces.get f).entry = entry ∧ (t.faces.get f).restartPending = false ∧ (t.faces.get f).dirty = false ∧
      (t.faces.get f).pass = (if (c.lastPlan.bind fun last => last.full) ≠ none ∨ c.entry ∉ s.bottomEntries f
        then false else c.pass) ∧
      (t.faces.get f).page = c.page ∧
      (t.faces.get f).calling = (if .calling ∈ roles.toList then
        (s.view f).head?.bind fun r => tickerFor c.calling restart (.record r.code) (s.callingShown r) s.params.tickerHold
        else none) ∧
      (t.faces.get f).bottom = (if .bottom ∈ roles.toList then
        tickerFor c.bottom restart (.entry entry) bottom.1 s.params.tickerHold else none) ∧
      ∀ k : Fin 4,
        (roles[k] = .empty → plan.lines[k] = ⟨.role .empty, .none, []⟩) ∧
        (roles[k] = .first → plan.lines[k] = if (s.view f).isEmpty then
            ⟨.role .first, .phrase, [⟨0, 256, .centre, str "No departures", none, false, none⟩]⟩
          else s.recordShown f .first (s.view f).head?) ∧
        (roles[k] = .next → plan.lines[k]
          = s.recordShown f .next (s.view f)[(roles.toList.take k).count .next + 1]?) ∧
        (roles[k] = .rotate → plan.lines[k]
          = s.recordShown f .rotate (s.rotateShown f ((roles.toList.take k).count .rotate))) ∧
        (roles[k] = .calling →
          ((s.view f).isEmpty → plan.lines[k] = ⟨.role .calling, .none, []⟩) ∧
          ∀ r, (s.view f).head? = some r → plan.lines[k] = ⟨.role .calling, .record r.code r.revision,
            [⟨0, 256, .left, s.callingShown r, none, false, (t.faces.get f).calling.map fun k => k.pos⟩]⟩) ∧
        (roles[k] = .bottom → plan.lines[k] = ⟨.role .bottom, entry.source,
            [⟨0, 256, .centre, bottom.1, none, bottom.2, (t.faces.get f).bottom.map fun k => k.pos⟩]⟩)

/-- R113, R117, R121 to R125, R135, R137 to R139, R176: the completion of the plan the painter is painting, in hand
and PAINTING, leaves the rebuild in SWAP_PENDING, the waiting plan begun, and the plan painted on the back bitmap: a
pixel is lit exactly where a glyph of a field of its line is lit, by the field's alignment or its ticker's position,
and not in a flashing field in phase OFF. Each substitute glyph with a column inside its field raises
GLYPH_SUBSTITUTED with face and line, line by line. A completion of any other plan is discarded. The patterns of the
font are open (log entry 10); the serial that names a plan is the model's (log entry 25). -/
def Obligations.PaintCompletionTakesThePaintedPlan : Prop :=
  ∀ (f : Face) (serial : Nat) (s : State),
    (s.painter.current ≠ some ⟨f, serial⟩ → exec (.paintCompletion f serial) s = .next s) ∧
    (s.painter.current = some ⟨f, serial⟩ →
      ∃ t, exec (.paintCompletion f serial) s = .next t ∧ t.painter = ⟨s.painter.waiting, none⟩ ∧
        (∀ g, g ≠ f → t.faces.get g = s.faces.get g) ∧
        (∀ g, { t.panels.get g with back := (s.panels.get g).back } = s.panels.get g) ∧
        (∀ plan, (s.faces.get f).rebuild = .painting → (s.faces.get f).inHand = some plan → plan.serial = serial →
          t.faces.get f = { s.faces.get f with rebuild := .swapPending } ∧
          (∀ x y, x < 256 → y < 64 → ((t.panels.get f).back.lit x y = true ↔ plan.Lights x y)) ∧
          (let faults : List Sys2Proof.Machine.Locale := (List.finRange 4).flatMap fun k =>
              List.replicate ((plan.lines[k].fields.map fun fd => fd.substitutesPainted plan.flashOn).sum)
                ⟨.face f, some (k.val + 1), none⟩
           ReportsRaised s t .glyphSubstituted faults ∧ (faults = [] → OnlyIn faceParts s t))) ∧
        ((∀ plan, (s.faces.get f).inHand = some plan → plan.serial ≠ serial) → t.faces = s.faces ∧ OnlyIn faceParts s t) ∧
        OnlyIn ([.capture, .seen, .events] ++ faceParts) s t)

/-- R142, R143, R145, R149: a frame boundary takes a pending swap, exchanging the two bitmaps and setting
SHOWN_CHANGED in every port when the source lists differ, and begins a frame of the front bitmap, all lit in
LAMP_TEST, when the output is DRIVING: chain c carries rows 16c to 16c + 15, and a lit pixel is on for the duty of its
module, position x / 32 of chain y / 16, in 255ths of its row time. It restarts the frame time with the frame period
then held. That the command is taken whatever the frame time holds is the model's choice (log entry 2). -/
def Obligations.FrameBoundarySwaps : Prop :=
  ∀ (f : Face) (e0 e1 e2 e3 : BitVec 32) (s : State),
    ∃ t, exec (.frameBoundary f e0 e1 e2 e3) s = .next t ∧
      (t.panels.get f).elapsed = 0 ∧ (t.panels.get f).period = s.params.framePeriod ∧
      (∀ g, g ≠ f → t.faces.get g = s.faces.get g ∧ t.panels.get g = s.panels.get g) ∧
      (∀ plan, (s.faces.get f).rebuild = .swapPending → (s.faces.get f).inHand = some plan →
        (t.panels.get f).front = (s.panels.get f).back ∧ (t.panels.get f).back = (s.panels.get f).front ∧
        (t.panels.get f).frontPlan = plan ∧
        t.faces.get f = { s.faces.get f with rebuild := .idle, inHand := none } ∧
        ∀ o, (t.events.get o).shownChanged = ((s.events.get o).shownChanged
          || decide (∃ k : Fin 4, plan.lines[k].source ≠ (s.panels.get f).frontPlan.lines[k].source))) ∧
      ((s.faces.get f).rebuild ≠ .swapPending →
        (t.panels.get f).front = (s.panels.get f).front ∧ (t.panels.get f).back = (s.panels.get f).back ∧
        (t.panels.get f).frontPlan = (s.panels.get f).frontPlan ∧ t.faces = s.faces ∧
        ∀ o, (t.events.get o).shownChanged = (s.events.get o).shownChanged) ∧
      ((s.panels.get f).out ≠ .driving → (t.panels.get f).frame = none ∧ ∀ x y, t.light f x y = 0) ∧
      ((s.panels.get f).out = .driving → ∃ frame, (t.panels.get f).frame = some frame ∧
        frame.duties = (s.panels.get f).duties ∧
        (∀ x y, x < 256 → y < 64 → frame.pixels.lit x y
          = ((s.faces.get f).state == .lampTest || (t.panels.get f).front.lit x y)) ∧
        (∀ (k : Fin 4) (r : Fin 16), frame.chainRow k r = frame.pixels[16 * k.val + r.val]) ∧
        (∀ (x : Fin 256) (y : Fin 64), t.light f x y = frame.light x y ∧ frame.light x y =
          if (s.faces.get f).state = .lampTest ∨ (t.panels.get f).front.lit x y = true
            then (s.panels.get f).duties[8 * (y.val / 16) + x.val / 32] else 0) ∧
        ∀ sent, frame.pattern = some sent ↔ (t.panels.get f).check = .inFlight sent) ∧
      OnlyIn [.panels, .faces, .capture, .seen, .events] s t

/-- R146, R147, R176: at a frame boundary of a DRIVING output a check in flight is judged chain by chain, each entry to
FAILED raises CHAIN_FAILED with face and chain, in the capture record, the seen kinds and every event set, the frame is
counted, and a check is sent when the counter has reached CI; at any other output nothing of this happens. That chains
entering FAILED together are reported from chain 0 up is the model's choice (log entry 39). -/
def Obligations.ChainChecksAreJudgedAndSent : Prop :=
  ∀ (f : Face) (e0 e1 e2 e3 : BitVec 32) (s : State),
    ∃ t, exec (.frameBoundary f e0 e1 e2 e3) s = .next t ∧
      let echo : Vector (BitVec 32) 4 := #v[e0, e1, e2, e3]
      let before := s.panels.get f
      let after := t.panels.get f
      let Reported (failed : List (Fin 4)) : Prop :=
        let u := failed.foldl (fun u k => u.raise .chainFailed ⟨.face f, some k.val, none⟩) s
        t.capture = u.capture ∧ t.seen = u.seen ∧
          ∀ o, { t.events.get o with shownChanged := (u.events.get o).shownChanged } = u.events.get o
      (before.out ≠ .driving → after.chains = before.chains ∧ after.check = before.check ∧
        after.counter = before.counter ∧ after.nextPattern = before.nextPattern ∧ t.seen = s.seen ∧ Reported []) ∧
      (before.out = .driving →
        (before.check = .none → after.chains = before.chains ∧ t.seen = s.seen ∧ Reported []) ∧
        (∀ sent, before.check = .inFlight sent →
          (∀ k : Fin 4, after.chains[k] =
            if echo[k] = sent then .good
            else if before.chains[k] = .good then .suspect1
            else if before.chains[k] = .suspect1 then .suspect2
            else .failed) ∧
          (t.seen[4] = true ↔ s.seen[4] = true ∨ ∃ k : Fin 4, before.chains[k] = .suspect2 ∧ echo[k] ≠ sent) ∧
          Reported ((List.finRange 4).filter fun k => before.chains[k] = .suspect2 ∧ echo[k] ≠ sent)) ∧
        (before.counter + 1 < s.params.checkInterval →
          after.counter = before.counter + 1 ∧ after.check = .none ∧ after.nextPattern = before.nextPattern) ∧
        (s.params.checkInterval ≤ before.counter + 1 →
          after.counter = 0 ∧ after.check = .inFlight before.nextPattern ∧ after.nextPattern = ~~~before.nextPattern))

/-- R144, R150 to R154: the curve duty is that of R152's table, the first and the last point's duty outside the curve
and the interpolation of a segment within, and the face and module duties are those of R153's; the start-up delay
makes a STARTING output DRIVING with the check counter at 0; a conversion's reading enters the ring, the first filling
it; each works out the duties anew. Neither acts outside its state. That the delay's count is not looked at is the
model's choice (log entry 2). -/
def Obligations.OutputsAndDutiesFollow : Prop :=
  (∀ (curve : Vector CurvePoint 8) (al : Nat),
    (∀ i : Fin 7, curve[i.val].amb < curve[i.val + 1].amb ∧ curve[i.val].duty ≤ curve[i.val + 1].duty) →
    (al ≤ curve[0].amb → curveDuty curve al = curve[0].duty) ∧
    (curve[7].amb ≤ al → curveDuty curve al = curve[7].duty) ∧
    ∀ i : Fin 7, curve[i.val].amb ≤ al → al < curve[i.val + 1].amb →
      curveDuty curve al = curve[i.val].duty
        + (al - curve[i.val].amb) * (curve[i.val + 1].duty - curve[i.val].duty)
          / (curve[i.val + 1].amb - curve[i.val].amb)) ∧
  (∀ (f : Face) (s : State), s.faceDutyOf f =
    if (s.panels.get f).out ≠ .driving ∨ (s.faces.get f).state = .dark then 0
    else if (s.faces.get f).state = .lampTest then (s.panels.get f).cap
    else min (curveDuty s.ambient.curve s.ambient.level) (s.panels.get f).cap) ∧
  (∀ faceDuty trim : Nat, moduleDuty faceDuty trim = min 255 (faceDuty * trim / 128)) ∧
  (∀ (f : Face) (s : State),
    ((s.panels.get f).out ≠ .starting → exec (.panelStartupDelayExpiry f) s = .next s) ∧
    ((s.panels.get f).out = .starting →
      ∃ t, exec (.panelStartupDelayExpiry f) s = .next t ∧ OnlyIn [.panels] s t ∧
        (t.panels.get f).out = .driving ∧ (t.panels.get f).counter = 0 ∧
        (t.panels.get f).faceDuty = (if (s.faces.get f).state = .dark then 0
          else if (s.faces.get f).state = .lampTest then (s.panels.get f).cap
          else min (curveDuty s.ambient.curve s.ambient.level) (s.panels.get f).cap) ∧
        (∀ m : Fin 32, (t.panels.get f).duties[m]
          = min 255 ((t.panels.get f).faceDuty * (s.panels.get f).trims[m] / 128)) ∧
        (t.panels.get f).chains = (s.panels.get f).chains ∧ (t.panels.get f).front = (s.panels.get f).front ∧
        ∀ g, g ≠ f → t.panels.get g = s.panels.get g)) ∧
  (∀ (reading : BitVec 10) (s : State),
    (s.ambient.converting = false → exec (.conversionCompletion reading) s = .next s) ∧
    (s.ambient.converting = true →
      ∃ t, exec (.conversionCompletion reading) s = .next t ∧ OnlyIn [.ambient, .panels] s t ∧
        t.ambient.converting = false ∧ t.ambient.filled = true ∧ t.ambient.curve = s.ambient.curve ∧
        t.ambient.ring.toList = (if s.ambient.filled then s.ambient.ring.toList.tail ++ [reading.toNat]
          else List.replicate 8 reading.toNat) ∧
        t.ambient.level = t.ambient.ring.toList.sum / 8 ∧
        (t.ambient.level = s.ambient.level → t.panels = s.panels) ∧
        (t.ambient.level ≠ s.ambient.level → ∀ f, (t.panels.get f).faceDuty = t.faceDutyOf f ∧
          (t.panels.get f).duties = (s.panels.get f).trims.map (moduleDuty (t.faceDutyOf f)))))

/-! ## Input lines (file 09) -/

/-- R19, R58, R60, R97 to R101, R155, R156, R158 to R160: the effective state is that of the first of R97's conditions
that holds. A sample that agrees with the settled level clears the pending count; one that differs adds to it until
the count has reached the debounce time, and the next one makes the change count. A counted change moves the settled
level and clears the count, and then: NONE does nothing; BLANK and LAMP_TEST make their faces' states be worked out,
with the effects of a change and no other; an APPROACH edge sets approaching on view entry 1 of each selected face,
from origin 3, deletes every reservation of each record changed with RESERVATION_LOST for its holder and leaves every
other, and touches the faces bound to the platforms of the records changed; a WAKE edge restarts the countdown of each
selected face that it wakes. A face that a change does not select is left, but for a back bitmap that the painter
begins, freed of a plan of a face gone DARK (what painting leaves there is open, log entry 11). That CHANGE_COUNTS
acts whatever the pending count holds is the model's choice (log entry 35). -/
def Obligations.InputLinesAreDebouncedAndHandOn : Prop :=
  (∀ (f : Face) (s : State), s.effState f = s.stateByRule f) ∧
  (∀ (l : Fin 4) (level : Level) (s : State),
    (level = s.lines[l].settled →
      exec (.pinSample l level) s = .next { s with lines := (s.lines.set l ({ s.lines[l] with pending := 0 })) }) ∧
    (level ≠ s.lines[l].settled → s.lines[l].pending < s.lines[l].debounce →
      exec (.pinSample l level) s
        = .next { s with lines := (s.lines.set l ({ s.lines[l] with pending := s.lines[l].pending + 1 })) }) ∧
    (level ≠ s.lines[l].settled → s.lines[l].debounce ≤ s.lines[l].pending →
      exec (.pinSample l level) s = exec (.changeCounts l) s)) ∧
  (∀ (l : Fin 4) (s : State), TableSound s →
    let line := s.lines[l]
    let edge : Prop := if line.sense = 0 then line.settled = .low
      else if line.sense = 1 then line.settled = .high else True
    ∃ t, exec (.changeCounts l) s = .next t ∧
      t.lines = s.lines.set l { line with settled := (if line.settled = .low then .high else .low), pending := 0 } ∧
      (line.function = .none → OnlyIn [.lines] s t) ∧
      (line.function = .blank ∨ line.function = .lampTest → OnlyIn (.lines :: faceParts) s t ∧
        ∀ f, (line.function = .lampTest ∨ line.face.has f = true → (t.faces.get f).state = t.effState f ∧
            StateEffects s t f ∧ LayoutLeft s t f ∧ (t.faces.get f).countdown = (s.faces.get f).countdown ∧
            DirtyByState s t f false) ∧
          (line.function = .blank → line.face.has f = false → FaceLeft s t f false)) ∧
      (line.function = .approach → ¬ edge → OnlyIn [.lines] s t) ∧
      (line.function = .approach → edge →
        OnlyIn ([.lines, .table, .reservations, .events] ++ faceParts) s t ∧
        (∀ f r, line.face.has f = true → (s.view f).head? = some r →
          t.record? r.code = some (if r.approaching then r
            else { r with approaching := true, revision := r.revision + 1, writer := .loc })) ∧
        (∀ code, (∀ f r, line.face.has f = true → (s.view f).head? = some r → r.code ≠ code) →
          t.record? code = s.record? code) ∧
        ReservationsLost s t (fun q => ∃ f r, line.face.has f = true ∧ (s.view f).head? = some r ∧
          r.approaching = false ∧ s.reservations.get q = some r.code) ∧
        TouchWakes s t ([Face.a, .b].flatMap fun f => if line.face.has f then
          ((s.view f).head?.toList.filter fun r => !r.approaching).map fun r => r.platform else []) false) ∧
      (line.function = .wake → ¬ edge → OnlyIn [.lines] s t) ∧
      (line.function = .wake → edge → OnlyIn (.lines :: faceParts) s t ∧
        ∀ f, (line.face.has f = true → DirtyByState s t f false ∧
            Wakens s t f (s.wakes f (s.faces.get f).settings.mask.input) (s.faces.get f).countdown) ∧
          (line.face.has f = false → FaceLeft s t f false)))

/-! ## Faults and event sets (file 11) -/

/-- R176, R177: a fault is captured by an open record; a major one supplants a held minor one; any other sets
more alone. Its kind joins the seen kinds and FAULT is set for every port. -/
def Obligations.FaultsAreCaptured : Prop :=
  ∀ (kind : FaultKind) (locale : Sys2Proof.Machine.Locale) (s : State),
    let t := s.raise kind locale
    let arriving : Captured := ⟨kind, locale,
      if s.clock.valid then some (s.clock.hh * 60 + s.clock.mm) else none⟩
    let major (k : FaultKind) : Prop := k ∉ [.glyphSubstituted, .placeUndefined, .linkFrameBad, .zonesDefaulted]
    (s.capture.held = none → t.capture = ⟨some arriving, s.capture.more⟩) ∧
    (∀ held, s.capture.held = some held →
      (major kind ∧ ¬ major held.kind → t.capture = ⟨some arriving, true⟩) ∧
      (¬ (major kind ∧ ¬ major held.kind) → t.capture = ⟨some held, true⟩)) ∧
    (∀ k : FaultKind, t.seen[k.index] = (s.seen[k.index] || decide (k = kind))) ∧
    (∀ p, t.events.get p = { s.events.get p with fault := true }) ∧ OnlyIn [.capture, .seen, .events] s t

/-- R168, R178, R180: READ FAULTS returns the record and the codes of the kinds seen, each of 1 to 9 and in rising
order; CLEAR FAULTS opens the record and empties the kinds, leaving the event sets; READ EVENTS returns the port's
flags and empties its set. -/
def Obligations.FaultAndEventRequests : Prop :=
  ∀ (p : Port) (tag : Byte) (s : State), s.ready p →
    (∃ (t : State) (codes : List Nat), exec (.readFaults p tag []) s = .next t ∧ RequestTouches [] s t p ∧
      Served s t p 0x48 tag ⟨.ok, [if s.capture.held = none then 0 else 1, if s.capture.more then 1 else 0]
        ++ ((s.capture.held.map capturedBlock).getD [0, 0, 0, 0, 0, 0xFF, 0xFF])
        ++ byte codes.length :: codes.map byte⟩ ∧
      codes.Pairwise (fun x y => x < y) ∧ (∀ code ∈ codes, 1 ≤ code ∧ code ≤ 9) ∧
      ∀ k : Fin 9, k.val + 1 ∈ codes ↔ s.seen[k] = true) ∧
    (s.allows p .config [0] →
      ∃ t, exec (.clearFaults p tag []) s = .next t ∧ Served s t p 0x49 tag (.plain .ok) ∧
        t.capture = ⟨none, false⟩ ∧ (∀ k : Fin 9, t.seen[k] = false) ∧ RequestTouches [.capture, .seen] s t p) ∧
    (∃ t, exec (.readEvents p tag []) s = .next t ∧
      Served s t p 0x4A tag ⟨.ok, [byte ((if (s.events.get p).reservationLost then 1 else 0)
        + (if (s.events.get p).noticeDisplaced then 2 else 0) + (if (s.events.get p).noticeExpired then 4 else 0)
        + (if (s.events.get p).fault then 8 else 0) + (if (s.events.get p).shownChanged then 16 else 0))]⟩ ∧
      t.events = s.events.set p ⟨false, false, false, false, false⟩ ∧ t.attn p = false ∧
      RequestTouches [.events] s t p)

/-! ## Parameters, the settings image and start-up (file 12) -/

/-- R23, R74, R152, R153, R157, R163, R169, R170, R183: SET PARAMETER puts a value that the table takes in its place and
leaves every other parameter; a write of RO re-sorts the table, of a timer restarts it, of an input line drops its
pending count and, for each face whose holding changes, works out the state. A write of the curve, a cap or a trim works
out its duties anew. But for RO and an input line, a write leaves the composers but for their dirty marks, and the panels
too where it works out no duties. The port's own line keeps its baud until HUNT; a silence limit or a stale action
written governs at once, and leaves every count and SILENT flag but what the request's own good frame sets. READ
PARAMETER returns the value as its owner holds it, and BAD_FIELD for a number not in the table. That a re-sort, which
touches every platform, makes each face's wake check (log entry 17) and that the reply carries the value alone (log entry
23) are the model's readings. -/
def Obligations.ParametersAreWrittenAndRead : Prop :=
  ∀ (p : Port) (tag : Byte) (s : State), s.ready p →
    (∀ (q : Param) (value : List Byte), value.length = q.row.bytes → q.row.takes value → s.allows p .config [0] →
      ∃ t, exec (.setParameter p tag (byte q.row.number :: value)) s = .next t ∧
        (t.ports.get p).state = .reply ∧ (t.ports.get p).reply = replyBytes 0x40 tag (.plain .ok) (t.events.get p) ∧
        t.readParam q = value ∧ (∀ other, other ≠ q → t.readParam other = s.readParam other) ∧
        (q = .ro → t.table.Perm s.table ∧ (t.table.Pairwise fun x y => y.before t.params.ro x = false) ∧
          ∀ f, Wakens s t f (t.departureWakes f) (s.faces.get f).countdown) ∧
        (q ≠ .ro → t.table = s.table) ∧
        (∀ i, q = .reload i ∨ q = .unit i ∨ q = .mode i →
          t.timers[i].counter = 0 ∧ t.timers[i].sub = 0 ∧ t.timers[i].running = decide (t.timers[i].reload ≠ 0)) ∧
        (∀ l, q = .line l → t.lines[l].settled = s.lines[l].settled ∧ t.lines[l].pending = 0 ∧
          ∀ f, StateEffects s t f ∧ LayoutLeft s t f ∧ (t.faces.get f).countdown = (s.faces.get f).countdown ∧
            DirtyByState s t f (s.ports.get p).silent ∧ ((s.heldLamp ↔ ¬ t.heldLamp) ∨ (s.heldBlank f ↔ ¬ t.heldBlank f) →
            (t.faces.get f).state = t.effState f)) ∧
        (∀ o, q = .baud o → (t.ports.get o).lineBaud =
          if o ≠ p ∧ (s.ports.get o).state = .hunt then (t.ports.get o).baud else (s.ports.get o).lineBaud) ∧
        (∀ o, (t.ports.get o).limitInForce = (if q = .limit o then (t.ports.get o).limit else (s.ports.get o).limitInForce) ∧
          (t.ports.get o).staleInForce
            = (if q = .stale o then (t.ports.get o).stale else (s.ports.get o).staleInForce) ∧
          (t.ports.get o).silent = (if o = p then false else (s.ports.get o).silent) ∧
          (t.ports.get o).count = (if o = p then 0 else (s.ports.get o).count)) ∧
        (q ∈ [.ro, .rotateDepth, .tickerHold, .stale .lp0, .stale .lp1, .stale .lp2] →
          ∀ f, (t.faces.get f).dirty = true) ∧
        (q ≠ .ro → (∀ l, q ≠ .line l) → t.painter = s.painter ∧ t.free = s.free ∧ ∀ f,
          t.faces.get f = { s.faces.get f with
            dirty := (s.faces.get f).dirty || (s.ports.get p).silent
              || decide (q ∈ [.rotateDepth, .tickerHold, .stale .lp0, .stale .lp1, .stale .lp2]) } ∧
          (let anew : Prop := q = .curve ∨ q = .cap f ∨ ∃ m, q = .trim f m
           (anew → (t.panels.get f).faceDuty = t.faceDutyOf f ∧
             (t.panels.get f).duties = (t.panels.get f).trims.map (moduleDuty (t.faceDutyOf f))) ∧
           (¬ anew → t.panels.get f = s.panels.get f))) ∧
        OnlyIn ([.params, .table, .timers, .ambient, .lines, .ports] ++ faceParts) s t) ∧
    (∀ n : Byte, ∃ t, exec (.readParameter p tag [n]) s = .next t ∧ RequestTouches [] s t p ∧
      (∀ q : Param, q.row.number = n.toNat → Served s t p 0x41 tag ⟨.ok, s.readParam q⟩) ∧
      ((∀ q : Param, q.row.number ≠ n.toNat) → Served s t p 0x41 tag (.plain .badField))) ∧
    ∀ q : Param, q.number = q.row.number ∧ q.bytes = q.row.bytes ∧ s.readParam q = q.row.held s ∧
      ∀ value, value.length = q.row.bytes → (q.accepts value = true ↔ q.row.takes value)

/-- R166, R176, R184: a store takes a snapshot and leaves its port in EXECUTE without a reply; another store is
answered BUSY. A verified store leaves the image in the memory and answers OK; a failed one raises STORE_FAILED
and answers so; the settings in force are not touched. What a failed store leaves in the image's span is open. -/
def Obligations.StoresAreBracketed : Prop :=
  (∀ (p : Port) (tag : Byte) (s : State), s.ready p → s.allows p .config [0] →
    (s.loader.phase = .ready →
      ∃ t, exec (.storeSettings p tag []) s = .next t ∧ t.loader = ⟨.storing, some ⟨p, tag, s.image⟩⟩ ∧
        t.ports = s.ports.set p { s.ports.get p with
          state := .execute, len := none, data := [], gap := 0, count := 0, silent := false } ∧
        RequestTouches [.loader] s t p) ∧
    (s.loader.phase = .storing →
      ∃ t, exec (.storeSettings p tag []) s = .next t ∧ Served s t p 0x42 tag (.plain .busy) ∧
        RequestTouches [] s t p)) ∧
  (∀ (job : StoreJob) (s : State), s.loader = ⟨.storing, some job⟩ →
    (∃ t, exec (.storeComplete .verified) s = .next t ∧ t.loader = ⟨.ready, none⟩ ∧
      (∀ a, t.mem.read a = if h : a < job.image.length then job.image[a] else s.mem.read a) ∧
      t.ports = s.ports.set job.port { s.ports.get job.port with
        state := .reply, reply := replyBytes 0x42 job.tag (.plain .ok) (t.events.get job.port) } ∧
      OnlyIn [.loader, .mem, .ports] s t) ∧
    (∀ outcome ∈ [StoreOutcome.mismatch, .noAcknowledge],
      ∃ t, exec (.storeComplete outcome) s = .next t ∧ t.loader = ⟨.ready, none⟩ ∧
        (∀ a, 10158 ≤ a → t.mem.read a = s.mem.read a) ∧
        t.ports = s.ports.set job.port { s.ports.get job.port with
          state := .reply, reply := replyBytes 0x42 job.tag (.plain .storeFailed) (t.events.get job.port) } ∧
        t.seen = s.seen.set 7 true ∧ (∀ o, (t.events.get o).fault = true) ∧
        ReportsRaised s t .storeFailed [⟨.none, none, none⟩] ∧
        OnlyIn [.loader, .mem, .ports, .capture, .seen, .events, .free] s t)) ∧
  (∀ (outcome : StoreOutcome) (s : State), s.loader.phase ≠ .storing → exec (.storeComplete outcome) s = .next s)

/-- R120, R169, R176, R182: the four outcomes of a load, by the memory: the settings in force at its end, and the
fault raised without a locale, in the capture record, the seen kinds and every event set. That readImage answers none
of every image that is not valid is ImageReadsBackAsTheSettings'. The silence limit and the stale action reloaded
govern again, the counts and the SILENT flags kept; that they do so where no image is applied is the model's reading
(log entry 40). The end of LOADING works out both effective states and starts the output of each face not DARK. -/
def Obligations.LoadingAppliesTheImage : Prop :=
  ∀ (acknowledged : Bool) (s : State),
    (s.loader.phase ≠ .loading → exec (.settingsReadComplete acknowledged) s = .next s) ∧
    (s.loader.phase = .loading → ∃ t, exec (.settingsReadComplete acknowledged) s = .next t ∧
      let held := readImage (s.mem.readBlock 0 10158)
      t.loader = ⟨.ready, s.loader.store⟩ ∧
      (acknowledged = false → t.settings = State.reset.settings ∧ t.seen = s.seen.set 5 true ∧
        ReportsRaised s t .settingsAbsent [⟨.none, none, none⟩]) ∧
      (acknowledged = true → held = none → t.settings = State.reset.settings ∧ t.seen = s.seen.set 6 true ∧
        ReportsRaised s t .settingsInvalid [⟨.none, none, none⟩]) ∧
      (∀ st, acknowledged = true → held = some st → lockoutPasses st.zones = false →
        t.settings = { st with zones := State.reset.zones } ∧ t.seen = s.seen.set 3 true ∧
        ReportsRaised s t .zonesDefaulted [⟨.none, none, none⟩]) ∧
      (∀ st, acknowledged = true → held = some st → lockoutPasses st.zones = true →
        t.settings = st ∧ t.seen = s.seen ∧ t.capture = s.capture ∧ t.events = s.events) ∧
      (∀ p, (t.ports.get p).limitInForce = (t.ports.get p).limit ∧ (t.ports.get p).staleInForce = (t.ports.get p).stale ∧
        (t.ports.get p).count = (s.ports.get p).count ∧ (t.ports.get p).silent = (s.ports.get p).silent) ∧
      (∀ f, (t.faces.get f).state = t.effState f ∧
        ((t.faces.get f).state = .lit ∨ (t.faces.get f).state = .woken → (t.faces.get f).dirty = true) ∧
        ((s.panels.get f).out = .off →
          (t.panels.get f).out = if (t.faces.get f).state = .dark then .off else .starting)) ∧
      OnlyIn ([.params, .table, .zones, .places, .timers, .ambient, .lines, .ports, .capture, .seen, .events,
        .loader] ++ faceParts) s t)

/-- R150, R161, R163, R166, R169, R182, R184, R185: RESET brings the part to its state after reset, but for the settings
memory and the levels sampled. BOARD RESTART clears what it clears and keeps the clock, a conversion in progress, the
settled levels, the faults, the event sets, the silence counts, the SILENT flags, the silence limits and stale actions in
force and the frame timing, while the parameters themselves take their defaults; its own port has sent its reply, the
others are cut as R166 gives, one that is receiving keeping its line's baud. Where a store runs, each abandons it, and the
settings memory then holds the former image, the new one or a mixed one that fails its check word, every byte outside
standing; which of them is open (log entry 9). That the limits and stale actions in force go on governing while the
parameters take their defaults is the model's reading (log entry 40). The reply sent at once and the check counters kept
(log entry 21), the plan numbers kept (log entry 25), and the queue and the draw of the free values kept (log entry 33)
are the model's. -/
def Obligations.ResetAndRestart : Prop :=
  (∀ (i0 i1 i2 i3 : Level) (s : State),
    ∃ t, exec (.reset i0 i1 i2 i3) s = .next t ∧
      t = { State.reset with
        lines := (#v[i0, i1, i2, i3].map fun level => ⟨.none, .both, 0, 20, level, 0⟩)
        mem := t.mem, free := s.free + 1, pending := s.pending } ∧
      (s.loader.phase ≠ .storing → t.mem = s.mem) ∧
      ∀ job, s.loader = ⟨.storing, some job⟩ → StoreAbandoned s t job.image) ∧
  (∀ (p : Port) (tag : Byte) (s : State), s.ready p → s.allows p .config [0] →
    ∃ t, exec (.boardRestart p tag []) s = .next t ∧
      t = { State.reset with
        clock := s.clock
        faces := ⟨{ State.reset.faces.a with serial := s.faces.a.serial },
          { State.reset.faces.b with serial := s.faces.b.serial }⟩
        panels := ⟨{ State.reset.panels.a with
            elapsed := s.panels.a.elapsed, period := s.panels.a.period, counter := s.panels.a.counter },
          { State.reset.panels.b with
            elapsed := s.panels.b.elapsed, period := s.panels.b.period, counter := s.panels.b.counter }⟩
        ambient := { State.reset.ambient with converting := s.ambient.converting }
        lines := (s.lines.map fun line => ⟨.none, .both, 0, 20, line.settled, 0⟩)
        ports := t.ports, capture := s.capture, seen := s.seen, events := s.events
        mem := t.mem, free := s.free + 1, pending := s.pending } ∧
      (s.loader.phase ≠ .storing → t.mem = s.mem) ∧
      (∀ job, s.loader = ⟨.storing, some job⟩ → StoreAbandoned s t job.image) ∧
      t.ports.get p = { LinkPort.reset with
        limitInForce := (s.ports.get p).limitInForce, staleInForce := (s.ports.get p).staleInForce
        reply := replyBytes 0x43 tag (.plain .ok) (s.events.get p) } ∧
      (∀ q, q ≠ p →
        (t.ports.get q).count = (s.ports.get q).count ∧ (t.ports.get q).silent = (s.ports.get q).silent ∧
        (t.ports.get q).baud = .b38400 ∧ (t.ports.get q).limit = 120 ∧ (t.ports.get q).stale = .hold ∧
        (t.ports.get q).limitInForce = (s.ports.get q).limitInForce ∧
        (t.ports.get q).staleInForce = (s.ports.get q).staleInForce ∧
        ((s.ports.get q).state = .receive → (t.ports.get q).state = .receive ∧
          (t.ports.get q).len = (s.ports.get q).len ∧ (t.ports.get q).data = (s.ports.get q).data ∧
          (t.ports.get q).lineBaud = (s.ports.get q).lineBaud) ∧
        ((s.ports.get q).state ≠ .receive → (t.ports.get q).state = .hunt ∧ (t.ports.get q).lineBaud = .b38400) ∧
        ((s.ports.get q).state = .reply → (t.ports.get q).reply = [])))

/-- R181, R182, R184: the image is laid out as R181 gives, part by part, with its check word at the end, and one
formed of settings in their ranges has 10158 bytes and reads back as exactly those settings: no setting is dropped and
none misread. The settings read from 10158 bytes are those whose blocks they hold, where the check word passes, the
version is 1 and every value is one that its request accepts; any other 10158 bytes give none. -/
def Obligations.ImageReadsBackAsTheSettings : Prop :=
  (∀ s : State, s.settings.zones = s.zones ∧ (∀ f, s.settings.faces.get f = (s.faces.get f).settings) ∧
    s.settings.places = s.places ∧
    ∀ q value, (q, value) ∈ s.settings.params ↔ value = q.row.held s) ∧
  (∀ s : State, ∃ body, ImageBody s body ∧ s.image = body ++ checkBytes body) ∧
  (∀ s : State, SettingsInRange s → s.image.length = 10158 ∧ readImage s.image = some s.settings) ∧
  ∀ (bytes : List Byte) (st : Settings), bytes.length = 10158 → (readImage bytes = some st ↔ ImageHolds bytes st)

/-! ## What every step keeps -/

/-- R2, R3, R10, R15, R36, R54, R59: every step keeps the departure table sound: its order, its limits, the
pool and pin counts, and that a reservation names a record held. -/
def Obligations.TableStaysSound : Prop :=
  ∀ s t : State, TableSound s → step s = .next t → TableSound t

/-- R49, R65, R79, R89, R181, R183: every step keeps the notice store and the clock sound, the settings in their
ranges, the settings memory in its form, and a zone that grants CONFIG on platform 0. -/
def Obligations.CollectionsStaySound : Prop :=
  ∀ s t : State, step s = .next t →
    (NoticesSound s → NoticesSound t) ∧ (ClockSound s → ClockSound t) ∧
    (SettingsInRange s → SettingsInRange t) ∧ (MemorySound s → MemorySound t) ∧
    (lockoutPasses s.zones = true → lockoutPasses t.zones = true)

/-- R165, R166, R169, R170, R182, R184, R185: every step keeps the ports and the loader sound: buffers fit their states,
only the storing port stays in EXECUTE, a SILENT port holds no reservation, and outside LOADING the silence limits and
stale actions in force are the parameters' values. That they are so again after every LOADING, whichever outcome ended
it, is the model's reading (log entry 40). -/
def Obligations.PortsStaySound : Prop :=
  ∀ s t : State, (∀ p, PortSound s p) → LoaderSound s → step s = .next t → (∀ p, PortSound t p) ∧ LoaderSound t

/-- R97, R100, R144, R153, R155: every step keeps the faces sound: the effective state is the one R97 gives, a
DARK face has no rebuild and its output is OFF, and the duties are those of R153. -/
def Obligations.FacesStaySound : Prop :=
  ∀ s t : State, (∀ f, FaceSound s f) → LinesSound s → step s = .next t → (∀ f, FaceSound t f) ∧ LinesSound t

/-- R115, R117, R137: every step keeps the painter and the rebuilds in agreement. -/
def Obligations.PainterStaysSound : Prop :=
  ∀ s t : State, PainterSound s → step s = .next t → PainterSound t

/-- R25, R27, R36, R41, R54, R63 to R66, R75, R76, R79, R80, R93, R120, R132, R137, R141, R143, R144, R146, R147,
R150, R151, R155, R165, R169, R177, R179, R182, R183: in the state after reset every setting holds its default, the
table, the places, the notices, the buffers and the reports are empty, the clock is invalid at 00:00:00 with its
oscillator STARTING, the faces are LIT with nothing planned and their outputs OFF, and the loader is in LOADING; and
that state is sound in every one of these ways. Where the values stand: the table in 1.14, the settings in 2.5, 3.7,
4.10, 6.10, 9.6 and 12.3, the clock and its source in 4.1 to 4.3, the timers and the flash phase in 4.8 to 4.10, the
notices in 5.8, the faces and their tickers in 6.10 and 7.8, the painter in 7.9, the panels, checks, ambient ring and
duties in 8.1 to 8.3, 8.5 and 8.6, the ports in 10.1, 10.3 and 10.6, the capture record and the event sets in 11.3 and
11.5, and the loader in 12.2. -/
def Obligations.ResetIsSound : Prop :=
  ((∀ q : Param, State.reset.readParam q = q.row.default) ∧
    (∀ n : Fin 8, State.reset.zones[n] = if n = 0 then ⟨true, .global, 0, 31, ⟨true, true, true, true⟩⟩
      else ⟨false, .global, 0, 31, ⟨false, false, false, false⟩⟩) ∧
    (∀ f, (State.reset.faces.get f).settings
      = ⟨if f = .a then 1 else 2, 0, #v[.first, .calling, .next, .bottom], true, ⟨true, true, true⟩⟩) ∧
    (∀ n, State.reset.place? n = none) ∧ State.reset.table = [] ∧ State.reset.freeStops = 640 ∧
    State.reset.pinCount = 0 ∧ (∀ p, State.reset.reservations.get p = none) ∧ State.reset.notices = [] ∧
    State.reset.postCounter = 0 ∧
    (let c := State.reset.clock
     c.hh = 0 ∧ c.mm = 0 ∧ c.ss = 0 ∧ c.valid = false ∧ c.prevMinute = none ∧ c.osc = .starting ∧ c.startCount = 0 ∧
        c.deadline = some 0 ∧ c.source = .none) ∧
    (∀ i : Fin 6, State.reset.timers[i].counter = 0 ∧ State.reset.timers[i].sub = 0 ∧
      State.reset.timers[i].running = true) ∧
    State.reset.flashOn = true ∧ State.reset.painter = ⟨none, none⟩ ∧
    (∀ f,
      let c := State.reset.faces.get f
      let p := State.reset.panels.get f
      c.state = .lit ∧ c.countdown = 0 ∧ c.dirty = false ∧ c.rebuild = .idle ∧ c.inHand = none ∧
        c.lastPlan = none ∧ c.calling = none ∧ c.bottom = none ∧ c.restartPending = false ∧ c.rotate = 0 ∧
        c.entry = .clock ∧ c.pass = false ∧ c.page = 1 ∧
        p.out = .off ∧ p.elapsed = 0 ∧ p.period = 10 ∧ p.counter = 0 ∧ p.frame = none ∧ p.check = .none ∧
        p.nextPattern = 0x96E15A0F ∧ p.faceDuty = 0 ∧
        (∀ k : Fin 4, p.chains[k] = .good ∧ p.frontPlan.lines[k].source = .none) ∧
        ∀ x y, p.front.lit x y = false ∧ p.back.lit x y = false) ∧
    (let m := State.reset.ambient
     m.converting = false ∧ m.filled = false ∧ m.level = 0 ∧ ∀ i : Fin 8, m.ring[i] = 0) ∧
    (∀ l : Fin 4, State.reset.lines[l].pending = 0) ∧
    (∀ p,
      let port := State.reset.ports.get p
      port.state = .hunt ∧ port.len = none ∧ port.data = [] ∧ port.count = 0 ∧ port.silent = false ∧
        port.limitInForce = 120 ∧ port.staleInForce = .hold ∧
        State.reset.events.get p = ⟨false, false, false, false, false⟩) ∧
    State.reset.capture = ⟨none, false⟩ ∧ (∀ k : Fin 9, State.reset.seen[k] = false) ∧
    State.reset.loader = ⟨.loading, none⟩) ∧
  TableSound State.reset ∧ NoticesSound State.reset ∧ ClockSound State.reset ∧ SettingsInRange State.reset ∧
    MemorySound State.reset ∧ lockoutPasses State.reset.zones = true ∧ (∀ p, PortSound State.reset p) ∧
    LoaderSound State.reset ∧ (∀ f, FaceSound State.reset f) ∧ LinesSound State.reset ∧ PainterSound State.reset

/-! ## The rights step, where a request names more than one platform (files 01, 03, 05) -/

/-- R7, R45 to R47: a request refused names the first platform, in the order examined, on which its right is missing:
for PUT DEPARTURE, AMEND and AMEND IF RESERVED the platform of the record that is present, then the one carried; for
POST NOTICE and WITHDRAW NOTICE those of the faces of the held and the new notice, face A before face B and the primary
before the second. AMEND and AMEND IF RESERVED of a code that is not present, past that step, answer NOT_FOUND. None
of them changes anything else. -/
def Obligations.RefusedRequestsNameTheFirstPlatform : Prop :=
  ∀ (p : Port) (tag : Byte) (fields : List Byte) (s : State), s.ready p →
    let firstMissing (right : Right) (platforms : List Nat) (pl : Nat) : Prop :=
      ∃ before after, platforms = before ++ pl :: after ∧ s.allows p right before ∧ granted s.zones p right pl = false
    let ofFaces (sel : Face → Bool) : List Nat := [Face.a, .b].flatMap fun f =>
      if sel f then (s.faces.get f).settings.primary ::
        (if (s.faces.get f).settings.second = 0 then [] else [(s.faces.get f).settings.second]) else []
    let Answers (kind : Byte) (r : Reply) : Prop :=
      ∃ t, exec (requestOf p kind tag fields) s = .next t ∧ Served s t p kind tag r ∧ RequestTouches [] s t p
    (∀ q pl, parsePut fields = .ok q →
      firstMissing .depart (((s.record? q.code).map fun r => r.platform).toList ++ [q.platform]) pl →
      Answers 0x01 ⟨.refused, [1, byte pl]⟩) ∧
    (∀ q, parseAmend fields = .ok q →
      (∀ pl, firstMissing .status (((s.record? q.code).map fun r => r.platform).toList ++ q.platform.toOption.toList) pl →
        Answers 0x02 ⟨.refused, [2, byte pl]⟩ ∧ Answers 0x03 ⟨.refused, [2, byte pl]⟩) ∧
      (s.record? q.code = none → s.allows p .status q.platform.toOption.toList →
        Answers 0x02 (.plain .notFound) ∧ Answers 0x03 (.plain .notFound))) ∧
    (∀ q pl, 1 ≤ q.id → q.id ≤ 255 → q.duration ≤ 65535 → 1 ≤ q.text.length → q.text.length ≤ 160 →
      fields = noticeBlock q →
      firstMissing .notice (ofFaces fun f => q.targets.has f || (s.notice? q.id).any fun old => old.targets.has f) pl →
      Answers 0x28 ⟨.refused, [3, byte pl]⟩) ∧
    (∀ id n pl, 1 ≤ id → id ≤ 255 → fields = [byte id] → s.notice? id = some n →
      firstMissing .notice (ofFaces n.targets.has) pl → Answers 0x29 ⟨.refused, [3, byte pl]⟩)
end

