-- ==== Sys2Proof/Laws/State.lean ====
section
/-! SUPPORT. What each update of State leaves in each field, true by rfl, so that no proof unfolds a record update; and reading back what a selector wrote. -/

namespace Sys2Proof.Machine
-- one proof at a time: proofs elaborated at once would each take a thread of their own
set_option Elab.async false

/-! ## Selectors -/

@[simp] theorem PerFace.get_set_same {α : Type} (v : PerFace α) (f : Face) (x : α) : (v.set f x).get f = x := by
  cases f <;> rfl

theorem PerFace.get_set_other {α : Type} (v : PerFace α) {f g : Face} (x : α) (h : g ≠ f) : (v.set f x).get g = v.get g := by
  cases f <;> cases g <;> first | rfl | exact absurd rfl h

theorem PerFace.get_set {α : Type} (v : PerFace α) (f g : Face) (x : α) :
    (v.set f x).get g = if g = f then x else v.get g := by
  cases f <;> cases g <;> rfl

@[simp] theorem PerPort.get_set_same {α : Type} (v : PerPort α) (p : Port) (x : α) : (v.set p x).get p = x := by
  cases p <;> rfl

theorem PerPort.get_set_other {α : Type} (v : PerPort α) {p q : Port} (x : α) (h : q ≠ p) : (v.set p x).get q = v.get q := by
  cases p <;> cases q <;> first | rfl | exact absurd rfl h

theorem PerPort.get_set {α : Type} (v : PerPort α) (p q : Port) (x : α) :
    (v.set p x).get q = if q = p then x else v.get q := by
  cases p <;> cases q <;> rfl

@[simp] theorem PerPort.get_mapWith {α β : Type} (g : Port → α → β) (v : PerPort α) (p : Port) :
    (v.mapWith g).get p = g p (v.get p) := by
  cases p <;> rfl

theorem PerFace.ext_get {α : Type} {v w : PerFace α} (h : ∀ f, v.get f = w.get f) : v = w := by
  have ha := h .a
  have hb := h .b
  cases v; cases w; simp_all [PerFace.get]

theorem PerPort.ext_get {α : Type} {v w : PerPort α} (h : ∀ p, v.get p = w.get p) : v = w := by
  have h0 := h .lp0
  have h1 := h .lp1
  have h2 := h .lp2
  cases v; cases w; simp_all [PerPort.get]


/-! ## State.modFace -/

@[simp] theorem State.modFace_params (s : State) (f : Face) (g : Composer → Composer) : (s.modFace f g).params = s.params := rfl
@[simp] theorem State.modFace_table (s : State) (f : Face) (g : Composer → Composer) : (s.modFace f g).table = s.table := rfl
@[simp] theorem State.modFace_pinCount (s : State) (f : Face) (g : Composer → Composer) : (s.modFace f g).pinCount = s.pinCount := rfl
@[simp] theorem State.modFace_freeStops (s : State) (f : Face) (g : Composer → Composer) : (s.modFace f g).freeStops = s.freeStops := rfl
@[simp] theorem State.modFace_places (s : State) (f : Face) (g : Composer → Composer) : (s.modFace f g).places = s.places := rfl
@[simp] theorem State.modFace_zones (s : State) (f : Face) (g : Composer → Composer) : (s.modFace f g).zones = s.zones := rfl
@[simp] theorem State.modFace_reservations (s : State) (f : Face) (g : Composer → Composer) : (s.modFace f g).reservations = s.reservations := rfl
@[simp] theorem State.modFace_notices (s : State) (f : Face) (g : Composer → Composer) : (s.modFace f g).notices = s.notices := rfl
@[simp] theorem State.modFace_postCounter (s : State) (f : Face) (g : Composer → Composer) : (s.modFace f g).postCounter = s.postCounter := rfl
@[simp] theorem State.modFace_clock (s : State) (f : Face) (g : Composer → Composer) : (s.modFace f g).clock = s.clock := rfl
@[simp] theorem State.modFace_timers (s : State) (f : Face) (g : Composer → Composer) : (s.modFace f g).timers = s.timers := rfl
@[simp] theorem State.modFace_flashOn (s : State) (f : Face) (g : Composer → Composer) : (s.modFace f g).flashOn = s.flashOn := rfl
@[simp] theorem State.modFace_faces (s : State) (f : Face) (g : Composer → Composer) : (s.modFace f g).faces = s.faces.set f (g (s.faces.get f)) := rfl
@[simp] theorem State.modFace_painter (s : State) (f : Face) (g : Composer → Composer) : (s.modFace f g).painter = s.painter := rfl
@[simp] theorem State.modFace_panels (s : State) (f : Face) (g : Composer → Composer) : (s.modFace f g).panels = s.panels := rfl
@[simp] theorem State.modFace_ambient (s : State) (f : Face) (g : Composer → Composer) : (s.modFace f g).ambient = s.ambient := rfl
@[simp] theorem State.modFace_lines (s : State) (f : Face) (g : Composer → Composer) : (s.modFace f g).lines = s.lines := rfl
@[simp] theorem State.modFace_ports (s : State) (f : Face) (g : Composer → Composer) : (s.modFace f g).ports = s.ports := rfl
@[simp] theorem State.modFace_capture (s : State) (f : Face) (g : Composer → Composer) : (s.modFace f g).capture = s.capture := rfl
@[simp] theorem State.modFace_seen (s : State) (f : Face) (g : Composer → Composer) : (s.modFace f g).seen = s.seen := rfl
@[simp] theorem State.modFace_events (s : State) (f : Face) (g : Composer → Composer) : (s.modFace f g).events = s.events := rfl
@[simp] theorem State.modFace_loader (s : State) (f : Face) (g : Composer → Composer) : (s.modFace f g).loader = s.loader := rfl
@[simp] theorem State.modFace_mem (s : State) (f : Face) (g : Composer → Composer) : (s.modFace f g).mem = s.mem := rfl
@[simp] theorem State.modFace_free (s : State) (f : Face) (g : Composer → Composer) : (s.modFace f g).free = s.free := rfl
@[simp] theorem State.modFace_pending (s : State) (f : Face) (g : Composer → Composer) : (s.modFace f g).pending = s.pending := rfl

/-! ## State.modPanel -/

@[simp] theorem State.modPanel_params (s : State) (f : Face) (g : Panel → Panel) : (s.modPanel f g).params = s.params := rfl
@[simp] theorem State.modPanel_table (s : State) (f : Face) (g : Panel → Panel) : (s.modPanel f g).table = s.table := rfl
@[simp] theorem State.modPanel_pinCount (s : State) (f : Face) (g : Panel → Panel) : (s.modPanel f g).pinCount = s.pinCount := rfl
@[simp] theorem State.modPanel_freeStops (s : State) (f : Face) (g : Panel → Panel) : (s.modPanel f g).freeStops = s.freeStops := rfl
@[simp] theorem State.modPanel_places (s : State) (f : Face) (g : Panel → Panel) : (s.modPanel f g).places = s.places := rfl
@[simp] theorem State.modPanel_zones (s : State) (f : Face) (g : Panel → Panel) : (s.modPanel f g).zones = s.zones := rfl
@[simp] theorem State.modPanel_reservations (s : State) (f : Face) (g : Panel → Panel) : (s.modPanel f g).reservations = s.reservations := rfl
@[simp] theorem State.modPanel_notices (s : State) (f : Face) (g : Panel → Panel) : (s.modPanel f g).notices = s.notices := rfl
@[simp] theorem State.modPanel_postCounter (s : State) (f : Face) (g : Panel → Panel) : (s.modPanel f g).postCounter = s.postCounter := rfl
@[simp] theorem State.modPanel_clock (s : State) (f : Face) (g : Panel → Panel) : (s.modPanel f g).clock = s.clock := rfl
@[simp] theorem State.modPanel_timers (s : State) (f : Face) (g : Panel → Panel) : (s.modPanel f g).timers = s.timers := rfl
@[simp] theorem State.modPanel_flashOn (s : State) (f : Face) (g : Panel → Panel) : (s.modPanel f g).flashOn = s.flashOn := rfl
@[simp] theorem State.modPanel_faces (s : State) (f : Face) (g : Panel → Panel) : (s.modPanel f g).faces = s.faces := rfl
@[simp] theorem State.modPanel_painter (s : State) (f : Face) (g : Panel → Panel) : (s.modPanel f g).painter = s.painter := rfl
@[simp] theorem State.modPanel_panels (s : State) (f : Face) (g : Panel → Panel) : (s.modPanel f g).panels = s.panels.set f (g (s.panels.get f)) := rfl
@[simp] theorem State.modPanel_ambient (s : State) (f : Face) (g : Panel → Panel) : (s.modPanel f g).ambient = s.ambient := rfl
@[simp] theorem State.modPanel_lines (s : State) (f : Face) (g : Panel → Panel) : (s.modPanel f g).lines = s.lines := rfl
@[simp] theorem State.modPanel_ports (s : State) (f : Face) (g : Panel → Panel) : (s.modPanel f g).ports = s.ports := rfl
@[simp] theorem State.modPanel_capture (s : State) (f : Face) (g : Panel → Panel) : (s.modPanel f g).capture = s.capture := rfl
@[simp] theorem State.modPanel_seen (s : State) (f : Face) (g : Panel → Panel) : (s.modPanel f g).seen = s.seen := rfl
@[simp] theorem State.modPanel_events (s : State) (f : Face) (g : Panel → Panel) : (s.modPanel f g).events = s.events := rfl
@[simp] theorem State.modPanel_loader (s : State) (f : Face) (g : Panel → Panel) : (s.modPanel f g).loader = s.loader := rfl
@[simp] theorem State.modPanel_mem (s : State) (f : Face) (g : Panel → Panel) : (s.modPanel f g).mem = s.mem := rfl
@[simp] theorem State.modPanel_free (s : State) (f : Face) (g : Panel → Panel) : (s.modPanel f g).free = s.free := rfl
@[simp] theorem State.modPanel_pending (s : State) (f : Face) (g : Panel → Panel) : (s.modPanel f g).pending = s.pending := rfl

/-! ## State.modPort -/

@[simp] theorem State.modPort_params (s : State) (p : Port) (g : LinkPort → LinkPort) : (s.modPort p g).params = s.params := rfl
@[simp] theorem State.modPort_table (s : State) (p : Port) (g : LinkPort → LinkPort) : (s.modPort p g).table = s.table := rfl
@[simp] theorem State.modPort_pinCount (s : State) (p : Port) (g : LinkPort → LinkPort) : (s.modPort p g).pinCount = s.pinCount := rfl
@[simp] theorem State.modPort_freeStops (s : State) (p : Port) (g : LinkPort → LinkPort) : (s.modPort p g).freeStops = s.freeStops := rfl
@[simp] theorem State.modPort_places (s : State) (p : Port) (g : LinkPort → LinkPort) : (s.modPort p g).places = s.places := rfl
@[simp] theorem State.modPort_zones (s : State) (p : Port) (g : LinkPort → LinkPort) : (s.modPort p g).zones = s.zones := rfl
@[simp] theorem State.modPort_reservations (s : State) (p : Port) (g : LinkPort → LinkPort) : (s.modPort p g).reservations = s.reservations := rfl
@[simp] theorem State.modPort_notices (s : State) (p : Port) (g : LinkPort → LinkPort) : (s.modPort p g).notices = s.notices := rfl
@[simp] theorem State.modPort_postCounter (s : State) (p : Port) (g : LinkPort → LinkPort) : (s.modPort p g).postCounter = s.postCounter := rfl
@[simp] theorem State.modPort_clock (s : State) (p : Port) (g : LinkPort → LinkPort) : (s.modPort p g).clock = s.clock := rfl
@[simp] theorem State.modPort_timers (s : State) (p : Port) (g : LinkPort → LinkPort) : (s.modPort p g).timers = s.timers := rfl
@[simp] theorem State.modPort_flashOn (s : State) (p : Port) (g : LinkPort → LinkPort) : (s.modPort p g).flashOn = s.flashOn := rfl
@[simp] theorem State.modPort_faces (s : State) (p : Port) (g : LinkPort → LinkPort) : (s.modPort p g).faces = s.faces := rfl
@[simp] theorem State.modPort_painter (s : State) (p : Port) (g : LinkPort → LinkPort) : (s.modPort p g).painter = s.painter := rfl
@[simp] theorem State.modPort_panels (s : State) (p : Port) (g : LinkPort → LinkPort) : (s.modPort p g).panels = s.panels := rfl
@[simp] theorem State.modPort_ambient (s : State) (p : Port) (g : LinkPort → LinkPort) : (s.modPort p g).ambient = s.ambient := rfl
@[simp] theorem State.modPort_lines (s : State) (p : Port) (g : LinkPort → LinkPort) : (s.modPort p g).lines = s.lines := rfl
@[simp] theorem State.modPort_ports (s : State) (p : Port) (g : LinkPort → LinkPort) : (s.modPort p g).ports = s.ports.set p (g (s.ports.get p)) := rfl
@[simp] theorem State.modPort_capture (s : State) (p : Port) (g : LinkPort → LinkPort) : (s.modPort p g).capture = s.capture := rfl
@[simp] theorem State.modPort_seen (s : State) (p : Port) (g : LinkPort → LinkPort) : (s.modPort p g).seen = s.seen := rfl
@[simp] theorem State.modPort_events (s : State) (p : Port) (g : LinkPort → LinkPort) : (s.modPort p g).events = s.events := rfl
@[simp] theorem State.modPort_loader (s : State) (p : Port) (g : LinkPort → LinkPort) : (s.modPort p g).loader = s.loader := rfl
@[simp] theorem State.modPort_mem (s : State) (p : Port) (g : LinkPort → LinkPort) : (s.modPort p g).mem = s.mem := rfl
@[simp] theorem State.modPort_free (s : State) (p : Port) (g : LinkPort → LinkPort) : (s.modPort p g).free = s.free := rfl
@[simp] theorem State.modPort_pending (s : State) (p : Port) (g : LinkPort → LinkPort) : (s.modPort p g).pending = s.pending := rfl

/-! ## State.modEvents -/

@[simp] theorem State.modEvents_params (s : State) (p : Port) (g : EventSet → EventSet) : (s.modEvents p g).params = s.params := rfl
@[simp] theorem State.modEvents_table (s : State) (p : Port) (g : EventSet → EventSet) : (s.modEvents p g).table = s.table := rfl
@[simp] theorem State.modEvents_pinCount (s : State) (p : Port) (g : EventSet → EventSet) : (s.modEvents p g).pinCount = s.pinCount := rfl
@[simp] theorem State.modEvents_freeStops (s : State) (p : Port) (g : EventSet → EventSet) : (s.modEvents p g).freeStops = s.freeStops := rfl
@[simp] theorem State.modEvents_places (s : State) (p : Port) (g : EventSet → EventSet) : (s.modEvents p g).places = s.places := rfl
@[simp] theorem State.modEvents_zones (s : State) (p : Port) (g : EventSet → EventSet) : (s.modEvents p g).zones = s.zones := rfl
@[simp] theorem State.modEvents_reservations (s : State) (p : Port) (g : EventSet → EventSet) : (s.modEvents p g).reservations = s.reservations := rfl
@[simp] theorem State.modEvents_notices (s : State) (p : Port) (g : EventSet → EventSet) : (s.modEvents p g).notices = s.notices := rfl
@[simp] theorem State.modEvents_postCounter (s : State) (p : Port) (g : EventSet → EventSet) : (s.modEvents p g).postCounter = s.postCounter := rfl
@[simp] theorem State.modEvents_clock (s : State) (p : Port) (g : EventSet → EventSet) : (s.modEvents p g).clock = s.clock := rfl
@[simp] theorem State.modEvents_timers (s : State) (p : Port) (g : EventSet → EventSet) : (s.modEvents p g).timers = s.timers := rfl
@[simp] theorem State.modEvents_flashOn (s : State) (p : Port) (g : EventSet → EventSet) : (s.modEvents p g).flashOn = s.flashOn := rfl
@[simp] theorem State.modEvents_faces (s : State) (p : Port) (g : EventSet → EventSet) : (s.modEvents p g).faces = s.faces := rfl
@[simp] theorem State.modEvents_painter (s : State) (p : Port) (g : EventSet → EventSet) : (s.modEvents p g).painter = s.painter := rfl
@[simp] theorem State.modEvents_panels (s : State) (p : Port) (g : EventSet → EventSet) : (s.modEvents p g).panels = s.panels := rfl
@[simp] theorem State.modEvents_ambient (s : State) (p : Port) (g : EventSet → EventSet) : (s.modEvents p g).ambient = s.ambient := rfl
@[simp] theorem State.modEvents_lines (s : State) (p : Port) (g : EventSet → EventSet) : (s.modEvents p g).lines = s.lines := rfl
@[simp] theorem State.modEvents_ports (s : State) (p : Port) (g : EventSet → EventSet) : (s.modEvents p g).ports = s.ports := rfl
@[simp] theorem State.modEvents_capture (s : State) (p : Port) (g : EventSet → EventSet) : (s.modEvents p g).capture = s.capture := rfl
@[simp] theorem State.modEvents_seen (s : State) (p : Port) (g : EventSet → EventSet) : (s.modEvents p g).seen = s.seen := rfl
@[simp] theorem State.modEvents_events (s : State) (p : Port) (g : EventSet → EventSet) : (s.modEvents p g).events = s.events.set p (g (s.events.get p)) := rfl
@[simp] theorem State.modEvents_loader (s : State) (p : Port) (g : EventSet → EventSet) : (s.modEvents p g).loader = s.loader := rfl
@[simp] theorem State.modEvents_mem (s : State) (p : Port) (g : EventSet → EventSet) : (s.modEvents p g).mem = s.mem := rfl
@[simp] theorem State.modEvents_free (s : State) (p : Port) (g : EventSet → EventSet) : (s.modEvents p g).free = s.free := rfl
@[simp] theorem State.modEvents_pending (s : State) (p : Port) (g : EventSet → EventSet) : (s.modEvents p g).pending = s.pending := rfl

/-! ## State.modLine -/

@[simp] theorem State.modLine_params (s : State) (l : Fin 4) (g : InputLine → InputLine) : (s.modLine l g).params = s.params := rfl
@[simp] theorem State.modLine_table (s : State) (l : Fin 4) (g : InputLine → InputLine) : (s.modLine l g).table = s.table := rfl
@[simp] theorem State.modLine_pinCount (s : State) (l : Fin 4) (g : InputLine → InputLine) : (s.modLine l g).pinCount = s.pinCount := rfl
@[simp] theorem State.modLine_freeStops (s : State) (l : Fin 4) (g : InputLine → InputLine) : (s.modLine l g).freeStops = s.freeStops := rfl
@[simp] theorem State.modLine_places (s : State) (l : Fin 4) (g : InputLine → InputLine) : (s.modLine l g).places = s.places := rfl
@[simp] theorem State.modLine_zones (s : State) (l : Fin 4) (g : InputLine → InputLine) : (s.modLine l g).zones = s.zones := rfl
@[simp] theorem State.modLine_reservations (s : State) (l : Fin 4) (g : InputLine → InputLine) : (s.modLine l g).reservations = s.reservations := rfl
@[simp] theorem State.modLine_notices (s : State) (l : Fin 4) (g : InputLine → InputLine) : (s.modLine l g).notices = s.notices := rfl
@[simp] theorem State.modLine_postCounter (s : State) (l : Fin 4) (g : InputLine → InputLine) : (s.modLine l g).postCounter = s.postCounter := rfl
@[simp] theorem State.modLine_clock (s : State) (l : Fin 4) (g : InputLine → InputLine) : (s.modLine l g).clock = s.clock := rfl
@[simp] theorem State.modLine_timers (s : State) (l : Fin 4) (g : InputLine → InputLine) : (s.modLine l g).timers = s.timers := rfl
@[simp] theorem State.modLine_flashOn (s : State) (l : Fin 4) (g : InputLine → InputLine) : (s.modLine l g).flashOn = s.flashOn := rfl
@[simp] theorem State.modLine_faces (s : State) (l : Fin 4) (g : InputLine → InputLine) : (s.modLine l g).faces = s.faces := rfl
@[simp] theorem State.modLine_painter (s : State) (l : Fin 4) (g : InputLine → InputLine) : (s.modLine l g).painter = s.painter := rfl
@[simp] theorem State.modLine_panels (s : State) (l : Fin 4) (g : InputLine → InputLine) : (s.modLine l g).panels = s.panels := rfl
@[simp] theorem State.modLine_ambient (s : State) (l : Fin 4) (g : InputLine → InputLine) : (s.modLine l g).ambient = s.ambient := rfl
@[simp] theorem State.modLine_lines (s : State) (l : Fin 4) (g : InputLine → InputLine) : (s.modLine l g).lines = s.lines.set l (g s.lines[l]) := rfl
@[simp] theorem State.modLine_ports (s : State) (l : Fin 4) (g : InputLine → InputLine) : (s.modLine l g).ports = s.ports := rfl
@[simp] theorem State.modLine_capture (s : State) (l : Fin 4) (g : InputLine → InputLine) : (s.modLine l g).capture = s.capture := rfl
@[simp] theorem State.modLine_seen (s : State) (l : Fin 4) (g : InputLine → InputLine) : (s.modLine l g).seen = s.seen := rfl
@[simp] theorem State.modLine_events (s : State) (l : Fin 4) (g : InputLine → InputLine) : (s.modLine l g).events = s.events := rfl
@[simp] theorem State.modLine_loader (s : State) (l : Fin 4) (g : InputLine → InputLine) : (s.modLine l g).loader = s.loader := rfl
@[simp] theorem State.modLine_mem (s : State) (l : Fin 4) (g : InputLine → InputLine) : (s.modLine l g).mem = s.mem := rfl
@[simp] theorem State.modLine_free (s : State) (l : Fin 4) (g : InputLine → InputLine) : (s.modLine l g).free = s.free := rfl
@[simp] theorem State.modLine_pending (s : State) (l : Fin 4) (g : InputLine → InputLine) : (s.modLine l g).pending = s.pending := rfl

/-! ## State.modTimer -/

@[simp] theorem State.modTimer_params (s : State) (t : Fin 6) (g : Timer → Timer) : (s.modTimer t g).params = s.params := rfl
@[simp] theorem State.modTimer_table (s : State) (t : Fin 6) (g : Timer → Timer) : (s.modTimer t g).table = s.table := rfl
@[simp] theorem State.modTimer_pinCount (s : State) (t : Fin 6) (g : Timer → Timer) : (s.modTimer t g).pinCount = s.pinCount := rfl
@[simp] theorem State.modTimer_freeStops (s : State) (t : Fin 6) (g : Timer → Timer) : (s.modTimer t g).freeStops = s.freeStops := rfl
@[simp] theorem State.modTimer_places (s : State) (t : Fin 6) (g : Timer → Timer) : (s.modTimer t g).places = s.places := rfl
@[simp] theorem State.modTimer_zones (s : State) (t : Fin 6) (g : Timer → Timer) : (s.modTimer t g).zones = s.zones := rfl
@[simp] theorem State.modTimer_reservations (s : State) (t : Fin 6) (g : Timer → Timer) : (s.modTimer t g).reservations = s.reservations := rfl
@[simp] theorem State.modTimer_notices (s : State) (t : Fin 6) (g : Timer → Timer) : (s.modTimer t g).notices = s.notices := rfl
@[simp] theorem State.modTimer_postCounter (s : State) (t : Fin 6) (g : Timer → Timer) : (s.modTimer t g).postCounter = s.postCounter := rfl
@[simp] theorem State.modTimer_clock (s : State) (t : Fin 6) (g : Timer → Timer) : (s.modTimer t g).clock = s.clock := rfl
@[simp] theorem State.modTimer_timers (s : State) (t : Fin 6) (g : Timer → Timer) : (s.modTimer t g).timers = s.timers.set t (g s.timers[t]) := rfl
@[simp] theorem State.modTimer_flashOn (s : State) (t : Fin 6) (g : Timer → Timer) : (s.modTimer t g).flashOn = s.flashOn := rfl
@[simp] theorem State.modTimer_faces (s : State) (t : Fin 6) (g : Timer → Timer) : (s.modTimer t g).faces = s.faces := rfl
@[simp] theorem State.modTimer_painter (s : State) (t : Fin 6) (g : Timer → Timer) : (s.modTimer t g).painter = s.painter := rfl
@[simp] theorem State.modTimer_panels (s : State) (t : Fin 6) (g : Timer → Timer) : (s.modTimer t g).panels = s.panels := rfl
@[simp] theorem State.modTimer_ambient (s : State) (t : Fin 6) (g : Timer → Timer) : (s.modTimer t g).ambient = s.ambient := rfl
@[simp] theorem State.modTimer_lines (s : State) (t : Fin 6) (g : Timer → Timer) : (s.modTimer t g).lines = s.lines := rfl
@[simp] theorem State.modTimer_ports (s : State) (t : Fin 6) (g : Timer → Timer) : (s.modTimer t g).ports = s.ports := rfl
@[simp] theorem State.modTimer_capture (s : State) (t : Fin 6) (g : Timer → Timer) : (s.modTimer t g).capture = s.capture := rfl
@[simp] theorem State.modTimer_seen (s : State) (t : Fin 6) (g : Timer → Timer) : (s.modTimer t g).seen = s.seen := rfl
@[simp] theorem State.modTimer_events (s : State) (t : Fin 6) (g : Timer → Timer) : (s.modTimer t g).events = s.events := rfl
@[simp] theorem State.modTimer_loader (s : State) (t : Fin 6) (g : Timer → Timer) : (s.modTimer t g).loader = s.loader := rfl
@[simp] theorem State.modTimer_mem (s : State) (t : Fin 6) (g : Timer → Timer) : (s.modTimer t g).mem = s.mem := rfl
@[simp] theorem State.modTimer_free (s : State) (t : Fin 6) (g : Timer → Timer) : (s.modTimer t g).free = s.free := rfl
@[simp] theorem State.modTimer_pending (s : State) (t : Fin 6) (g : Timer → Timer) : (s.modTimer t g).pending = s.pending := rfl

/-! ## State.setReservation -/

@[simp] theorem State.setReservation_params (s : State) (p : Port) (r : Option Nat) : (s.setReservation p r).params = s.params := rfl
@[simp] theorem State.setReservation_table (s : State) (p : Port) (r : Option Nat) : (s.setReservation p r).table = s.table := rfl
@[simp] theorem State.setReservation_pinCount (s : State) (p : Port) (r : Option Nat) : (s.setReservation p r).pinCount = s.pinCount := rfl
@[simp] theorem State.setReservation_freeStops (s : State) (p : Port) (r : Option Nat) : (s.setReservation p r).freeStops = s.freeStops := rfl
@[simp] theorem State.setReservation_places (s : State) (p : Port) (r : Option Nat) : (s.setReservation p r).places = s.places := rfl
@[simp] theorem State.setReservation_zones (s : State) (p : Port) (r : Option Nat) : (s.setReservation p r).zones = s.zones := rfl
@[simp] theorem State.setReservation_reservations (s : State) (p : Port) (r : Option Nat) : (s.setReservation p r).reservations = s.reservations.set p r := rfl
@[simp] theorem State.setReservation_notices (s : State) (p : Port) (r : Option Nat) : (s.setReservation p r).notices = s.notices := rfl
@[simp] theorem State.setReservation_postCounter (s : State) (p : Port) (r : Option Nat) : (s.setReservation p r).postCounter = s.postCounter := rfl
@[simp] theorem State.setReservation_clock (s : State) (p : Port) (r : Option Nat) : (s.setReservation p r).clock = s.clock := rfl
@[simp] theorem State.setReservation_timers (s : State) (p : Port) (r : Option Nat) : (s.setReservation p r).timers = s.timers := rfl
@[simp] theorem State.setReservation_flashOn (s : State) (p : Port) (r : Option Nat) : (s.setReservation p r).flashOn = s.flashOn := rfl
@[simp] theorem State.setReservation_faces (s : State) (p : Port) (r : Option Nat) : (s.setReservation p r).faces = s.faces := rfl
@[simp] theorem State.setReservation_painter (s : State) (p : Port) (r : Option Nat) : (s.setReservation p r).painter = s.painter := rfl
@[simp] theorem State.setReservation_panels (s : State) (p : Port) (r : Option Nat) : (s.setReservation p r).panels = s.panels := rfl
@[simp] theorem State.setReservation_ambient (s : State) (p : Port) (r : Option Nat) : (s.setReservation p r).ambient = s.ambient := rfl
@[simp] theorem State.setReservation_lines (s : State) (p : Port) (r : Option Nat) : (s.setReservation p r).lines = s.lines := rfl
@[simp] theorem State.setReservation_ports (s : State) (p : Port) (r : Option Nat) : (s.setReservation p r).ports = s.ports := rfl
@[simp] theorem State.setReservation_capture (s : State) (p : Port) (r : Option Nat) : (s.setReservation p r).capture = s.capture := rfl
@[simp] theorem State.setReservation_seen (s : State) (p : Port) (r : Option Nat) : (s.setReservation p r).seen = s.seen := rfl
@[simp] theorem State.setReservation_events (s : State) (p : Port) (r : Option Nat) : (s.setReservation p r).events = s.events := rfl
@[simp] theorem State.setReservation_loader (s : State) (p : Port) (r : Option Nat) : (s.setReservation p r).loader = s.loader := rfl
@[simp] theorem State.setReservation_mem (s : State) (p : Port) (r : Option Nat) : (s.setReservation p r).mem = s.mem := rfl
@[simp] theorem State.setReservation_free (s : State) (p : Port) (r : Option Nat) : (s.setReservation p r).free = s.free := rfl
@[simp] theorem State.setReservation_pending (s : State) (p : Port) (r : Option Nat) : (s.setReservation p r).pending = s.pending := rfl

/-! ## State.signal -/

@[simp] theorem State.signal_params (s : State) (p : Port) (e : EventFlag) : (s.signal p e).params = s.params := rfl
@[simp] theorem State.signal_table (s : State) (p : Port) (e : EventFlag) : (s.signal p e).table = s.table := rfl
@[simp] theorem State.signal_pinCount (s : State) (p : Port) (e : EventFlag) : (s.signal p e).pinCount = s.pinCount := rfl
@[simp] theorem State.signal_freeStops (s : State) (p : Port) (e : EventFlag) : (s.signal p e).freeStops = s.freeStops := rfl
@[simp] theorem State.signal_places (s : State) (p : Port) (e : EventFlag) : (s.signal p e).places = s.places := rfl
@[simp] theorem State.signal_zones (s : State) (p : Port) (e : EventFlag) : (s.signal p e).zones = s.zones := rfl
@[simp] theorem State.signal_reservations (s : State) (p : Port) (e : EventFlag) : (s.signal p e).reservations = s.reservations := rfl
@[simp] theorem State.signal_notices (s : State) (p : Port) (e : EventFlag) : (s.signal p e).notices = s.notices := rfl
@[simp] theorem State.signal_postCounter (s : State) (p : Port) (e : EventFlag) : (s.signal p e).postCounter = s.postCounter := rfl
@[simp] theorem State.signal_clock (s : State) (p : Port) (e : EventFlag) : (s.signal p e).clock = s.clock := rfl
@[simp] theorem State.signal_timers (s : State) (p : Port) (e : EventFlag) : (s.signal p e).timers = s.timers := rfl
@[simp] theorem State.signal_flashOn (s : State) (p : Port) (e : EventFlag) : (s.signal p e).flashOn = s.flashOn := rfl
@[simp] theorem State.signal_faces (s : State) (p : Port) (e : EventFlag) : (s.signal p e).faces = s.faces := rfl
@[simp] theorem State.signal_painter (s : State) (p : Port) (e : EventFlag) : (s.signal p e).painter = s.painter := rfl
@[simp] theorem State.signal_panels (s : State) (p : Port) (e : EventFlag) : (s.signal p e).panels = s.panels := rfl
@[simp] theorem State.signal_ambient (s : State) (p : Port) (e : EventFlag) : (s.signal p e).ambient = s.ambient := rfl
@[simp] theorem State.signal_lines (s : State) (p : Port) (e : EventFlag) : (s.signal p e).lines = s.lines := rfl
@[simp] theorem State.signal_ports (s : State) (p : Port) (e : EventFlag) : (s.signal p e).ports = s.ports := rfl
@[simp] theorem State.signal_capture (s : State) (p : Port) (e : EventFlag) : (s.signal p e).capture = s.capture := rfl
@[simp] theorem State.signal_seen (s : State) (p : Port) (e : EventFlag) : (s.signal p e).seen = s.seen := rfl
@[simp] theorem State.signal_events (s : State) (p : Port) (e : EventFlag) : (s.signal p e).events = s.events.set p ((s.events.get p).add e) := rfl
@[simp] theorem State.signal_loader (s : State) (p : Port) (e : EventFlag) : (s.signal p e).loader = s.loader := rfl
@[simp] theorem State.signal_mem (s : State) (p : Port) (e : EventFlag) : (s.signal p e).mem = s.mem := rfl
@[simp] theorem State.signal_free (s : State) (p : Port) (e : EventFlag) : (s.signal p e).free = s.free := rfl
@[simp] theorem State.signal_pending (s : State) (p : Port) (e : EventFlag) : (s.signal p e).pending = s.pending := rfl

/-! ## State.signalAll -/

@[simp] theorem State.signalAll_params (s : State) (e : EventFlag) : (s.signalAll e).params = s.params := rfl
@[simp] theorem State.signalAll_table (s : State) (e : EventFlag) : (s.signalAll e).table = s.table := rfl
@[simp] theorem State.signalAll_pinCount (s : State) (e : EventFlag) : (s.signalAll e).pinCount = s.pinCount := rfl
@[simp] theorem State.signalAll_freeStops (s : State) (e : EventFlag) : (s.signalAll e).freeStops = s.freeStops := rfl
@[simp] theorem State.signalAll_places (s : State) (e : EventFlag) : (s.signalAll e).places = s.places := rfl
@[simp] theorem State.signalAll_zones (s : State) (e : EventFlag) : (s.signalAll e).zones = s.zones := rfl
@[simp] theorem State.signalAll_reservations (s : State) (e : EventFlag) : (s.signalAll e).reservations = s.reservations := rfl
@[simp] theorem State.signalAll_notices (s : State) (e : EventFlag) : (s.signalAll e).notices = s.notices := rfl
@[simp] theorem State.signalAll_postCounter (s : State) (e : EventFlag) : (s.signalAll e).postCounter = s.postCounter := rfl
@[simp] theorem State.signalAll_clock (s : State) (e : EventFlag) : (s.signalAll e).clock = s.clock := rfl
@[simp] theorem State.signalAll_timers (s : State) (e : EventFlag) : (s.signalAll e).timers = s.timers := rfl
@[simp] theorem State.signalAll_flashOn (s : State) (e : EventFlag) : (s.signalAll e).flashOn = s.flashOn := rfl
@[simp] theorem State.signalAll_faces (s : State) (e : EventFlag) : (s.signalAll e).faces = s.faces := rfl
@[simp] theorem State.signalAll_painter (s : State) (e : EventFlag) : (s.signalAll e).painter = s.painter := rfl
@[simp] theorem State.signalAll_panels (s : State) (e : EventFlag) : (s.signalAll e).panels = s.panels := rfl
@[simp] theorem State.signalAll_ambient (s : State) (e : EventFlag) : (s.signalAll e).ambient = s.ambient := rfl
@[simp] theorem State.signalAll_lines (s : State) (e : EventFlag) : (s.signalAll e).lines = s.lines := rfl
@[simp] theorem State.signalAll_ports (s : State) (e : EventFlag) : (s.signalAll e).ports = s.ports := rfl
@[simp] theorem State.signalAll_capture (s : State) (e : EventFlag) : (s.signalAll e).capture = s.capture := rfl
@[simp] theorem State.signalAll_seen (s : State) (e : EventFlag) : (s.signalAll e).seen = s.seen := rfl
@[simp] theorem State.signalAll_events (s : State) (e : EventFlag) : (s.signalAll e).events = s.events.mapWith fun _ set => set.add e := rfl
@[simp] theorem State.signalAll_loader (s : State) (e : EventFlag) : (s.signalAll e).loader = s.loader := rfl
@[simp] theorem State.signalAll_mem (s : State) (e : EventFlag) : (s.signalAll e).mem = s.mem := rfl
@[simp] theorem State.signalAll_free (s : State) (e : EventFlag) : (s.signalAll e).free = s.free := rfl
@[simp] theorem State.signalAll_pending (s : State) (e : EventFlag) : (s.signalAll e).pending = s.pending := rfl

/-! ## State.raise -/

@[simp] theorem State.raise_params (s : State) (k : FaultKind) (l : Locale) : (s.raise k l).params = s.params := rfl
@[simp] theorem State.raise_table (s : State) (k : FaultKind) (l : Locale) : (s.raise k l).table = s.table := rfl
@[simp] theorem State.raise_pinCount (s : State) (k : FaultKind) (l : Locale) : (s.raise k l).pinCount = s.pinCount := rfl
@[simp] theorem State.raise_freeStops (s : State) (k : FaultKind) (l : Locale) : (s.raise k l).freeStops = s.freeStops := rfl
@[simp] theorem State.raise_places (s : State) (k : FaultKind) (l : Locale) : (s.raise k l).places = s.places := rfl
@[simp] theorem State.raise_zones (s : State) (k : FaultKind) (l : Locale) : (s.raise k l).zones = s.zones := rfl
@[simp] theorem State.raise_reservations (s : State) (k : FaultKind) (l : Locale) : (s.raise k l).reservations = s.reservations := rfl
@[simp] theorem State.raise_notices (s : State) (k : FaultKind) (l : Locale) : (s.raise k l).notices = s.notices := rfl
@[simp] theorem State.raise_postCounter (s : State) (k : FaultKind) (l : Locale) : (s.raise k l).postCounter = s.postCounter := rfl
@[simp] theorem State.raise_clock (s : State) (k : FaultKind) (l : Locale) : (s.raise k l).clock = s.clock := rfl
@[simp] theorem State.raise_timers (s : State) (k : FaultKind) (l : Locale) : (s.raise k l).timers = s.timers := rfl
@[simp] theorem State.raise_flashOn (s : State) (k : FaultKind) (l : Locale) : (s.raise k l).flashOn = s.flashOn := rfl
@[simp] theorem State.raise_faces (s : State) (k : FaultKind) (l : Locale) : (s.raise k l).faces = s.faces := rfl
@[simp] theorem State.raise_painter (s : State) (k : FaultKind) (l : Locale) : (s.raise k l).painter = s.painter := rfl
@[simp] theorem State.raise_panels (s : State) (k : FaultKind) (l : Locale) : (s.raise k l).panels = s.panels := rfl
@[simp] theorem State.raise_ambient (s : State) (k : FaultKind) (l : Locale) : (s.raise k l).ambient = s.ambient := rfl
@[simp] theorem State.raise_lines (s : State) (k : FaultKind) (l : Locale) : (s.raise k l).lines = s.lines := rfl
@[simp] theorem State.raise_ports (s : State) (k : FaultKind) (l : Locale) : (s.raise k l).ports = s.ports := rfl
@[simp] theorem State.raise_capture (s : State) (k : FaultKind) (l : Locale) : (s.raise k l).capture = s.capture.take ⟨k, l, if s.clock.valid then some s.clock.minute else none⟩ := rfl
@[simp] theorem State.raise_seen (s : State) (k : FaultKind) (l : Locale) : (s.raise k l).seen = s.seen.set k.index true := rfl
@[simp] theorem State.raise_events (s : State) (k : FaultKind) (l : Locale) : (s.raise k l).events = s.events.mapWith fun _ set => set.add .fault := rfl
@[simp] theorem State.raise_loader (s : State) (k : FaultKind) (l : Locale) : (s.raise k l).loader = s.loader := rfl
@[simp] theorem State.raise_mem (s : State) (k : FaultKind) (l : Locale) : (s.raise k l).mem = s.mem := rfl
@[simp] theorem State.raise_free (s : State) (k : FaultKind) (l : Locale) : (s.raise k l).free = s.free := rfl
@[simp] theorem State.raise_pending (s : State) (k : FaultKind) (l : Locale) : (s.raise k l).pending = s.pending := rfl

/-! ## State.sendReply -/

@[simp] theorem State.sendReply_params (s : State) (p : Port) (kind tag : Byte) (r : Reply) : (s.sendReply p kind tag r).params = s.params := rfl
@[simp] theorem State.sendReply_table (s : State) (p : Port) (kind tag : Byte) (r : Reply) : (s.sendReply p kind tag r).table = s.table := rfl
@[simp] theorem State.sendReply_pinCount (s : State) (p : Port) (kind tag : Byte) (r : Reply) : (s.sendReply p kind tag r).pinCount = s.pinCount := rfl
@[simp] theorem State.sendReply_freeStops (s : State) (p : Port) (kind tag : Byte) (r : Reply) : (s.sendReply p kind tag r).freeStops = s.freeStops := rfl
@[simp] theorem State.sendReply_places (s : State) (p : Port) (kind tag : Byte) (r : Reply) : (s.sendReply p kind tag r).places = s.places := rfl
@[simp] theorem State.sendReply_zones (s : State) (p : Port) (kind tag : Byte) (r : Reply) : (s.sendReply p kind tag r).zones = s.zones := rfl
@[simp] theorem State.sendReply_reservations (s : State) (p : Port) (kind tag : Byte) (r : Reply) : (s.sendReply p kind tag r).reservations = s.reservations := rfl
@[simp] theorem State.sendReply_notices (s : State) (p : Port) (kind tag : Byte) (r : Reply) : (s.sendReply p kind tag r).notices = s.notices := rfl
@[simp] theorem State.sendReply_postCounter (s : State) (p : Port) (kind tag : Byte) (r : Reply) : (s.sendReply p kind tag r).postCounter = s.postCounter := rfl
@[simp] theorem State.sendReply_clock (s : State) (p : Port) (kind tag : Byte) (r : Reply) : (s.sendReply p kind tag r).clock = s.clock := rfl
@[simp] theorem State.sendReply_timers (s : State) (p : Port) (kind tag : Byte) (r : Reply) : (s.sendReply p kind tag r).timers = s.timers := rfl
@[simp] theorem State.sendReply_flashOn (s : State) (p : Port) (kind tag : Byte) (r : Reply) : (s.sendReply p kind tag r).flashOn = s.flashOn := rfl
@[simp] theorem State.sendReply_faces (s : State) (p : Port) (kind tag : Byte) (r : Reply) : (s.sendReply p kind tag r).faces = s.faces := rfl
@[simp] theorem State.sendReply_painter (s : State) (p : Port) (kind tag : Byte) (r : Reply) : (s.sendReply p kind tag r).painter = s.painter := rfl
@[simp] theorem State.sendReply_panels (s : State) (p : Port) (kind tag : Byte) (r : Reply) : (s.sendReply p kind tag r).panels = s.panels := rfl
@[simp] theorem State.sendReply_ambient (s : State) (p : Port) (kind tag : Byte) (r : Reply) : (s.sendReply p kind tag r).ambient = s.ambient := rfl
@[simp] theorem State.sendReply_lines (s : State) (p : Port) (kind tag : Byte) (r : Reply) : (s.sendReply p kind tag r).lines = s.lines := rfl
@[simp] theorem State.sendReply_ports (s : State) (p : Port) (kind tag : Byte) (r : Reply) : (s.sendReply p kind tag r).ports = s.ports.set p ({ s.ports.get p with state := .reply, reply := s.replyFrame p kind tag r }) := rfl
@[simp] theorem State.sendReply_capture (s : State) (p : Port) (kind tag : Byte) (r : Reply) : (s.sendReply p kind tag r).capture = s.capture := rfl
@[simp] theorem State.sendReply_seen (s : State) (p : Port) (kind tag : Byte) (r : Reply) : (s.sendReply p kind tag r).seen = s.seen := rfl
@[simp] theorem State.sendReply_events (s : State) (p : Port) (kind tag : Byte) (r : Reply) : (s.sendReply p kind tag r).events = s.events := rfl
@[simp] theorem State.sendReply_loader (s : State) (p : Port) (kind tag : Byte) (r : Reply) : (s.sendReply p kind tag r).loader = s.loader := rfl
@[simp] theorem State.sendReply_mem (s : State) (p : Port) (kind tag : Byte) (r : Reply) : (s.sendReply p kind tag r).mem = s.mem := rfl
@[simp] theorem State.sendReply_free (s : State) (p : Port) (kind tag : Byte) (r : Reply) : (s.sendReply p kind tag r).free = s.free := rfl
@[simp] theorem State.sendReply_pending (s : State) (p : Port) (kind tag : Byte) (r : Reply) : (s.sendReply p kind tag r).pending = s.pending := rfl

/-! ## State.dropFrame -/

@[simp] theorem State.dropFrame_params (s : State) (p : Port) : (s.dropFrame p).params = s.params := rfl
@[simp] theorem State.dropFrame_table (s : State) (p : Port) : (s.dropFrame p).table = s.table := rfl
@[simp] theorem State.dropFrame_pinCount (s : State) (p : Port) : (s.dropFrame p).pinCount = s.pinCount := rfl
@[simp] theorem State.dropFrame_freeStops (s : State) (p : Port) : (s.dropFrame p).freeStops = s.freeStops := rfl
@[simp] theorem State.dropFrame_places (s : State) (p : Port) : (s.dropFrame p).places = s.places := rfl
@[simp] theorem State.dropFrame_zones (s : State) (p : Port) : (s.dropFrame p).zones = s.zones := rfl
@[simp] theorem State.dropFrame_reservations (s : State) (p : Port) : (s.dropFrame p).reservations = s.reservations := rfl
@[simp] theorem State.dropFrame_notices (s : State) (p : Port) : (s.dropFrame p).notices = s.notices := rfl
@[simp] theorem State.dropFrame_postCounter (s : State) (p : Port) : (s.dropFrame p).postCounter = s.postCounter := rfl
@[simp] theorem State.dropFrame_clock (s : State) (p : Port) : (s.dropFrame p).clock = s.clock := rfl
@[simp] theorem State.dropFrame_timers (s : State) (p : Port) : (s.dropFrame p).timers = s.timers := rfl
@[simp] theorem State.dropFrame_flashOn (s : State) (p : Port) : (s.dropFrame p).flashOn = s.flashOn := rfl
@[simp] theorem State.dropFrame_faces (s : State) (p : Port) : (s.dropFrame p).faces = s.faces := rfl
@[simp] theorem State.dropFrame_painter (s : State) (p : Port) : (s.dropFrame p).painter = s.painter := rfl
@[simp] theorem State.dropFrame_panels (s : State) (p : Port) : (s.dropFrame p).panels = s.panels := rfl
@[simp] theorem State.dropFrame_ambient (s : State) (p : Port) : (s.dropFrame p).ambient = s.ambient := rfl
@[simp] theorem State.dropFrame_lines (s : State) (p : Port) : (s.dropFrame p).lines = s.lines := rfl
@[simp] theorem State.dropFrame_ports (s : State) (p : Port) : (s.dropFrame p).ports = s.ports.set p (s.ports.get p).toHunt := rfl
@[simp] theorem State.dropFrame_capture (s : State) (p : Port) : (s.dropFrame p).capture = s.capture := rfl
@[simp] theorem State.dropFrame_seen (s : State) (p : Port) : (s.dropFrame p).seen = s.seen := rfl
@[simp] theorem State.dropFrame_events (s : State) (p : Port) : (s.dropFrame p).events = s.events := rfl
@[simp] theorem State.dropFrame_loader (s : State) (p : Port) : (s.dropFrame p).loader = s.loader := rfl
@[simp] theorem State.dropFrame_mem (s : State) (p : Port) : (s.dropFrame p).mem = s.mem := rfl
@[simp] theorem State.dropFrame_free (s : State) (p : Port) : (s.dropFrame p).free = s.free := rfl
@[simp] theorem State.dropFrame_pending (s : State) (p : Port) : (s.dropFrame p).pending = s.pending := rfl

/-! ## State.markDirty -/

@[simp] theorem State.markDirty_params (s : State) (f : Face) : (s.markDirty f).params = s.params := rfl
@[simp] theorem State.markDirty_table (s : State) (f : Face) : (s.markDirty f).table = s.table := rfl
@[simp] theorem State.markDirty_pinCount (s : State) (f : Face) : (s.markDirty f).pinCount = s.pinCount := rfl
@[simp] theorem State.markDirty_freeStops (s : State) (f : Face) : (s.markDirty f).freeStops = s.freeStops := rfl
@[simp] theorem State.markDirty_places (s : State) (f : Face) : (s.markDirty f).places = s.places := rfl
@[simp] theorem State.markDirty_zones (s : State) (f : Face) : (s.markDirty f).zones = s.zones := rfl
@[simp] theorem State.markDirty_reservations (s : State) (f : Face) : (s.markDirty f).reservations = s.reservations := rfl
@[simp] theorem State.markDirty_notices (s : State) (f : Face) : (s.markDirty f).notices = s.notices := rfl
@[simp] theorem State.markDirty_postCounter (s : State) (f : Face) : (s.markDirty f).postCounter = s.postCounter := rfl
@[simp] theorem State.markDirty_clock (s : State) (f : Face) : (s.markDirty f).clock = s.clock := rfl
@[simp] theorem State.markDirty_timers (s : State) (f : Face) : (s.markDirty f).timers = s.timers := rfl
@[simp] theorem State.markDirty_flashOn (s : State) (f : Face) : (s.markDirty f).flashOn = s.flashOn := rfl
@[simp] theorem State.markDirty_faces (s : State) (f : Face) : (s.markDirty f).faces = s.faces.set f ({ s.faces.get f with dirty := true }) := rfl
@[simp] theorem State.markDirty_painter (s : State) (f : Face) : (s.markDirty f).painter = s.painter := rfl
@[simp] theorem State.markDirty_panels (s : State) (f : Face) : (s.markDirty f).panels = s.panels := rfl
@[simp] theorem State.markDirty_ambient (s : State) (f : Face) : (s.markDirty f).ambient = s.ambient := rfl
@[simp] theorem State.markDirty_lines (s : State) (f : Face) : (s.markDirty f).lines = s.lines := rfl
@[simp] theorem State.markDirty_ports (s : State) (f : Face) : (s.markDirty f).ports = s.ports := rfl
@[simp] theorem State.markDirty_capture (s : State) (f : Face) : (s.markDirty f).capture = s.capture := rfl
@[simp] theorem State.markDirty_seen (s : State) (f : Face) : (s.markDirty f).seen = s.seen := rfl
@[simp] theorem State.markDirty_events (s : State) (f : Face) : (s.markDirty f).events = s.events := rfl
@[simp] theorem State.markDirty_loader (s : State) (f : Face) : (s.markDirty f).loader = s.loader := rfl
@[simp] theorem State.markDirty_mem (s : State) (f : Face) : (s.markDirty f).mem = s.mem := rfl
@[simp] theorem State.markDirty_free (s : State) (f : Face) : (s.markDirty f).free = s.free := rfl
@[simp] theorem State.markDirty_pending (s : State) (f : Face) : (s.markDirty f).pending = s.pending := rfl

/-! ## State.markBoth -/

@[simp] theorem State.markBoth_params (s : State) : (s.markBoth).params = s.params := rfl
@[simp] theorem State.markBoth_table (s : State) : (s.markBoth).table = s.table := rfl
@[simp] theorem State.markBoth_pinCount (s : State) : (s.markBoth).pinCount = s.pinCount := rfl
@[simp] theorem State.markBoth_freeStops (s : State) : (s.markBoth).freeStops = s.freeStops := rfl
@[simp] theorem State.markBoth_places (s : State) : (s.markBoth).places = s.places := rfl
@[simp] theorem State.markBoth_zones (s : State) : (s.markBoth).zones = s.zones := rfl
@[simp] theorem State.markBoth_reservations (s : State) : (s.markBoth).reservations = s.reservations := rfl
@[simp] theorem State.markBoth_notices (s : State) : (s.markBoth).notices = s.notices := rfl
@[simp] theorem State.markBoth_postCounter (s : State) : (s.markBoth).postCounter = s.postCounter := rfl
@[simp] theorem State.markBoth_clock (s : State) : (s.markBoth).clock = s.clock := rfl
@[simp] theorem State.markBoth_timers (s : State) : (s.markBoth).timers = s.timers := rfl
@[simp] theorem State.markBoth_flashOn (s : State) : (s.markBoth).flashOn = s.flashOn := rfl
@[simp] theorem State.markBoth_painter (s : State) : (s.markBoth).painter = s.painter := rfl
@[simp] theorem State.markBoth_panels (s : State) : (s.markBoth).panels = s.panels := rfl
@[simp] theorem State.markBoth_ambient (s : State) : (s.markBoth).ambient = s.ambient := rfl
@[simp] theorem State.markBoth_lines (s : State) : (s.markBoth).lines = s.lines := rfl
@[simp] theorem State.markBoth_ports (s : State) : (s.markBoth).ports = s.ports := rfl
@[simp] theorem State.markBoth_capture (s : State) : (s.markBoth).capture = s.capture := rfl
@[simp] theorem State.markBoth_seen (s : State) : (s.markBoth).seen = s.seen := rfl
@[simp] theorem State.markBoth_events (s : State) : (s.markBoth).events = s.events := rfl
@[simp] theorem State.markBoth_loader (s : State) : (s.markBoth).loader = s.loader := rfl
@[simp] theorem State.markBoth_mem (s : State) : (s.markBoth).mem = s.mem := rfl
@[simp] theorem State.markBoth_free (s : State) : (s.markBoth).free = s.free := rfl
@[simp] theorem State.markBoth_pending (s : State) : (s.markBoth).pending = s.pending := rfl

/-! ## State.wake -/

@[simp] theorem State.wake_params (s : State) (f : Face) (w : WakeSource) : (s.wake f w).params = s.params := rfl
@[simp] theorem State.wake_table (s : State) (f : Face) (w : WakeSource) : (s.wake f w).table = s.table := rfl
@[simp] theorem State.wake_pinCount (s : State) (f : Face) (w : WakeSource) : (s.wake f w).pinCount = s.pinCount := rfl
@[simp] theorem State.wake_freeStops (s : State) (f : Face) (w : WakeSource) : (s.wake f w).freeStops = s.freeStops := rfl
@[simp] theorem State.wake_places (s : State) (f : Face) (w : WakeSource) : (s.wake f w).places = s.places := rfl
@[simp] theorem State.wake_zones (s : State) (f : Face) (w : WakeSource) : (s.wake f w).zones = s.zones := rfl
@[simp] theorem State.wake_reservations (s : State) (f : Face) (w : WakeSource) : (s.wake f w).reservations = s.reservations := rfl
@[simp] theorem State.wake_notices (s : State) (f : Face) (w : WakeSource) : (s.wake f w).notices = s.notices := rfl
@[simp] theorem State.wake_postCounter (s : State) (f : Face) (w : WakeSource) : (s.wake f w).postCounter = s.postCounter := rfl
@[simp] theorem State.wake_clock (s : State) (f : Face) (w : WakeSource) : (s.wake f w).clock = s.clock := rfl
@[simp] theorem State.wake_timers (s : State) (f : Face) (w : WakeSource) : (s.wake f w).timers = s.timers := rfl
@[simp] theorem State.wake_flashOn (s : State) (f : Face) (w : WakeSource) : (s.wake f w).flashOn = s.flashOn := rfl
@[simp] theorem State.wake_faces (s : State) (f : Face) (w : WakeSource) : (s.wake f w).faces = s.faces.set f (Composer.wake s.params.wakeHold w (s.faces.get f)) := rfl
@[simp] theorem State.wake_painter (s : State) (f : Face) (w : WakeSource) : (s.wake f w).painter = s.painter := rfl
@[simp] theorem State.wake_panels (s : State) (f : Face) (w : WakeSource) : (s.wake f w).panels = s.panels := rfl
@[simp] theorem State.wake_ambient (s : State) (f : Face) (w : WakeSource) : (s.wake f w).ambient = s.ambient := rfl
@[simp] theorem State.wake_lines (s : State) (f : Face) (w : WakeSource) : (s.wake f w).lines = s.lines := rfl
@[simp] theorem State.wake_ports (s : State) (f : Face) (w : WakeSource) : (s.wake f w).ports = s.ports := rfl
@[simp] theorem State.wake_capture (s : State) (f : Face) (w : WakeSource) : (s.wake f w).capture = s.capture := rfl
@[simp] theorem State.wake_seen (s : State) (f : Face) (w : WakeSource) : (s.wake f w).seen = s.seen := rfl
@[simp] theorem State.wake_events (s : State) (f : Face) (w : WakeSource) : (s.wake f w).events = s.events := rfl
@[simp] theorem State.wake_loader (s : State) (f : Face) (w : WakeSource) : (s.wake f w).loader = s.loader := rfl
@[simp] theorem State.wake_mem (s : State) (f : Face) (w : WakeSource) : (s.wake f w).mem = s.mem := rfl
@[simp] theorem State.wake_free (s : State) (f : Face) (w : WakeSource) : (s.wake f w).free = s.free := rfl
@[simp] theorem State.wake_pending (s : State) (f : Face) (w : WakeSource) : (s.wake f w).pending = s.pending := rfl

/-! ## State.countDownWake -/

@[simp] theorem State.countDownWake_params (s : State) : (s.countDownWake).params = s.params := rfl
@[simp] theorem State.countDownWake_table (s : State) : (s.countDownWake).table = s.table := rfl
@[simp] theorem State.countDownWake_pinCount (s : State) : (s.countDownWake).pinCount = s.pinCount := rfl
@[simp] theorem State.countDownWake_freeStops (s : State) : (s.countDownWake).freeStops = s.freeStops := rfl
@[simp] theorem State.countDownWake_places (s : State) : (s.countDownWake).places = s.places := rfl
@[simp] theorem State.countDownWake_zones (s : State) : (s.countDownWake).zones = s.zones := rfl
@[simp] theorem State.countDownWake_reservations (s : State) : (s.countDownWake).reservations = s.reservations := rfl
@[simp] theorem State.countDownWake_notices (s : State) : (s.countDownWake).notices = s.notices := rfl
@[simp] theorem State.countDownWake_postCounter (s : State) : (s.countDownWake).postCounter = s.postCounter := rfl
@[simp] theorem State.countDownWake_clock (s : State) : (s.countDownWake).clock = s.clock := rfl
@[simp] theorem State.countDownWake_timers (s : State) : (s.countDownWake).timers = s.timers := rfl
@[simp] theorem State.countDownWake_flashOn (s : State) : (s.countDownWake).flashOn = s.flashOn := rfl
@[simp] theorem State.countDownWake_painter (s : State) : (s.countDownWake).painter = s.painter := rfl
@[simp] theorem State.countDownWake_panels (s : State) : (s.countDownWake).panels = s.panels := rfl
@[simp] theorem State.countDownWake_ambient (s : State) : (s.countDownWake).ambient = s.ambient := rfl
@[simp] theorem State.countDownWake_lines (s : State) : (s.countDownWake).lines = s.lines := rfl
@[simp] theorem State.countDownWake_ports (s : State) : (s.countDownWake).ports = s.ports := rfl
@[simp] theorem State.countDownWake_capture (s : State) : (s.countDownWake).capture = s.capture := rfl
@[simp] theorem State.countDownWake_seen (s : State) : (s.countDownWake).seen = s.seen := rfl
@[simp] theorem State.countDownWake_events (s : State) : (s.countDownWake).events = s.events := rfl
@[simp] theorem State.countDownWake_loader (s : State) : (s.countDownWake).loader = s.loader := rfl
@[simp] theorem State.countDownWake_mem (s : State) : (s.countDownWake).mem = s.mem := rfl
@[simp] theorem State.countDownWake_free (s : State) : (s.countDownWake).free = s.free := rfl
@[simp] theorem State.countDownWake_pending (s : State) : (s.countDownWake).pending = s.pending := rfl

/-! ## State.putInPlace -/

@[simp] theorem State.putInPlace_params (s : State) (r : Departure) : (s.putInPlace r).params = s.params := rfl
@[simp] theorem State.putInPlace_table (s : State) (r : Departure) : (s.putInPlace r).table = s.table.map fun x => if x.code = r.code then r else x := rfl
@[simp] theorem State.putInPlace_pinCount (s : State) (r : Departure) : (s.putInPlace r).pinCount = s.pinCount := rfl
@[simp] theorem State.putInPlace_freeStops (s : State) (r : Departure) : (s.putInPlace r).freeStops = s.freeStops := rfl
@[simp] theorem State.putInPlace_places (s : State) (r : Departure) : (s.putInPlace r).places = s.places := rfl
@[simp] theorem State.putInPlace_zones (s : State) (r : Departure) : (s.putInPlace r).zones = s.zones := rfl
@[simp] theorem State.putInPlace_reservations (s : State) (r : Departure) : (s.putInPlace r).reservations = s.reservations := rfl
@[simp] theorem State.putInPlace_notices (s : State) (r : Departure) : (s.putInPlace r).notices = s.notices := rfl
@[simp] theorem State.putInPlace_postCounter (s : State) (r : Departure) : (s.putInPlace r).postCounter = s.postCounter := rfl
@[simp] theorem State.putInPlace_clock (s : State) (r : Departure) : (s.putInPlace r).clock = s.clock := rfl
@[simp] theorem State.putInPlace_timers (s : State) (r : Departure) : (s.putInPlace r).timers = s.timers := rfl
@[simp] theorem State.putInPlace_flashOn (s : State) (r : Departure) : (s.putInPlace r).flashOn = s.flashOn := rfl
@[simp] theorem State.putInPlace_faces (s : State) (r : Departure) : (s.putInPlace r).faces = s.faces := rfl
@[simp] theorem State.putInPlace_painter (s : State) (r : Departure) : (s.putInPlace r).painter = s.painter := rfl
@[simp] theorem State.putInPlace_panels (s : State) (r : Departure) : (s.putInPlace r).panels = s.panels := rfl
@[simp] theorem State.putInPlace_ambient (s : State) (r : Departure) : (s.putInPlace r).ambient = s.ambient := rfl
@[simp] theorem State.putInPlace_lines (s : State) (r : Departure) : (s.putInPlace r).lines = s.lines := rfl
@[simp] theorem State.putInPlace_ports (s : State) (r : Departure) : (s.putInPlace r).ports = s.ports := rfl
@[simp] theorem State.putInPlace_capture (s : State) (r : Departure) : (s.putInPlace r).capture = s.capture := rfl
@[simp] theorem State.putInPlace_seen (s : State) (r : Departure) : (s.putInPlace r).seen = s.seen := rfl
@[simp] theorem State.putInPlace_events (s : State) (r : Departure) : (s.putInPlace r).events = s.events := rfl
@[simp] theorem State.putInPlace_loader (s : State) (r : Departure) : (s.putInPlace r).loader = s.loader := rfl
@[simp] theorem State.putInPlace_mem (s : State) (r : Departure) : (s.putInPlace r).mem = s.mem := rfl
@[simp] theorem State.putInPlace_free (s : State) (r : Departure) : (s.putInPlace r).free = s.free := rfl
@[simp] theorem State.putInPlace_pending (s : State) (r : Departure) : (s.putInPlace r).pending = s.pending := rfl

/-! ## State.sampleAmbient -/

@[simp] theorem State.sampleAmbient_params (s : State) : (s.sampleAmbient).params = s.params := rfl
@[simp] theorem State.sampleAmbient_table (s : State) : (s.sampleAmbient).table = s.table := rfl
@[simp] theorem State.sampleAmbient_pinCount (s : State) : (s.sampleAmbient).pinCount = s.pinCount := rfl
@[simp] theorem State.sampleAmbient_freeStops (s : State) : (s.sampleAmbient).freeStops = s.freeStops := rfl
@[simp] theorem State.sampleAmbient_places (s : State) : (s.sampleAmbient).places = s.places := rfl
@[simp] theorem State.sampleAmbient_zones (s : State) : (s.sampleAmbient).zones = s.zones := rfl
@[simp] theorem State.sampleAmbient_reservations (s : State) : (s.sampleAmbient).reservations = s.reservations := rfl
@[simp] theorem State.sampleAmbient_notices (s : State) : (s.sampleAmbient).notices = s.notices := rfl
@[simp] theorem State.sampleAmbient_postCounter (s : State) : (s.sampleAmbient).postCounter = s.postCounter := rfl
@[simp] theorem State.sampleAmbient_clock (s : State) : (s.sampleAmbient).clock = s.clock := rfl
@[simp] theorem State.sampleAmbient_timers (s : State) : (s.sampleAmbient).timers = s.timers := rfl
@[simp] theorem State.sampleAmbient_flashOn (s : State) : (s.sampleAmbient).flashOn = s.flashOn := rfl
@[simp] theorem State.sampleAmbient_faces (s : State) : (s.sampleAmbient).faces = s.faces := rfl
@[simp] theorem State.sampleAmbient_painter (s : State) : (s.sampleAmbient).painter = s.painter := rfl
@[simp] theorem State.sampleAmbient_panels (s : State) : (s.sampleAmbient).panels = s.panels := rfl
@[simp] theorem State.sampleAmbient_ambient (s : State) : (s.sampleAmbient).ambient = { s.ambient with converting := true } := rfl
@[simp] theorem State.sampleAmbient_lines (s : State) : (s.sampleAmbient).lines = s.lines := rfl
@[simp] theorem State.sampleAmbient_ports (s : State) : (s.sampleAmbient).ports = s.ports := rfl
@[simp] theorem State.sampleAmbient_capture (s : State) : (s.sampleAmbient).capture = s.capture := rfl
@[simp] theorem State.sampleAmbient_seen (s : State) : (s.sampleAmbient).seen = s.seen := rfl
@[simp] theorem State.sampleAmbient_events (s : State) : (s.sampleAmbient).events = s.events := rfl
@[simp] theorem State.sampleAmbient_loader (s : State) : (s.sampleAmbient).loader = s.loader := rfl
@[simp] theorem State.sampleAmbient_mem (s : State) : (s.sampleAmbient).mem = s.mem := rfl
@[simp] theorem State.sampleAmbient_free (s : State) : (s.sampleAmbient).free = s.free := rfl
@[simp] theorem State.sampleAmbient_pending (s : State) : (s.sampleAmbient).pending = s.pending := rfl

/-! ## State.recomputeDuties -/

@[simp] theorem State.recomputeDuties_params (s : State) (f : Face) : (s.recomputeDuties f).params = s.params := rfl
@[simp] theorem State.recomputeDuties_table (s : State) (f : Face) : (s.recomputeDuties f).table = s.table := rfl
@[simp] theorem State.recomputeDuties_pinCount (s : State) (f : Face) : (s.recomputeDuties f).pinCount = s.pinCount := rfl
@[simp] theorem State.recomputeDuties_freeStops (s : State) (f : Face) : (s.recomputeDuties f).freeStops = s.freeStops := rfl
@[simp] theorem State.recomputeDuties_places (s : State) (f : Face) : (s.recomputeDuties f).places = s.places := rfl
@[simp] theorem State.recomputeDuties_zones (s : State) (f : Face) : (s.recomputeDuties f).zones = s.zones := rfl
@[simp] theorem State.recomputeDuties_reservations (s : State) (f : Face) : (s.recomputeDuties f).reservations = s.reservations := rfl
@[simp] theorem State.recomputeDuties_notices (s : State) (f : Face) : (s.recomputeDuties f).notices = s.notices := rfl
@[simp] theorem State.recomputeDuties_postCounter (s : State) (f : Face) : (s.recomputeDuties f).postCounter = s.postCounter := rfl
@[simp] theorem State.recomputeDuties_clock (s : State) (f : Face) : (s.recomputeDuties f).clock = s.clock := rfl
@[simp] theorem State.recomputeDuties_timers (s : State) (f : Face) : (s.recomputeDuties f).timers = s.timers := rfl
@[simp] theorem State.recomputeDuties_flashOn (s : State) (f : Face) : (s.recomputeDuties f).flashOn = s.flashOn := rfl
@[simp] theorem State.recomputeDuties_faces (s : State) (f : Face) : (s.recomputeDuties f).faces = s.faces := rfl
@[simp] theorem State.recomputeDuties_painter (s : State) (f : Face) : (s.recomputeDuties f).painter = s.painter := rfl
@[simp] theorem State.recomputeDuties_panels (s : State) (f : Face) : (s.recomputeDuties f).panels = s.panels.set f ({ s.panels.get f with faceDuty := s.faceDutyOf f, duties := (s.panels.get f).trims.map (moduleDuty (s.faceDutyOf f)) }) := rfl
@[simp] theorem State.recomputeDuties_ambient (s : State) (f : Face) : (s.recomputeDuties f).ambient = s.ambient := rfl
@[simp] theorem State.recomputeDuties_lines (s : State) (f : Face) : (s.recomputeDuties f).lines = s.lines := rfl
@[simp] theorem State.recomputeDuties_ports (s : State) (f : Face) : (s.recomputeDuties f).ports = s.ports := rfl
@[simp] theorem State.recomputeDuties_capture (s : State) (f : Face) : (s.recomputeDuties f).capture = s.capture := rfl
@[simp] theorem State.recomputeDuties_seen (s : State) (f : Face) : (s.recomputeDuties f).seen = s.seen := rfl
@[simp] theorem State.recomputeDuties_events (s : State) (f : Face) : (s.recomputeDuties f).events = s.events := rfl
@[simp] theorem State.recomputeDuties_loader (s : State) (f : Face) : (s.recomputeDuties f).loader = s.loader := rfl
@[simp] theorem State.recomputeDuties_mem (s : State) (f : Face) : (s.recomputeDuties f).mem = s.mem := rfl
@[simp] theorem State.recomputeDuties_free (s : State) (f : Face) : (s.recomputeDuties f).free = s.free := rfl
@[simp] theorem State.recomputeDuties_pending (s : State) (f : Face) : (s.recomputeDuties f).pending = s.pending := rfl

/-! ## State.appendNotice -/

@[simp] theorem State.appendNotice_params (s : State) (n : Notice) : (s.appendNotice n).params = s.params := rfl
@[simp] theorem State.appendNotice_table (s : State) (n : Notice) : (s.appendNotice n).table = s.table := rfl
@[simp] theorem State.appendNotice_pinCount (s : State) (n : Notice) : (s.appendNotice n).pinCount = s.pinCount := rfl
@[simp] theorem State.appendNotice_freeStops (s : State) (n : Notice) : (s.appendNotice n).freeStops = s.freeStops := rfl
@[simp] theorem State.appendNotice_places (s : State) (n : Notice) : (s.appendNotice n).places = s.places := rfl
@[simp] theorem State.appendNotice_zones (s : State) (n : Notice) : (s.appendNotice n).zones = s.zones := rfl
@[simp] theorem State.appendNotice_reservations (s : State) (n : Notice) : (s.appendNotice n).reservations = s.reservations := rfl
@[simp] theorem State.appendNotice_notices (s : State) (n : Notice) : (s.appendNotice n).notices = s.notices ++ [n] := rfl
@[simp] theorem State.appendNotice_postCounter (s : State) (n : Notice) : (s.appendNotice n).postCounter = s.postCounter + 1 := rfl
@[simp] theorem State.appendNotice_clock (s : State) (n : Notice) : (s.appendNotice n).clock = s.clock := rfl
@[simp] theorem State.appendNotice_timers (s : State) (n : Notice) : (s.appendNotice n).timers = s.timers := rfl
@[simp] theorem State.appendNotice_flashOn (s : State) (n : Notice) : (s.appendNotice n).flashOn = s.flashOn := rfl
@[simp] theorem State.appendNotice_faces (s : State) (n : Notice) : (s.appendNotice n).faces = s.faces := rfl
@[simp] theorem State.appendNotice_painter (s : State) (n : Notice) : (s.appendNotice n).painter = s.painter := rfl
@[simp] theorem State.appendNotice_panels (s : State) (n : Notice) : (s.appendNotice n).panels = s.panels := rfl
@[simp] theorem State.appendNotice_ambient (s : State) (n : Notice) : (s.appendNotice n).ambient = s.ambient := rfl
@[simp] theorem State.appendNotice_lines (s : State) (n : Notice) : (s.appendNotice n).lines = s.lines := rfl
@[simp] theorem State.appendNotice_ports (s : State) (n : Notice) : (s.appendNotice n).ports = s.ports := rfl
@[simp] theorem State.appendNotice_capture (s : State) (n : Notice) : (s.appendNotice n).capture = s.capture := rfl
@[simp] theorem State.appendNotice_seen (s : State) (n : Notice) : (s.appendNotice n).seen = s.seen := rfl
@[simp] theorem State.appendNotice_events (s : State) (n : Notice) : (s.appendNotice n).events = s.events := rfl
@[simp] theorem State.appendNotice_loader (s : State) (n : Notice) : (s.appendNotice n).loader = s.loader := rfl
@[simp] theorem State.appendNotice_mem (s : State) (n : Notice) : (s.appendNotice n).mem = s.mem := rfl
@[simp] theorem State.appendNotice_free (s : State) (n : Notice) : (s.appendNotice n).free = s.free := rfl
@[simp] theorem State.appendNotice_pending (s : State) (n : Notice) : (s.appendNotice n).pending = s.pending := rfl

/-! ## State.dropNotice -/

@[simp] theorem State.dropNotice_params (s : State) (id : Nat) : (s.dropNotice id).params = s.params := rfl
@[simp] theorem State.dropNotice_table (s : State) (id : Nat) : (s.dropNotice id).table = s.table := rfl
@[simp] theorem State.dropNotice_pinCount (s : State) (id : Nat) : (s.dropNotice id).pinCount = s.pinCount := rfl
@[simp] theorem State.dropNotice_freeStops (s : State) (id : Nat) : (s.dropNotice id).freeStops = s.freeStops := rfl
@[simp] theorem State.dropNotice_places (s : State) (id : Nat) : (s.dropNotice id).places = s.places := rfl
@[simp] theorem State.dropNotice_zones (s : State) (id : Nat) : (s.dropNotice id).zones = s.zones := rfl
@[simp] theorem State.dropNotice_reservations (s : State) (id : Nat) : (s.dropNotice id).reservations = s.reservations := rfl
@[simp] theorem State.dropNotice_notices (s : State) (id : Nat) : (s.dropNotice id).notices = s.notices.filter fun n => n.id != id := rfl
@[simp] theorem State.dropNotice_postCounter (s : State) (id : Nat) : (s.dropNotice id).postCounter = s.postCounter := rfl
@[simp] theorem State.dropNotice_clock (s : State) (id : Nat) : (s.dropNotice id).clock = s.clock := rfl
@[simp] theorem State.dropNotice_timers (s : State) (id : Nat) : (s.dropNotice id).timers = s.timers := rfl
@[simp] theorem State.dropNotice_flashOn (s : State) (id : Nat) : (s.dropNotice id).flashOn = s.flashOn := rfl
@[simp] theorem State.dropNotice_faces (s : State) (id : Nat) : (s.dropNotice id).faces = s.faces := rfl
@[simp] theorem State.dropNotice_painter (s : State) (id : Nat) : (s.dropNotice id).painter = s.painter := rfl
@[simp] theorem State.dropNotice_panels (s : State) (id : Nat) : (s.dropNotice id).panels = s.panels := rfl
@[simp] theorem State.dropNotice_ambient (s : State) (id : Nat) : (s.dropNotice id).ambient = s.ambient := rfl
@[simp] theorem State.dropNotice_lines (s : State) (id : Nat) : (s.dropNotice id).lines = s.lines := rfl
@[simp] theorem State.dropNotice_ports (s : State) (id : Nat) : (s.dropNotice id).ports = s.ports := rfl
@[simp] theorem State.dropNotice_capture (s : State) (id : Nat) : (s.dropNotice id).capture = s.capture := rfl
@[simp] theorem State.dropNotice_seen (s : State) (id : Nat) : (s.dropNotice id).seen = s.seen := rfl
@[simp] theorem State.dropNotice_events (s : State) (id : Nat) : (s.dropNotice id).events = s.events := rfl
@[simp] theorem State.dropNotice_loader (s : State) (id : Nat) : (s.dropNotice id).loader = s.loader := rfl
@[simp] theorem State.dropNotice_mem (s : State) (id : Nat) : (s.dropNotice id).mem = s.mem := rfl
@[simp] theorem State.dropNotice_free (s : State) (id : Nat) : (s.dropNotice id).free = s.free := rfl
@[simp] theorem State.dropNotice_pending (s : State) (id : Nat) : (s.dropNotice id).pending = s.pending := rfl

/-! ## State.endStore -/

@[simp] theorem State.endStore_params (s : State) (image : List Byte) : (s.endStore image).params = s.params := rfl
@[simp] theorem State.endStore_table (s : State) (image : List Byte) : (s.endStore image).table = s.table := rfl
@[simp] theorem State.endStore_pinCount (s : State) (image : List Byte) : (s.endStore image).pinCount = s.pinCount := rfl
@[simp] theorem State.endStore_freeStops (s : State) (image : List Byte) : (s.endStore image).freeStops = s.freeStops := rfl
@[simp] theorem State.endStore_places (s : State) (image : List Byte) : (s.endStore image).places = s.places := rfl
@[simp] theorem State.endStore_zones (s : State) (image : List Byte) : (s.endStore image).zones = s.zones := rfl
@[simp] theorem State.endStore_reservations (s : State) (image : List Byte) : (s.endStore image).reservations = s.reservations := rfl
@[simp] theorem State.endStore_notices (s : State) (image : List Byte) : (s.endStore image).notices = s.notices := rfl
@[simp] theorem State.endStore_postCounter (s : State) (image : List Byte) : (s.endStore image).postCounter = s.postCounter := rfl
@[simp] theorem State.endStore_clock (s : State) (image : List Byte) : (s.endStore image).clock = s.clock := rfl
@[simp] theorem State.endStore_timers (s : State) (image : List Byte) : (s.endStore image).timers = s.timers := rfl
@[simp] theorem State.endStore_flashOn (s : State) (image : List Byte) : (s.endStore image).flashOn = s.flashOn := rfl
@[simp] theorem State.endStore_faces (s : State) (image : List Byte) : (s.endStore image).faces = s.faces := rfl
@[simp] theorem State.endStore_painter (s : State) (image : List Byte) : (s.endStore image).painter = s.painter := rfl
@[simp] theorem State.endStore_panels (s : State) (image : List Byte) : (s.endStore image).panels = s.panels := rfl
@[simp] theorem State.endStore_ambient (s : State) (image : List Byte) : (s.endStore image).ambient = s.ambient := rfl
@[simp] theorem State.endStore_lines (s : State) (image : List Byte) : (s.endStore image).lines = s.lines := rfl
@[simp] theorem State.endStore_ports (s : State) (image : List Byte) : (s.endStore image).ports = s.ports := rfl
@[simp] theorem State.endStore_capture (s : State) (image : List Byte) : (s.endStore image).capture = s.capture := rfl
@[simp] theorem State.endStore_seen (s : State) (image : List Byte) : (s.endStore image).seen = s.seen := rfl
@[simp] theorem State.endStore_events (s : State) (image : List Byte) : (s.endStore image).events = s.events := rfl
@[simp] theorem State.endStore_loader (s : State) (image : List Byte) : (s.endStore image).loader = ⟨.ready, none⟩ := rfl
@[simp] theorem State.endStore_mem (s : State) (image : List Byte) : (s.endStore image).mem = s.mem.writeBlock 0 image := rfl
@[simp] theorem State.endStore_free (s : State) (image : List Byte) : (s.endStore image).free = s.free := rfl
@[simp] theorem State.endStore_pending (s : State) (image : List Byte) : (s.endStore image).pending = s.pending := rfl

/-! ## State.notePrevMinute -/

@[simp] theorem State.notePrevMinute_params (s : State) : (s.notePrevMinute).params = s.params := rfl
@[simp] theorem State.notePrevMinute_table (s : State) : (s.notePrevMinute).table = s.table := rfl
@[simp] theorem State.notePrevMinute_pinCount (s : State) : (s.notePrevMinute).pinCount = s.pinCount := rfl
@[simp] theorem State.notePrevMinute_freeStops (s : State) : (s.notePrevMinute).freeStops = s.freeStops := rfl
@[simp] theorem State.notePrevMinute_places (s : State) : (s.notePrevMinute).places = s.places := rfl
@[simp] theorem State.notePrevMinute_zones (s : State) : (s.notePrevMinute).zones = s.zones := rfl
@[simp] theorem State.notePrevMinute_reservations (s : State) : (s.notePrevMinute).reservations = s.reservations := rfl
@[simp] theorem State.notePrevMinute_notices (s : State) : (s.notePrevMinute).notices = s.notices := rfl
@[simp] theorem State.notePrevMinute_postCounter (s : State) : (s.notePrevMinute).postCounter = s.postCounter := rfl
@[simp] theorem State.notePrevMinute_clock (s : State) : (s.notePrevMinute).clock = { s.clock with prevMinute := some s.clock.minute } := rfl
@[simp] theorem State.notePrevMinute_timers (s : State) : (s.notePrevMinute).timers = s.timers := rfl
@[simp] theorem State.notePrevMinute_flashOn (s : State) : (s.notePrevMinute).flashOn = s.flashOn := rfl
@[simp] theorem State.notePrevMinute_faces (s : State) : (s.notePrevMinute).faces = s.faces := rfl
@[simp] theorem State.notePrevMinute_painter (s : State) : (s.notePrevMinute).painter = s.painter := rfl
@[simp] theorem State.notePrevMinute_panels (s : State) : (s.notePrevMinute).panels = s.panels := rfl
@[simp] theorem State.notePrevMinute_ambient (s : State) : (s.notePrevMinute).ambient = s.ambient := rfl
@[simp] theorem State.notePrevMinute_lines (s : State) : (s.notePrevMinute).lines = s.lines := rfl
@[simp] theorem State.notePrevMinute_ports (s : State) : (s.notePrevMinute).ports = s.ports := rfl
@[simp] theorem State.notePrevMinute_capture (s : State) : (s.notePrevMinute).capture = s.capture := rfl
@[simp] theorem State.notePrevMinute_seen (s : State) : (s.notePrevMinute).seen = s.seen := rfl
@[simp] theorem State.notePrevMinute_events (s : State) : (s.notePrevMinute).events = s.events := rfl
@[simp] theorem State.notePrevMinute_loader (s : State) : (s.notePrevMinute).loader = s.loader := rfl
@[simp] theorem State.notePrevMinute_mem (s : State) : (s.notePrevMinute).mem = s.mem := rfl
@[simp] theorem State.notePrevMinute_free (s : State) : (s.notePrevMinute).free = s.free := rfl
@[simp] theorem State.notePrevMinute_pending (s : State) : (s.notePrevMinute).pending = s.pending := rfl

end Sys2Proof.Machine
end

