-- ==== Sys2Proof/Laws/Bytes.lean ====
section
/-! SUPPORT. Bytes on the wire: what a number reads back as, how the codes and blocks read what they wrote, and the check word bit by bit. -/

namespace Sys2Proof.Machine
-- one proof at a time: proofs elaborated at once would each take a thread of their own
set_option Elab.async false

theorem byte_toNat {n : Nat} (h : n < 256) : (byte n).toNat = n := by simp [byte, Nat.mod_eq_of_lt h]

theorem byte_of_toNat (b : Byte) : byte b.toNat = b := by simp [byte]

theorem nat16_be16 {n : Nat} (h : n < 65536) : nat16 (byte (n / 256)) (byte n) = n := by
  simp [nat16, byte]; omega

theorem be16_length (n : Nat) : (be16 n).length = 2 := rfl

theorem optional16_length (o : Option Nat) : (optional16 o).length = 2 := by cases o <;> rfl

theorem readYesNo_yesNo (b : Bool) : readYesNo (yesNo b) = some b := by cases b <;> rfl
theorem readStatus_code (x : Status) : readStatus (byte x.code) = some x := by cases x <;> rfl
theorem readClass_code (x : NoticeClass) : readClass (byte x.code) = some x := by cases x <;> rfl
theorem readScope_code (x : Scope) : readScope (byte x.code) = some x := by cases x <;> rfl
theorem readRole_code (x : Role) : readRole (byte x.code) = some x := by cases x <;> rfl
theorem readFaceSel_code (x : FaceSel) : readFaceSel x.code = some x := by cases x <;> rfl
theorem readFace_code (f : Face) : readFace (Face.code f) = some f := by cases f <;> rfl
theorem readPort_number (p : Port) : readPort (Port.number p) = some p := by cases p <;> rfl
theorem readBaud_code (x : Baud) : readBaud x.code = some x := by cases x <;> rfl
theorem readStale_code (x : Stale) : readStale x.code = some x := by cases x <;> rfl
theorem readUnit_code (x : TimerUnit) : readUnit x.code = some x := by cases x <;> rfl
theorem readMode_code (x : TimerMode) : readMode x.code = some x := by cases x <;> rfl
theorem readFunction_code (x : LineFunction) : readFunction x.code = some x := by cases x <;> rfl
theorem readRights_bits (r : Rights) : readRights (byte r.bits) = some r := by
  rcases r with ⟨a, b, c, d⟩; cases a <;> cases b <;> cases c <;> cases d <;> rfl
theorem readMatch_code (m : ZoneMatch) : readMatch (byte m.code) = some m := by
  cases m with
  | global => rfl
  | origin p => cases p <;> rfl
theorem readMask_bits (m : WakeMask) : readMask (byte m.bits) = some m := by
  rcases m with ⟨a, b, c⟩; cases a <;> cases b <;> cases c <;> rfl

/-- The stops of a record block read back (R172). -/
theorem readStops_bytes (stops : List Stop)
    (h : ∀ st ∈ stops, st.place < 256 ∧ ∀ m, st.time = some m → m < 65535) :
    readStops (stops.flatMap fun st => byte st.place :: optional16 st.time) = stops := by
  induction stops with
  | nil => rfl
  | cons st rest ih =>
    obtain ⟨h1, h2⟩ := h st (by simp)
    have ih := ih fun x hx => h x (by simp [hx])
    obtain ⟨pl, tm⟩ := st
    rw [List.flatMap_cons]
    cases tm with
    | none =>
      show (⟨(byte pl).toNat, readOptional16 (nat16 0xFF 0xFF)⟩ : Stop) ::
        readStops (rest.flatMap fun st => byte st.place :: optional16 st.time) = _
      rw [ih, byte_toNat h1, show nat16 0xFF 0xFF = 65535 by simp [nat16]]
      simp [readOptional16]
    | some m =>
      have hm := h2 m rfl
      show (⟨(byte pl).toNat, readOptional16 (nat16 (byte (m / 256)) (byte m))⟩ : Stop) ::
        readStops (rest.flatMap fun st => byte st.place :: optional16 st.time) = _
      rw [ih, byte_toNat h1, nat16_be16 (by omega)]
      have : readOptional16 m = some m := by unfold readOptional16; rw [if_neg (by omega)]
      rw [this]

theorem stopBytes_length (stops : List Stop) :
    (stops.flatMap fun st => byte st.place :: optional16 st.time).length = 3 * stops.length := by
  induction stops with
  | nil => rfl
  | cons st rest ih =>
    rw [List.flatMap_cons, List.length_append, ih, List.length_cons, List.length_cons, optional16_length]
    omega

/-- Writing an entry of the place list changes that entry alone. -/
theorem setPlace_place? (s : State) (n : Nat) (e : Option Place) (h : 1 ≤ n) (h2 : n ≤ 255) (m : Nat) :
    (s.setPlace n e).place? m = if m = n then e else s.place? m := by
  have hs : s.setPlace n e = { s with places := s.places.set (n - 1) e } := by
    unfold State.setPlace; rw [dif_pos ⟨h, h2⟩]
  rw [hs]
  unfold State.place?
  dsimp only
  by_cases hm : 0 < m ∧ m ≤ 255
  · rw [dif_pos hm, dif_pos hm]
    by_cases he : m = n
    · subst he; simp
    · rw [if_neg he, Vector.getElem_set_ne]
      omega
  · rw [dif_neg hm, dif_neg hm, if_neg]
    rintro rfl
    exact hm ⟨h, h2⟩

/-! ## The check word (Conventions, CRC-16) -/

/-- One bit of the check word: the register and the byte still to enter it may be added first. -/
theorem crcBit_xor (c d : HalfWord) : crcBit (c ^^^ d) = crcShift c d.msb ^^^ (d <<< 1) := by
  unfold crcBit crcShift
  rw [BitVec.msb_xor, BitVec.shiftLeft_xor_distrib]
  cases c.msb <;> cases d.msb <;> simp <;> ac_rfl

theorem crcByte_bits (c : HalfWord) (b : Byte) :
    crcByte c b = [b[7], b[6], b[5], b[4], b[3], b[2], b[1], b[0]].foldl crcShift c := by
  unfold crcByte
  simp only [crcBit_xor, List.foldl_cons, List.foldl_nil]
  have h : ∀ b : Byte, let d : HalfWord := b.setWidth 16 <<< 8
      [d.msb, (d <<< 1).msb, (d <<< 1 <<< 1).msb, (d <<< 1 <<< 1 <<< 1).msb, (d <<< 1 <<< 1 <<< 1 <<< 1).msb,
        (d <<< 1 <<< 1 <<< 1 <<< 1 <<< 1).msb, (d <<< 1 <<< 1 <<< 1 <<< 1 <<< 1 <<< 1).msb,
        (d <<< 1 <<< 1 <<< 1 <<< 1 <<< 1 <<< 1 <<< 1).msb] = [b[7], b[6], b[5], b[4], b[3], b[2], b[1], b[0]] ∧
      d <<< 1 <<< 1 <<< 1 <<< 1 <<< 1 <<< 1 <<< 1 <<< 1 = 0 := by decide +kernel
  obtain ⟨h1, h2⟩ := h b
  simp only [List.cons.injEq, and_true] at h1
  simp only [h1, h2]
  exact BitVec.xor_zero

/-- Conventions: the model's check word is that of the bits of the span. -/
theorem crcBytes_eq (span : List Byte) : crcBytes span = checkBytes span := by
  have h : ∀ (c : HalfWord), span.foldl crcByte c
      = (span.flatMap fun b => [b[7], b[6], b[5], b[4], b[3], b[2], b[1], b[0]]).foldl crcShift c := by
    induction span with
    | nil => intro c; rfl
    | cons b rest ih => intro c; rw [List.flatMap_cons, List.foldl_append, ← crcByte_bits, List.foldl_cons, ih]
  unfold crcBytes checkBytes crc16
  rw [h]

end Sys2Proof.Machine
end

