-- ==== Sys2Proof/Laws/Only.lean ====
section
/-! SUPPORT. What each shared operation can touch: one lemma for each, composed by transitivity. -/

namespace Sys2Proof.Machine
-- one proof at a time: proofs elaborated at once would each take a thread of their own
set_option Elab.async false

/-! ## The calculus -/

theorem OnlyIn.refl (ps : List Part) (s : State) : OnlyIn ps s s := by
  intro q _; cases q <;> rfl

theorem OnlyIn.at {ps : List Part} {s t : State} (h : OnlyIn ps s t) (q : Part) (hq : q ∉ ps) : q.same s t := h q hq

theorem Part.same_trans (q : Part) {s t u : State} (h : q.same s t) (k : q.same t u) : q.same s u := by
  cases q <;> exact Eq.trans k h

theorem OnlyIn.trans {ps : List Part} {s t u : State} (h : OnlyIn ps s t) (k : OnlyIn ps t u) : OnlyIn ps s u :=
  fun q hq => q.same_trans (h q hq) (k q hq)

theorem OnlyIn.mono {ps qs : List Part} {s t : State} (h : OnlyIn ps s t) (hs : ps ⊆ qs) : OnlyIn qs s t :=
  fun q hq => h q fun hp => hq (hs hp)

theorem OnlyIn.ite {ps : List Part} {s t u : State} {c : Prop} [Decidable c]
    (h : OnlyIn ps s t) (k : OnlyIn ps s u) : OnlyIn ps s (if c then t else u) := by
  split <;> assumption

theorem OnlyIn.foldl {α : Type} {ps : List Part} (g : State → α → State) (h : ∀ s x, OnlyIn ps s (g s x))
    (xs : List α) (s : State) : OnlyIn ps s (xs.foldl g s) := by
  induction xs generalizing s with
  | nil => exact OnlyIn.refl ps s
  | cons x rest ih => exact (h s x).trans (ih (g s x))

theorem OnlyIn.eachFace {ps : List Part} {s : State} {g : Face → State → State}
    (h : ∀ f t, OnlyIn ps t (g f t)) : OnlyIn ps s (s.eachFace g) := (h .a s).trans (h .b _)

/-! ## Reading a part that was left alone -/

theorem OnlyIn.params {ps : List Part} {s t : State} (h : OnlyIn ps s t) (hp : Part.params ∉ ps := by decide) : t.params = s.params := h .params hp
theorem OnlyIn.table {ps : List Part} {s t : State} (h : OnlyIn ps s t) (hp : Part.table ∉ ps := by decide) : t.table = s.table := h .table hp
theorem OnlyIn.pinCount {ps : List Part} {s t : State} (h : OnlyIn ps s t) (hp : Part.pinCount ∉ ps := by decide) : t.pinCount = s.pinCount := h .pinCount hp
theorem OnlyIn.freeStops {ps : List Part} {s t : State} (h : OnlyIn ps s t) (hp : Part.freeStops ∉ ps := by decide) : t.freeStops = s.freeStops := h .freeStops hp
theorem OnlyIn.places {ps : List Part} {s t : State} (h : OnlyIn ps s t) (hp : Part.places ∉ ps := by decide) : t.places = s.places := h .places hp
theorem OnlyIn.zones {ps : List Part} {s t : State} (h : OnlyIn ps s t) (hp : Part.zones ∉ ps := by decide) : t.zones = s.zones := h .zones hp
theorem OnlyIn.reservations {ps : List Part} {s t : State} (h : OnlyIn ps s t) (hp : Part.reservations ∉ ps := by decide) : t.reservations = s.reservations := h .reservations hp
theorem OnlyIn.notices {ps : List Part} {s t : State} (h : OnlyIn ps s t) (hp : Part.notices ∉ ps := by decide) : t.notices = s.notices := h .notices hp
theorem OnlyIn.postCounter {ps : List Part} {s t : State} (h : OnlyIn ps s t) (hp : Part.postCounter ∉ ps := by decide) : t.postCounter = s.postCounter := h .postCounter hp
theorem OnlyIn.clock {ps : List Part} {s t : State} (h : OnlyIn ps s t) (hp : Part.clock ∉ ps := by decide) : t.clock = s.clock := h .clock hp
theorem OnlyIn.timers {ps : List Part} {s t : State} (h : OnlyIn ps s t) (hp : Part.timers ∉ ps := by decide) : t.timers = s.timers := h .timers hp
theorem OnlyIn.flashOn {ps : List Part} {s t : State} (h : OnlyIn ps s t) (hp : Part.flashOn ∉ ps := by decide) : t.flashOn = s.flashOn := h .flashOn hp
theorem OnlyIn.faces {ps : List Part} {s t : State} (h : OnlyIn ps s t) (hp : Part.faces ∉ ps := by decide) : t.faces = s.faces := h .faces hp
theorem OnlyIn.painter {ps : List Part} {s t : State} (h : OnlyIn ps s t) (hp : Part.painter ∉ ps := by decide) : t.painter = s.painter := h .painter hp
theorem OnlyIn.panels {ps : List Part} {s t : State} (h : OnlyIn ps s t) (hp : Part.panels ∉ ps := by decide) : t.panels = s.panels := h .panels hp
theorem OnlyIn.ambient {ps : List Part} {s t : State} (h : OnlyIn ps s t) (hp : Part.ambient ∉ ps := by decide) : t.ambient = s.ambient := h .ambient hp
theorem OnlyIn.lines {ps : List Part} {s t : State} (h : OnlyIn ps s t) (hp : Part.lines ∉ ps := by decide) : t.lines = s.lines := h .lines hp
theorem OnlyIn.ports {ps : List Part} {s t : State} (h : OnlyIn ps s t) (hp : Part.ports ∉ ps := by decide) : t.ports = s.ports := h .ports hp
theorem OnlyIn.capture {ps : List Part} {s t : State} (h : OnlyIn ps s t) (hp : Part.capture ∉ ps := by decide) : t.capture = s.capture := h .capture hp
theorem OnlyIn.seen {ps : List Part} {s t : State} (h : OnlyIn ps s t) (hp : Part.seen ∉ ps := by decide) : t.seen = s.seen := h .seen hp
theorem OnlyIn.events {ps : List Part} {s t : State} (h : OnlyIn ps s t) (hp : Part.events ∉ ps := by decide) : t.events = s.events := h .events hp
theorem OnlyIn.loader {ps : List Part} {s t : State} (h : OnlyIn ps s t) (hp : Part.loader ∉ ps := by decide) : t.loader = s.loader := h .loader hp
theorem OnlyIn.mem {ps : List Part} {s t : State} (h : OnlyIn ps s t) (hp : Part.mem ∉ ps := by decide) : t.mem = s.mem := h .mem hp
theorem OnlyIn.free {ps : List Part} {s t : State} (h : OnlyIn ps s t) (hp : Part.free ∉ ps := by decide) : t.free = s.free := h .free hp
theorem OnlyIn.pending {ps : List Part} {s t : State} (h : OnlyIn ps s t) (hp : Part.pending ∉ ps := by decide) : t.pending = s.pending := h .pending hp

/-! ## Leaves -/

theorem modFace_only (s : State) (f : Face) (g : Composer → Composer) : OnlyIn [.faces] s (s.modFace f g) := by
  intro q hq; cases q <;> first | rfl | exact absurd (by decide) hq

theorem modPanel_only (s : State) (f : Face) (g : Panel → Panel) : OnlyIn [.panels] s (s.modPanel f g) := by
  intro q hq; cases q <;> first | rfl | exact absurd (by decide) hq

theorem modPort_only (s : State) (p : Port) (g : LinkPort → LinkPort) : OnlyIn [.ports] s (s.modPort p g) := by
  intro q hq; cases q <;> first | rfl | exact absurd (by decide) hq

theorem modLine_only (s : State) (l : Fin 4) (g : InputLine → InputLine) : OnlyIn [.lines] s (s.modLine l g) := by
  intro q hq; cases q <;> first | rfl | exact absurd (by decide) hq

theorem modTimer_only (s : State) (t : Fin 6) (g : Timer → Timer) : OnlyIn [.timers] s (s.modTimer t g) := by
  intro q hq; cases q <;> first | rfl | exact absurd (by decide) hq

theorem modEvents_only (s : State) (p : Port) (g : EventSet → EventSet) : OnlyIn [.events] s (s.modEvents p g) := by
  intro q hq; cases q <;> first | rfl | exact absurd (by decide) hq

theorem setReservation_only (s : State) (p : Port) (r : Option Nat) : OnlyIn [.reservations] s (s.setReservation p r) := by
  intro q hq; cases q <;> first | rfl | exact absurd (by decide) hq

theorem signal_only (s : State) (p : Port) (e : EventFlag) : OnlyIn [.events] s (s.signal p e) := modEvents_only _ _ _

theorem signalAll_only (s : State) (e : EventFlag) : OnlyIn [.events] s (s.signalAll e) := by
  intro q hq; cases q <;> first | rfl | exact absurd (by decide) hq

theorem raise_only (s : State) (k : FaultKind) (l : Locale) : OnlyIn [.capture, .seen, .events] s (s.raise k l) := by
  intro q hq; cases q <;> first | rfl | exact absurd (by decide) hq

theorem raiseAll_only (s : State) (k : FaultKind) (ls : List Locale) :
    OnlyIn [.capture, .seen, .events] s (s.raiseAll k ls) :=
  OnlyIn.foldl _ (fun t l => raise_only t k l) ls s

theorem loseReservation_only (s : State) (code : Nat) (o : Origin) (p : Port) :
    OnlyIn [.reservations, .events] s (s.loseReservation code o p) := by
  unfold State.loseReservation
  split
  · have h := (setReservation_only s p none).mono (qs := [.reservations, .events]) (by simp)
    dsimp only
    split
    · exact h
    · exact h.trans ((signal_only _ _ _).mono (by simp))
  · exact OnlyIn.refl _ _

theorem loseReservations_only (s : State) (code : Nat) (o : Origin) :
    OnlyIn [.reservations, .events] s (s.loseReservations code o) :=
  OnlyIn.foldl _ (fun t p => loseReservation_only t code o p) _ s

theorem setPlace_only (s : State) (n : Nat) (e : Option Place) : OnlyIn [.places] s (s.setPlace n e) := by
  unfold State.setPlace
  split
  · intro q hq; cases q <;> first | rfl | exact absurd (by decide) hq
  · exact OnlyIn.refl _ _

/-! ## Face work -/

theorem recomputeDuties_only (s : State) (f : Face) : OnlyIn [.panels] s (s.recomputeDuties f) := modPanel_only _ _ _

theorem markDirty_only (s : State) (f : Face) : OnlyIn [.faces] s (s.markDirty f) := modFace_only _ _ _

theorem markBoth_only (s : State) : OnlyIn [.faces] s s.markBoth := OnlyIn.eachFace fun f t => markDirty_only t f

theorem markTouched_only (s : State) (pls : List Nat) : OnlyIn [.faces] s (s.markTouched pls) :=
  OnlyIn.eachFace fun f t => OnlyIn.ite (markDirty_only t f) (OnlyIn.refl _ _)

theorem wake_only (s : State) (f : Face) (w : WakeSource) : OnlyIn [.faces] s (s.wake f w) := modFace_only _ _ _

theorem departureWake_only (s : State) (f : Face) : OnlyIn [.faces] s (s.departureWake f) :=
  OnlyIn.ite (wake_only s f _) (OnlyIn.refl _ _)

theorem countDownWake_only (s : State) : OnlyIn [.faces] s s.countDownWake := OnlyIn.eachFace fun f t => modFace_only t f _

theorem beginPaint_only (s : State) (j : Job) : OnlyIn [.panels, .painter, .free] s (s.beginPaint j) := by
  intro q hq; cases q <;> first | rfl | exact absurd (by decide) hq

theorem handToPainter_only (s : State) (j : Job) : OnlyIn [.panels, .painter, .free] s (s.handToPainter j) := by
  unfold State.handToPainter
  split
  · exact beginPaint_only s j
  · intro q hq; cases q <;> first | rfl | exact absurd (by decide) hq

theorem painterNext_only (s : State) : OnlyIn [.panels, .painter, .free] s s.painterNext := by
  unfold State.painterNext
  split <;> intro q hq <;> cases q <;> first | rfl | exact absurd (by decide) hq

theorem dropJobs_only (s : State) (f : Face) : OnlyIn [.panels, .painter, .free] s (s.dropJobs f) := by
  unfold State.dropJobs
  have h : OnlyIn [.panels, .painter, .free] s
      { s with painter := { s.painter with waiting := s.painter.waiting.filter fun j => j.face ≠ f } } := by
    intro q hq; cases q <;> first | rfl | exact absurd (by decide) hq
  dsimp only
  split
  · split
    · exact h.trans (painterNext_only _)
    · exact h
  · exact h

theorem abandonRebuild_only (s : State) (f : Face) : OnlyIn faceParts s (s.abandonRebuild f) :=
  ((modFace_only s f _).mono (by decide)).trans ((dropJobs_only _ f).mono (by decide))

theorem enterDark_only (s : State) (f : Face) : OnlyIn faceParts s (s.enterDark f) :=
  (abandonRebuild_only s f).trans ((modPanel_only _ f _).mono (by decide))

theorem leaveDark_only (s : State) (f : Face) : OnlyIn faceParts s (s.leaveDark f) :=
  ((modFace_only s f _).mono (by decide)).trans ((modPanel_only _ f _).mono (by decide))

theorem stateEffects_only (s : State) (f : Face) (old : EffState) : OnlyIn faceParts s (s.stateEffects f old) := by
  unfold State.stateEffects
  split
  · exact enterDark_only s f
  · exact leaveDark_only s f
  · exact (modFace_only s f _).mono (by decide)
  · exact (modFace_only s f _).mono (by decide)
  · exact OnlyIn.refl _ _

theorem settle_only (s : State) (f : Face) : OnlyIn faceParts s (s.settle f) := by
  unfold State.settle
  dsimp only
  split
  · exact OnlyIn.refl _ _
  · exact (((modFace_only s f _).mono (by decide)).trans (stateEffects_only _ f _)).trans
      ((recomputeDuties_only _ f).mono (by decide))

theorem touch_only (s : State) (pls : List Nat) : OnlyIn faceParts s (s.touch pls) := by
  refine OnlyIn.trans (t := s.eachFace fun f t => if t.bound f pls then (t.markDirty f).departureWake f else t) ?_ ?_
  · exact OnlyIn.eachFace fun f t => OnlyIn.ite
      (((markDirty_only t f).trans (departureWake_only _ f)).mono (by decide)) (OnlyIn.refl _ _)
  · exact OnlyIn.eachFace fun f t => OnlyIn.ite (settle_only t f) (OnlyIn.refl _ _)

theorem wakePart_only (s : State) : OnlyIn faceParts s s.wakePart := by
  refine OnlyIn.trans (t := s.countDownWake.eachFace fun f t => t.departureWake f) ?_ ?_
  · exact ((countDownWake_only s).mono (by decide)).trans
      (OnlyIn.eachFace fun f t => (departureWake_only t f).mono (by decide))
  · exact OnlyIn.eachFace fun f t => settle_only t f

theorem settleSelected_only (s : State) (sel : FaceSel) : OnlyIn faceParts s (s.settleSelected sel) :=
  OnlyIn.eachFace fun f t => OnlyIn.ite (settle_only t f) (OnlyIn.refl _ _)

theorem wakeEdge_only (s : State) (sel : FaceSel) : OnlyIn faceParts s (s.wakeEdge sel) :=
  OnlyIn.trans (OnlyIn.eachFace fun f t => OnlyIn.ite ((wake_only t f _).mono (by decide)) (OnlyIn.refl _ _))
    (settleSelected_only _ sel)

theorem markClockLines_only (s : State) : OnlyIn [.faces] s s.markClockLines :=
  OnlyIn.eachFace fun f t => OnlyIn.ite (markDirty_only t f) (OnlyIn.refl _ _)

theorem setFaceSettings_only (s : State) (f : Face) (new : FaceSettings) : OnlyIn faceParts s (s.setFaceSettings f new) :=
  ((((modFace_only s f _).trans (departureWake_only _ f)).mono (by decide)).trans (settle_only _ f)).trans
    ((markDirty_only _ f).mono (by decide))

/-! ## The departure table -/

theorem putInPlace_only (s : State) (r : Departure) : OnlyIn [.table] s (s.putInPlace r) := by
  intro q hq; cases q <;> first | rfl | exact absurd (by decide) hq

theorem changeRecord_only (s : State) (old new : Departure) (o : Origin) :
    OnlyIn (.table :: .reservations :: .events :: faceParts) s (s.changeRecord old new o) :=
  (((putInPlace_only s _).mono (by decide)).trans ((loseReservations_only _ _ _).mono (by decide))).trans
    ((touch_only _ _).mono (by decide))

theorem takeOut_only (s : State) (r : Departure) (o : Origin) :
    OnlyIn [.table, .freeStops, .pinCount, .reservations, .events] s (s.takeOut r o) := by
  refine OnlyIn.trans ?_ ((loseReservations_only _ _ _).mono (by decide))
  intro q hq; cases q <;> first | rfl | exact absurd (by decide) hq

/-- The parts that a change of the departure table may touch. -/
def tableParts : List Part := [.table, .freeStops, .pinCount, .reservations, .events] ++ faceParts

theorem removeRecord_only (s : State) (r : Departure) (o : Origin) : OnlyIn tableParts s (s.removeRecord r o) :=
  ((takeOut_only s r o).mono (by decide)).trans ((touch_only _ _).mono (by decide))

theorem takeOutAll_only (s : State) (gone : List Departure) :
    OnlyIn [.table, .freeStops, .pinCount, .reservations, .events, .faces] s (s.takeOutAll gone) :=
  OnlyIn.foldl _ (fun t r => ((takeOut_only t r .loc).mono (by decide)).trans ((markTouched_only _ _).mono (by decide))) _ s

theorem insertDeparture_only (s : State) (r : Departure) : OnlyIn tableParts s (s.insertDeparture r) := by
  refine OnlyIn.trans ?_ ((touch_only _ _).mono (by decide))
  intro q hq; cases q <;> first | rfl | exact absurd (by decide) hq

theorem replaceDeparture_only (s : State) (old new : Departure) (o : Origin) :
    OnlyIn tableParts s (s.replaceDeparture old new o) := by
  refine OnlyIn.trans (OnlyIn.trans ?_ ((loseReservations_only _ _ _).mono (by decide))) ((touch_only _ _).mono (by decide))
  intro q hq; cases q <;> first | rfl | exact absurd (by decide) hq

theorem amendRecord_only (s : State) (q : AmendRequest) (r : Departure) (p : Port) :
    OnlyIn tableParts s (s.amendRecord q r p) := by
  have h : OnlyIn tableParts s (if q.applied r = r then s else s.changeRecord r (q.applied r) (.port p)) :=
    OnlyIn.ite (OnlyIn.refl _ _) ((changeRecord_only _ _ _ _).mono (by decide))
  unfold State.amendRecord
  split
  · exact removeRecord_only _ _ _
  · exact h
  · exact h

/-- The parts that a change of a record in place may touch. -/
def changeParts : List Part := [.table, .reservations, .events] ++ faceParts

theorem approach_only (s : State) (code : Nat) : OnlyIn changeParts s (s.approach code) := by
  unfold State.approach
  split
  · exact OnlyIn.ite (OnlyIn.refl _ _) ((changeRecord_only _ _ _ _).mono (by decide))
  · exact OnlyIn.refl _ _

theorem approachEdge_only (s : State) (sel : FaceSel) : OnlyIn changeParts s (s.approachEdge sel) := by
  unfold State.approachEdge
  split
  · exact OnlyIn.ite (approach_only _ _) ((approach_only _ _).trans (approach_only _ _))
  · exact approach_only _ _
  · exact approach_only _ _
  · exact OnlyIn.refl _ _

/-! ## Notices -/

theorem markTargets_only (s : State) (ts : List FaceSel) : OnlyIn [.faces] s (s.markTargets ts) :=
  OnlyIn.eachFace fun f t => OnlyIn.ite (markDirty_only t f) (OnlyIn.refl _ _)

theorem wakeForNotice_only (s : State) (c : NoticeClass) (t : FaceSel) : OnlyIn faceParts s (s.wakeForNotice c t) := by
  unfold State.wakeForNotice
  split
  · exact OnlyIn.refl _ _
  · exact OnlyIn.trans
      (OnlyIn.eachFace fun f u => OnlyIn.ite ((wake_only u f _).mono (by decide)) (OnlyIn.refl _ _))
      (OnlyIn.eachFace fun f u => OnlyIn.ite (settle_only u f) (OnlyIn.refl _ _))

theorem handOnPost_only (s : State) (old : List FaceSel) (n : Notice) : OnlyIn faceParts s (s.handOnPost old n) :=
  ((markTargets_only s _).mono (by decide)).trans (wakeForNotice_only _ _ _)

theorem appendNotice_only (s : State) (n : Notice) : OnlyIn [.notices, .postCounter] s (s.appendNotice n) := by
  intro q hq; cases q <;> first | rfl | exact absurd (by decide) hq

theorem dropNotice_only (s : State) (id : Nat) : OnlyIn [.notices] s (s.dropNotice id) := by
  intro q hq; cases q <;> first | rfl | exact absurd (by decide) hq

/-- The parts that a change of the notice store may touch. -/
def noticeParts : List Part := [.notices, .postCounter, .events] ++ faceParts

theorem replaceNotice_only (s : State) (old new : Notice) : OnlyIn noticeParts s (s.replaceNotice old new) := by
  refine OnlyIn.trans ?_ ((handOnPost_only _ _ _).mono (by decide))
  intro q hq; cases q <;> first | rfl | exact absurd (by decide) hq

theorem postNew_only (s : State) (n : Notice) : OnlyIn noticeParts s (s.postNew n) :=
  ((appendNotice_only s n).mono (by decide)).trans ((handOnPost_only _ _ _).mono (by decide))

theorem postDisplacing_only (s : State) (gone n : Notice) : OnlyIn noticeParts s (s.postDisplacing gone n) :=
  ((((dropNotice_only s _).mono (by decide)).trans ((signal_only _ _ _).mono (by decide))).trans
    ((appendNotice_only _ n).mono (by decide))).trans ((handOnPost_only _ _ _).mono (by decide))

theorem post_only (s : State) (q : NoticeRequest) (p : Port) : OnlyIn noticeParts s (s.post q p).1 := by
  unfold State.post
  split
  · exact replaceNotice_only _ _ _
  · dsimp only
    split
    · exact postNew_only _ _
    · split
      · exact postDisplacing_only _ _ _
      · exact OnlyIn.refl _ _

theorem countNotices_only (s : State) : OnlyIn [.notices, .events, .faces] s s.countNotices := by
  unfold State.countNotices
  dsimp only
  refine OnlyIn.trans (OnlyIn.trans ?_ (OnlyIn.foldl (ps := [.notices, .events, .faces]) _ ?_ _ _)) ((markTargets_only _ _).mono (by decide))
  · intro q hq; cases q <;> first | rfl | exact absurd (by decide) hq
  · exact fun t n => (signal_only t _ _).mono (by decide)

/-! ## The clock -/

theorem minuteEvent_only (s : State) (v : Bool) : OnlyIn (.clock :: tableParts) s (s.minuteEvent v) := by
  have h1 : OnlyIn (.clock :: tableParts) s (s.closeIfDue v) :=
    OnlyIn.ite ((takeOutAll_only _ _).mono (by decide)) (OnlyIn.refl _ _)
  have h2 : ∀ t : State, OnlyIn (.clock :: tableParts) t t.expireIfValid := fun t =>
    OnlyIn.ite ((takeOutAll_only _ _).mono (by decide)) (OnlyIn.refl _ _)
  have h3 : ∀ t : State, OnlyIn (.clock :: tableParts) t t.notePrevMinute := fun t => by
    intro q hq; cases q <;> first | rfl | exact absurd (by decide) hq
  exact (((h1.trans (h2 _)).trans ((wakePart_only _).mono (by decide))).trans
    ((markBoth_only _).mono (by decide))).trans (h3 _)

/-! ## Panels -/

theorem judgeCheck_only (s : State) (f : Face) (e : Vector (BitVec 32) 4) :
    OnlyIn [.panels, .capture, .seen, .events] s (s.judgeCheck f e) := by
  unfold State.judgeCheck
  dsimp only
  split
  · exact OnlyIn.refl _ _
  · exact ((modPanel_only s f _).mono (by decide)).trans ((raiseAll_only _ _ _).mono (by decide))

theorem chainCheck_only (s : State) (f : Face) (e : Vector (BitVec 32) 4) :
    OnlyIn [.panels, .capture, .seen, .events] s (s.chainCheck f e) := by
  unfold State.chainCheck
  split
  · exact OnlyIn.refl _ _
  · exact OnlyIn.refl _ _
  · exact (judgeCheck_only s f e).trans ((modPanel_only _ f _).mono (by decide))

theorem swapBuffers_only (s : State) (f : Face) (plan : Plan) : OnlyIn [.panels, .faces] s (s.swapBuffers f plan) :=
  OnlyIn.trans ((modPanel_only s f _).mono (by decide)) ((modFace_only _ f _).mono (by decide))

theorem swap_only (s : State) (f : Face) : OnlyIn [.panels, .faces, .events] s (s.swap f) := by
  unfold State.swap
  split
  · have h := (swapBuffers_only s f ‹Plan›).mono (qs := [.panels, .faces, .events]) (by decide)
    exact OnlyIn.ite h (h.trans ((signalAll_only _ _).mono (by decide)))
  · exact OnlyIn.refl _ _

theorem frameBoundary_only (s : State) (f : Face) (e : Vector (BitVec 32) 4) :
    OnlyIn [.panels, .faces, .capture, .seen, .events] s (s.frameBoundary f e) :=
  OnlyIn.trans (OnlyIn.trans ((chainCheck_only s f e).mono (by decide)) ((swap_only _ f).mono (by decide)))
    ((modPanel_only _ f _).mono (by decide))

/-! ## Plans -/

theorem handPlan_only (s : State) (f : Face) (plan : Plan) : OnlyIn faceParts s (s.handPlan f plan) :=
  ((modFace_only s f _).mono (by decide)).trans ((handToPainter_only _ _).mono (by decide))

theorem planFull_only (s : State) (f : Face) (n : Notice) : OnlyIn faceParts s (s.planFull f n) :=
  OnlyIn.trans (ps := faceParts) ((modFace_only s f _).mono (by decide)) (handPlan_only _ _ _)

/-- The parts that a plan may touch. -/
def planParts : List Part := .capture :: .seen :: .events :: faceParts

theorem prepareView_only (s : State) (f : Face) : OnlyIn [.faces] s (s.prepareView f) :=
  (modFace_only s f _).trans (modFace_only _ f _)

theorem planView_only (s : State) (f : Face) : OnlyIn planParts s (s.planView f) :=
  OnlyIn.trans (t := s.prepareView f) ((prepareView_only s f).mono (by decide))
    (OnlyIn.trans (t := (s.prepareView f).raiseAll .placeUndefined ((s.prepareView f).viewFaults f))
      ((raiseAll_only _ _ _).mono (by decide)) ((handPlan_only _ _ _).mono (by decide)))

theorem takePlan_only (s : State) (f : Face) : OnlyIn planParts s (s.takePlan f) := by
  unfold State.takePlan
  dsimp only
  refine OnlyIn.trans ((modFace_only s f fun c => { c with dirty := false }).mono (by decide)) ?_
  split
  · exact (planFull_only _ _ _).mono (by decide)
  · exact planView_only _ _

theorem takeCompletion_only (s : State) (f : Face) (n : Nat) :
    OnlyIn [.faces, .panels, .capture, .seen, .events] s (s.takeCompletion f n) := by
  unfold State.takeCompletion
  dsimp only
  split
  · refine OnlyIn.ite ?_ (OnlyIn.refl _ _)
    exact (((modPanel_only s f _).mono (by decide)).trans ((modFace_only _ f _).mono (by decide))).trans
      ((raiseAll_only _ _ _).mono (by decide))
  · exact OnlyIn.refl _ _

/-! ## Timers -/

theorem rotateStep_only (s : State) (f : Face) : OnlyIn [.faces] s (s.rotateStep f) := by
  unfold State.rotateStep
  dsimp only
  split
  · split <;> exact modFace_only _ _ _
  · exact OnlyIn.refl _ _

theorem toggleFlash_only (s : State) : OnlyIn [.flashOn, .faces] s s.toggleFlash := by
  refine OnlyIn.trans ?_ (OnlyIn.eachFace fun f t => (modFace_only t f _).mono (by decide))
  intro q hq; cases q <;> first | rfl | exact absurd (by decide) hq

theorem handExpiry_only (s : State) (t : Fin 6) : OnlyIn [.faces, .flashOn, .ambient] s (s.handExpiry t) := by
  have h : ∀ f (g : Composer → Composer), OnlyIn [.faces, .flashOn, .ambient] s (s.modFace f g) :=
    fun f g => (modFace_only s f g).mono (by decide)
  have h2 : OnlyIn [.faces, .flashOn, .ambient] s (s.eachFace fun f u => u.rotateStep f) :=
    OnlyIn.eachFace fun f u => (rotateStep_only u f).mono (by decide)
  have h3 : OnlyIn [.faces, .flashOn, .ambient] s (s.eachFace fun f u => u.bottomStep f) :=
    OnlyIn.eachFace fun f u => (modFace_only u f _).mono (by decide)
  have h5 : OnlyIn [.faces, .flashOn, .ambient] s s.sampleAmbient := by
    intro q hq; cases q <;> first | rfl | exact absurd (by decide) hq
  unfold State.handExpiry
  split
  · exact h _ _
  · exact h _ _
  · exact h2
  · exact h3
  · exact (toggleFlash_only s).mono (by decide)
  · exact h5

/-! ## Input lines -/

/-- The parts that a counted change of an input line may touch. -/
def lineParts : List Part := .lines :: tableParts

theorem handLineOn_only (s : State) (l : Fin 4) (before : InputLine) : OnlyIn tableParts s (s.handLineOn l before) := by
  unfold State.handLineOn
  dsimp only
  split
  · exact OnlyIn.refl _ _
  · exact OnlyIn.ite (OnlyIn.refl _ _) ((settleSelected_only _ _).mono (by decide))
  · exact OnlyIn.ite (OnlyIn.refl _ _) ((settleSelected_only _ _).mono (by decide))
  · exact OnlyIn.ite ((approachEdge_only _ _).mono (by decide)) (OnlyIn.refl _ _)
  · exact OnlyIn.ite ((wakeEdge_only _ _).mono (by decide)) (OnlyIn.refl _ _)

theorem countChange_only (s : State) (l : Fin 4) : OnlyIn lineParts s (s.countChange l) :=
  ((modLine_only s l _).mono (by decide)).trans ((handLineOn_only _ l _).mono (by decide))

/-! ## Parameters -/

/-- The parts that a write of a parameter may touch, before its further effects. -/
def paramParts : List Part := [.params, .table, .timers, .ambient, .panels, .ports, .lines]

theorem writeParam_only (s : State) (q : Param) (value : List Byte) : OnlyIn paramParts s (s.writeParam q value) := by
  unfold State.writeParam
  dsimp only
  split
  all_goals first
    | exact (modTimer_only s _ _).mono (by decide)
    | exact (modPanel_only s _ _).mono (by decide)
    | exact (modPort_only s _ _).mono (by decide)
    | (split
       · exact (modLine_only s _ _).mono (by decide)
       · exact OnlyIn.refl _ _)
    | (intro q hq; cases q <;> first | rfl | exact absurd (by decide) hq)

theorem writeParams_only (s : State) (vs : List (Param × List Byte)) : OnlyIn paramParts s (s.writeParams vs) :=
  OnlyIn.foldl (fun t (x : Param × List Byte) => t.writeParam x.1 x.2) (fun t x => writeParam_only t x.1 x.2) vs s

theorem paramEffects_only (s before : State) (q : Param) : OnlyIn faceParts s (s.paramEffects before q) := by
  have hb : OnlyIn faceParts s s.markBoth := (markBoth_only s).mono (by decide)
  have hr : ∀ f, OnlyIn faceParts s (s.recomputeDuties f) := fun f => (recomputeDuties_only s f).mono (by decide)
  unfold State.paramEffects
  split
  all_goals first
    | exact OnlyIn.refl _ _
    | exact hb
    | exact hr _
    | exact (touch_only _ _).trans ((markBoth_only _).mono (by decide))
    | exact OnlyIn.eachFace fun f t => (recomputeDuties_only t f).mono (by decide)
    | exact OnlyIn.eachFace fun f t => OnlyIn.ite (settle_only t f) (OnlyIn.refl _ _)

theorem wakeUpFace_only (s : State) (f : Face) : OnlyIn faceParts s (s.wakeUpFace f) := by
  unfold State.wakeUpFace
  dsimp only
  refine OnlyIn.trans (OnlyIn.trans ((modFace_only s f _).mono (by decide)) (OnlyIn.ite (OnlyIn.refl _ _) ?_))
    ((recomputeDuties_only _ f).mono (by decide))
  exact (modPanel_only _ f _).mono (by decide)

/-! ## Link ports and the loader -/

theorem acceptFrame_only (s : State) (p : Port) : OnlyIn [.ports, .faces] s (s.acceptFrame p) := by
  unfold State.acceptFrame
  dsimp only
  refine OnlyIn.ite ?_ ((modPort_only s p _).mono (by decide))
  exact ((modPort_only s p _).mono (by decide)).trans ((markBoth_only _).mono (by decide))

theorem sendReply_only (s : State) (p : Port) (kind tag : Byte) (r : Reply) :
    OnlyIn [.ports] s (s.sendReply p kind tag r) := modPort_only _ _ _

theorem crcFail_only (s : State) (p : Port) : OnlyIn [.ports, .capture, .seen, .events] s (s.crcFail p) :=
  ((modPort_only s p _).mono (by decide)).trans ((raise_only _ _ _).mono (by decide))

/-- Serving a request touches what taking it touches, its port, and the faces when the port was SILENT. -/
theorem serveWith_only {ps : List Part} (p : Port) (kind tag : Byte) (h : State → State)
    (hh : ∀ t, OnlyIn ps t (h t)) (s : State) : OnlyIn (.ports :: .faces :: ps) s (s.serveWith p kind tag h) := by
  have hs : [Part.ports] ⊆ (.ports :: .faces :: ps) := by simp
  unfold State.serveWith
  split
  · dsimp only
    have ha : OnlyIn (.ports :: .faces :: ps) s (s.acceptFrame p) := (acceptFrame_only s p).mono (by simp)
    split
    · exact ha.trans ((sendReply_only _ _ _ _ _).mono hs)
    · exact ha.trans ((hh _).mono fun q hq => by simp [hq])
  · exact OnlyIn.refl _ _

theorem serve_only {ps : List Part} (p : Port) (kind tag : Byte) (take : State → State × Reply)
    (hh : ∀ t, OnlyIn ps t (take t).1) (s : State) : OnlyIn (.ports :: .faces :: ps) s (s.serve p kind tag take) := by
  refine OnlyIn.mono (ps := .ports :: .faces :: .ports :: ps) (serveWith_only p kind tag _ ?_ s) ?_
  · intro t
    exact ((hh t).mono fun q hq => by simp [hq]).trans ((sendReply_only _ _ _ _ _).mono (by simp))
  · intro q hq
    simp only [List.mem_cons] at hq ⊢
    tauto

/-! ## The take functions -/

theorem withOperands_only {α : Type} {ps : List Part} (x : Parsed α) (s : State) (k : α → State × Reply)
    (h : ∀ a, OnlyIn ps s (k a).1) : OnlyIn ps s (withOperands x s k).1 := by
  unfold withOperands
  split
  · exact OnlyIn.refl _ _
  · exact h _

theorem withRights_only {ps : List Part} (p : Port) (right : Right) (pls : List Nat) (s : State) (k : State × Reply)
    (h : OnlyIn ps s k.1) : OnlyIn ps s (withRights p right pls s k).1 := by
  unfold withRights
  split
  · exact OnlyIn.refl _ _
  · exact h

end Sys2Proof.Machine
end

