-- ==== Sys2Proof/Laws/Link.lean ====
section
/-! SUPPORT. What serving a request does: the frame accepted, the reply sent, and the steps of the check order. -/

namespace Sys2Proof.Machine
-- one proof at a time: proofs elaborated at once would each take a thread of their own
set_option Elab.async false

/-! ## Accepting a frame -/

/-- The port that has accepted a frame. -/
def LinkPort.accepted (port : LinkPort) : LinkPort :=
  { port with state := .execute, len := none, data := [], gap := 0, count := 0, silent := false }

theorem acceptFrame_ports (s : State) (p : Port) :
    (s.acceptFrame p).ports = s.ports.set p (s.ports.get p).accepted := by
  unfold State.acceptFrame
  dsimp only
  split
  · rw [State.markBoth_ports]; rfl
  · rfl

theorem acceptFrame_faces (s : State) (p : Port) :
    (s.acceptFrame p).faces = if (s.ports.get p).silent then s.markBoth.faces else s.faces := by
  unfold State.acceptFrame
  by_cases h : (s.ports.get p).silent = true
  · rw [if_pos h, if_pos h]; rfl
  · rw [if_neg h, if_neg h]; rfl

/-- R169, R170: a composer once a frame is accepted. -/
theorem acceptFrame_face (s : State) (p : Port) (f : Face) : (s.acceptFrame p).faces.get f =
    { s.faces.get f with dirty := (s.faces.get f).dirty || (s.ports.get p).silent } := by
  rw [acceptFrame_faces]
  cases h : (s.ports.get p).silent
  · rw [if_neg (by simp)]; simp
  · rw [if_pos rfl]; cases f <;> simp [State.markBoth, State.eachFace, State.markDirty, State.modFace, PerFace.get, PerFace.set]

theorem acceptFrame_same (s : State) (p : Port) (q : Part) (h : q ∉ [Part.ports, .faces] := by decide) :
    q.same s (s.acceptFrame p) := acceptFrame_only s p q h

@[simp] theorem acceptFrame_loader (s : State) (p : Port) : (s.acceptFrame p).loader = s.loader := acceptFrame_same s p .loader
@[simp] theorem acceptFrame_zones (s : State) (p : Port) : (s.acceptFrame p).zones = s.zones := acceptFrame_same s p .zones
@[simp] theorem acceptFrame_table (s : State) (p : Port) : (s.acceptFrame p).table = s.table := acceptFrame_same s p .table
@[simp] theorem acceptFrame_params (s : State) (p : Port) : (s.acceptFrame p).params = s.params := acceptFrame_same s p .params
@[simp] theorem acceptFrame_pinCount (s : State) (p : Port) : (s.acceptFrame p).pinCount = s.pinCount := acceptFrame_same s p .pinCount
@[simp] theorem acceptFrame_freeStops (s : State) (p : Port) : (s.acceptFrame p).freeStops = s.freeStops := acceptFrame_same s p .freeStops
@[simp] theorem acceptFrame_places (s : State) (p : Port) : (s.acceptFrame p).places = s.places := acceptFrame_same s p .places
@[simp] theorem acceptFrame_reservations (s : State) (p : Port) : (s.acceptFrame p).reservations = s.reservations := acceptFrame_same s p .reservations
@[simp] theorem acceptFrame_notices (s : State) (p : Port) : (s.acceptFrame p).notices = s.notices := acceptFrame_same s p .notices
@[simp] theorem acceptFrame_postCounter (s : State) (p : Port) : (s.acceptFrame p).postCounter = s.postCounter := acceptFrame_same s p .postCounter
@[simp] theorem acceptFrame_clock (s : State) (p : Port) : (s.acceptFrame p).clock = s.clock := acceptFrame_same s p .clock
@[simp] theorem acceptFrame_timers (s : State) (p : Port) : (s.acceptFrame p).timers = s.timers := acceptFrame_same s p .timers
@[simp] theorem acceptFrame_flashOn (s : State) (p : Port) : (s.acceptFrame p).flashOn = s.flashOn := acceptFrame_same s p .flashOn
@[simp] theorem acceptFrame_painter (s : State) (p : Port) : (s.acceptFrame p).painter = s.painter := acceptFrame_same s p .painter
@[simp] theorem acceptFrame_panels (s : State) (p : Port) : (s.acceptFrame p).panels = s.panels := acceptFrame_same s p .panels
@[simp] theorem acceptFrame_ambient (s : State) (p : Port) : (s.acceptFrame p).ambient = s.ambient := acceptFrame_same s p .ambient
@[simp] theorem acceptFrame_lines (s : State) (p : Port) : (s.acceptFrame p).lines = s.lines := acceptFrame_same s p .lines
@[simp] theorem acceptFrame_capture (s : State) (p : Port) : (s.acceptFrame p).capture = s.capture := acceptFrame_same s p .capture
@[simp] theorem acceptFrame_seen (s : State) (p : Port) : (s.acceptFrame p).seen = s.seen := acceptFrame_same s p .seen
@[simp] theorem acceptFrame_events (s : State) (p : Port) : (s.acceptFrame p).events = s.events := acceptFrame_same s p .events
@[simp] theorem acceptFrame_mem (s : State) (p : Port) : (s.acceptFrame p).mem = s.mem := acceptFrame_same s p .mem
@[simp] theorem acceptFrame_free (s : State) (p : Port) : (s.acceptFrame p).free = s.free := acceptFrame_same s p .free
@[simp] theorem acceptFrame_pending (s : State) (p : Port) : (s.acceptFrame p).pending = s.pending := acceptFrame_same s p .pending

@[simp] theorem acceptFrame_record? (s : State) (p : Port) (code : Nat) : (s.acceptFrame p).record? code = s.record? code := by
  unfold State.record?; rw [acceptFrame_table]

@[simp] theorem acceptFrame_place? (s : State) (p : Port) (n : Nat) : (s.acceptFrame p).place? n = s.place? n := by
  unfold State.place?; rw [acceptFrame_places]

@[simp] theorem acceptFrame_notice? (s : State) (p : Port) (n : Nat) : (s.acceptFrame p).notice? n = s.notice? n := by
  unfold State.notice?; rw [acceptFrame_notices]

/-- Marking a face dirty leaves its settings. -/
theorem acceptFrame_settings (s : State) (p : Port) (f : Face) :
    ((s.acceptFrame p).faces.get f).settings = (s.faces.get f).settings := by
  rw [acceptFrame_faces]
  split
  · cases f <;> rfl
  · rfl

/-! ## Serving -/

theorem serveWith_ready {s : State} {p : Port} (hr : s.ready p) (kind tag : Byte) (h : State → State) :
    s.serveWith p kind tag h = h (s.acceptFrame p) := by
  unfold State.serveWith
  rw [if_pos hr.1]
  dsimp only
  rw [if_neg (by rw [acceptFrame_loader]; exact hr.2)]

theorem serve_ready {s : State} {p : Port} (hr : s.ready p) (kind tag : Byte) (take : State → State × Reply) :
    s.serve p kind tag take =
      (take (s.acceptFrame p)).1.sendReply p kind tag (take (s.acceptFrame p)).2 :=
  serveWith_ready hr _ _ _

theorem serveWith_loading {s : State} {p : Port} (hl : (s.ports.get p).listening = true)
    (hp : s.loader.phase = .loading) (kind tag : Byte) (h : State → State) :
    s.serveWith p kind tag h = (s.acceptFrame p).sendReply p kind tag (.plain .notReady) := by
  unfold State.serveWith
  rw [if_pos hl]
  dsimp only
  rw [if_pos (by rw [acceptFrame_loader]; exact hp)]

theorem serveWith_busy {s : State} {p : Port} (hl : (s.ports.get p).listening = false)
    (kind tag : Byte) (h : State → State) : s.serveWith p kind tag h = s := by
  unfold State.serveWith
  rw [if_neg (by simp [hl])]

/-- R164, R168: the reply frame is the one of the tables. -/
theorem replyFrame_eq (s : State) (p : Port) (kind tag : Byte) (r : Reply) :
    s.replyFrame p kind tag r = replyBytes kind tag r (s.events.get p) := by
  have hc : ∀ c : ReplyCode, c.byte = replyCodeByte c := by intro c; cases c <;> rfl
  unfold State.replyFrame frameOfPayload replyBytes
  rw [crcBytes_eq, hc]
  rfl

/-- A request that leaves the ports alone is answered on its port. -/
theorem served {s t : State} {p : Port} (ht : t.ports = (s.acceptFrame p).ports) (kind tag : Byte) (r : Reply) :
    Served s (t.sendReply p kind tag r) p kind tag r := by
  have h : (t.sendReply p kind tag r).ports =
      t.ports.set p { t.ports.get p with state := .reply, reply := t.replyFrame p kind tag r } := rfl
  unfold Served
  rw [h, ht, acceptFrame_ports]
  have hf : (t.sendReply p kind tag r).events = t.events := rfl
  rw [hf, replyFrame_eq]
  cases p <;> rfl

/-- R166, R167: a request that is served: its answer, and what it may have touched. -/
theorem serve_answers {s : State} {p : Port} (hr : s.ready p) {c : Instr} {kind tag : Byte}
    {take : State → State × Reply} {u : State} {r : Reply} (hc : exec c s = .next (s.serve p kind tag take))
    (ht : take (s.acceptFrame p) = (u, r)) {ps : List Part} (ho : OnlyIn ps (s.acceptFrame p) u)
    (hp : Part.ports ∉ ps := by decide) :
    exec c s = .next (u.sendReply p kind tag r) ∧ Served s (u.sendReply p kind tag r) p kind tag r ∧
      OnlyIn (.ports :: .faces :: ps) s (u.sendReply p kind tag r) := by
  have h := serve_ready hr kind tag take
  rw [ht] at h
  refine ⟨by rw [hc, h], served (ho.ports hp) _ _ _, ?_⟩
  exact (((acceptFrame_only s p).mono (by simp)).trans (ho.mono fun q hq => by simp [hq])).trans
    ((sendReply_only _ _ _ _ _).mono (by simp))

/-- What a request that leaves the composers alone touches beside its port. -/
theorem touches {s u : State} {p : Port} {ps : List Part} (ho : OnlyIn ps (s.acceptFrame p) u) (kind tag : Byte) (r : Reply)
    (hf : Part.faces ∉ ps := by decide) : RequestTouches ps s (u.sendReply p kind tag r) p := by
  refine ⟨(((acceptFrame_only s p).mono (by simp)).trans (ho.mono fun q hq => by simp [hq])).trans
    ((sendReply_only _ _ _ _ _).mono (by simp)), fun f => ?_⟩
  rw [(sendReply_only u p kind tag r).faces, ho.faces hf, acceptFrame_face]

/-- A request that is only answered. -/
theorem answers_plain {s : State} {p : Port} (hr : s.ready p) {c : Instr} {kind tag : Byte}
    {take : State → State × Reply} {r : Reply} (hc : exec c s = .next (s.serve p kind tag take))
    (ht : take (s.acceptFrame p) = (s.acceptFrame p, r)) :
    ∃ t, exec c s = .next t ∧ Served s t p kind tag r ∧ RequestTouches [] s t p := by
  obtain ⟨h1, h2, _⟩ := serve_answers hr hc ht (OnlyIn.refl [] _)
  exact ⟨_, h1, h2, touches (OnlyIn.refl [] _) _ _ _⟩

theorem sendReply_record? (s : State) (p : Port) (kind tag : Byte) (r : Reply) (code : Nat) :
    (s.sendReply p kind tag r).record? code = s.record? code := rfl

theorem sendReply_place? (s : State) (p : Port) (kind tag : Byte) (r : Reply) (n : Nat) :
    (s.sendReply p kind tag r).place? n = s.place? n := rfl

theorem sendReply_notice? (s : State) (p : Port) (kind tag : Byte) (r : Reply) (n : Nat) :
    (s.sendReply p kind tag r).notice? n = s.notice? n := rfl

/-! ## The steps of the check order -/

theorem withOperands_ok {α : Type} {x : Parsed α} {a : α} (h : x = .ok a) (s : State) (k : α → State × Reply) :
    withOperands x s k = k a := by
  subst h; rfl

theorem withOperands_error {α : Type} {x : Parsed α} {c : ReplyCode} (h : x = .error c) (s : State) (k : α → State × Reply) :
    withOperands x s k = (s, .plain c) := by
  subst h; rfl

theorem missing_eq_none {s : State} {p : Port} {right : Right} {pls : List Nat} (h : s.allows p right pls) :
    missing s.zones p right pls = none := by
  unfold missing
  rw [List.find?_eq_none]
  intro x hx
  simp [h x hx]

theorem missing_none_iff (s : State) (p : Port) (right : Right) (pls : List Nat) :
    missing s.zones p right pls = none ↔ s.allows p right pls := by
  refine ⟨fun h => ?_, missing_eq_none⟩
  unfold missing at h
  rw [List.find?_eq_none] at h
  intro x hx
  have := h x hx
  simpa using this

theorem withRights_ok {s : State} {p : Port} {right : Right} {pls : List Nat} (h : s.allows p right pls) (k : State × Reply) :
    withRights p right pls s k = k := by
  unfold withRights
  rw [missing_eq_none h]

theorem acceptFrame_allows {s : State} {p q : Port} {right : Right} {pls : List Nat} (h : s.allows q right pls) :
    (s.acceptFrame p).allows q right pls := by
  intro pl hpl
  rw [acceptFrame_zones]
  exact h pl hpl

theorem withRights_missing {s : State} {p : Port} {right : Right} {pls : List Nat} {pl : Nat}
    (h : missing s.zones p right pls = some pl) (k : State × Reply) :
    withRights p right pls s k = (s, .refusal right pl) := by
  unfold withRights
  rw [h]

end Sys2Proof.Machine
end

