-- ==== Sys2Proof/Laws/Blocks.lean ====
section
/-! SUPPORT. The blocks of the wire read and written: zones, faces, notices, and what a grant and the lockout test mean zone by zone. -/

namespace Sys2Proof.Machine
-- one proof at a time: proofs elaborated at once would each take a thread of their own
set_option Elab.async false

/-- The zone block of the tables is the block the model writes. -/
theorem zoneBlock_eq (z : Zone) : zoneBlock z = z.bytes := by
  obtain ⟨e, w, l, h, r⟩ := z
  unfold zoneBlock Zone.bytes
  cases w with
  | global => cases e <;> simp [yesNo, ZoneMatch.code, Rights.bits, byte]
  | origin q => cases q <;> cases e <;> simp [yesNo, ZoneMatch.code, Rights.bits, byte, Port.number]

/-- R174: a zone block reads back. -/
theorem readZone_bytes (z : Zone) (h1 : z.low ≤ 31) (h2 : z.high ≤ 31) : readZone z.bytes = some z := by
  obtain ⟨e, w, l, h, r⟩ := z
  simp only at h1 h2
  simp only [Zone.bytes, readZone, readYesNo_yesNo, readMatch_code, readRights_bits, byte_toNat (show l < 256 by omega), byte_toNat (show h < 256 by omega)]
  simp [h1, h2]

theorem parseWriteZone_eq (n : Fin 8) (z : Zone) (h1 : z.low ≤ 31) (h2 : z.high ≤ 31) :
    parseWriteZone (byte n :: z.bytes) = .ok (n, z) := by
  have := readZone_bytes z h1 h2
  simp only [Zone.bytes] at this
  simp only [Zone.bytes, parseWriteZone, this]
  rw [dif_pos (by rw [byte_toNat (by omega)]; exact n.2)]
  simp [byte_toNat (show n.val < 256 by omega)]

/-- R49: the lockout test, zone by zone. -/
theorem lockout_iff (zs : Vector Zone 8) : lockoutPasses zs = true ↔ ∃ m : Fin 8, zs[m].enabled = true ∧ zs[m].low = 0 ∧ zs[m].rights.config = true := by
  unfold lockoutPasses
  rw [List.any_eq_true]
  constructor
  · rintro ⟨z, hz, h⟩
    rw [Vector.mem_toList_iff] at hz
    obtain ⟨i, hi, rfl⟩ := Vector.mem_iff_getElem.mp hz
    simp at h
    exact ⟨⟨i, hi⟩, by simpa using h.1.1, by simpa using h.1.2, by simpa using h.2⟩
  · rintro ⟨m, h1, h2, h3⟩
    exact ⟨zs[m], by simp, by simp at h1 h2 h3 ⊢; simp [h1, h2, h3]⟩

/-- R43: the any-grant rule. -/
theorem granted_iff (zs : Vector Zone 8) (o : Port) (right : Right) (pl : Nat) :
   granted zs o right pl = true ↔ ∃ m : Fin 8, zs[m].enabled = true ∧
      (zs[m].who = .global ∨ zs[m].who = .origin o) ∧
      zs[m].low ≤ pl ∧ pl ≤ zs[m].high ∧ zs[m].rights.has right = true := by
  have hm : ∀ (w : ZoneMatch), w.has o = true ↔ (w = .global ∨ w = .origin o) := by
    intro w; cases w <;> simp [ZoneMatch.has]
  unfold granted
  rw [List.any_eq_true]
  constructor
  · rintro ⟨z, hz, h⟩
    rw [Vector.mem_toList_iff] at hz
    obtain ⟨i, hi, rfl⟩ := Vector.mem_iff_getElem.mp hz
    simp only [Bool.and_eq_true, hm, Zone.covers, decide_eq_true_eq] at h
    exact ⟨⟨i, hi⟩, h.1.1.1, h.1.1.2, h.1.2.1, h.1.2.2, h.2⟩
  · rintro ⟨m, h1, h2, h3, h4, h5⟩
    refine ⟨zs[m], by simp, ?_⟩
    simp only [Bool.and_eq_true, hm, Zone.covers, decide_eq_true_eq]
    exact ⟨⟨⟨h1, h2⟩, h3, h4⟩, h5⟩

theorem faceBlock_eq (c : FaceSettings) : faceBlock c = c.bytes := by
  obtain ⟨a, b, r, m, k⟩ := c
  have hr : ∀ x : Role, roleByte x = byte x.code := by intro x; cases x <;> rfl
  have hl : r.toList.map roleByte = [byte r[0].code, byte r[1].code, byte r[2].code, byte r[3].code] := by
    obtain ⟨⟨l⟩, hl⟩ := r
    match l, hl with
    | [a, b, c, d], _ => simp [hr]
  unfold faceBlock FaceSettings.bytes
  simp only [hl]
  cases m <;> simp [yesNo, WakeMask.bits]

theorem flatMap_finRange4 {α β} (v : Vector α 4) (g : α → List β) : v.toList.flatMap g = (List.finRange 4).flatMap fun l => g v[l] := by
  obtain ⟨⟨l⟩, hl⟩ := v
  match l, hl with
  | [a, b, c, d], _ => rfl

/-- R173: a notice block reads as its notice. -/
theorem noticeBlock_parse (q : NoticeRequest) (h1 : 1 ≤ q.id) (h2 : q.id ≤ 255) (h3 : q.duration ≤ 65535)
    (h4 : 1 ≤ q.text.length) (h5 : q.text.length ≤ 160) : parseNotice (noticeBlock q) = .ok q := by
  obtain ⟨id, c, sc, t, fl, d, tx⟩ := q
  simp only at h1 h2 h3 h4 h5
  have e : noticeBlock ⟨id, c, sc, t, fl, d, tx⟩ = byte id :: byte c.code :: byte sc.code :: byte t.code :: yesNo fl
      :: byte (d / 256) :: byte d :: byte tx.length :: tx := by
    cases c <;> cases sc <;> cases t <;> cases fl <;> rfl
  rw [e]
  simp only [parseNotice, readClass_code, readScope_code, readYesNo_yesNo, byte_toNat (show tx.length < 256 by omega),
    byte_toNat (show id < 256 by omega), byte_toNat (show t.code < 256 by cases t <;> decide), readFaceSel_code,
    nat16_be16 (show d < 65536 by omega)]
  rw [if_neg (by simp)]
  unfold inRange
  rw [if_pos]
  simp only [Bool.and_eq_true, bne_iff_ne, decide_eq_true_eq]
  omega

/-- R174: a source identity. -/
theorem sourceBlock_eq (x : Source) : sourceBlock x = x.bytes := by cases x <;> rfl

end Sys2Proof.Machine
end

