-- ==== Sys2Proof/Laws/Frames.lean ====
section
/-! SUPPORT. Good frames: the command of a KIND does what the frame of that KIND does, and every frame is served. -/

namespace Sys2Proof.Machine
-- one proof at a time: proofs elaborated at once would each take a thread of their own
set_option Elab.async false

theorem byte_eq_ofNat {b : Byte} {n : Nat} (h : b.toNat = n) : b = BitVec.ofNat 8 n := by
  subst h; simp

/-- The command of a KIND is the good frame of that KIND. -/
theorem exec_requestOf (p : Port) (kind tag : Byte) (fields : List Byte) (s : State) :
    exec (requestOf p kind tag fields) s = .next (s.takeFrame p kind tag fields) := by
  unfold requestOf
  split
  all_goals first
    | (rename_i h
       have hk := byte_eq_ofNat h
       subst hk; rfl)
    | rfl

/-- Every good frame is served: what it does lies in `h`, which does not look at the port's state. -/
theorem takeFrame_served (p : Port) (kind tag : Byte) (fields : List Byte) :
    ∃ h : State → State, ∀ s : State, s.takeFrame p kind tag fields = s.serveWith p kind tag h := by
  unfold State.takeFrame
  split
  all_goals first
    | exact ⟨_, fun s => rfl⟩
    | (rename_i h
       have hk := byte_eq_ofNat h
       subst hk
       exact ⟨_, fun s => rfl⟩)
    | (unfold State.badKind
       exact ⟨_, fun s => rfl⟩)

end Sys2Proof.Machine
end

