-- ==== Sys2Proof/Laws/Memory.lean ====
section
/-! SUPPORT. The settings memory: what a byte reads as after a write, and that every memory operation keeps the canonical form. -/

namespace Sys2Proof.Machine
-- one proof at a time: proofs elaborated at once would each take a thread of their own
set_option Elab.async false

/-! ## Reading -/

theorem read_nil (k : Nat) : Memory.read [] k = Memory.blank := rfl

theorem read_cons (c : Host.Cell) (m : Memory) (k : Nat) :
    Memory.read (c :: m) k = if c.1 = k then c.2 else Memory.read m k := rfl

/-- A run of cells that lists an address answers for it. -/
theorem read_append (m n : Memory) (k : Nat) :
    Memory.read (m ++ n) k = if k ∈ m.map (fun c => c.1) then Memory.read m k else Memory.read n k := by
  induction m with
  | nil => simp
  | cons c m ih =>
    rw [List.cons_append, read_cons, read_cons, ih]
    by_cases h : c.1 = k
    · simp [h]
    · simp [h, Ne.symm h]

theorem read_unlisted (m : Memory) (k : Nat) (h : k ∉ m.map (fun c => c.1)) : Memory.read m k = Memory.blank := by
  induction m with
  | nil => rfl
  | cons c m ih =>
    rw [List.map_cons, List.mem_cons, not_or] at h
    rw [read_cons, if_neg (Ne.symm h.1)]
    exact ih h.2

/-- A byte kept by a filter on addresses reads as it did; one dropped reads blank. -/
theorem read_filter (m : Memory) (keep : Nat → Bool) (k : Nat) :
    Memory.read (m.filter fun c => keep c.1) k = if keep k then Memory.read m k else Memory.blank := by
  induction m with
  | nil => simp [read_nil]
  | cons c m ih =>
    rw [List.filter_cons, read_cons]
    by_cases h : c.1 = k
    · subst h
      rw [if_pos rfl]
      cases hk : keep c.1
      · rw [if_neg (by simp), ih, hk]; rfl
      · rw [if_pos rfl, read_cons, if_pos rfl, if_pos rfl]
    · rw [if_neg h]
      split
      · rw [read_cons, if_neg h, ih]
      · rw [ih]

theorem read_cells (bytes : List Byte) : ∀ (base k : Nat), Memory.read (Memory.cells base bytes) k =
    if h : base ≤ k ∧ k - base < bytes.length then bytes[k - base]'h.2 else Memory.blank := by
  induction bytes with
  | nil => intro base k; simp [Memory.cells, read_nil]
  | cons b rest ih =>
    intro base k
    have key : (if b = Memory.blank then Memory.cells (base + 1) rest else (base, b) :: Memory.cells (base + 1) rest).read k
        = if base = k then b else Memory.read (Memory.cells (base + 1) rest) k := by
      split
      · rename_i hb
        split
        · rename_i hk
          subst hk
          rw [ih, dif_neg (by omega), hb]
        · rfl
      · rw [read_cons]
    show Memory.read (if b = Memory.blank then _ else _) k = _
    rw [key]
    by_cases hk : base = k
    · subst hk; simp
    · rw [if_neg hk, ih]
      by_cases h : base + 1 ≤ k ∧ k - (base + 1) < rest.length
      · rw [dif_pos h, dif_pos (by simp; omega)]
        have : k - base = (k - (base + 1)) + 1 := by omega
        simp [this]
      · rw [dif_neg h, dif_neg (by simp; omega)]

theorem cells_listed (bytes : List Byte) : ∀ (base k : Nat), k ∈ (Memory.cells base bytes).map (fun c => c.1) →
    base ≤ k ∧ k < base + bytes.length := by
  induction bytes with
  | nil => intro base k h; cases h
  | cons b rest ih =>
    intro base k h
    have h' : k ∈ ((if b = Memory.blank then Memory.cells (base + 1) rest else (base, b) :: Memory.cells (base + 1) rest).map fun c => c.1) := h
    simp only [List.length_cons]
    split at h'
    · have := ih _ _ h'; omega
    · rw [List.map_cons, List.mem_cons] at h'
      rcases h' with e | e
      · dsimp only at e; omega
      · have := ih _ _ e; omega

/-- R181: the bytes written read back, and every other byte reads as it did. -/
theorem read_writeBlock (m : Memory) (base k : Nat) (bytes : List Byte) : (m.writeBlock base bytes).read k =
    if h : base ≤ k ∧ k - base < bytes.length then bytes[k - base]'h.2 else m.read k := by
  have split : (m.writeBlock base bytes).read k =
      if k ∈ (m.filter fun c => decide (c.1 < base)).map (fun c => c.1) ∨ k ∈ (Memory.cells base bytes).map (fun c => c.1) then
        if k ∈ (m.filter fun c => decide (c.1 < base)).map (fun c => c.1) then (if k < base then m.read k else Memory.blank)
        else (Memory.cells base bytes).read k
      else if base + bytes.length ≤ k then m.read k else Memory.blank := by
    unfold Memory.writeBlock
    rw [read_append, read_append, read_filter m (fun a => decide (a < base)), read_filter m (fun a => decide (base + bytes.length ≤ a))]
    simp only [List.map_append, List.mem_append, decide_eq_true_eq]
  have low : k ∈ (m.filter fun c => decide (c.1 < base)).map (fun c => c.1) → k < base := by
    intro h
    obtain ⟨c, hc, rfl⟩ := List.mem_map.mp h
    simpa using (List.mem_filter.mp hc).2
  have lowRead : k < base → k ∉ (m.filter fun c => decide (c.1 < base)).map (fun c => c.1) → m.read k = Memory.blank := by
    intro h hn
    have := read_unlisted _ _ hn
    rwa [read_filter m (fun a => decide (a < base)), if_pos (by simpa using h)] at this
  have mid := cells_listed bytes base k
  by_cases h : base ≤ k ∧ k - base < bytes.length
  · rw [dif_pos h, split]
    have h1 : k ∉ (m.filter fun c => decide (c.1 < base)).map (fun c => c.1) := fun e => by have := low e; omega
    by_cases h2 : k ∈ (Memory.cells base bytes).map (fun c => c.1)
    · rw [if_pos (Or.inr h2), if_neg h1, read_cells, dif_pos h]
    · have := read_unlisted _ _ h2
      rw [read_cells, dif_pos h] at this
      rw [if_neg (by simp only [not_or]; exact ⟨h1, h2⟩), if_neg (by omega), this]
  · rw [dif_neg h, split]
    by_cases hk : k < base
    · by_cases h1 : k ∈ (m.filter fun c => decide (c.1 < base)).map (fun c => c.1)
      · rw [if_pos (Or.inl h1), if_pos h1, if_pos hk]
      · have h2 : k ∉ (Memory.cells base bytes).map (fun c => c.1) := fun e => by have := mid e; omega
        rw [if_neg (by simp only [not_or]; exact ⟨h1, h2⟩), if_neg (by omega), lowRead hk h1]
    · have h1 : k ∉ (m.filter fun c => decide (c.1 < base)).map (fun c => c.1) := fun e => hk (low e)
      have h2 : k ∉ (Memory.cells base bytes).map (fun c => c.1) := fun e => by have := mid e; omega
      rw [if_neg (by simp only [not_or]; exact ⟨h1, h2⟩), if_pos (by omega)]

/-! ## The canonical form -/

theorem rising_mono {m : Memory} {a b : Nat} (h : Memory.rising b m = true) (hab : a ≤ b) : Memory.rising a m = true := by
  cases m with
  | nil => rfl
  | cons c rest =>
    unfold Memory.rising at h ⊢
    simp only [Bool.and_eq_true, decide_eq_true_eq] at h ⊢
    exact ⟨⟨⟨by omega, h.1.1.2⟩, h.1.2⟩, h.2⟩

theorem rising_filter (keep : Host.Cell → Bool) : ∀ (m : Memory) (a : Nat), Memory.rising a m = true →
    Memory.rising a (m.filter keep) = true
  | [], _, _ => rfl
  | c :: rest, a, h => by
    unfold Memory.rising at h
    simp only [Bool.and_eq_true, decide_eq_true_eq] at h
    have ih := rising_filter keep rest (c.1 + 1) h.2
    rw [List.filter_cons]
    split
    · unfold Memory.rising
      simp only [Bool.and_eq_true, decide_eq_true_eq]
      exact ⟨h.1, ih⟩
    · exact rising_mono ih (by omega)

theorem rising_above : ∀ (m : Memory) (a b : Nat), Memory.rising a m = true → (∀ c ∈ m, b ≤ c.1) → Memory.rising b m = true
  | [], _, _, _, _ => rfl
  | c :: rest, a, b, h, hb => by
    unfold Memory.rising at h ⊢
    simp only [Bool.and_eq_true, decide_eq_true_eq] at h ⊢
    exact ⟨⟨⟨hb c (by simp), h.1.1.2⟩, h.1.2⟩, h.2⟩

theorem rising_append : ∀ (m n : Memory) (a b : Nat), Memory.rising a m = true → (∀ c ∈ m, c.1 < b) → a ≤ b →
    Memory.rising b n = true → Memory.rising a (m ++ n) = true
  | [], _, _, _, _, _, hab, hn => rising_mono hn hab
  | c :: rest, n, a, b, h, hb, _, hn => by
    unfold Memory.rising at h
    simp only [Bool.and_eq_true, decide_eq_true_eq] at h
    rw [List.cons_append]
    unfold Memory.rising
    simp only [Bool.and_eq_true, decide_eq_true_eq]
    have hc := hb c (by simp)
    exact ⟨h.1, rising_append rest n (c.1 + 1) b h.2 (fun d hd => hb d (by simp [hd])) (by omega) hn⟩

theorem rising_cells : ∀ (bytes : List Byte) (base : Nat), base + bytes.length ≤ Config.memorySize →
    Memory.rising base (Memory.cells base bytes) = true
  | [], _, _ => rfl
  | b :: rest, base, h => by
    simp only [List.length_cons] at h
    have ih := rising_cells rest (base + 1) (by omega)
    show Memory.rising base (if b = Memory.blank then _ else _) = true
    split
    · exact rising_mono ih (by omega)
    · rename_i hb
      unfold Memory.rising
      simp only [Bool.and_eq_true, decide_eq_true_eq, bne_iff_ne]
      exact ⟨⟨⟨by omega, by omega⟩, hb⟩, ih⟩

/-- A write inside the memory keeps the canonical form: it is the one memory operation that changes memory. -/
theorem wf_writeBlock {m : Memory} (h : m.wf = true) (base : Nat) (bytes : List Byte)
    (hb : base + bytes.length ≤ Config.memorySize) : (m.writeBlock base bytes).wf = true := by
  unfold Memory.wf at *
  unfold Memory.writeBlock
  have h1 : Memory.rising 0 (m.filter fun c => decide (c.1 < base)) = true := rising_filter _ m 0 h
  have h3 : Memory.rising (base + bytes.length) (m.filter fun c => decide (base + bytes.length ≤ c.1)) = true :=
    rising_above _ 0 _ (rising_filter _ m 0 h) fun c hc => by simpa using (List.mem_filter.mp hc).2
  refine rising_append _ _ 0 (base + bytes.length) ?_ ?_ (by omega) h3
  · exact rising_append _ _ 0 base h1 (fun c hc => by simpa using (List.mem_filter.mp hc).2) (by omega)
      (rising_cells bytes base hb)
  · intro c hc
    rcases List.mem_append.mp hc with e | e
    · have := (List.mem_filter.mp e).2
      simp only [decide_eq_true_eq] at this
      omega
    · exact (cells_listed bytes base c.1 (List.mem_map.mpr ⟨c, e, rfl⟩)).2

theorem reset_wf : State.reset.mem.wf = true := rfl

end Sys2Proof.Machine
end

