-- ==== Sys2Proof/Laws/Order.lean ====
section
/-! SUPPORT. The order of the departure table: by service key, then by code; inserting and sorting keep it. -/

namespace Sys2Proof.Machine
-- one proof at a time: proofs elaborated at once would each take a thread of their own
set_option Elab.async false

theorem before_iff (ro : Nat) (x y : Departure) : x.before ro y = true ↔ x.key ro < y.key ro ∨ (x.key ro = y.key ro ∧ x.code < y.code) := by
  unfold Departure.before; simp

theorem before_trans {ro : Nat} {x y z : Departure} (h : x.before ro y = true) (k : y.before ro z = true) : x.before ro z = true := by
  rw [before_iff] at *; omega

theorem before_asymm {ro : Nat} {x y : Departure} (h : x.before ro y = true) : y.before ro x = false := by
  rw [Bool.eq_false_iff, Ne, before_iff]
  rw [before_iff] at h
  omega

/-- R2: of two records of distinct codes one stands before the other. -/
theorem before_total {ro : Nat} {x y : Departure} (hc : x.code ≠ y.code) (h : x.before ro y = false) : y.before ro x = true := by
  rw [Bool.eq_false_iff, Ne, before_iff] at h
  rw [before_iff]
  omega

theorem insertRecord_perm (ro : Nat) (r : Departure) (t : List Departure) : (insertRecord ro r t).Perm (r :: t) := by
  induction t with
  | nil => exact List.Perm.refl _
  | cons x rest ih =>
    unfold insertRecord
    split
    · exact List.Perm.refl _
    · exact (List.Perm.cons x ih).trans (List.Perm.swap r x rest)

theorem sortRecords_perm (ro : Nat) (t : List Departure) : (sortRecords ro t).Perm t := by
  unfold sortRecords
  induction t with
  | nil => exact List.Perm.refl _
  | cons x rest ih => exact (insertRecord_perm ro x _).trans (List.Perm.cons x ih)

/-- No record stands after one it must stand before. -/
theorem insertRecord_sorted (ro : Nat) (r : Departure) (t : List Departure) (h : t.Pairwise fun x y => y.before ro x = false) :
    (insertRecord ro r t).Pairwise fun x y => y.before ro x = false := by
  induction t with
  | nil => exact List.pairwise_singleton _ _
  | cons x rest ih =>
    rw [List.pairwise_cons] at h
    unfold insertRecord
    split
    · rename_i hb
      rw [List.pairwise_cons, List.pairwise_cons]
      refine ⟨?_, h.1, h.2⟩
      intro y hy
      rcases List.mem_cons.mp hy with e | e
      · subst e; exact before_asymm hb
      · have hxy := h.1 y e
        rw [Bool.eq_false_iff, Ne, before_iff] at hxy ⊢
        rw [before_iff] at hb
        omega
    · rename_i hb
      rw [List.pairwise_cons]
      refine ⟨?_, ih h.2⟩
      intro y hy
      rw [(insertRecord_perm ro r rest).mem_iff] at hy
      rcases List.mem_cons.mp hy with e | e
      · subst e; simpa using hb
      · exact h.1 y e

theorem sortRecords_sorted (ro : Nat) (t : List Departure) : (sortRecords ro t).Pairwise fun x y => y.before ro x = false := by
  unfold sortRecords
  induction t with
  | nil => exact List.Pairwise.nil
  | cons x rest ih => exact insertRecord_sorted ro x _ ih

/-- R2: a table sorted so, with distinct codes, is in order. -/
theorem ordered_of_sorted {ro : Nat} {t : List Departure} (hs : t.Pairwise fun x y => y.before ro x = false)
    (hc : (t.map fun r => r.code).Nodup) : t.Pairwise fun x y => x.before ro y = true := by
  unfold List.Nodup at hc
  rw [List.pairwise_map] at hc
  exact (hs.and hc).imp fun h => before_total (Ne.symm h.2) h.1

theorem sorted_of_ordered {ro : Nat} {t : List Departure} (h : t.Pairwise fun x y => x.before ro y = true) :
    t.Pairwise fun x y => y.before ro x = false := h.imp before_asymm

/-- R2: the service key of a minute. -/
theorem serviceKey_eq {ro : Nat} (h : ro ≤ 1439) (minute : Nat) : serviceKey ro minute = (minute + 1440 - ro) % 1440 := by
  unfold serviceKey; rw [Nat.mod_eq_of_lt (show ro < 1440 by omega)]; congr 1; omega

/-- R2, R8: a record of a new code put into an ordered table leaves it ordered. -/
theorem insertRecord_ordered (ro : Nat) (r : Departure) (t : List Departure) (hc : ∀ x ∈ t, x.code ≠ r.code)
    (h : t.Pairwise fun x y => x.before ro y = true) : (insertRecord ro r t).Pairwise fun x y => x.before ro y = true := by
  induction t with
  | nil => simp [insertRecord]
  | cons x rest ih =>
    rw [List.pairwise_cons] at h
    unfold insertRecord
    split
    · rename_i hb
      rw [List.pairwise_cons, List.pairwise_cons]
      refine ⟨fun y hy => ?_, h⟩
      rcases List.mem_cons.mp hy with e | e
      · subst e; exact hb
      · exact before_trans hb (h.1 y e)
    · rename_i hb
      rw [List.pairwise_cons]
      refine ⟨fun y hy => ?_, ih (fun y hy => hc y (by simp [hy])) h.2⟩
      rw [(insertRecord_perm ro r rest).mem_iff] at hy
      rcases List.mem_cons.mp hy with e | e
      · subst e; exact before_total (Ne.symm (hc x (by simp))) (by simpa using hb)
      · exact h.1 y e

end Sys2Proof.Machine
end

