-- ==== Sys2Proof/Laws/Faces.lean ====
section
/-! SUPPORT. What face work keeps: the settings of a face always, and a dirty mark once set, until a plan is taken. -/

namespace Sys2Proof.Machine
-- one proof at a time: proofs elaborated at once would each take a thread of their own
set_option Elab.async false

/-- The settings of every face stand, and a dirty face stays dirty. -/
def KeepsDirt (s t : State) : Prop :=
  ∀ g, (t.faces.get g).settings = (s.faces.get g).settings ∧ ((s.faces.get g).dirty = true → (t.faces.get g).dirty = true)

theorem KeepsDirt.refl (s : State) : KeepsDirt s s := fun _ => ⟨rfl, id⟩

theorem KeepsDirt.trans {s t u : State} (h : KeepsDirt s t) (k : KeepsDirt t u) : KeepsDirt s u :=
  fun g => ⟨(k g).1.trans (h g).1, fun d => (k g).2 ((h g).2 d)⟩

theorem KeepsDirt.ite {s t u : State} {c : Prop} [Decidable c] (h : KeepsDirt s t) (k : KeepsDirt s u) :
    KeepsDirt s (if c then t else u) := by
  split <;> assumption

theorem KeepsDirt.of_faces {s t : State} (h : t.faces = s.faces) : KeepsDirt s t := by
  intro g; rw [h]; exact ⟨rfl, id⟩

theorem KeepsDirt.eachFace {s : State} {g : Face → State → State} (h : ∀ f t, KeepsDirt t (g f t)) :
    KeepsDirt s (s.eachFace g) := (h .a s).trans (h .b _)

theorem KeepsDirt.modFace {s : State} {f : Face} {g : Composer → Composer}
    (h : ∀ c, (g c).settings = c.settings ∧ (c.dirty = true → (g c).dirty = true)) : KeepsDirt s (s.modFace f g) := by
  intro k
  rw [State.modFace_faces, PerFace.get_set]
  split
  · rename_i he; subst he; exact h _
  · exact ⟨rfl, id⟩

theorem markDirty_dirt (s : State) (f : Face) : KeepsDirt s (s.markDirty f) := KeepsDirt.modFace fun _ => ⟨rfl, fun _ => rfl⟩

theorem wake_dirt (s : State) (f : Face) (w : WakeSource) : KeepsDirt s (s.wake f w) := by
  refine KeepsDirt.modFace fun c => ?_
  unfold Composer.wake
  split
  · exact ⟨rfl, id⟩
  · exact ⟨rfl, id⟩

theorem departureWake_dirt (s : State) (f : Face) : KeepsDirt s (s.departureWake f) :=
  KeepsDirt.ite (wake_dirt _ _ _) (KeepsDirt.refl _)

theorem recomputeDuties_dirt (s : State) (f : Face) : KeepsDirt s (s.recomputeDuties f) := KeepsDirt.of_faces rfl

theorem stateEffects_dirt (s : State) (f : Face) (old : EffState) : KeepsDirt s (s.stateEffects f old) := by
  unfold State.stateEffects
  split
  · refine KeepsDirt.trans (t := s.modFace f fun c => { c with rebuild := .idle, inHand := none })
      (KeepsDirt.modFace fun _ => ⟨rfl, id⟩) (KeepsDirt.of_faces ?_)
    exact (dropJobs_only _ f).faces
  · exact KeepsDirt.trans (t := s.modFace f fun c => { c with restartPending := true, pass := false, dirty := true })
      (KeepsDirt.modFace fun _ => ⟨rfl, fun _ => rfl⟩) (KeepsDirt.of_faces rfl)
  · exact KeepsDirt.modFace fun _ => ⟨rfl, fun _ => rfl⟩
  · exact KeepsDirt.modFace fun _ => ⟨rfl, fun _ => rfl⟩
  · exact KeepsDirt.refl _

theorem settle_dirt (s : State) (f : Face) : KeepsDirt s (s.settle f) := by
  unfold State.settle
  dsimp only
  split
  · exact KeepsDirt.refl _
  · refine KeepsDirt.trans (KeepsDirt.trans (t := s.modFace f fun c => { c with state := s.effState f }) ?_
      (stateEffects_dirt _ f _)) (recomputeDuties_dirt _ f)
    exact KeepsDirt.modFace fun _ => ⟨rfl, id⟩

theorem markBoth_dirty (s : State) (f : Face) : (s.markBoth.faces.get f).dirty = true := by
  cases f <;> rfl

theorem acceptFrame_dirt (s : State) (p : Port) : KeepsDirt s (s.acceptFrame p) := by
  intro g
  rw [acceptFrame_faces]
  split
  · cases g <;> exact ⟨rfl, fun _ => rfl⟩
  · exact ⟨rfl, id⟩

theorem bound_congr {s t : State} (h : ∀ g, (t.faces.get g).settings = (s.faces.get g).settings) (f : Face) (pls : List Nat) :
    t.bound f pls = s.bound f pls := by
  unfold State.bound
  rw [h f]

theorem touch_dirt (s : State) (pls : List Nat) : KeepsDirt s (s.touch pls) :=
  KeepsDirt.trans
    (KeepsDirt.eachFace fun f t => KeepsDirt.ite ((markDirty_dirt t f).trans (departureWake_dirt _ f)) (KeepsDirt.refl t))
    (KeepsDirt.eachFace fun f t => KeepsDirt.ite (settle_dirt t f) (KeepsDirt.refl t))

/-! ## Notices at the faces (R85) -/

theorem markTargets_dirt (s : State) (ts : List FaceSel) : KeepsDirt s (s.markTargets ts) :=
  KeepsDirt.eachFace fun f t => KeepsDirt.ite (markDirty_dirt t f) (KeepsDirt.refl t)

/-- R85: each face of a target set is marked. -/
theorem markTargets_marks (s : State) (ts : List FaceSel) (f : Face) (h : ts.any (fun x => x.has f) = true) :
    ((s.markTargets ts).faces.get f).dirty = true := by
  have step : ∀ (g : Face) (t : State), KeepsDirt t (if ts.any (fun x => x.has g) then t.markDirty g else t) :=
    fun g t => KeepsDirt.ite (markDirty_dirt t g) (KeepsDirt.refl t)
  cases f with
  | a =>
    apply (step .b _ .a).2
    rw [if_pos h]; rfl
  | b =>
    show ((if ts.any (fun x => x.has .b) then State.markDirty _ .b else _).faces.get .b).dirty = true
    rw [if_pos h]; rfl

theorem wakeForNotice_dirt (s : State) (c : NoticeClass) (t : FaceSel) : KeepsDirt s (s.wakeForNotice c t) := by
  unfold State.wakeForNotice
  split
  · exact KeepsDirt.refl _
  · exact (KeepsDirt.eachFace fun f u => KeepsDirt.ite (wake_dirt u f .notice) (KeepsDirt.refl u)).trans
      (KeepsDirt.eachFace fun f u => KeepsDirt.ite (settle_dirt u f) (KeepsDirt.refl u))

/-- R85: each face of the old and new targets is dirty after a post. -/
theorem handOnPost_dirty (s : State) (old : List FaceSel) (n : Notice) (f : Face) (h : (n.targets :: old).any (fun x => x.has f) = true) :
    ((s.handOnPost old n).faces.get f).dirty = true :=
  (wakeForNotice_dirt _ _ _ f).2 (markTargets_marks s _ f h)

theorem acceptFrame_facePlatforms (s : State) (p : Port) (sel : Face → Bool) : (s.acceptFrame p).facePlatforms sel = s.facePlatforms sel := by
  unfold State.facePlatforms
  congr 1; funext f; rw [acceptFrame_settings]

end Sys2Proof.Machine
end

