-- ==== Sys2Proof/Laws/Settle.lean ====
section
/-! SUPPORT. What working out an effective state does to a face: the state it reaches, what else it keeps, the other face, the panels, and the curve and face duties by the tables. -/

namespace Sys2Proof.Machine
-- one proof at a time: proofs elaborated at once would each take a thread of their own
set_option Elab.async false

/-- R97: the effective state looks at the input lines, the configured mode and the countdown. -/
theorem effState_congr {s t : State} {f : Face} (hl : t.lines = s.lines)
    (hm : (t.faces.get f).settings.modeOn = (s.faces.get f).settings.modeOn)
    (hc : (t.faces.get f).countdown = (s.faces.get f).countdown) : t.effState f = s.effState f := by
  unfold State.effState State.lampTestHeld State.blankHeld
  dsimp only
  rw [hl, hm, hc]

/-- R153: the face duty looks at the output, the effective state, the cap and the ambient level. -/
theorem faceDutyOf_congr {s t : State} {f : Face} (ho : (t.panels.get f).out = (s.panels.get f).out)
    (hs : (t.faces.get f).state = (s.faces.get f).state) (hc : (t.panels.get f).cap = (s.panels.get f).cap)
    (ha : t.ambient = s.ambient) : t.faceDutyOf f = s.faceDutyOf f := by
  unfold State.faceDutyOf
  rw [ho, hs, hc, ha]

/-! ## The painter's work -/

/-- Dropping a face's jobs leaves every panel but for a back bitmap. -/
theorem dropJobs_panels (s : State) (f g : Face) :
    { (s.dropJobs f).panels.get g with back := (s.panels.get g).back } = s.panels.get g := by
  have hb : ∀ (t : State) (j : Job), { (t.beginPaint j).panels.get g with back := (t.panels.get g).back } = t.panels.get g := by
    intro t j
    unfold State.beginPaint
    dsimp only
    rw [State.modPanel_panels, PerFace.get_set]
    split
    · rename_i h; subst h; rfl
    · rfl
  have hn : ∀ t : State, { t.painterNext.panels.get g with back := (t.panels.get g).back } = t.panels.get g := by
    intro t
    unfold State.painterNext
    split
    · rfl
    · rename_i j _; exact hb { t with painter := ⟨none, none⟩ } j
  unfold State.dropJobs
  dsimp only
  split
  · split
    · exact hn _
    · rfl
  · rfl

/-! ## The effects of a change of state -/

/-- What a change of effective state may do to its own composer. -/
theorem stateEffects_own (s : State) (f : Face) (old : EffState) :
    (s.stateEffects f old).faces.get f =
      match (s.faces.get f).state, old with
      | .dark, _ => { s.faces.get f with rebuild := .idle, inHand := none }
      | _, .dark => { s.faces.get f with restartPending := true, pass := false, dirty := true }
      | .lit, .lampTest | .woken, .lampTest => { s.faces.get f with dirty := true }
      | _, _ => s.faces.get f := by
  have hd : (s.enterDark f).faces.get f = { s.faces.get f with rebuild := .idle, inHand := none } := by
    show ((s.abandonRebuild f).faces.get f) = _
    unfold State.abandonRebuild
    rw [(dropJobs_only _ f).faces, State.modFace_faces, PerFace.get_set_same]
  have hl : (s.leaveDark f).faces.get f = { s.faces.get f with restartPending := true, pass := false, dirty := true } := by
    unfold State.leaveDark
    rw [State.modPanel_faces, State.modFace_faces, PerFace.get_set_same]
  have hm : (s.modFace f fun c => { c with dirty := true }).faces.get f = { s.faces.get f with dirty := true } := by
    rw [State.modFace_faces, PerFace.get_set_same]
  unfold State.stateEffects
  cases (s.faces.get f).state <;> cases old <;> first | exact hd | exact hl | exact hm | rfl

theorem stateEffects_other (s : State) {f g : Face} (h : g ≠ f) (old : EffState) :
    (s.stateEffects f old).faces.get g = s.faces.get g := by
  unfold State.stateEffects
  split
  · show ((s.abandonRebuild f).faces.get g) = _
    unfold State.abandonRebuild
    rw [(dropJobs_only _ f).faces, State.modFace_faces, PerFace.get_set_other _ _ h]
  · unfold State.leaveDark
    rw [State.modPanel_faces, State.modFace_faces, PerFace.get_set_other _ _ h]
  · rw [State.modFace_faces, PerFace.get_set_other _ _ h]
  · rw [State.modFace_faces, PerFace.get_set_other _ _ h]
  · rfl

/-- What a change of effective state may do to a panel, but for its back bitmap. -/
theorem stateEffects_panel (s : State) (f g : Face) (old : EffState) :
    { (s.stateEffects f old).panels.get g with back := (s.panels.get g).back } =
      if g = f then
        match (s.faces.get f).state, old with
        | .dark, _ => (s.panels.get f).turnOff
        | _, .dark => (s.panels.get f).start s.params.startDelay
        | _, _ => s.panels.get f
      else s.panels.get g := by
  have hd := dropJobs_panels (s.modFace f fun c => { c with rebuild := .idle, inHand := none }) f g
  rw [State.modFace_panels] at hd
  have e1 : (s.enterDark f).panels.get g = if g = f then
      ((s.modFace f fun c => { c with rebuild := .idle, inHand := none }).dropJobs f).panels.get f |>.turnOff
      else ((s.modFace f fun c => { c with rebuild := .idle, inHand := none }).dropJobs f).panels.get g := by
    show (((s.abandonRebuild f).modPanel f Panel.turnOff).panels.get g) = _
    rw [State.modPanel_panels, PerFace.get_set]
    rfl
  have e2 : (s.leaveDark f).panels.get g = if g = f then (s.panels.get f).start s.params.startDelay else s.panels.get g := by
    unfold State.leaveDark
    rw [State.modPanel_panels, PerFace.get_set]; rfl
  have e3 : { (s.modFace f fun c => { c with dirty := true }).panels.get g with back := (s.panels.get g).back } = s.panels.get g := rfl
  unfold State.stateEffects
  by_cases h : g = f
  · subst h
    rw [if_pos rfl] at e1 e2
    rw [if_pos rfl]
    have k1 : { (s.enterDark g).panels.get g with back := (s.panels.get g).back } = (s.panels.get g).turnOff := by
      rw [e1, ← hd]; rfl
    have k2 : { (s.leaveDark g).panels.get g with back := (s.panels.get g).back } = (s.panels.get g).start s.params.startDelay := by
      rw [e2]; unfold Panel.start; split <;> rfl
    cases (s.faces.get g).state <;> cases old <;> first | exact k1 | exact k2 | exact e3
  · rw [if_neg h] at e1 e2
    rw [if_neg h]
    have k1 : { (s.enterDark f).panels.get g with back := (s.panels.get g).back } = s.panels.get g := by
      rw [e1]; exact hd
    have k2 : { (s.leaveDark f).panels.get g with back := (s.panels.get g).back } = s.panels.get g := by
      rw [e2]
    cases (s.faces.get f).state <;> cases old <;> first | exact k1 | exact k2 | exact e3

/-! ## settle -/

theorem settle_other (s : State) {f g : Face} (h : g ≠ f) : (s.settle f).faces.get g = s.faces.get g := by
  unfold State.settle
  dsimp only
  split
  · rfl
  · show (((s.modFace f fun c => { c with state := s.effState f }).stateEffects f _).faces.get g) = _
    rw [stateEffects_other _ h, State.modFace_faces, PerFace.get_set_other _ _ h]

/-- What working out the effective state leaves of its own composer, and what it may change. -/
theorem settle_own (s : State) (f : Face) :
    let c := s.faces.get f
    let d := (s.settle f).faces.get f
    d = { c with state := s.effState f, dirty := d.dirty, rebuild := d.rebuild, inHand := d.inHand,
                 restartPending := d.restartPending, pass := d.pass } ∧
      (c.restartPending = true → d.restartPending = true) ∧ (c.pass = false → d.pass = false) := by
  dsimp only
  unfold State.settle
  dsimp only
  split
  · rename_i h; rw [h]; exact ⟨rfl, id, id⟩
  · have e : ((((s.modFace f fun c => { c with state := s.effState f }).stateEffects f (s.faces.get f).state).recomputeDuties f).faces.get f)
        = (((s.modFace f fun c => { c with state := s.effState f }).stateEffects f (s.faces.get f).state).faces.get f) := rfl
    rw [e, stateEffects_own, State.modFace_faces, PerFace.get_set_same]
    split <;> exact ⟨rfl, by first | exact id | exact fun _ => rfl, by first | exact id | exact fun _ => rfl⟩

theorem settle_state (s : State) (f : Face) : ((s.settle f).faces.get f).state = s.effState f := by
  rw [(settle_own s f).1]

theorem settle_settings (s : State) (f g : Face) : ((s.settle f).faces.get g).settings = (s.faces.get g).settings := by
  by_cases h : g = f
  · subst h; rw [(settle_own s g).1]
  · rw [settle_other _ h]

theorem settle_countdown (s : State) (f g : Face) : ((s.settle f).faces.get g).countdown = (s.faces.get g).countdown := by
  by_cases h : g = f
  · subst h; rw [(settle_own s g).1]
  · rw [settle_other _ h]

theorem settle_effState (s : State) (f g : Face) : (s.settle f).effState g = s.effState g :=
  effState_congr (settle_only s f).lines (by rw [settle_settings]) (settle_countdown s f g)

/-- After its effective state is worked out, a face's state is the one R97 gives. -/
theorem settle_settled (s : State) (f : Face) : ((s.settle f).faces.get f).state = (s.settle f).effState f := by
  rw [settle_state, settle_effState]

/-! ## The curve duty and the face duty by the tables (R152, R153) -/

theorem curveFrom_last (al : Nat) (l : CurvePoint) : ∀ (before : List CurvePoint), l.amb ≤ al → (∀ p ∈ before, p.amb ≤ al) → curveFrom al (before ++ [l]) = l.duty
  | [], _, _ => rfl
  | [p], hl, _ => by
    rw [List.singleton_append, curveFrom, if_neg (by omega), curveFrom]
  | p :: q :: rest, hl, h => by
    have hq := h q (by simp)
    rw [List.cons_append, List.cons_append, curveFrom, if_neg (by omega)]
    exact curveFrom_last al l (q :: rest) hl (fun x hx => h x (by simp [hx]))

theorem curveFrom_segment (al : Nat) (p q : CurvePoint) (after : List CurvePoint) (h2 : al < q.amb) : ∀ (before : List CurvePoint), p.amb ≤ al →
    (∀ x ∈ before, x.amb ≤ al) →
    curveFrom al (before ++ p :: q :: after) = p.duty + (al - p.amb) * (q.duty - p.duty) / (q.amb - p.amb)
  | [], _, _ => by rw [List.nil_append, curveFrom, if_pos h2]
  | [x], h1, _ => by
    rw [List.singleton_append, curveFrom, if_neg (by omega), curveFrom, if_pos h2]
  | x :: y :: rest, h1, h => by
    have hy := h y (by simp)
    rw [List.cons_append, List.cons_append, curveFrom, if_neg (by omega)]
    exact curveFrom_segment al p q after h2 (y :: rest) h1 (fun z hz => h z (by simp [hz]))

theorem curve_points (v : Vector CurvePoint 8) : v.toList = [v[0], v[1], v[2], v[3], v[4], v[5], v[6], v[7]] := by
  obtain ⟨⟨l⟩, hl⟩ := v
  match l, hl with
  | [a, b, c, d, e, f, g, i], _ => rfl

/-- R152: the curve duty by the table. -/
theorem curve_table (curve : Vector CurvePoint 8) (al : Nat)
    (h : ∀ i : Fin 7, curve[i.val].amb < curve[i.val + 1].amb ∧ curve[i.val].duty ≤ curve[i.val + 1].duty) :
    (al ≤ curve[0].amb → curveDuty curve al = curve[0].duty) ∧
    (curve[7].amb ≤ al → curveDuty curve al = curve[7].duty) ∧
    ∀ i : Fin 7, curve[i.val].amb ≤ al → al < curve[i.val + 1].amb →
      curveDuty curve al = curve[i.val].duty
        + (al - curve[i.val].amb) * (curve[i.val + 1].duty - curve[i.val].duty)
          / (curve[i.val + 1].amb - curve[i.val].amb) := by
  have h0 := (h 0).1
  have h1 := (h 1).1
  have h2 := (h 2).1
  have h3 := (h 3).1
  have h4 := (h 4).1
  have h5 := (h 5).1
  have h6 := (h 6).1
  simp only [Fin.val_zero, Fin.val_one, Fin.val_two, Nat.zero_add, Nat.reduceAdd, show (3 : Fin 7).val = 3 from rfl, show (4 : Fin 7).val = 4 from rfl, show (5 : Fin 7).val = 5 from rfl, show (6 : Fin 7).val = 6 from rfl] at h0 h1 h2 h3 h4 h5 h6
  refine ⟨fun ha => by unfold curveDuty; rw [if_pos ha], fun ha => ?_, fun i ha hb => ?_⟩
  · unfold curveDuty
    rw [if_neg (by omega), curve_points]
    exact curveFrom_last al curve[7] [curve[0], curve[1], curve[2], curve[3], curve[4], curve[5], curve[6]] ha (by simp; omega)
  · unfold curveDuty
    by_cases hz : al ≤ curve[0].amb
    · rw [if_pos hz]
      have : i = 0 := by
        obtain ⟨i, hi⟩ := i
        rcases (by omega : i = 0 ∨ i = 1 ∨ i = 2 ∨ i = 3 ∨ i = 4 ∨ i = 5 ∨ i = 6) with h|h|h|h|h|h|h <;> subst h <;> first | rfl | (dsimp only at ha; omega)
      subst this
      simp only [Fin.val_zero] at ha ⊢
      rw [show al - curve[0].amb = 0 by omega]; simp
    · rw [if_neg hz, curve_points]
      obtain ⟨i, hi⟩ := i
      rcases (by omega : i = 0 ∨ i = 1 ∨ i = 2 ∨ i = 3 ∨ i = 4 ∨ i = 5 ∨ i = 6) with h|h|h|h|h|h|h <;> subst h <;> dsimp only at ha hb ⊢
      · exact curveFrom_segment al _ _ _ hb [] ha (by simp)
      · exact curveFrom_segment al _ _ _ hb [curve[0]] ha (by simp; omega)
      · exact curveFrom_segment al _ _ _ hb [curve[0], curve[1]] ha (by simp; omega)
      · exact curveFrom_segment al _ _ _ hb [curve[0], curve[1], curve[2]] ha (by simp; omega)
      · exact curveFrom_segment al _ _ _ hb [curve[0], curve[1], curve[2], curve[3]] ha (by simp; omega)
      · exact curveFrom_segment al _ _ _ hb [curve[0], curve[1], curve[2], curve[3], curve[4]] ha (by simp; omega)
      · exact curveFrom_segment al _ _ _ hb [curve[0], curve[1], curve[2], curve[3], curve[4], curve[5]] ha (by simp; omega)

/-- R153: the face duty by the table. -/
theorem faceDutyOf_table (f : Face) (s : State) : s.faceDutyOf f =
    if (s.panels.get f).out ≠ .driving ∨ (s.faces.get f).state = .dark then 0
    else if (s.faces.get f).state = .lampTest then (s.panels.get f).cap
    else min (curveDuty s.ambient.curve s.ambient.level) (s.panels.get f).cap := by
  unfold State.faceDutyOf
  cases (s.panels.get f).out <;> cases (s.faces.get f).state <;> simp

end Sys2Proof.Machine
end

