-- ==== Sys2Proof/Laws/Params.lean ====
section
/-! SUPPORT. Parameters: a value written in its range reads back, every other parameter stands, a silence limit or stale action written governs, and face work touches none. -/

namespace Sys2Proof.Machine
-- one proof at a time: proofs elaborated at once would each take a thread of their own
set_option Elab.async false

/-! ## Codes and numbers read back -/

theorem be16_nat16 (a b : Byte) : be16 (nat16 a b) = [a, b] := by
  have h1 := a.isLt
  have h2 := b.isLt
  unfold be16 nat16 byte
  have e1 : (a.toNat * 256 + b.toNat) / 256 = a.toNat := by omega
  rw [e1]
  simp only [BitVec.ofNat_toNat, BitVec.setWidth_eq, List.cons.injEq, and_true, true_and]
  apply BitVec.eq_of_toNat_eq
  simp only [BitVec.toNat_ofNat]
  omega

theorem beValue_one (a : Byte) : beValue [a] = a.toNat := by simp [beValue]

theorem beValue_two (a b : Byte) : beValue [a, b] = nat16 a b := by simp [beValue, nat16]

theorem readBaud_eq {n : Nat} {x : Baud} (h : readBaud n = some x) : x.code = n := by
  unfold readBaud at h; split at h <;> cases h <;> rfl

theorem readStale_eq {n : Nat} {x : Stale} (h : readStale n = some x) : x.code = n := by
  unfold readStale at h; split at h <;> cases h <;> rfl

theorem readUnit_eq {n : Nat} {x : TimerUnit} (h : readUnit n = some x) : x.code = n := by
  unfold readUnit at h; split at h <;> cases h <;> rfl

theorem readMode_eq {n : Nat} {x : TimerMode} (h : readMode n = some x) : x.code = n := by
  unfold readMode at h; split at h <;> cases h <;> rfl

theorem readFunction_eq {n : Nat} {x : LineFunction} (h : readFunction n = some x) : x.code = n := by
  unfold readFunction at h; split at h <;> cases h <;> rfl

theorem readFaceSel_eq {n : Nat} {x : FaceSel} (h : readFaceSel n = some x) : x.code = n := by
  unfold readFaceSel at h; split at h <;> cases h <;> rfl

/-- R152, R183: the points of a curve value are written as they were read. -/
theorem readPoints_bytes : ∀ (n : Nat) (value : List Byte), value.length = 3 * n →
    (readPoints value).length = n ∧ (readPoints value).flatMap (fun x => be16 x.amb ++ [byte x.duty]) = value
  | 0, value, h => by
    have : value = [] := List.eq_nil_of_length_eq_zero (by omega)
    subst this; exact ⟨rfl, rfl⟩
  | n + 1, value, h => by
    match value, h with
    | a :: b :: d :: rest, h =>
      have ih := readPoints_bytes n rest (by simp at h; omega)
      refine ⟨by simp [readPoints, ih.1], ?_⟩
      simp only [readPoints, List.flatMap_cons, ih.2, be16_nat16, byte_of_toNat, List.cons_append, List.nil_append]

theorem curveOf_toList {points : List CurvePoint} (h : points.length = 8) : (curveOf points).toList = points := by
  match points, h with
  | [a, b, c, d, e, f, g, i], _ => rfl

/-! ## Reading a parameter -/

/-- The parameters of two states are the same where the parts that hold them are. -/
theorem readParam_congr {s t : State} (h1 : t.params = s.params)
    (h2 : ∀ i : Fin 6, t.timers[i].reload = s.timers[i].reload ∧ t.timers[i].unit = s.timers[i].unit ∧ t.timers[i].mode = s.timers[i].mode)
    (h3 : t.ambient.curve = s.ambient.curve)
    (h4 : ∀ f, (t.panels.get f).cap = (s.panels.get f).cap ∧ (t.panels.get f).trims = (s.panels.get f).trims)
    (h5 : ∀ l : Fin 4, t.lines[l].function = s.lines[l].function ∧ t.lines[l].face = s.lines[l].face
      ∧ t.lines[l].sense = s.lines[l].sense ∧ t.lines[l].debounce = s.lines[l].debounce)
    (h6 : ∀ p, (t.ports.get p).baud = (s.ports.get p).baud ∧ (t.ports.get p).limit = (s.ports.get p).limit
      ∧ (t.ports.get p).stale = (s.ports.get p).stale) (q : Param) : t.readParam q = s.readParam q := by
  cases q <;> simp only [State.readParam, h1, (h2 _).1, (h2 _).2.1, (h2 _).2.2, h3, (h4 _).1, (h4 _).2, (h5 _).1, (h5 _).2.1,
    (h5 _).2.2.1, (h5 _).2.2.2, (h6 _).1, (h6 _).2.1, (h6 _).2.2]

/-! ## Writing a parameter -/

/-- The settings of the timer, line, panel or port that a write changes. -/
theorem modTimer_get (s : State) (i j : Fin 6) (g : Timer → Timer) :
    (s.modTimer i g).timers[j] = if i = j then g s.timers[i] else s.timers[j] := by
  unfold State.modTimer
  simp only [Fin.getElem_fin, Vector.getElem_set]
  by_cases h : i = j
  · subst h; simp
  · rw [if_neg h, if_neg (fun e => h (Fin.ext e))]

theorem modLine_get (s : State) (i j : Fin 4) (g : InputLine → InputLine) :
    (s.modLine i g).lines[j] = if i = j then g s.lines[i] else s.lines[j] := by
  unfold State.modLine
  simp only [Fin.getElem_fin, Vector.getElem_set]
  by_cases h : i = j
  · subst h; simp
  · rw [if_neg h, if_neg (fun e => h (Fin.ext e))]

theorem length_one {v : List Byte} (h : v.length = 1) : ∃ a, v = [a] := List.length_eq_one_iff.mp h

theorem length_two {v : List Byte} (h : v.length = 2) : ∃ a b, v = [a, b] := List.length_eq_two.mp h

/-- R183: a value in its range reads back after it is written. -/
theorem readParam_written (s : State) (q : Param) (value : List Byte) (hl : value.length = q.bytes) (ha : q.accepts value = true) :
    (s.writeParam q value).readParam q = value := by
  have one : ∀ a : Byte, [byte a.toNat] = [a] := fun a => by rw [byte_of_toNat]
  have opt : ∀ {α : Type} {o : Option α} (d : α), o.isSome = true → o = some (o.getD d) := by
    intro α o d h; cases o <;> first | rfl | cases h
  cases q
  case ro => obtain ⟨a, b, rfl⟩ := length_two hl; show be16 (beValue [a, b]) = _; rw [beValue_two, be16_nat16]
  case checkInterval => obtain ⟨a, b, rfl⟩ := length_two hl; show be16 (beValue [a, b]) = _; rw [beValue_two, be16_nat16]
  case linger | unknownHold | wakeWindow | wakeHold | rotateDepth | tickerHold | framePeriod | startDelay =>
    obtain ⟨a, rfl⟩ := length_one hl
    show [byte (beValue [a])] = _
    rw [beValue_one, one]
  case reload i =>
    obtain ⟨a, b, rfl⟩ := length_two hl
    show be16 (State.modTimer _ _ _).timers[i].reload = _
    rw [modTimer_get, if_pos rfl]
    show be16 (beValue [a, b]) = _; rw [beValue_two, be16_nat16]
  case unit i =>
    obtain ⟨a, rfl⟩ := length_one hl
    show [byte (State.modTimer _ _ _).timers[i].unit.code] = _
    rw [modTimer_get, if_pos rfl]
    show [byte ((readUnit (beValue [a])).getD s.timers[i].unit).code] = _
    rw [readUnit_eq (opt _ ha), beValue_one, one]
  case mode i =>
    obtain ⟨a, rfl⟩ := length_one hl
    show [byte (State.modTimer _ _ _).timers[i].mode.code] = _
    rw [modTimer_get, if_pos rfl]
    show [byte ((readMode (beValue [a])).getD s.timers[i].mode).code] = _
    rw [readMode_eq (opt _ ha), beValue_one, one]
  case curve =>
    have := readPoints_bytes 8 value hl
    show (curveOf (readPoints value)).toList.flatMap _ = _
    rw [curveOf_toList this.1, this.2]
  case cap f =>
    obtain ⟨a, rfl⟩ := length_one hl
    show [byte ((State.modPanel _ _ _).panels.get f).cap] = _
    rw [State.modPanel_panels, PerFace.get_set_same, beValue_one, one]
  case trim f m =>
    obtain ⟨a, rfl⟩ := length_one hl
    show [byte ((State.modPanel _ _ _).panels.get f).trims[m]] = _
    rw [State.modPanel_panels, PerFace.get_set_same, beValue_one]
    simp [byte_of_toNat]
  case baud p =>
    obtain ⟨a, rfl⟩ := length_one hl
    show [byte ((State.modPort _ _ _).ports.get p).baud.code] = _
    rw [State.modPort_ports, PerPort.get_set_same]
    show [byte ((readBaud (beValue [a])).getD (s.ports.get p).baud).code] = _
    rw [readBaud_eq (opt _ ha), beValue_one, one]
  case limit p =>
    obtain ⟨a, b, rfl⟩ := length_two hl
    show be16 ((State.modPort _ _ _).ports.get p).limit = _
    rw [State.modPort_ports, PerPort.get_set_same]
    show be16 (beValue [a, b]) = _; rw [beValue_two, be16_nat16]
  case stale p =>
    obtain ⟨a, rfl⟩ := length_one hl
    show [byte ((State.modPort _ _ _).ports.get p).stale.code] = _
    rw [State.modPort_ports, PerPort.get_set_same]
    show [byte ((readStale (beValue [a])).getD (s.ports.get p).stale).code] = _
    rw [readStale_eq (opt _ ha), beValue_one, one]
  case line l =>
    match value, hl with
    | [a, b, c, d], _ =>
      have h : (readLine [a, b, c, d]).isSome = true := ha
      obtain ⟨x, hx⟩ := Option.isSome_iff_exists.mp h
      have e : s.writeParam (.line l) [a, b, c, d] = s.modLine l (InputLine.write x) := by
        unfold State.writeParam; dsimp only; rw [hx]
      rw [e]
      simp only [State.readParam, modLine_get, if_pos]
      have hx' := hx
      unfold readLine at hx'
      dsimp only at hx'
      split at hx'
      · rename_i fn sel h1 h2
        split at hx'
        · cases hx'
          simp only [InputLine.write, readFunction_eq h1, readFaceSel_eq h2, byte_of_toNat]
        · cases hx'
      · cases hx'

/-- R183: a write leaves every other parameter. -/
theorem readParam_other (s : State) {q other : Param} (value : List Byte) (h : other ≠ q) :
    (s.writeParam q value).readParam other = s.readParam other := by
  have tm : ∀ (i : Fin 6) (g : Timer → Timer), (∀ r, other = .reload r → i = r → ∀ x, (g x).reload = x.reload) →
      (∀ r, other = .unit r → i = r → ∀ x, (g x).unit = x.unit) → (∀ r, other = .mode r → i = r → ∀ x, (g x).mode = x.mode) →
      (s.modTimer i g).readParam other = s.readParam other := by
    intro i g h1 h2 h3
    cases other <;> first
      | rfl
      | (rename_i r
         simp only [State.readParam, modTimer_get]
         split
         · rename_i e; subst e; first | rw [h1 _ rfl rfl] | rw [h2 _ rfl rfl] | rw [h3 _ rfl rfl]
         · rfl)
  have pn : ∀ (f : Face) (g : Panel → Panel), (other = .cap f → ∀ x, (g x).cap = x.cap) →
      (∀ m, other = .trim f m → ∀ x, (g x).trims[m] = x.trims[m]) → (s.modPanel f g).readParam other = s.readParam other := by
    intro f g h1 h2
    cases other <;> first
      | rfl
      | (rename_i r
         simp only [State.readParam, State.modPanel_panels, PerFace.get_set]
         split
         · rename_i e; subst e; rw [h1 rfl]
         · rfl)
      | (rename_i r m
         simp only [State.readParam, State.modPanel_panels, PerFace.get_set]
         split
         · rename_i e; subst e; rw [h2 _ rfl]
         · rfl)
  have pt : ∀ (p : Port) (g : LinkPort → LinkPort), (other = .baud p → ∀ x, (g x).baud = x.baud) →
      (other = .limit p → ∀ x, (g x).limit = x.limit) → (other = .stale p → ∀ x, (g x).stale = x.stale) →
      (s.modPort p g).readParam other = s.readParam other := by
    intro p g h1 h2 h3
    cases other <;> first
      | rfl
      | (rename_i r
         simp only [State.readParam, State.modPort_ports, PerPort.get_set]
         split
         · rename_i e; subst e; first | rw [h1 rfl] | rw [h2 rfl] | rw [h3 rfl]
         · rfl)
  cases q
  case ro | linger | unknownHold | wakeWindow | wakeHold | rotateDepth | tickerHold | framePeriod | checkInterval | startDelay | curve =>
    cases other <;> first | rfl | exact absurd rfl h
  case reload i => exact tm i _ (fun r e e2 => absurd (e2 ▸ e) h) (fun _ _ _ _ => rfl) (fun _ _ _ _ => rfl)
  case unit i => exact tm i _ (fun _ _ _ _ => rfl) (fun r e e2 => absurd (e2 ▸ e) h) (fun _ _ _ _ => rfl)
  case mode i => exact tm i _ (fun _ _ _ _ => rfl) (fun _ _ _ _ => rfl) (fun r e e2 => absurd (e2 ▸ e) h)
  case cap f => exact pn f _ (fun e => absurd e h) (fun _ _ _ => rfl)
  case trim f m =>
    refine pn f _ (fun _ _ => rfl) (fun k e x => ?_)
    have hk : ¬ m.val = k.val := fun e2 => h (by rw [e, Fin.ext e2])
    simp [hk]
  case baud p => exact pt p _ (fun e => absurd e h) (fun _ _ => rfl) (fun _ _ => rfl)
  case limit p => exact pt p _ (fun _ _ => rfl) (fun e => absurd e h) (fun _ _ => rfl)
  case stale p => exact pt p _ (fun _ _ => rfl) (fun _ _ => rfl) (fun e => absurd e h)
  case line l =>
    unfold State.writeParam
    dsimp only
    split
    · cases other <;> first
        | rfl
        | (rename_i x hx r
           simp only [State.readParam, modLine_get]
           split
           · rename_i e; subst e; exact absurd rfl h
           · rfl)
    · rfl

/-! ## What a write does to a port -/

/-- R163, R169, R170, R183: what a write of a parameter does to a port. -/
theorem writeParam_port (s : State) (q : Param) (value : List Byte) (o : Port) :
    (s.writeParam q value).ports.get o =
      if q = .baud o then (s.ports.get o).setBaud ((readBaud (beValue value)).getD (s.ports.get o).baud)
      else if q = .limit o then (s.ports.get o).setLimit (beValue value)
      else if q = .stale o then (s.ports.get o).setStale ((readStale (beValue value)).getD (s.ports.get o).stale)
      else s.ports.get o := by
  cases q
  case baud p | limit p | stale p =>
    unfold State.writeParam
    dsimp only
    rw [State.modPort_ports, PerPort.get_set]
    by_cases h : o = p
    · subst h; simp
    · have h' : ¬ p = o := fun e => h e.symm
      simp [h, h']
  case line l =>
    unfold State.writeParam
    dsimp only
    split <;> simp [State.modLine]
  all_goals simp [State.writeParam, State.modTimer, State.modPanel]

/-- R169, R183: a write puts the silence limit and the stale action it writes in force, and leaves those it does not. -/
theorem writeParam_inForce (s : State) (q : Param) (value : List Byte) (o : Port) :
    ((s.writeParam q value).ports.get o).limitInForce
        = (if q = .limit o then ((s.writeParam q value).ports.get o).limit else (s.ports.get o).limitInForce) ∧
      ((s.writeParam q value).ports.get o).staleInForce
        = (if q = .stale o then ((s.writeParam q value).ports.get o).stale else (s.ports.get o).staleInForce) ∧
      (q ≠ .limit o → ((s.writeParam q value).ports.get o).limit = (s.ports.get o).limit) ∧
      (q ≠ .stale o → ((s.writeParam q value).ports.get o).stale = (s.ports.get o).stale) ∧
      ((s.writeParam q value).ports.get o).count = (s.ports.get o).count ∧
      ((s.writeParam q value).ports.get o).silent = (s.ports.get o).silent := by
  rw [writeParam_port]
  by_cases h1 : q = .baud o
  · subst h1; simp [LinkPort.setBaud]
  by_cases h2 : q = .limit o
  · subst h2; simp [LinkPort.setLimit]
  by_cases h3 : q = .stale o
  · subst h3; simp [LinkPort.setStale]
  · simp [h1, h2, h3]

/-! ## Face work touches no parameter -/

/-- The cap and the trims of every panel stand. -/
def KeepsCaps (s t : State) : Prop :=
  ∀ g, (t.panels.get g).cap = (s.panels.get g).cap ∧ (t.panels.get g).trims = (s.panels.get g).trims

theorem KeepsCaps.refl (s : State) : KeepsCaps s s := fun _ => ⟨rfl, rfl⟩

theorem KeepsCaps.of_panels {s t : State} (h : t.panels = s.panels) : KeepsCaps s t := by
  intro g; rw [h]; exact ⟨rfl, rfl⟩

theorem KeepsCaps.trans {s t u : State} (h : KeepsCaps s t) (k : KeepsCaps t u) : KeepsCaps s u :=
  fun g => ⟨(k g).1.trans (h g).1, (k g).2.trans (h g).2⟩

theorem KeepsCaps.ite {s t u : State} {c : Prop} [Decidable c] (h : KeepsCaps s t) (k : KeepsCaps s u) :
    KeepsCaps s (if c then t else u) := by
  split <;> assumption

theorem KeepsCaps.eachFace {s : State} {g : Face → State → State} (h : ∀ f t, KeepsCaps t (g f t)) :
    KeepsCaps s (s.eachFace g) := (h .a s).trans (h .b _)

theorem KeepsCaps.modPanel {s : State} {f : Face} {g : Panel → Panel} (h : ∀ p, (g p).cap = p.cap ∧ (g p).trims = p.trims) :
    KeepsCaps s (s.modPanel f g) := by
  intro k
  rw [State.modPanel_panels, PerFace.get_set]
  split
  · rename_i he; subst he; exact h _
  · exact ⟨rfl, rfl⟩

theorem recomputeDuties_caps (s : State) (f : Face) : KeepsCaps s (s.recomputeDuties f) := KeepsCaps.modPanel fun _ => ⟨rfl, rfl⟩

theorem stateEffects_caps (s : State) (f : Face) (old : EffState) : KeepsCaps s (s.stateEffects f old) := by
  intro g
  have h := stateEffects_panel s f g old
  have start : ∀ (d : Nat) (p : Panel), (p.start d).cap = p.cap ∧ (p.start d).trims = p.trims := by
    intro d p; unfold Panel.start; split <;> exact ⟨rfl, rfl⟩
  have hc := congrArg Panel.cap h
  have ht := congrArg Panel.trims h
  dsimp only at hc ht
  rw [hc, ht]
  split
  · rename_i e; subst e
    split
    · exact ⟨rfl, rfl⟩
    · exact start _ _
    · exact ⟨rfl, rfl⟩
  · exact ⟨rfl, rfl⟩

theorem settle_caps (s : State) (f : Face) : KeepsCaps s (s.settle f) := by
  unfold State.settle
  dsimp only
  refine KeepsCaps.ite (KeepsCaps.refl _) ?_
  exact (KeepsCaps.trans (t := s.modFace f fun c => { c with state := s.effState f }) (KeepsCaps.of_panels rfl)
    (stateEffects_caps _ f _)).trans (recomputeDuties_caps _ f)

theorem touch_caps (s : State) (pls : List Nat) : KeepsCaps s (s.touch pls) :=
  KeepsCaps.trans
    (KeepsCaps.of_panels (OnlyIn.eachFace fun f t => OnlyIn.ite
      (((markDirty_only t f).trans (departureWake_only _ f))) (OnlyIn.refl [.faces] _)).panels)
    (KeepsCaps.eachFace fun f t => KeepsCaps.ite (settle_caps t f) (KeepsCaps.refl t))

theorem markBoth_caps (s : State) : KeepsCaps s s.markBoth := KeepsCaps.of_panels rfl

theorem paramEffects_caps (s before : State) (q : Param) : KeepsCaps s (s.paramEffects before q) := by
  unfold State.paramEffects
  split
  all_goals first
    | exact KeepsCaps.refl _
    | exact markBoth_caps _
    | exact recomputeDuties_caps _ _
    | exact (touch_caps _ _).trans (markBoth_caps _)
    | exact KeepsCaps.eachFace fun f t => recomputeDuties_caps t f
    | exact KeepsCaps.eachFace fun f t => KeepsCaps.ite (settle_caps t f) (KeepsCaps.refl _)

/-- Face work that keeps the caps and trims leaves every parameter. -/
theorem readParam_faceWork {s t : State} (h : OnlyIn faceParts s t) (k : KeepsCaps s t) (q : Param) :
    t.readParam q = s.readParam q := by
  refine readParam_congr h.params (fun i => ?_) (by rw [h.ambient]) k (fun l => ?_) (fun p => ?_) q
  · rw [h.timers]; exact ⟨rfl, rfl, rfl⟩
  · rw [h.lines]; exact ⟨rfl, rfl, rfl, rfl⟩
  · rw [h.ports]; exact ⟨rfl, rfl, rfl⟩

end Sys2Proof.Machine
end

