-- ==== Sys2Proof/Laws/Effects.lean ====
section
/-! SUPPORT. The effects of a change of effective state and the wakes of a touched platform, as Safety writes them: what working out a state, touching platforms and looking at one face again do. -/

namespace Sys2Proof.Machine
-- one proof at a time: proofs elaborated at once would each take a thread of their own
set_option Elab.async false

/-! ## Holdings and effective states -/

theorem any_lines (lines : Vector InputLine 4) (g : InputLine → Bool) :
    lines.toList.any g = true ↔ ∃ l : Fin 4, g lines[l] = true := by
  rw [List.any_eq_true]
  constructor
  · rintro ⟨x, hx, hg⟩
    obtain ⟨i, hi, rfl⟩ := List.mem_iff_getElem.mp hx
    exact ⟨⟨i, by simpa using hi⟩, by simpa using hg⟩
  · rintro ⟨l, hl⟩
    exact ⟨lines[l], by simp, hl⟩

theorem active_iff (line : InputLine) (fn : LineFunction) (h : fn = .blank ∨ fn = .lampTest) :
    ((line.function == fn) && line.active) = true ↔
      line.function = fn ∧ line.settled = if line.sense = 0 then .high else .low := by
  unfold InputLine.active
  rcases h with rfl | rfl <;> by_cases hs : line.sense = 0 <;> cases hf : line.function <;> simp [hs]

theorem lampTestHeld_iff (s : State) : s.lampTestHeld = true ↔ s.heldLamp := by
  unfold State.lampTestHeld State.heldLamp State.lineHolds
  rw [any_lines]
  exact exists_congr fun l => active_iff _ _ (.inr rfl)

theorem blankHeld_iff (s : State) (f : Face) : s.blankHeld f = true ↔ s.heldBlank f := by
  unfold State.blankHeld State.heldBlank State.lineHolds
  rw [any_lines]
  refine exists_congr fun l => ?_
  rw [← active_iff _ _ (.inl rfl)]
  simp only [Bool.and_eq_true]
  tauto

/-- R97: the effective state is that of the first condition that holds. -/
theorem effState_eq (s : State) (f : Face) : s.effState f = s.stateByRule f := by
  unfold State.effState State.stateByRule
  dsimp only
  by_cases hl : s.lampTestHeld = true
  · rw [if_pos hl, if_pos ((lampTestHeld_iff s).mp hl)]
  · rw [if_neg hl, if_neg fun h => hl ((lampTestHeld_iff s).mpr h)]
    have hb := blankHeld_iff s f
    by_cases hd : s.heldBlank f ∨ ((s.faces.get f).settings.modeOn = false ∧ (s.faces.get f).countdown = 0)
    · rw [if_pos hd, if_pos]
      simp only [Bool.or_eq_true, Bool.and_eq_true, Bool.not_eq_true', beq_iff_eq, hb]
      exact hd
    · rw [if_neg hd, if_neg]
      · cases (s.faces.get f).settings.modeOn <;> rfl
      · simp only [Bool.or_eq_true, Bool.and_eq_true, Bool.not_eq_true', beq_iff_eq, hb]
        exact hd

/-! ## The effects of a change of state -/

/-- Dropping the jobs of a face leaves those of the others, and none of its own. -/
theorem dropJobs_paints (s : State) (f : Face) (j : Job) (h : (s.dropJobs f).paints j) : s.paints j ∧ j.face ≠ f := by
  have hw : ∀ j, (s.painter.waiting.filter fun j => decide (j.face ≠ f)) = some j → s.paints j ∧ j.face ≠ f := by
    intro j hj
    obtain ⟨h1, h2⟩ := Option.filter_eq_some_iff.mp hj
    exact ⟨.inr h1, by simpa using h2⟩
  unfold State.paints State.dropJobs at h
  dsimp only at h
  split at h
  · rename_i c hc
    split at h
    · rw [show (State.painterNext { s with painter := ⟨s.painter.current, s.painter.waiting.filter fun j => decide (j.face ≠ f)⟩ }).painter
        = ⟨s.painter.waiting.filter fun j => decide (j.face ≠ f), none⟩ by
          unfold State.painterNext
          cases (s.painter.waiting.filter fun j => decide (j.face ≠ f)) <;> rfl] at h
      rcases h with h | h
      · exact hw j h
      · cases h
    · rename_i hne
      rcases h with h | h
      · exact ⟨.inl h, by rw [hc] at h; cases h; exact hne⟩
      · exact hw j h
  · rename_i hc
    rcases h with h | h
    · rw [hc] at h; cases h
    · exact hw j h

theorem BackLeft.refl (s : State) (f : Face) : BackLeft s s f := ⟨fun _ _ => id, fun _ => rfl⟩

theorem BackLeft.of_eq {s t : State} (hp : t.panels = s.panels) (hj : t.painter = s.painter) (f : Face) : BackLeft s t f := by
  unfold BackLeft; rw [hp, hj]; exact ⟨fun _ _ => id, fun _ => rfl⟩

theorem BackLeft.trans {s u t : State} {f : Face} (h : BackLeft s u f) (k : BackLeft u t f) : BackLeft s t f :=
  ⟨fun j hj x => h.1 j hj (k.1 j hj x), fun stays => (k.2 fun j hj x => stays j hj (h.1 j hj x)).trans
    (h.2 fun j hj x => k.1 j hj (stays j hj x))⟩

/-- R137: the painter's work on the jobs that stay begins at most the plan that waits. -/
theorem dropJobs_back (s : State) (f g : Face) : BackLeft s (s.dropJobs f) g := by
  have hw : ∀ j, (s.painter.waiting.filter fun j => decide (j.face ≠ f)) = some j → s.painter.waiting = some j :=
    fun j hj => (Option.filter_eq_some_iff.mp hj).1
  unfold State.dropJobs
  dsimp only
  split
  · split
    · unfold State.painterNext
      dsimp only
      split
      · exact ⟨fun j _ h => (by cases h), fun _ => rfl⟩
      · rename_i j hj
        refine ⟨fun _ _ h => (by cases h), fun stays => ?_⟩
        unfold State.beginPaint at stays ⊢
        dsimp only at stays ⊢
        rw [State.modPanel_panels, PerFace.get_set]
        split
        · rename_i hg
          exact absurd (stays j hg.symm (hw j hj)) (by simp)
        · rfl
    · exact ⟨fun j _ h => hw j h, fun _ => rfl⟩
  · exact ⟨fun j _ h => hw j h, fun _ => rfl⟩

theorem stateEffects_back (s : State) (f g : Face) (old : EffState) : BackLeft s (s.stateEffects f old) g := by
  unfold State.stateEffects
  split
  · have h := dropJobs_back (s.modFace f fun c => { c with rebuild := .idle, inHand := none }) f g
    refine (show BackLeft s (s.abandonRebuild f) g from h).trans ⟨fun _ _ => id, fun _ => ?_⟩
    show (((s.abandonRebuild f).modPanel f Panel.turnOff).panels.get g).back = _
    rw [State.modPanel_panels, PerFace.get_set]
    split
    · rename_i hg; subst hg; rfl
    · rfl
  · refine ⟨fun _ _ => id, fun _ => ?_⟩
    unfold State.leaveDark
    rw [State.modPanel_panels, PerFace.get_set]
    split
    · rename_i hg; subst hg; rw [State.modFace_panels]; unfold Panel.start; split <;> rfl
    · rfl
  all_goals exact BackLeft.refl s g

theorem settle_back (s : State) (f g : Face) : BackLeft s (s.settle f) g := by
  unfold State.settle
  dsimp only
  split
  · exact BackLeft.refl s g
  · refine (show BackLeft s _ g from stateEffects_back (s.modFace f fun c => { c with state := s.effState f }) f g _).trans
      ⟨fun _ _ => id, fun _ => ?_⟩
    unfold State.recomputeDuties
    dsimp only
    rw [State.modPanel_panels, PerFace.get_set]
    split
    · rename_i hg; subst hg; rfl
    · rfl

/-- A change of effective state brings no plan to the painter. -/
theorem stateEffects_paints (s : State) (f : Face) (old : EffState) (j : Job) (h : (s.stateEffects f old).paints j) : s.paints j := by
  unfold State.stateEffects at h
  split at h
  · exact (dropJobs_paints (s.modFace f fun c => { c with rebuild := .idle, inHand := none }) f j h).1
  all_goals exact h

theorem settle_paints (s : State) (f : Face) (j : Job) (h : (s.settle f).paints j) : s.paints j := by
  unfold State.settle at h
  dsimp only at h
  split at h
  · exact h
  · exact stateEffects_paints (s.modFace f fun c => { c with state := s.effState f }) f _ j h

/-- The parts of a state that the effects on one face are read off before the change. -/
structure SameBefore (s s' : State) (f : Face) : Prop where
  state : (s'.faces.get f).state = (s.faces.get f).state
  calling : (s'.faces.get f).calling = (s.faces.get f).calling
  bottom : (s'.faces.get f).bottom = (s.faces.get f).bottom
  rebuild : (s'.faces.get f).rebuild = (s.faces.get f).rebuild
  inHand : (s'.faces.get f).inHand = (s.faces.get f).inHand
  lastPlan : (s'.faces.get f).lastPlan = (s.faces.get f).lastPlan
  serial : (s'.faces.get f).serial = (s.faces.get f).serial
  panel : { s'.panels.get f with back := (s.panels.get f).back } = s.panels.get f
  delay : s'.params.startDelay = s.params.startDelay
  ambient : s'.ambient = s.ambient
  dirty : (s.faces.get f).dirty = true → (s'.faces.get f).dirty = true
  restart : (s.faces.get f).restartPending = true → (s'.faces.get f).restartPending = true
  pass : (s.faces.get f).pass = false → (s'.faces.get f).pass = false
  jobs : ∀ j, j.face = f → s'.paints j → s.paints j
  back : BackLeft s s' f

/-- What the effects on one face are read off after the change: the same but for a back bitmap, a dirty mark set and
jobs of other faces gone. -/
structure SameAfter (t t' : State) (f : Face) : Prop where
  face : { t'.faces.get f with dirty := (t.faces.get f).dirty } = t.faces.get f
  dirty : (t.faces.get f).dirty = true → (t'.faces.get f).dirty = true
  panel : { t'.panels.get f with back := (t.panels.get f).back } = t.panels.get f
  jobs : ∀ j, j.face = f → t'.paints j → t.paints j
  back : BackLeft t t' f

theorem SameAfter.refl (t : State) (f : Face) : SameAfter t t f := ⟨rfl, id, rfl, fun _ _ => id, BackLeft.refl t f⟩

theorem SameAfter.of_eq {t t' : State} (hf : t'.faces = t.faces) (hp : t'.panels = t.panels) (hj : t'.painter = t.painter)
    (f : Face) : SameAfter t t' f := by
  refine ⟨by rw [hf], by rw [hf]; exact id, by rw [hp], fun j _ => ?_, BackLeft.of_eq hp hj f⟩
  unfold State.paints; rw [hj]; exact id

theorem SameAfter.trans {t u v : State} {f : Face} (h : SameAfter t u f) (k : SameAfter u v f) : SameAfter t v f where
  face := by
    have h1 := h.face; have k1 := k.face
    generalize t.faces.get f = a at *
    generalize u.faces.get f = b at *
    generalize v.faces.get f = c at *
    rw [← h1, ← k1]
  dirty := fun d => k.dirty (h.dirty d)
  panel := by
    have h1 := h.panel; have k1 := k.panel
    generalize t.panels.get f = a at *
    generalize u.panels.get f = b at *
    generalize v.panels.get f = c at *
    rw [← h1, ← k1]
  jobs := fun j hf n => h.jobs j hf (k.jobs j hf n)
  back := h.back.trans k.back

/-- The effects are read off the same parts in states that agree on them. -/
theorem StateEffects.congr {s s' t t' : State} {f : Face} (h : StateEffects s' t f) (hs : SameBefore s s' f) (ht : SameAfter t t' f) :
    StateEffects s t' f := by
  obtain ⟨b1, b2, b3, b4, b5, bl, bs, b6, b7, b8, b9, b10, b11, b12, bb⟩ := hs
  obtain ⟨a1, a2, a3, a4, ab⟩ := ht
  have p3 := congrArg Panel.out b6
  have p4 := congrArg Panel.startLeft b6
  have p5 := congrArg Panel.check b6
  have p6 := congrArg Panel.frame b6
  have p7 := congrArg Panel.faceDuty b6
  have p8 := congrArg Panel.duties b6
  have p9 := congrArg Panel.cap b6
  have p10 := congrArg Panel.trims b6
  have q3 := congrArg Panel.out a3
  have q4 := congrArg Panel.startLeft a3
  have q5 := congrArg Panel.check a3
  have q6 := congrArg Panel.frame a3
  have q7 := congrArg Panel.faceDuty a3
  have q8 := congrArg Panel.duties a3
  have f1 := congrArg Composer.state a1
  have f2 := congrArg Composer.calling a1
  have f3 := congrArg Composer.bottom a1
  have f4 := congrArg Composer.rebuild a1
  have f5 := congrArg Composer.inHand a1
  have f6 := congrArg Composer.restartPending a1
  have f7 := congrArg Composer.pass a1
  have f8 := congrArg Composer.lastPlan a1
  have f9 := congrArg Composer.serial a1
  dsimp only at p3 p4 p5 p6 p7 p8 p9 p10 q3 q4 q5 q6 q7 q8 f1 f2 f3 f4 f5 f6 f7 f8 f9
  unfold StateEffects at h ⊢
  dsimp only at h ⊢
  have e3 := h.2.2.2.2.1
  have panels : { t'.panels.get f with
      back := (s.panels.get f).back, out := (s.panels.get f).out, startLeft := (s.panels.get f).startLeft
      check := (s.panels.get f).check, frame := (s.panels.get f).frame, faceDuty := (s.panels.get f).faceDuty
      duties := (s.panels.get f).duties } = s.panels.get f := by
    generalize t'.panels.get f = q' at a3 ⊢
    generalize t.panels.get f = q at a3 e3 ⊢
    generalize s'.panels.get f = p' at b6 e3 ⊢
    generalize s.panels.get f = p at b6 ⊢
    rw [← a3] at e3
    rw [← b6]
    dsimp only at e3 ⊢
    rw [← e3]
  rw [b1, b2, b3, b4, b5, bl, bs, b7, b8, p3, p4, p5, p6, p7, p8, p9, p10] at h
  rw [q3, q4, q5, q6, q7, q8, f1, f2, f3, f4, f5, f6, f7, f8, f9]
  obtain ⟨e1, e2, el, es, _, e4, m1, m2, m3, m4, e5, e6, e7, e8, e9⟩ := h
  refine ⟨e1, e2, el, es, ?_, (bb.trans e4).trans ab, fun x => a2 (m1 (b9 x)),
    fun x => m2 (b10 x), fun x => m3 (b11 x), fun j hj x => b12 j hj (m4 j hj (a4 j hj x)), fun x y => ?_, e6, fun x y => ?_,
    fun x y => a2 (e8 x y), e9⟩
  · exact panels
  · obtain ⟨u1, u2, u3, u4⟩ := e5 x y
    exact ⟨u1, u2, fun j hj he => u3 j (a4 j he hj) he, u4⟩
  · obtain ⟨u1, u2, u3, u4⟩ := e7 x y
    exact ⟨u1, u2, a2 u3, u4⟩

/-- A face whose state and panel stand. -/
theorem StateEffects.refl (s : State) (f : Face) : StateEffects s s f := by
  unfold StateEffects
  dsimp only
  refine ⟨rfl, rfl, rfl, rfl, rfl, BackLeft.refl s f, id, id, id, fun _ _ => id, fun x y => absurd y x, fun _ => ⟨rfl, rfl, rfl, rfl⟩,
    fun x y => absurd x y, fun x y => ?_, fun _ => ⟨rfl, rfl⟩, fun _ => ⟨rfl, rfl⟩, fun x => absurd rfl x⟩
  rcases y with y | y <;> (rw [x] at y; cases y)

/-- R97, R100, R101, R144, R154: working out the effective state takes the effects of its change. -/
theorem settle_effects (s : State) (f : Face) : StateEffects s (s.settle f) f := by
  by_cases hne : s.effState f = (s.faces.get f).state
  · unfold State.settle
    dsimp only
    rw [if_pos hne]
    exact StateEffects.refl s f
  set m := s.modFace f fun c => { c with state := s.effState f } with hm
  have hmf : m.faces.get f = { s.faces.get f with state := s.effState f } := by
    rw [hm, State.modFace_faces, PerFace.get_set_same]
  set u := m.stateEffects f (s.faces.get f).state with hu
  have hs : s.settle f = u.recomputeDuties f := by
    unfold State.settle; dsimp only; rw [if_neg hne]
  have hface : (s.settle f).faces.get f = u.faces.get f := by rw [hs]; rfl
  have hfo := stateEffects_own m f (s.faces.get f).state
  rw [← hu, hmf] at hfo
  have hp := stateEffects_panel m f f (s.faces.get f).state
  rw [← hu, if_pos rfl, hmf] at hp
  dsimp only at hfo hp
  have hmp : m.panels = s.panels := rfl
  rw [hmp] at hp
  have hpanel : (s.settle f).panels.get f = { u.panels.get f with
      faceDuty := u.faceDutyOf f, duties := (u.panels.get f).trims.map (moduleDuty (u.faceDutyOf f)) } := by
    rw [hs]
    show ((u.modPanel f _).panels.get f) = _
    rw [State.modPanel_panels, PerFace.get_set_same]
  have hj : s.effState f = .dark → ∀ j, (s.settle f).paints j → j.face ≠ f := by
    intro hd j h
    rw [hs] at h
    have : u = m.enterDark f := by
      rw [hu]; unfold State.stateEffects; rw [hmf]; dsimp only; rw [hd]
    rw [this] at h
    exact (dropJobs_paints (m.modFace f fun c => { c with rebuild := .idle, inHand := none }) f j h).2
  have hamb : u.ambient = s.ambient := by
    rw [hu, (stateEffects_only m f _).ambient]; rfl
  have hd : u.faceDutyOf f = (if (u.panels.get f).out ≠ .driving ∨ s.effState f = .dark then 0
      else if s.effState f = .lampTest then (s.panels.get f).cap
      else min (curveDuty s.ambient.curve s.ambient.level) (s.panels.get f).cap) := by
    have hst : (u.faces.get f).state = s.effState f := by
      rw [hfo]; split <;> rfl
    have hcap : (u.panels.get f).cap = (s.panels.get f).cap := by
      have h1 := congrArg Panel.cap hp
      dsimp only at h1
      rw [h1]
      split
      · rfl
      · unfold Panel.start; split <;> rfl
      · rfl
    unfold State.faceDutyOf
    rw [hst, hcap, hamb]
    cases (u.panels.get f).out <;> cases s.effState f <;> simp
  have htr : (u.panels.get f).trims = (s.panels.get f).trims := by
    have h1 := congrArg Panel.trims hp
    dsimp only at h1
    rw [h1]
    split
    · rfl
    · unfold Panel.start; split <;> rfl
    · rfl
  have p3 := congrArg Panel.out hp
  have p4 := congrArg Panel.startLeft hp
  have p5 := congrArg Panel.check hp
  have p6 := congrArg Panel.frame hp
  dsimp only at p3 p4 p5 p6
  have hdut : ∀ (n : Fin 32), ((u.panels.get f).trims.map (moduleDuty (u.faceDutyOf f)))[n]
      = min 255 (u.faceDutyOf f * (s.panels.get f).trims[n] / 128) := by
    intro n; rw [htr]; simp [moduleDuty]
  have hback := settle_back s f f
  have hkept : { (s.settle f).panels.get f with
      back := (s.panels.get f).back, out := (s.panels.get f).out, startLeft := (s.panels.get f).startLeft
      check := (s.panels.get f).check, frame := (s.panels.get f).frame, faceDuty := (s.panels.get f).faceDuty
      duties := (s.panels.get f).duties } = s.panels.get f := by
    rw [hpanel]
    generalize u.panels.get f = q at hp ⊢
    generalize s.panels.get f = p at hp ⊢
    dsimp only
    refine (congrArg (fun x : Panel => { x with
      out := p.out, startLeft := p.startLeft, check := p.check, frame := p.frame, faceDuty := p.faceDuty, duties := p.duties }) hp).trans ?_
    split
    · rfl
    · unfold Panel.start; split <;> rfl
    · rfl
  unfold StateEffects
  dsimp only
  refine ⟨?_, ?_, ?_, ?_, hkept, hback, ?_⟩
  · rw [hface, hfo]; split <;> rfl
  · rw [hface, hfo]; split <;> rfl
  · rw [hface, hfo]; split <;> rfl
  · rw [hface, hfo]; split <;> rfl
  rw [hface, hpanel]
  dsimp only
  rw [p4, p5, p6]
  have hne' : ¬ ((s.faces.get f).state = (u.faces.get f).state) := by
    rw [hfo]
    intro h
    apply hne
    revert h
    split <;> exact fun h => h.symm
  rw [hd] at hdut ⊢
  rw [htr] at hdut ⊢
  have hst : (u.faces.get f).state = s.effState f := by
    rw [hfo]; split <;> rfl
  rw [hst] at hne' ⊢
  refine ⟨?_, ?_, ?_, fun j _ h => settle_paints s f j h, ?_, ?_, ?_, ?_, ?_, fun h => absurd h hne', fun _ => ⟨rfl, hdut⟩⟩
  · rw [hfo]; split <;> first | exact id | exact fun _ => rfl
  · rw [hfo]; split <;> first | exact id | exact fun _ => rfl
  · rw [hfo]; split <;> first | exact id | exact fun _ => rfl
  · intro _ h2
    rw [hfo, p3, h2]
    exact ⟨rfl, rfl, hj h2, rfl, rfl, rfl, rfl⟩
  · intro h
    rw [hfo]
    rcases h with h | h
    · rw [h]
      rw [h] at hne'
      cases he : s.effState f
      case dark => exact absurd he.symm hne'
      all_goals (refine ⟨rfl, rfl, ?_, ?_⟩ <;> dsimp only <;> unfold Panel.start <;> split <;> rfl)
    · cases he : s.effState f
      case dark => exact absurd he h
      all_goals cases (s.faces.get f).state <;> first
        | exact ⟨rfl, rfl, rfl, rfl⟩
        | (refine ⟨rfl, rfl, ?_, ?_⟩ <;> dsimp only <;> unfold Panel.start <;> split <;> rfl)
  · intro h1 h2
    rw [hfo, p3, h1]
    cases he : s.effState f
    case dark => exact absurd he h2
    all_goals
      refine ⟨rfl, rfl, rfl, fun h => ?_, fun h => ?_⟩
      · dsimp only; unfold Panel.start; rw [h]; exact ⟨rfl, rfl⟩
      · dsimp only; unfold Panel.start; cases ho : (s.panels.get f).out <;> first | exact absurd ho h | (dsimp only; rw [ho]; exact ⟨rfl, rfl⟩)
  · intro h1 h2
    rw [hfo, h1]
    rcases h2 with h2 | h2 <;> rw [h2]
  · intro h
    rw [p3]
    cases he : s.effState f <;> cases hc : (s.faces.get f).state <;> simp_all

end Sys2Proof.Machine
end

