-- ==== Sys2Proof/Laws/SetFace.lean ====
section
/-! SUPPORT. The SET FACE block, wake checks, settings and layout. -/

namespace Sys2Proof.Machine
-- one proof at a time: proofs elaborated at once would each take a thread of their own
set_option Elab.async false

/-- R94, R174: the settings that SET FACE accepts read back. -/
theorem readSettings_bytes {c : FaceSettings} (h : c.allowed) : readSettings c.bytes = some c := by
  obtain ⟨a, b, r, m, k⟩ := c
  obtain ⟨h1, h2, h3, h4, h5⟩ := h
  simp only at h1 h2 h3 h4 h5
  have hr : #v[r[0], r[1], r[2], r[3]] = r := by
    obtain ⟨⟨l⟩, hl⟩ := r
    match l, hl with
    | [a, b, c, d], _ => rfl
  unfold FaceSettings.bytes
  simp only [List.singleton_append, List.cons_append, List.nil_append, readSettings, readRole_code, readYesNo_yesNo, readMask_bits,
    byte_toNat (show a < 256 by omega), byte_toNat (show b < 256 by omega), hr]
  rw [if_pos]
  have : rolesFit r = true := by
    unfold rolesFit
    simp only [Bool.and_eq_true, decide_eq_true_eq]
    have a1 := h5 .first (by simp)
    have a2 := h5 .calling (by simp)
    have a3 := h5 .bottom (by simp)
    simp_all
  rw [this]
  simp
  omega

theorem parseSetFace_block (f : Face) {c : FaceSettings} (h : c.allowed) :
    parseSetFace ((if f = .a then 1 else 2) :: faceBlock c) = .ok (f, c) := by
  rw [faceBlock_eq]
  have hl : c.bytes.length = 8 := rfl
  unfold parseSetFace
  dsimp only
  rw [if_neg (by rw [hl]; simp), readSettings_bytes h]
  cases f <;> rfl

theorem mem_view (s : State) (f : Face) (r) : r ∈ s.view f ↔ r ∈ s.table ∧ r.platform ∈ (s.faces.get f).settings.platforms ∧
    s.hidden r = false := by
  unfold State.view; simp

theorem wakes_iff (s : State) (f : Face) (w : WakeSource) : s.wakes f ((s.faces.get f).settings.mask.selects w) ↔
    ((s.faces.get f).settings.mask.selects w && !(s.faces.get f).settings.modeOn && s.params.wakeHold != 0) = true := by
  unfold State.wakes; simp [and_assoc]

theorem wake_other (s : State) {f g : Face} (h : g ≠ f) (w : WakeSource) : (s.wake f w).faces.get g = s.faces.get g := by
  unfold State.wake; rw [State.modFace_faces, PerFace.get_set_other _ _ h]

theorem wake_own (s : State) (f : Face) (w : WakeSource) :
    (s.wakes f ((s.faces.get f).settings.mask.selects w) →
        (s.wake f w).faces.get f = { s.faces.get f with countdown := s.params.wakeHold }) ∧
    (¬ s.wakes f ((s.faces.get f).settings.mask.selects w) → (s.wake f w).faces.get f = s.faces.get f) := by
  rw [wakes_iff]
  unfold State.wake
  rw [State.modFace_faces, PerFace.get_set_same]
  unfold Composer.wake
  exact ⟨fun h => if_pos h, fun h => if_neg h⟩

theorem inWakeWindow_iff (s : State) (r : Departure) : s.inWakeWindow r = true ↔ s.nowKey ≤ r.key s.params.ro + r.delay.getD 0 ∧
           r.key s.params.ro + r.delay.getD 0 ≤ s.nowKey + s.params.wakeWindow := by
  unfold State.inWakeWindow; simp

theorem departureWake_other (s : State) {f g : Face} (h : g ≠ f) : (s.departureWake f).faces.get g = s.faces.get g := by
  unfold State.departureWake
  split
  · exact wake_other s h _
  · rfl

theorem departureWake_own (s : State) (f : Face) :
    let woken : Prop := s.clock.valid = true ∧ s.wakes f (s.faces.get f).settings.mask.departure ∧
        ∃ r ∈ s.view f, s.nowKey ≤ r.key s.params.ro + r.delay.getD 0 ∧
           r.key s.params.ro + r.delay.getD 0 ≤ s.nowKey + s.params.wakeWindow
    (woken → (s.departureWake f).faces.get f = { s.faces.get f with countdown := s.params.wakeHold }) ∧
    (¬ woken → (s.departureWake f).faces.get f = s.faces.get f) := by
  dsimp only
  have h := wake_own s f .departure
  unfold State.departureWake
  have e : (s.clock.valid && (s.view f).any s.inWakeWindow) = true ↔ s.clock.valid = true ∧
      ∃ r ∈ s.view f, s.nowKey ≤ r.key s.params.ro + r.delay.getD 0 ∧
           r.key s.params.ro + r.delay.getD 0 ≤ s.nowKey + s.params.wakeWindow := by
    simp only [Bool.and_eq_true, List.any_eq_true, inWakeWindow_iff]
  refine ⟨fun hw => ?_, fun hw => ?_⟩
  · rw [if_pos (e.mpr ⟨hw.1, hw.2.2⟩)]
    exact h.1 hw.2.1
  · by_cases hc : (s.clock.valid && (s.view f).any s.inWakeWindow) = true
    · rw [if_pos hc]
      exact h.2 fun hk => hw ⟨(e.mp hc).1, hk, (e.mp hc).2⟩
    · rw [if_neg hc]

theorem layoutDiffers_iff (x y : FaceSettings) : x.layoutDiffers y = false ↔ (∀ pl, pl ∈ y.platforms ↔ pl ∈ x.platforms) ∧
    y.roles = x.roles := by
  unfold FaceSettings.layoutDiffers
  have : y.roles = x.roles ↔ x.roles.toList = y.roles.toList := by
    constructor
    · intro h; rw [h]
    · intro h; exact (Vector.toList_inj.mp h).symm
  rw [this]
  simp only [Bool.or_eq_false_iff, Bool.not_eq_false', Bool.and_eq_true, List.all_eq_true, List.contains_iff_mem, bne_eq_false_iff_eq]
  constructor
  · rintro ⟨⟨h1, h2⟩, h3⟩; exact ⟨fun pl => ⟨h2 pl, h1 pl⟩, h3⟩
  · rintro ⟨h1, h3⟩; exact ⟨⟨fun pl => (h1 pl).mpr, fun pl => (h1 pl).mp⟩, h3⟩

theorem setSettings_same {x : FaceSettings} {c : Composer} (h : c.settings.layoutDiffers x = false) :
    Composer.setSettings x c = { c with settings := x, countdown := if x.modeOn || c.settings.modeOn then 0 else c.countdown } := by
  unfold Composer.setSettings
  dsimp only
  rw [if_neg (by rw [h]; simp)]

theorem setSettings_differs {x : FaceSettings} {c : Composer} (h : c.settings.layoutDiffers x = true) :
    Composer.setSettings x c = { c with settings := x, countdown := if x.modeOn || c.settings.modeOn then 0 else c.countdown, rotate := 0, entry := .clock, pass := false, page := 1, restartPending := true } := by
  unfold Composer.setSettings
  dsimp only
  rw [if_pos h]

theorem setSettings_settings (x : FaceSettings) (c : Composer) : (Composer.setSettings x c).settings = x ∧
    (Composer.setSettings x c).countdown = if x.modeOn || c.settings.modeOn then 0 else c.countdown := by
  cases h : c.settings.layoutDiffers x
  · rw [setSettings_same h]; exact ⟨rfl, rfl⟩
  · rw [setSettings_differs h]; exact ⟨rfl, rfl⟩

end Sys2Proof.Machine
end

