-- ==== Sys2Proof/Laws/Wakes.lean ====
section
/-! SUPPORT. Wakes as Safety writes them: working out the states of a selection of faces, the departure wake check, a touch of platforms, and what carries them over to the state before a request and after its reply; and what SET FACE does at both faces. -/

namespace Sys2Proof.Machine
-- one proof at a time: proofs elaborated at once would each take a thread of their own
set_option Elab.async false

/-! ## Working out the state of another face -/

theorem settle_panel_other (s : State) {f g : Face} (h : f ≠ g) :
    { (s.settle g).panels.get f with back := (s.panels.get f).back } = s.panels.get f := by
  unfold State.settle
  dsimp only
  split
  · rfl
  · have hp := stateEffects_panel (s.modFace g fun c => { c with state := s.effState g }) g f (s.faces.get g).state
    rw [if_neg h] at hp
    rw [show (State.recomputeDuties ((s.modFace g fun c => { c with state := s.effState g }).stateEffects g (s.faces.get g).state) g).panels.get f
      = ((s.modFace g fun c => { c with state := s.effState g }).stateEffects g (s.faces.get g).state).panels.get f from by
        unfold State.recomputeDuties; dsimp only; rw [State.modPanel_panels, PerFace.get_set_other _ _ h]]
    exact hp

theorem SameAfter.settle (s : State) {f g : Face} (h : f ≠ g) : SameAfter s (s.settle g) f :=
  ⟨by rw [settle_other s h], by rw [settle_other s h]; exact id, settle_panel_other s h, fun j _ => settle_paints s g j,
    settle_back s g f⟩

theorem SameBefore.settle (s : State) {f g : Face} (h : f ≠ g) : SameBefore s (s.settle g) f := by
  have ho := settle_only s g
  exact ⟨by rw [settle_other s h], by rw [settle_other s h], by rw [settle_other s h], by rw [settle_other s h],
    by rw [settle_other s h], by rw [settle_other s h], by rw [settle_other s h], settle_panel_other s h, by rw [ho.params],
    ho.ambient, by rw [settle_other s h]; exact id, by rw [settle_other s h]; exact id, by rw [settle_other s h]; exact id,
    fun j _ => settle_paints s g j, settle_back s g f⟩

theorem SameBefore.refl (s : State) (f : Face) : SameBefore s s f :=
  ⟨rfl, rfl, rfl, rfl, rfl, rfl, rfl, rfl, rfl, rfl, id, id, id, fun _ _ => id, BackLeft.refl s f⟩

/-- A composer changed in what the effects are not read off, everything they are read off elsewhere the same. -/
theorem SameBefore.of_faces {s m : State} {f : Face} {ps : List Part} (ho : OnlyIn ps s m)
    (hps : ∀ q ∈ [Part.panels, .params, .ambient, .painter], q ∉ ps)
    (h : { m.faces.get f with
      settings := (s.faces.get f).settings, countdown := (s.faces.get f).countdown, dirty := (s.faces.get f).dirty }
        = s.faces.get f)
    (hd : (s.faces.get f).dirty = true → (m.faces.get f).dirty = true) : SameBefore s m f := by
  have a1 := congrArg Composer.state h
  have a2 := congrArg Composer.calling h
  have a3 := congrArg Composer.bottom h
  have a4 := congrArg Composer.rebuild h
  have a5 := congrArg Composer.inHand h
  have a6 := congrArg Composer.restartPending h
  have a7 := congrArg Composer.pass h
  have a8 := congrArg Composer.lastPlan h
  have a9 := congrArg Composer.serial h
  dsimp only at a1 a2 a3 a4 a5 a6 a7 a8 a9
  have h1 : m.panels = s.panels := ho .panels (hps _ (by decide))
  have h2 : m.params = s.params := ho .params (hps _ (by decide))
  have h3 : m.ambient = s.ambient := ho .ambient (hps _ (by decide))
  have h4 : m.painter = s.painter := ho .painter (hps _ (by decide))
  refine ⟨a1, a2, a3, a4, a5, a8, a9, by rw [h1], by rw [h2], h3, hd, by rw [a6]; exact id, by rw [a7]; exact id, fun j _ => ?_,
    BackLeft.of_eq h1 h4 f⟩
  unfold State.paints; rw [h4]; exact id

/-- R97, R100, R101: the composer of a face whose effective state is worked out. -/
theorem settle_face (s : State) (f : Face) : (s.settle f).faces.get f =
    if s.effState f = (s.faces.get f).state then s.faces.get f else
      match s.effState f, (s.faces.get f).state with
      | .dark, _ => { s.faces.get f with state := s.effState f, rebuild := .idle, inHand := none }
      | _, .dark => { s.faces.get f with state := s.effState f, restartPending := true, pass := false, dirty := true }
      | .lit, .lampTest | .woken, .lampTest => { s.faces.get f with state := s.effState f, dirty := true }
      | _, _ => { s.faces.get f with state := s.effState f } := by
  unfold State.settle
  dsimp only
  split
  · rfl
  · show ((s.modFace f fun c => { c with state := s.effState f }).stateEffects f (s.faces.get f).state).faces.get f = _
    rw [stateEffects_own, State.modFace_faces, PerFace.get_set_same]
    -- as one text the rewriting itself may close the goal
    all_goals (dsimp only; cases s.effState f <;> cases (s.faces.get f).state <;> rfl)

theorem LayoutLeft.of_eq {s t : State} {f : Face} (h : t.faces.get f = s.faces.get f) : LayoutLeft s t f := by
  unfold LayoutLeft; dsimp only; rw [h]; exact ⟨rfl, rfl, rfl, rfl, fun _ => ⟨rfl, rfl⟩⟩

/-- The layout is read off composers alone, whatever their countdown and mark. -/
theorem LayoutLeft.congr {s s' t t' : State} {f : Face} (h : LayoutLeft s' t f)
    (hs : { s'.faces.get f with countdown := (s.faces.get f).countdown, dirty := (s.faces.get f).dirty } = s.faces.get f)
    (ht : { t'.faces.get f with dirty := (t.faces.get f).dirty } = t.faces.get f) : LayoutLeft s t' f := by
  unfold LayoutLeft at h ⊢
  dsimp only at h ⊢
  generalize s'.faces.get f = c' at *
  generalize s.faces.get f = c at *
  generalize t'.faces.get f = d' at *
  generalize t.faces.get f = d at *
  rw [← hs]
  rw [← ht] at h
  exact h

/-- R97, R101: working out the state leaves the layout. -/
theorem settle_layout (s : State) (f : Face) : LayoutLeft s (s.settle f) f := by
  unfold LayoutLeft
  dsimp only
  rw [settle_face]
  split
  · exact ⟨rfl, rfl, rfl, rfl, fun _ => ⟨rfl, rfl⟩⟩
  · rename_i hne
    cases he : s.effState f <;> cases hc : (s.faces.get f).state <;>
      first
        | exact ⟨rfl, rfl, rfl, rfl, fun _ => ⟨rfl, rfl⟩⟩
        | exact ⟨rfl, rfl, rfl, rfl, fun x => by rcases x with x | x <;> exact absurd (by first | rfl | exact x) (by simp)⟩

/-- R101: what working out the state makes of the dirty mark. -/
theorem settle_marks (s : State) (f : Face) : DirtyByState s (s.settle f) f false := by
  unfold DirtyByState
  dsimp only
  rw [settle_face]
  split
  · rename_i he
    cases hc : (s.faces.get f).state <;> simp
  · rename_i hne
    cases he : s.effState f <;> cases hc : (s.faces.get f).state <;> first | (rw [he, hc] at hne; exact absurd rfl hne) | simp

/-- R101: the mark is read off the composers alone, and off their states and marks. -/
theorem DirtyByState.congr {s s' t t' : State} {f : Face} {marked : Bool} (h : DirtyByState s' t f marked)
    (hs : (s'.faces.get f).state = (s.faces.get f).state ∧ (s'.faces.get f).dirty = (s.faces.get f).dirty)
    (ht : t'.faces.get f = t.faces.get f) : DirtyByState s t' f marked := by
  unfold DirtyByState at h ⊢
  dsimp only at h ⊢
  rw [ht, ← hs.1, ← hs.2]
  exact h

theorem DirtyByState.of_eq {s t : State} {f : Face} (h : t.faces.get f = s.faces.get f) : DirtyByState s t f false := by
  unfold DirtyByState
  dsimp only
  rw [h]
  cases (s.faces.get f).state <;> simp

/-- R97: the states of a selection of faces are worked out. -/
theorem settleSel_spec (s : State) (sel : Face → Bool) :
    let t := s.eachFace fun f u => if sel f then u.settle f else u
    ∀ f, (t.faces.get f).settings = (s.faces.get f).settings ∧ (t.faces.get f).countdown = (s.faces.get f).countdown ∧
      t.effState f = s.effState f ∧
      (sel f = true → (t.faces.get f).state = s.effState f ∧ StateEffects s t f ∧
        ((s.faces.get f).dirty = true → (t.faces.get f).dirty = true) ∧ t.faces.get f = (s.settle f).faces.get f) ∧
      (sel f = false → t.faces.get f = s.faces.get f) := by
  intro t f
  set u := if sel .a then s.settle .a else s with hu
  have ht : t = if sel .b then u.settle .b else u := rfl
  have hset : ∀ (v : State) (g : Face) (b : Bool), ((if b then v.settle g else v).faces.get f).settings = (v.faces.get f).settings ∧
      ((if b then v.settle g else v).faces.get f).countdown = (v.faces.get f).countdown ∧
      (if b then v.settle g else v).effState f = v.effState f := by
    intro v g b
    cases b
    · exact ⟨rfl, rfl, rfl⟩
    · exact ⟨settle_settings v g f, settle_countdown v g f, settle_effState v g f⟩
  have h1 := hset s .a (sel .a)
  have h2 := hset u .b (sel .b)
  rw [← hu] at h1
  rw [← ht] at h2
  refine ⟨h2.1.trans h1.1, h2.2.1.trans h1.2.1, h2.2.2.trans h1.2.2, ?_⟩
  cases f with
  | a =>
    have hb : t.faces.get .a = u.faces.get .a := by
      rw [ht]; split
      · exact settle_other u (by decide)
      · rfl
    have hsa : SameAfter u t .a := by
      rw [ht]; split
      · exact SameAfter.settle u (by decide)
      · exact SameAfter.refl _ _
    constructor
    · intro hs
      rw [if_pos hs] at hu
      rw [hb, hu]
      rw [hu] at hsa
      refine ⟨settle_state s .a, (settle_effects s .a).congr (SameBefore.refl _ _) hsa, (settle_dirt s .a .a).2, rfl⟩
    · intro hs
      rw [if_neg (by rw [hs]; decide)] at hu
      rw [hb, hu]
  | b =>
    have hb : u.faces.get .b = s.faces.get .b := by
      rw [hu]; split
      · exact settle_other s (by decide)
      · rfl
    have hsb : SameBefore s u .b := by
      rw [hu]; split
      · exact SameBefore.settle s (by decide)
      · exact SameBefore.refl _ _
    have hown : (u.settle .b).faces.get .b = (s.settle .b).faces.get .b := by
      have he : u.effState .b = s.effState .b := h1.2.2
      rw [settle_face u .b, settle_face s .b, he, hb]
    constructor
    · intro hs
      have ht' : t = u.settle .b := by rw [ht, if_pos hs]
      rw [ht', hown]
      refine ⟨settle_state s .b, (settle_effects u .b).congr hsb (SameAfter.refl _ _), (settle_dirt s .b .b).2, rfl⟩
    · intro hs
      rw [ht, if_neg (by rw [hs]; decide), hb]

/-- A face outside the selection is as it was, but for a back bitmap and for the jobs of the others. -/
theorem settleSel_unselected (s : State) (sel : Face → Bool) {f : Face} (h : sel f = false) :
    SameBefore s (s.eachFace fun f u => if sel f then u.settle f else u) f ∧
      SameAfter s (s.eachFace fun f u => if sel f then u.settle f else u) f := by
  have one : ∀ (u : State) (g : Face), g ≠ f → SameBefore u (if sel g then u.settle g else u) f ∧
      SameAfter u (if sel g then u.settle g else u) f := by
    intro u g hg
    split
    · exact ⟨SameBefore.settle u (Ne.symm hg), SameAfter.settle u (Ne.symm hg)⟩
    · exact ⟨SameBefore.refl _ _, SameAfter.refl _ _⟩
  cases f with
  | a =>
    have e : (s.eachFace fun f u => if sel f then u.settle f else u) = if sel .b then s.settle .b else s := by
      unfold State.eachFace; dsimp only; rw [h]; rfl
    rw [e]; exact one s .b (by decide)
  | b =>
    have e : (s.eachFace fun f u => if sel f then u.settle f else u) = if sel .a then s.settle .a else s := by
      unfold State.eachFace; dsimp only; rw [h]; rfl
    rw [e]; exact one s .a (by decide)

/-! ## A face left -/

/-- A face that a change after which nothing else was marked did not reach. -/
theorem FaceLeft.of_sameAfter {s t : State} {f : Face} (h : SameAfter s t f) (hd : (t.faces.get f).dirty = (s.faces.get f).dirty) :
    FaceLeft s t f false := by
  refine ⟨?_, h.panel, h.back⟩
  have h1 := h.face
  rw [Bool.or_false, ← hd]
  generalize t.faces.get f = d at *
  generalize s.faces.get f = c at *
  rw [← h1]

theorem FaceLeft.refl (s : State) (f : Face) : FaceLeft s s f false := FaceLeft.of_sameAfter (SameAfter.refl s f) rfl

theorem FaceLeft.trans {s u t : State} {f : Face} {a b : Bool} (h : FaceLeft s u f a) (k : FaceLeft u t f b) : FaceLeft s t f (a || b) := by
  obtain ⟨h1, h2, h3⟩ := h
  obtain ⟨k1, k2, k3⟩ := k
  refine ⟨by rw [k1, h1, Bool.or_assoc], ?_, h3.trans k3⟩
  generalize t.panels.get f = r at *
  generalize u.panels.get f = q at *
  generalize s.panels.get f = p at *
  rw [← h2, ← k2]

/-- A change that leaves panels and painter. -/
theorem FaceLeft.of_faces {s t : State} {f : Face} {b : Bool}
    (hf : t.faces.get f = { s.faces.get f with dirty := (s.faces.get f).dirty || b }) (hp : t.panels = s.panels)
    (hj : t.painter = s.painter) : FaceLeft s t f b := ⟨hf, by rw [hp], BackLeft.of_eq hp hj f⟩

/-- R97, R101: of a selection whose states are worked out, each keeps its layout and takes its mark; the others are left. -/
theorem settleSel_faces (s : State) (sel : Face → Bool) (f : Face) :
    let t := s.eachFace fun f u => if sel f then u.settle f else u
    (sel f = true → LayoutLeft s t f ∧ DirtyByState s t f false) ∧ (sel f = false → FaceLeft s t f false) := by
  intro t
  obtain ⟨_, _, _, k4, k5⟩ := settleSel_spec s sel f
  refine ⟨fun h => ?_, fun h => FaceLeft.of_sameAfter (settleSel_unselected s sel h).2 (by rw [k5 h])⟩
  have e := (k4 h).2.2.2
  exact ⟨(settle_layout s f).congr rfl (by rw [e]), (settle_marks s f).congr ⟨rfl, rfl⟩ e⟩

/-! ## The departure wake check -/

/-- R99: the check looks at the clock, the parameters, the face's settings and its view. -/
theorem departureWakes_congr {s t : State} {f : Face} (hc : t.clock = s.clock) (hp : t.params = s.params)
    (hs : (t.faces.get f).settings = (s.faces.get f).settings) (hv : t.view f = s.view f) :
    t.departureWakes f ↔ s.departureWakes f := by
  unfold State.departureWakes State.wakes State.nowKey
  rw [hc, hp, hs, hv]

theorem wakes_congr {s t : State} {f : Face} (hp : t.params = s.params)
    (hs : (t.faces.get f).settings = (s.faces.get f).settings) (b : Bool) : t.wakes f b ↔ s.wakes f b := by
  unfold State.wakes; rw [hp, hs]

/-- R102: a view looks at the table, the face's settings and which ports are SILENT with stale action HIDE. -/
theorem view_congr {s t : State} {f : Face} (ht : t.table = s.table)
    (hs : (t.faces.get f).settings = (s.faces.get f).settings)
    (hp : ∀ p, (t.ports.get p).silent = (s.ports.get p).silent ∧ (t.ports.get p).staleInForce = (s.ports.get p).staleInForce) :
    t.view f = s.view f := by
  have hh : ∀ r, t.hidden r = s.hidden r := by
    intro r
    unfold State.hidden
    cases r.writer with
    | loc => rfl
    | port p => dsimp only; rw [(hp p).1, (hp p).2]
  unfold State.view
  rw [ht, hs]
  congr 1
  funext r
  rw [hh r]

/-- R99: what the check leaves of its own composer. -/
theorem departureWake_countdown (s : State) (f : Face) :
    (s.departureWakes f → ((s.departureWake f).faces.get f).countdown = s.params.wakeHold) ∧
    (¬ s.departureWakes f → ((s.departureWake f).faces.get f).countdown = (s.faces.get f).countdown) ∧
    { (s.departureWake f).faces.get f with countdown := (s.faces.get f).countdown } = s.faces.get f := by
  have h := departureWake_own s f
  dsimp only at h
  by_cases hw : s.departureWakes f
  · exact ⟨fun _ => by rw [h.1 hw], fun hn => absurd hw hn, by rw [h.1 hw]⟩
  · exact ⟨fun hn => absurd hn hw, fun _ => by rw [h.2 hw], by rw [h.2 hw]⟩

/-! ## Wakes carried over -/

/-- A wake read off states that agree on what it looks at. -/
theorem Wakens.of_settled {s m t : State} {f : Face} {woken : Prop} {otherwise : Nat} (hm : SameBefore s m f)
    (hk : { m.faces.get f with countdown := (s.faces.get f).countdown, dirty := (s.faces.get f).dirty } = s.faces.get f)
    (hp : m.params = s.params)
    (h1 : woken → (m.faces.get f).countdown = m.params.wakeHold) (h2 : ¬ woken → (m.faces.get f).countdown = otherwise)
    (hc : (t.faces.get f).countdown = (m.faces.get f).countdown) (hs : (t.faces.get f).state = m.effState f)
    (he : t.effState f = m.effState f) (ht : StateEffects m t f) (hl : t.faces.get f = (m.settle f).faces.get f) :
    Wakens s t f woken otherwise := by
  refine ⟨fun w => ?_, fun w => ?_, ?_, ht.congr hm (SameAfter.refl _ _), (settle_layout m f).congr hk (by rw [hl])⟩
  · rw [hc, h1 w, hp]
  · rw [hc, h2 w]
  · rw [hs, he]

theorem Wakens.after {s t t' : State} {f : Face} {woken woken' : Prop} {n : Nat} (h : Wakens s t f woken n)
    (hw : woken' ↔ woken) (ha : SameAfter t t' f) (hl : t'.lines = t.lines) : Wakens s t' f woken' n := by
  obtain ⟨h1, h2, h3, h4, h5⟩ := h
  have e1 := congrArg Composer.countdown ha.face
  have e2 := congrArg Composer.state ha.face
  have e3 := congrArg Composer.settings ha.face
  dsimp only at e1 e2 e3
  refine ⟨fun w => e1.trans (h1 (hw.mp w)), fun w => e1.trans (h2 fun k => w (hw.mpr k)), ?_,
    h4.congr (SameBefore.refl _ _) ha, h5.congr rfl ha.face⟩
  rw [e2, h3]
  exact (effState_congr hl (by rw [e3]) e1).symm

theorem Wakens.before {s s' t : State} {f : Face} {woken : Prop} {n : Nat} (h : Wakens s' t f woken n)
    (hb : SameBefore s s' f)
    (hk : { s'.faces.get f with countdown := (s.faces.get f).countdown, dirty := (s.faces.get f).dirty } = s.faces.get f)
    (hp : s'.params.wakeHold = s.params.wakeHold) : Wakens s t f woken n := by
  obtain ⟨h1, h2, h3, h4, h5⟩ := h
  exact ⟨fun w => by rw [h1 w, hp], h2, h3, h4.congr hb (SameAfter.refl _ _), h5.congr hk rfl⟩

/-! ## Wakes of a selection, and of a minute event -/

/-- R98: a wake event reaches each face of a selection, and its states are worked out. -/
theorem wakeSel_spec (s : State) (w : WakeSource) (sel : Face → Bool) :
    let t := (s.eachFace fun f u => if sel f then u.wake f w else u).eachFace fun f u => if sel f then u.settle f else u
    ∀ f, (t.faces.get f).settings = (s.faces.get f).settings ∧
      (sel f = true → Wakens s t f (s.wakes f ((s.faces.get f).settings.mask.selects w)) (s.faces.get f).countdown ∧
        DirtyByState s t f false) ∧
      (sel f = false → FaceLeft s t f false) := by
  intro t f
  set m := s.eachFace fun f u => if sel f then u.wake f w else u with hm
  have hmo : OnlyIn [.faces] s m := OnlyIn.eachFace fun f u => OnlyIn.ite (wake_only u f w) (OnlyIn.refl [.faces] _)
  have hface : m.faces.get f = if sel f then (s.wake f w).faces.get f else s.faces.get f := by
    set u := if sel .a then s.wake .a w else s with hu
    have hmu : m = if sel .b then u.wake .b w else u := rfl
    cases f with
    | a =>
      have : m.faces.get .a = u.faces.get .a := by
        rw [hmu]; split
        · exact wake_other u (by decide) w
        · rfl
      rw [this, hu]; split <;> rfl
    | b =>
      have hub : u.faces.get .b = s.faces.get .b := by
        rw [hu]; split
        · exact wake_other s (by decide) w
        · rfl
      have hup : u.params = s.params := by
        rw [hu]; split <;> rfl
      rw [hmu]
      split
      · unfold State.wake
        rw [State.modFace_faces, PerFace.get_set_same, State.modFace_faces, PerFace.get_set_same, hub, hup]
      · exact hub
  obtain ⟨k1, k2, k3, k4, k5⟩ := settleSel_spec m sel f
  have hw := wake_own s f w
  have hkeep : { m.faces.get f with countdown := (s.faces.get f).countdown } = s.faces.get f := by
    rw [hface]
    split
    · by_cases h : s.wakes f ((s.faces.get f).settings.mask.selects w)
      · rw [hw.1 h]
      · rw [hw.2 h]
    · rfl
  have a0 := congrArg Composer.settings hkeep
  have a6 := congrArg Composer.dirty hkeep
  have a1 := congrArg Composer.state hkeep
  dsimp only at a0 a1 a6
  have hb : SameBefore s m f := SameBefore.of_faces hmo (by decide)
    (by rw [← hkeep]) (by rw [a6]; exact id)
  refine ⟨k1.trans a0, fun hs => ?_, fun hs => ?_⟩
  · obtain ⟨j1, j2, j3, j4⟩ := k4 hs
    rw [if_pos hs] at hface
    refine ⟨Wakens.of_settled hb (by rw [← hkeep]) hmo.params (fun h => ?_) (fun h => ?_) k2 j1 k3 j2 j4,
      ((settleSel_faces m sel f).1 hs).2.congr ⟨a1, a6⟩ rfl⟩
    · rw [hface, hw.1 h, hmo.params]
    · rw [hface, hw.2 h]
  · rw [if_neg (by rw [hs]; decide)] at hface
    have h1 : FaceLeft s m f false := FaceLeft.of_faces (by rw [hface, Bool.or_false]) hmo.panels hmo.painter
    exact h1.trans ((settleSel_faces m sel f).2 hs)

/-- R68 part 3, R98, R99: the wake part of a minute event. -/
theorem wakePart_wakes (s : State) (f : Face) :
    Wakens s s.wakePart f (s.departureWakes f) ((s.faces.get f).countdown - 1) ∧
      (s.wakePart.faces.get f).settings = (s.faces.get f).settings := by
  set d := s.countDownWake with hd
  have hdo : OnlyIn [.faces] s d := OnlyIn.eachFace fun f u => modFace_only _ _ _
  have hdf : ∀ g, d.faces.get g = { s.faces.get g with countdown := (s.faces.get g).countdown - 1 } := by
    intro g; cases g <;> rfl
  have hds : ∀ g, (d.faces.get g).settings = (s.faces.get g).settings := by intro g; rw [hdf g]
  have hdw : ∀ (v : State) g, OnlyIn [.faces] s v → (v.faces.get g).settings = (s.faces.get g).settings →
      (v.departureWakes g ↔ s.departureWakes g) := fun v g ho hs =>
    departureWakes_congr ho.clock ho.params hs (view_congr ho.table hs fun p => by rw [ho.ports]; exact ⟨rfl, rfl⟩)
  set u := d.departureWake .a with hu
  set m := u.departureWake .b with hm
  have huo : OnlyIn [.faces] s u := hdo.trans (departureWake_only d .a)
  have hmo : OnlyIn [.faces] s m := huo.trans (departureWake_only u .b)
  have hub : u.faces.get .b = d.faces.get .b := departureWake_other d (by decide)
  have hma : m.faces.get .a = u.faces.get .a := departureWake_other u (by decide)
  have own : ∀ g, (s.departureWakes g → (m.faces.get g).countdown = s.params.wakeHold) ∧
      (¬ s.departureWakes g → (m.faces.get g).countdown = (s.faces.get g).countdown - 1) ∧
      { m.faces.get g with countdown := (d.faces.get g).countdown } = d.faces.get g := by
    intro g
    cases g with
    | a =>
      have h := departureWake_countdown d .a
      rw [hdw d .a hdo (hds .a), hdo.params] at h
      rw [hma]
      refine ⟨h.1, fun hn => ?_, h.2.2⟩
      rw [hu, h.2.1 hn, hdf .a]
    | b =>
      have h := departureWake_countdown u .b
      rw [hdw u .b huo (by rw [hub, hds .b]), huo.params, hub] at h
      refine ⟨h.1, fun hn => ?_, h.2.2⟩
      rw [hm, h.2.1 hn, hdf .b]
  have ht : s.wakePart = m.eachFace fun f t => if true then t.settle f else t := rfl
  obtain ⟨k1, k2, k3, k4, _⟩ := settleSel_spec m (fun _ => true) f
  obtain ⟨j1, j2, _, j4⟩ := k4 rfl
  obtain ⟨o1, o2, o3⟩ := own f
  rw [hdf f] at o3
  have a0 := congrArg Composer.settings o3
  have a6 := congrArg Composer.dirty o3
  dsimp only at a0 a6
  have hk : { m.faces.get f with countdown := (s.faces.get f).countdown, dirty := (s.faces.get f).dirty } = s.faces.get f := by
    generalize m.faces.get f = x at o3 ⊢
    generalize (State.faces _).get f = y at o3 ⊢
    obtain ⟨⟩ := x; obtain ⟨⟩ := y
    cases o3; rfl
  have hb : SameBefore s m f := SameBefore.of_faces hmo (by decide)
    (by rw [← hk]) (by rw [a6]; exact id)
  rw [ht]
  exact ⟨Wakens.of_settled hb hk hmo.params (fun h => by rw [o1 h, hmo.params]) o2 k2 j1 k3 j2 j4, k1.trans a0⟩

/-! ## A touch of platforms (R6) -/

/-- The first part of a touch: the dirty marks and the wake checks of the bound faces. -/
def State.touchMarks (s : State) (pls : List Nat) : State :=
  s.eachFace fun f u => if u.bound f pls then (u.markDirty f).departureWake f else u

/-- R6, R99: a touch is its marks and wake checks, then the states of the bound faces. -/
theorem touch_phases (s : State) (pls : List Nat) :
    OnlyIn [.faces] s (s.touchMarks pls) ∧
    (∀ f, ((s.touchMarks pls).faces.get f).settings = (s.faces.get f).settings) ∧
    (∀ f, (s.bound f pls = false → (s.touchMarks pls).faces.get f = s.faces.get f) ∧ (s.bound f pls = true →
        { (s.touchMarks pls).faces.get f with countdown := (s.faces.get f).countdown } = { s.faces.get f with dirty := true } ∧
        (s.departureWakes f → ((s.touchMarks pls).faces.get f).countdown = s.params.wakeHold) ∧
        (¬ s.departureWakes f → ((s.touchMarks pls).faces.get f).countdown = (s.faces.get f).countdown))) ∧
    s.touch pls = (s.touchMarks pls).eachFace fun f u => if s.bound f pls then u.settle f else u := by
  set m := s.touchMarks pls with hm
  have hmo : OnlyIn [.faces] s m := OnlyIn.eachFace fun f u => OnlyIn.ite
    (((markDirty_only u f).trans (departureWake_only _ f))) (OnlyIn.refl [.faces] _)
  have step : ∀ (u : State) (f : Face), (∀ g, g ≠ f → (if u.bound f pls then (u.markDirty f).departureWake f else u).faces.get g
        = u.faces.get g) ∧
      (u.bound f pls = false → (if u.bound f pls then (u.markDirty f).departureWake f else u).faces.get f = u.faces.get f) ∧
      (u.bound f pls = true →
        let c := (if u.bound f pls then (u.markDirty f).departureWake f else u).faces.get f
        { c with countdown := (u.faces.get f).countdown } = { u.faces.get f with dirty := true } ∧
        (u.departureWakes f → c.countdown = u.params.wakeHold) ∧
        (¬ u.departureWakes f → c.countdown = (u.faces.get f).countdown)) := by
    intro u f
    refine ⟨fun g hg => ?_, fun hb => ?_, fun hb => ?_⟩
    · split
      · rw [departureWake_other _ hg]; exact by rw [State.markDirty, State.modFace_faces, PerFace.get_set_other _ _ hg]
      · rfl
    · rw [if_neg (by rw [hb]; decide)]
    · dsimp only
      rw [if_pos hb]
      have h := departureWake_countdown (u.markDirty f) f
      have hmf : (u.markDirty f).faces.get f = { u.faces.get f with dirty := true } := by
        rw [State.markDirty, State.modFace_faces, PerFace.get_set_same]
      have hd : (u.markDirty f).departureWakes f ↔ u.departureWakes f :=
        departureWakes_congr rfl rfl (by rw [hmf]) (view_congr rfl (by rw [hmf]) fun p => ⟨rfl, rfl⟩)
      rw [hd] at h
      refine ⟨?_, h.1, ?_⟩
      · have h3 := h.2.2
        rw [hmf] at h3
        exact h3
      · intro hn
        rw [h.2.1 hn, hmf]
  -- the first phase, face by face
  set u := if s.bound .a pls then (s.markDirty .a).departureWake .a else s with hu
  have hmu : m = if u.bound .b pls then (u.markDirty .b).departureWake .b else u := rfl
  have huo : OnlyIn [.faces] s u := OnlyIn.ite ((markDirty_only s .a).trans (departureWake_only _ .a)) (OnlyIn.refl [.faces] _)
  have hub : u.faces.get .b = s.faces.get .b := by rw [hu]; exact (step s .a).1 .b (by decide)
  have hma : m.faces.get .a = u.faces.get .a := by rw [hmu]; exact (step u .b).1 .a (by decide)
  have hubb : u.bound .b pls = s.bound .b pls := by unfold State.bound; rw [hub]
  have hudw : u.departureWakes .b ↔ s.departureWakes .b :=
    departureWakes_congr huo.clock huo.params (by rw [hub]) (view_congr huo.table (by rw [hub]) fun p => by rw [huo.ports]; exact ⟨rfl, rfl⟩)
  have own : ∀ f, (s.bound f pls = false → m.faces.get f = s.faces.get f) ∧ (s.bound f pls = true →
        { m.faces.get f with countdown := (s.faces.get f).countdown } = { s.faces.get f with dirty := true } ∧
        (s.departureWakes f → (m.faces.get f).countdown = s.params.wakeHold) ∧
        (¬ s.departureWakes f → (m.faces.get f).countdown = (s.faces.get f).countdown)) := by
    intro f
    cases f with
    | a => rw [hma]; exact (step s .a).2
    | b =>
      have := (step u .b).2
      rw [← hmu, hubb, hub, hudw, huo.params] at this
      exact this
  have hset : ∀ f, (m.faces.get f).settings = (s.faces.get f).settings := by
    intro f
    cases hb : s.bound f pls with
    | false => rw [(own f).1 hb]
    | true => have h := congrArg Composer.settings ((own f).2 hb).1; exact h
  have hbm : ∀ f, m.bound f pls = s.bound f pls := by intro f; unfold State.bound; rw [hset f]
  have ht : s.touch pls = m.eachFace fun f u => if s.bound f pls then u.settle f else u := by
    show (m.eachFace fun f t => if t.bound f pls then t.settle f else t) = _
    unfold State.eachFace
    dsimp only
    have e1 : m.bound .a pls = s.bound .a pls := hbm .a
    rw [e1]
    have e2 : (if s.bound .a pls then m.settle .a else m).bound .b pls = s.bound .b pls := by
      rw [← hbm .b]; split
      · unfold State.bound; rw [settle_settings]
      · rfl
    rw [e2]
  exact ⟨hmo, hset, own, ht⟩

/-- A face bound to no touched platform is as it was, but for a back bitmap and for the jobs of the others. -/
theorem touch_unbound (s : State) {pls : List Nat} {f : Face} (h : s.bound f pls = false) :
    SameBefore s (s.touch pls) f ∧ SameAfter s (s.touch pls) f := by
  obtain ⟨hmo, _, own, ht⟩ := touch_phases s pls
  have hf := (own f).1 h
  have hs := settleSel_unselected (s.touchMarks pls) (fun f => s.bound f pls) h
  rw [← ht] at hs
  have hb : SameBefore s (s.touchMarks pls) f := SameBefore.of_faces hmo (by decide) (by rw [hf]) (by rw [hf]; exact id)
  have ha : SameAfter s (s.touchMarks pls) f :=
    ⟨by rw [hf], by rw [hf]; exact id, by rw [hmo.panels], fun j _ => by unfold State.paints; rw [hmo.painter]; exact id,
      BackLeft.of_eq hmo.panels hmo.painter f⟩
  refine ⟨?_, ha.trans hs.2⟩
  obtain ⟨a1, a2, a3, a4, a5, al, as, a6, a7, a8, a9, a10, a11, a12, ab⟩ := hs.1
  obtain ⟨b1, b2, b3, b4, b5, bl, bs, b6, b7, b8, b9, b10, b11, b12, bb⟩ := hb
  exact ⟨a1.trans b1, a2.trans b2, a3.trans b3, a4.trans b4, a5.trans b5, al.trans bl, as.trans bs, (ha.trans hs.2).panel,
    a7.trans b7, a8.trans b8, fun x => a9 (b9 x), fun x => a10 (b10 x), fun x => a11 (b11 x), fun j hj x => b12 j hj (a12 j hj x),
    bb.trans ab⟩

/-- R6, R99: what a touch does at the faces. -/
theorem touch_wakes (s : State) (pls : List Nat) : TouchWakes s (s.touch pls) pls false := by
  obtain ⟨hmo, hset, own, ht⟩ := touch_phases s pls
  set m := s.touchMarks pls with hm
  have hsp := settleSel_spec m fun f => s.bound f pls
  rw [← ht] at hsp
  dsimp only at hsp
  have hto := touch_only s pls
  intro f
  obtain ⟨k1, k2, k3, k4, k5⟩ := hsp f
  have hbt : (s.touch pls).bound f pls = s.bound f pls := by unfold State.bound; rw [k1, hset f]
  rw [hbt]
  refine ⟨fun hb => ?_, fun hb => ?_⟩
  · obtain ⟨o1, o2, o3⟩ := (own f).2 hb
    obtain ⟨j1, j2, j3, j4⟩ := k4 hb
    have hdw : (s.touch pls).departureWakes f ↔ s.departureWakes f :=
      departureWakes_congr hto.clock hto.params (by rw [k1, hset f])
        (view_congr hto.table (by rw [k1, hset f]) fun p => by rw [hto.ports]; exact ⟨rfl, rfl⟩)
    have hdirt := congrArg Composer.dirty o1
    have hk : { m.faces.get f with countdown := (s.faces.get f).countdown, dirty := (s.faces.get f).dirty } = s.faces.get f := by
      generalize m.faces.get f = x at o1 ⊢
      generalize (State.faces _).get f = y at o1 ⊢
      obtain ⟨⟩ := x; obtain ⟨⟩ := y
      cases o1; rfl
    have hb1 : SameBefore s m f := SameBefore.of_faces hmo (by decide) (by rw [← hk]) (fun _ => hdirt)
    refine ⟨j3 hdirt, ?_⟩
    exact Wakens.of_settled hb1 hk hmo.params (fun w => by rw [o2 (hdw.mp w), hmo.params]) (fun w => o3 fun k => w (hdw.mpr k))
      k2 j1 k3 j2 j4
  · exact FaceLeft.of_sameAfter (touch_unbound s hb).2 (by rw [k5 hb, (own f).1 hb])

/-- R6: a touch read off the state before a request's frame was taken and after its reply. -/
theorem TouchWakes.served {s m t t' : State} {pls : List Nat} {b : Bool} (h : TouchWakes m t pls false)
    (hf : ∀ f, m.faces.get f = { s.faces.get f with dirty := (s.faces.get f).dirty || b })
    {ps : List Part} (ho : OnlyIn ps s m) (hps : ∀ q ∈ [Part.panels, .params, .ambient, .painter], q ∉ ps)
    (ht : OnlyIn [.ports] t t')
    (hs : ∀ p, (t'.ports.get p).silent = (t.ports.get p).silent ∧ (t'.ports.get p).staleInForce = (t.ports.get p).staleInForce) :
    TouchWakes s t' pls b := by
  intro f
  have hb : t'.bound f pls = t.bound f pls := by unfold State.bound; rw [ht.faces]
  have hdw : t'.departureWakes f ↔ t.departureWakes f :=
    departureWakes_congr ht.clock ht.params (by rw [ht.faces]) (view_congr ht.table (by rw [ht.faces]) hs)
  have hm : FaceLeft s m f b := FaceLeft.of_faces (hf f) (ho .panels (hps _ (by decide))) (ho .painter (hps _ (by decide)))
  have htl : FaceLeft t t' f false := FaceLeft.of_faces (by rw [ht.faces, Bool.or_false]) ht.panels ht.painter
  rw [hb, ht.faces]
  refine ⟨fun hk => ?_, fun hk => ?_⟩
  · obtain ⟨h1, h2⟩ := (h f).1 hk
    refine ⟨h1, ?_⟩
    have h3 := (h2.after hdw (SameAfter.of_eq ht.faces ht.panels ht.painter f) ht.lines).before
      (SameBefore.of_faces ho hps (by rw [hf f]) (by rw [hf f]; intro hd; dsimp only; rw [hd, Bool.true_or])) (by rw [hf f])
      (congrArg Params.wakeHold (ho .params (hps _ (by decide))))
    rw [hf f] at h3
    exact h3
  · have := (hm.trans ((h f).2 hk)).trans htl
    rwa [Bool.or_false, Bool.or_false] at this

theorem sendReply_silent (t : State) (x : Port) (kind tag : Byte) (r : Reply) (p : Port) :
    ((t.sendReply x kind tag r).ports.get p).silent = (t.ports.get p).silent ∧
      ((t.sendReply x kind tag r).ports.get p).staleInForce = (t.ports.get p).staleInForce := by
  unfold State.sendReply
  dsimp only
  rw [State.modPort_ports, PerPort.get_set]
  split
  · rename_i h; subst h; exact ⟨rfl, rfl⟩
  · exact ⟨rfl, rfl⟩

/-- R6: a touch in a request, once the reply is sent. -/
theorem TouchWakes.reply {s t : State} {p : Port} {pls : List Nat} (h : TouchWakes (s.acceptFrame p) t pls false)
    (kind tag : Byte) (r : Reply) : TouchWakes s (t.sendReply p kind tag r) pls (s.ports.get p).silent :=
  h.served (acceptFrame_face s p) (acceptFrame_only s p) (by decide)
    (sendReply_only t p kind tag r) (sendReply_silent t p kind tag r)

/-- R6: a touch after changes that leave the faces, the panels, the painter, the parameters and the ambient level. -/
theorem TouchWakes.before {s m t : State} {pls : List Nat} (h : TouchWakes m t pls false) {ps : List Part} (ho : OnlyIn ps s m)
    (hps : ∀ q ∈ [Part.faces, .panels, .params, .ambient, .painter], q ∉ ps := by decide) : TouchWakes s t pls false :=
  h.served (fun f => by rw [show m.faces = s.faces from ho .faces (hps _ (by decide)), Bool.or_false])
    ho (fun q hq => hps q (List.mem_cons_of_mem _ hq)) (OnlyIn.refl _ t) fun _ => ⟨rfl, rfl⟩

/-- Effects, then effects that find the same state: one change of state. -/
theorem StateEffects.trans {s u t : State} {f : Face} (h : StateEffects s u f) (k : StateEffects u t f)
    (hst : (t.faces.get f).state = (u.faces.get f).state) : StateEffects s t f := by
  unfold StateEffects at h k ⊢
  dsimp only at h k ⊢
  rw [hst] at k ⊢
  obtain ⟨a1, a2, al, as, a3, a4, a5, a6, a7, a8, a9, a10, a11, a12, a13, a14, a15⟩ := h
  obtain ⟨b1, b2, bl, bs, b3, b4, b5, b6, b7, b8, _, b10, _, _, b13, b14, _⟩ := k
  obtain ⟨b10a, b10b, b10c, b10d⟩ := b10 (Classical.em _)
  obtain ⟨b13a, b13b⟩ := b13 Iff.rfl
  obtain ⟨b14a, b14b⟩ := b14 rfl
  have hp : { t.panels.get f with
      back := (s.panels.get f).back, out := (s.panels.get f).out, startLeft := (s.panels.get f).startLeft
      check := (s.panels.get f).check, frame := (s.panels.get f).frame, faceDuty := (s.panels.get f).faceDuty
      duties := (s.panels.get f).duties } = s.panels.get f := by
    generalize t.panels.get f = r at b3 ⊢
    generalize u.panels.get f = q at a3 b3 ⊢
    generalize s.panels.get f = p at a3 ⊢
    refine Eq.trans ?_ a3
    exact congrArg (fun x : Panel => { x with
      back := p.back, out := p.out, startLeft := p.startLeft, check := p.check, frame := p.frame
      faceDuty := p.faceDuty, duties := p.duties }) b3
  rw [b1, b2, bl, bs, b10a, b10b, b10c, b10d, b13a, b13b, b14a, b14b]
  refine ⟨a1, a2, al, as, hp, a4.trans b4, fun x => b5 (a5 x), fun x => b6 (a6 x), fun x => b7 (a7 x),
    fun j hj x => a8 j hj (b8 j hj x), fun x y => ?_, a10, fun x y => ?_, fun x y => b5 (a12 x y), a13, a14, a15⟩
  · obtain ⟨c1, c2, c3, c4⟩ := a9 x y
    exact ⟨c1, c2, fun j hj he => c3 j (b8 j he hj) he, c4⟩
  · obtain ⟨c1, c2, c3, c4⟩ := a11 x y
    exact ⟨b6 c1, b7 c2, b5 c3, c4⟩

theorem LayoutLeft.trans {s u t : State} {f : Face} (h : LayoutLeft s u f) (k : LayoutLeft u t f)
    (hst : (t.faces.get f).state = (u.faces.get f).state) : LayoutLeft s t f := by
  obtain ⟨h1, h2, h3, h4, h5⟩ := h
  obtain ⟨k1, k2, k3, k4, k5⟩ := k
  refine ⟨k1.trans h1, k2.trans h2, k3.trans h3, k4.trans h4, fun x => ?_⟩
  rw [hst] at x k5
  obtain ⟨m1, m2⟩ := k5 (by by_cases hd : (u.faces.get f).state = .dark <;> simp [hd])
  obtain ⟨n1, n2⟩ := h5 x
  exact ⟨m1.trans n1, m2.trans n2⟩

/-- Two wakes of a face, one after the other, of which the second finds what the first found. -/
theorem Wakens.trans {s u t : State} {f : Face} {woken : Prop} (h : Wakens s u f woken (s.faces.get f).countdown)
    (k : Wakens u t f woken (u.faces.get f).countdown) (hl : t.lines = u.lines) (hp : u.params = s.params)
    (hs : (t.faces.get f).settings = (u.faces.get f).settings) : Wakens s t f woken (s.faces.get f).countdown := by
  obtain ⟨h1, h2, h3, h4, h5⟩ := h
  obtain ⟨k1, k2, k3, k4, k5⟩ := k
  have hc : (t.faces.get f).countdown = (u.faces.get f).countdown := by
    by_cases hw : woken
    · rw [k1 hw, h1 hw, hp]
    · exact k2 hw
  have hst : (t.faces.get f).state = (u.faces.get f).state := by
    rw [k3, h3]; exact effState_congr hl (by rw [hs]) hc
  exact ⟨fun hw => by rw [k1 hw, hp], fun hw => by rw [k2 hw, h2 hw], k3, h4.trans k4 hst, h5.trans k5 hst⟩

/-- R6: two touches one after the other, where the second finds what the first found at each face. -/
theorem TouchWakes.trans {s u t : State} {pls qls : List Nat} (h : TouchWakes s u pls false) (k : TouchWakes u t qls false)
    (hl : t.lines = u.lines) (hp : u.params = s.params)
    (hs : ∀ f, (t.faces.get f).settings = (u.faces.get f).settings)
    (hw : ∀ f, t.departureWakes f ↔ u.departureWakes f)
    (hfirst : ∀ f, u.bound f pls = false → SameBefore s u f)
    (hsecond : ∀ f, t.bound f qls = false → SameAfter u t f) : TouchWakes s t (pls ++ qls) false := by
  have any_append : ∀ f, t.bound f (pls ++ qls) = (u.bound f pls || t.bound f qls) := by
    intro f
    unfold State.bound
    rw [List.any_append, hs f]
  intro f
  rw [any_append f]
  obtain ⟨h1, h2⟩ := h f
  obtain ⟨k1, k2⟩ := k f
  cases hu : u.bound f pls <;> cases ht : t.bound f qls
  · exact ⟨fun x => absurd x (by decide), fun _ => (h2 hu).trans (k2 ht)⟩
  · refine ⟨fun _ => ?_, fun x => absurd x (by decide)⟩
    have e : u.faces.get f = s.faces.get f := by rw [(h2 hu).1]; simp
    have h3 := (k1 ht).2.before (hfirst f hu) (by rw [e]) (congrArg Params.wakeHold hp)
    rw [e] at h3
    exact ⟨(k1 ht).1, h3⟩
  · refine ⟨fun _ => ?_, fun x => absurd x (by decide)⟩
    have e : t.faces.get f = u.faces.get f := by rw [(k2 ht).1]; simp
    exact ⟨by rw [e]; exact (h1 hu).1, (h1 hu).2.after (hw f) (hsecond f ht) hl⟩
  · refine ⟨fun _ => ?_, fun x => absurd x (by decide)⟩
    have h3 := (h1 hu).2
    obtain ⟨a1, a2, a3, a4⟩ := h3
    exact ⟨(k1 ht).1, Wakens.trans ⟨fun x => a1 ((hw f).mp x), fun x => a2 fun y => x ((hw f).mpr y), a3, a4⟩ (k1 ht).2 hl hp (hs f)⟩

/-- R95, R100, R101: a face whose settings are replaced takes the effects of the change of its state. -/
theorem setFaceSettings_effects (s : State) (p : Port) (f : Face) (c : FaceSettings) (kind tag : Byte) (r : Reply) :
    StateEffects s (((s.acceptFrame p).setFaceSettings f c).sendReply p kind tag r) f := by
  set a := s.acceptFrame p with ha
  set u := a.modFace f (Composer.setSettings c) with hu
  set v := u.departureWake f with hv
  have haf := acceptFrame_face s p f
  rw [← ha] at haf
  have hU : u.faces.get f = Composer.setSettings c (a.faces.get f) := by rw [hu, State.modFace_faces, PerFace.get_set_same]
  have ho : OnlyIn [.ports, .faces] s v :=
    (acceptFrame_only s p).trans (((modFace_only _ _ _).trans (departureWake_only _ _)).mono (by decide))
  have hV := (departureWake_countdown u f).2.2
  have keep : ∀ (x : Composer), (Composer.setSettings c x).state = x.state ∧ (Composer.setSettings c x).calling = x.calling ∧
      (Composer.setSettings c x).bottom = x.bottom ∧ (Composer.setSettings c x).rebuild = x.rebuild ∧
      (Composer.setSettings c x).inHand = x.inHand ∧ (Composer.setSettings c x).dirty = x.dirty ∧
      (Composer.setSettings c x).lastPlan = x.lastPlan ∧ (Composer.setSettings c x).serial = x.serial ∧
      (x.restartPending = true → (Composer.setSettings c x).restartPending = true) ∧
      (x.pass = false → (Composer.setSettings c x).pass = false) := by
    intro x
    unfold Composer.setSettings
    dsimp only
    split
    · exact ⟨rfl, rfl, rfl, rfl, rfl, rfl, rfl, rfl, fun _ => rfl, fun _ => rfl⟩
    · exact ⟨rfl, rfl, rfl, rfl, rfl, rfl, rfl, rfl, id, id⟩
  obtain ⟨k1, k2, k3, k4, k5, k6, k9, k10, k7, k8⟩ := keep (a.faces.get f)
  rw [← hU, haf] at k1 k2 k3 k4 k5 k6 k7 k8 k9 k10
  have v1 := congrArg Composer.state hV
  have v2 := congrArg Composer.calling hV
  have v3 := congrArg Composer.bottom hV
  have v4 := congrArg Composer.rebuild hV
  have v5 := congrArg Composer.inHand hV
  have v6 := congrArg Composer.dirty hV
  have v7 := congrArg Composer.restartPending hV
  have v8 := congrArg Composer.pass hV
  have v9 := congrArg Composer.lastPlan hV
  have v10 := congrArg Composer.serial hV
  have hb : SameBefore s v f := by
    refine ⟨v1.trans k1, v2.trans k2, v3.trans k3, v4.trans k4, v5.trans k5, v9.trans k9, v10.trans k10,
      by rw [ho.panels], by rw [ho.params], ho.ambient, fun h => ?_, fun h => v7.trans (k7 h), fun h => v8.trans (k8 h), fun j _ => ?_,
      BackLeft.of_eq ho.panels ho.painter f⟩
    · exact v6.trans (k6.trans (by dsimp only; rw [h, Bool.true_or]))
    · unfold State.paints; rw [ho.painter]; exact id
  have hs : SameAfter (v.settle f) (((v.settle f).markDirty f).sendReply p kind tag r) f := by
    have hf : (((v.settle f).markDirty f).sendReply p kind tag r).faces.get f = { (v.settle f).faces.get f with dirty := true } := by
      rw [(sendReply_only _ p kind tag r).faces, State.markDirty, State.modFace_faces, PerFace.get_set_same]
    have hpan : (((v.settle f).markDirty f).sendReply p kind tag r).panels = (v.settle f).panels := by
      rw [(sendReply_only _ p kind tag r).panels, (markDirty_only _ f).panels]
    have hpai : (((v.settle f).markDirty f).sendReply p kind tag r).painter = (v.settle f).painter := by
      rw [(sendReply_only _ p kind tag r).painter, (markDirty_only _ f).painter]
    refine ⟨by rw [hf], fun _ => by rw [hf], by rw [hpan], fun j _ => ?_, BackLeft.of_eq hpan hpai f⟩
    unfold State.paints; rw [hpai]; exact id
  exact (settle_effects v f).congr hb hs

/-- R95: a face whose own settings are not the ones replaced is left, dirty where the port turns LIVE. -/
theorem setFaceSettings_other (s : State) (p : Port) {f g : Face} (h : g ≠ f) (c : FaceSettings) (kind tag : Byte) (r : Reply) :
    FaceLeft s (((s.acceptFrame p).setFaceSettings f c).sendReply p kind tag r) g (s.ports.get p).silent := by
  have hopen := acceptFrame_only s p
  set a := s.acceptFrame p with ha
  set v := (a.modFace f (Composer.setSettings c)).departureWake f with hv
  have hvo : OnlyIn [.faces] a v := (modFace_only _ _ _).trans (departureWake_only _ _)
  have hvg : v.faces.get g = a.faces.get g := by
    rw [hv, departureWake_other _ h, State.modFace_faces, PerFace.get_set_other _ _ h]
  have hm : ((v.settle f).markDirty f).faces.get g = (v.settle f).faces.get g := by
    rw [State.markDirty, State.modFace_faces, PerFace.get_set_other _ _ h]
  have hmo := markDirty_only (v.settle f) f
  have hro := sendReply_only ((v.settle f).markDirty f) p kind tag r
  have h1 : FaceLeft s a g (s.ports.get p).silent := FaceLeft.of_faces (acceptFrame_face s p g) hopen.panels hopen.painter
  have h2 : FaceLeft a v g false := FaceLeft.of_faces (by rw [hvg, Bool.or_false]) hvo.panels hvo.painter
  have h3 : FaceLeft v (v.settle f) g false := FaceLeft.of_sameAfter (SameAfter.settle v h) (by rw [settle_other v h])
  have h4 : FaceLeft (v.settle f) (((v.settle f).markDirty f).sendReply p kind tag r) g false :=
    FaceLeft.of_faces (by rw [hro.faces, hm, Bool.or_false]) (by rw [hro.panels, hmo.panels]) (by rw [hro.painter, hmo.painter])
  have := ((h1.trans h2).trans h3).trans h4
  rwa [Bool.or_false, Bool.or_false, Bool.or_false] at this

/-- R6: a touch is of a set of platforms. -/
theorem TouchWakes.congr {s t : State} {pls qls : List Nat} {b : Bool} (h : TouchWakes s t pls b) (he : ∀ x, x ∈ qls ↔ x ∈ pls) :
    TouchWakes s t qls b := by
  have hb : ∀ f, t.bound f qls = t.bound f pls := by
    intro f
    unfold State.bound
    rw [Bool.eq_iff_iff, List.any_eq_true, List.any_eq_true]
    exact exists_congr fun x => by rw [he x]
  intro f
  rw [hb f]
  exact h f

/-- A change that touches no platform leaves the faces. -/
theorem TouchWakes.none (s : State) : TouchWakes s s [] false := by
  intro f
  have hb : s.bound f [] = false := rfl
  rw [hb]
  exact ⟨fun h => absurd h (by decide), fun _ => FaceLeft.refl s f⟩

end Sys2Proof.Machine
end

