-- ==== Sys2Proof/Laws/Table.lean ====
section
/-! SUPPORT. The departure table: finding records after each change, the order, the pool and the pins, and the loss of reservations. -/

namespace Sys2Proof.Machine
-- one proof at a time: proofs elaborated at once would each take a thread of their own
set_option Elab.async false

/-- The record of a code in a list. -/
def findCode (t : List Departure) (code : Nat) : Option Departure := t.find? fun r => r.code == code

theorem record?_eq (s : State) (code : Nat) : s.record? code = findCode s.table code := rfl

theorem findCode_some {t : List Departure} {code : Nat} {r : Departure} (h : findCode t code = some r) :
    r.code = code ∧ r ∈ t := by
  unfold findCode at h
  exact ⟨by simpa using List.find?_some h, List.mem_of_find?_eq_some h⟩

theorem findCode_none {t : List Departure} {code : Nat} : findCode t code = none ↔ ∀ r ∈ t, r.code ≠ code := by
  unfold findCode
  simp

theorem findCode_cons (x : Departure) (t : List Departure) (code : Nat) :
    findCode (x :: t) code = if x.code = code then some x else findCode t code := by
  unfold findCode
  rw [List.find?_cons]
  by_cases h : x.code = code
  · simp [h]
  · rw [if_neg h, show (x.code == code) = false by simpa using h]

theorem findCode_insert_same (ro : Nat) (r : Departure) (t : List Departure) (h : findCode t r.code = none) :
    findCode (insertRecord ro r t) r.code = some r := by
  induction t with
  | nil => simp [insertRecord, findCode_cons]
  | cons x rest ih =>
    rw [findCode_cons] at h
    unfold insertRecord
    split
    · simp [findCode_cons]
    · rw [findCode_cons]
      by_cases hx : x.code = r.code
      · simp [hx] at h
      · rw [if_neg hx] at h ⊢
        exact ih h

theorem findCode_insert_other (ro : Nat) (r : Departure) (t : List Departure) {code : Nat} (h : code ≠ r.code) :
    findCode (insertRecord ro r t) code = findCode t code := by
  induction t with
  | nil => simp [insertRecord, findCode_cons, Ne.symm h]
  | cons x rest ih =>
    unfold insertRecord
    split
    · rw [findCode_cons, if_neg (Ne.symm h)]
    · rw [findCode_cons, findCode_cons, ih]

theorem findCode_without_same (code : Nat) (t : List Departure) : findCode (withoutRecord code t) code = none := by
  rw [findCode_none]
  intro r hr
  unfold withoutRecord at hr
  simpa using (List.mem_filter.mp hr).2

theorem findCode_without_other (t : List Departure) {code c : Nat} (h : c ≠ code) :
    findCode (withoutRecord code t) c = findCode t c := by
  induction t with
  | nil => rfl
  | cons x rest ih =>
    unfold withoutRecord at ih ⊢
    rw [List.filter_cons]
    split
    · rw [findCode_cons, findCode_cons, ih]
    · rename_i hx
      have : x.code = code := by simpa using hx
      rw [findCode_cons, if_neg (by rw [this]; exact Ne.symm h), ih]

/-- The record put in the place of the records of its code. -/
def putIn (r : Departure) (t : List Departure) : List Departure := t.map fun x => if x.code = r.code then r else x

theorem putInPlace_eq (s : State) (r : Departure) : (s.putInPlace r).table = putIn r s.table := rfl

theorem findCode_putIn_same {r : Departure} {t : List Departure} (h : findCode t r.code ≠ none) :
    findCode (putIn r t) r.code = some r := by
  induction t with
  | nil => exact absurd rfl h
  | cons x rest ih =>
    rw [findCode_cons] at h
    unfold putIn at ih ⊢
    rw [List.map_cons, findCode_cons]
    by_cases hx : x.code = r.code
    · simp [hx]
    · rw [if_neg hx] at h ⊢
      rw [if_neg hx]
      exact ih h

theorem findCode_putIn_other {r : Departure} (t : List Departure) {c : Nat} (h : c ≠ r.code) :
    findCode (putIn r t) c = findCode t c := by
  induction t with
  | nil => rfl
  | cons x rest ih =>
    unfold putIn at ih ⊢
    rw [List.map_cons, findCode_cons, findCode_cons, ih]
    by_cases hx : x.code = r.code
    · rw [if_pos hx, if_neg (Ne.symm h), if_neg (by rw [hx]; exact Ne.symm h)]
    · rw [if_neg hx]

theorem putIn_codes (r : Departure) (t : List Departure) : (putIn r t).map (fun x => x.code) = t.map fun x => x.code := by
  unfold putIn
  rw [List.map_map]
  apply List.map_congr_left
  intro x _
  dsimp only [Function.comp]
  split
  · rename_i h; exact h.symm
  · rfl

/-! ## Reservations -/

theorem loseReservation_get (s : State) (code : Nat) (o : Origin) (p q : Port) :
    (s.loseReservation code o p).reservations.get q =
        (if q = p ∧ s.reservations.get q = some code then none else s.reservations.get q) ∧
      (s.loseReservation code o p).events.get q =
        (if q = p ∧ s.reservations.get q = some code ∧ o ≠ .port q then (s.events.get q).add .reservationLost
          else s.events.get q) := by
  unfold State.loseReservation
  by_cases h : s.reservations.get p = some code
  · rw [if_pos h]
    dsimp only
    by_cases ho : o = .port p
    · rw [if_pos ho]
      constructor
      · rw [State.setReservation_reservations, PerPort.get_set]
        by_cases hq : q = p
        · subst hq; simp [h]
        · simp [hq]
      · rw [State.setReservation_events]
        by_cases hq : q = p
        · subst hq; simp [ho]
        · simp [hq]
    · rw [if_neg ho]
      constructor
      · rw [State.signal_reservations, State.setReservation_reservations, PerPort.get_set]
        by_cases hq : q = p
        · subst hq; simp [h]
        · simp [hq]
      · rw [State.signal_events, PerPort.get_set, State.setReservation_events]
        by_cases hq : q = p
        · subst hq; simp [h, ho]
        · simp [hq]
  · rw [if_neg h]
    constructor
    · by_cases hq : q = p
      · subst hq; simp [h]
      · simp [hq]
    · by_cases hq : q = p
      · subst hq; simp [h]
      · simp [hq]

/-- R58, R60: what the loss of reservations does to every port. -/
theorem loseReservations_loses (s : State) (code : Nat) (o : Origin) :
    LosesReservations s (s.loseReservations code o) code o := by
  intro q
  have h0 := loseReservation_get s code o .lp0
  have h1 := loseReservation_get (s.loseReservation code o .lp0) code o .lp1
  have h2 := loseReservation_get ((s.loseReservation code o .lp0).loseReservation code o .lp1) code o .lp2
  have e : s.loseReservations code o =
      ((s.loseReservation code o .lp0).loseReservation code o .lp1).loseReservation code o .lp2 := rfl
  rw [e, (h2 q).1, (h2 q).2, (h1 q).1, (h1 q).2, (h0 q).1, (h0 q).2]
  cases q <;> simp <;> rfl

/-! ## What a change of a record, a removal, an insert and a replacement do -/

theorem OnlyIn.of_table (s : State) (l : List Departure) : OnlyIn [.table, .reservations, .events] s { s with table := l } := by
  intro q hq; cases q <;> first | rfl | exact absurd (by decide) hq

/-- R4, R6, R58: everything a change of a record in place does. -/
theorem changeRecord_spec (s : State) (old new : Departure) (o : Origin) (hc : new.code = old.code) (hp : findCode s.table old.code ≠ none) :
   (s.changeRecord old new o).record? old.code = some { new with revision := new.revision + 1, writer := o } ∧
   OthersSame s (s.changeRecord old new o) old.code ∧ (s.changeRecord old new o).table.map (fun x => x.code) = s.table.map (fun x => x.code) ∧
   LosesReservations s (s.changeRecord old new o) old.code o ∧
   TouchWakes s (s.changeRecord old new o) [old.platform, new.platform] false := by
  have e : s.changeRecord old new o = ((s.putInPlace (new.changedBy o)).loseReservations old.code o).touch [old.platform, new.platform] := rfl
  have hto := touch_only ((s.putInPlace (new.changedBy o)).loseReservations old.code o) [old.platform, new.platform]
  have hlo := loseReservations_only (s.putInPlace (new.changedBy o)) old.code o
  have htab : (s.changeRecord old new o).table = putIn (new.changedBy o) s.table := by
    rw [e, hto.table, hlo.table, putInPlace_eq]
  refine ⟨?_, ?_, ?_, ?_, ?_⟩
  · rw [record?_eq, htab, ← hc]
    exact findCode_putIn_same (r := new.changedBy o) (by rw [show (new.changedBy o).code = old.code from hc]; exact hp)
  · intro c hne
    rw [record?_eq, htab, findCode_putIn_other _ (by rw [show (new.changedBy o).code = old.code from hc]; exact hne)]; rfl
  · rw [htab, putIn_codes]
  · intro x
    have hl := loseReservations_loses (s.putInPlace (new.changedBy o)) old.code o x
    rw [e, hto.reservations, hto.events, hl.1, hl.2]
    exact ⟨rfl, rfl⟩
  · rw [e]
    exact (touch_wakes _ _).before ((OnlyIn.of_table s (putIn (new.changedBy o) s.table)).trans (hlo.mono (by decide)))

theorem changeRecord_table (s : State) (old new : Departure) (o : Origin) :
    (s.changeRecord old new o).table = s.table.map fun x => if x.code = new.code then new.changedBy o else x := by
  rw [State.changeRecord, (touch_only _ _).table, (loseReservations_only _ _ _).table]
  rfl

theorem touch_settings (s : State) (pls : List Nat) (f : Face) : ((s.touch pls).faces.get f).settings = (s.faces.get f).settings := by
  obtain ⟨_, hset, _, ht⟩ := touch_phases s pls
  rw [ht, (settleSel_spec _ _ f).1, hset f]

theorem changeRecord_settings (s : State) (old new : Departure) (o : Origin) (f : Face) :
    ((s.changeRecord old new o).faces.get f).settings = (s.faces.get f).settings := by
  refine (touch_settings ((s.putInPlace (new.changedBy o)).loseReservations old.code o) _ f).trans ?_
  rw [(loseReservations_only (s.putInPlace (new.changedBy o)) old.code o).faces, (putInPlace_only s _).faces]

/-- A change of a record leaves a face bound to neither of its platforms. -/
theorem changeRecord_unbound (s : State) (old new : Departure) (o : Origin) {f : Face}
    (h : (s.changeRecord old new o).bound f [old.platform, new.platform] = false) :
    SameBefore s (s.changeRecord old new o) f ∧ SameAfter s (s.changeRecord old new o) f := by
  have hmo : OnlyIn [.table, .reservations, .events] s ((s.putInPlace (new.changedBy o)).loseReservations old.code o) :=
    ((putInPlace_only s _).mono (by decide)).trans ((loseReservations_only _ _ _).mono (by decide))
  have hset := changeRecord_settings s old new o f
  have e : s.changeRecord old new o
    = ((s.putInPlace (new.changedBy o)).loseReservations old.code o).touch [old.platform, new.platform] := rfl
  rw [e] at h hset ⊢
  generalize (s.putInPlace (new.changedBy o)).loseReservations old.code o = m at hmo hset h ⊢
  have hb : m.bound f [old.platform, new.platform] = false := by
    rw [← h]
    unfold State.bound
    rw [hset, hmo.faces]
  obtain ⟨h1, h2⟩ := touch_unbound m hb
  have ha : SameAfter s m f := SameAfter.of_eq hmo.faces hmo.panels hmo.painter f
  refine ⟨?_, ha.trans h2⟩
  obtain ⟨a1, a2, a3, a4, a5, al, as, a6, a7, a8, a9, a10, a11, a12, ab⟩ := h1
  rw [hmo.faces] at a1 a2 a3 a4 a5 al as a9 a10 a11
  rw [hmo.panels] at a6
  rw [hmo.params] at a7
  rw [hmo.ambient] at a8
  exact ⟨a1, a2, a3, a4, a5, al, as, a6, a7, a8, a9, a10, a11, fun j hj x => ha.jobs j hj (a12 j hj x), ha.back.trans ab⟩

/-- R22: everything a removal does. -/
theorem removeRecord_spec (s : State) (r : Departure) (o : Origin) :
   (s.removeRecord r o).record? r.code = none ∧ OthersSame s (s.removeRecord r o) r.code ∧
   (s.removeRecord r o).freeStops = s.freeStops + r.stops.length ∧
   (s.removeRecord r o).pinCount = (if r.pinned then s.pinCount - 1 else s.pinCount) ∧
   LosesReservations s (s.removeRecord r o) r.code o ∧ TouchWakes s (s.removeRecord r o) [r.platform] false := by
  set s1 : State := { s with
      table := withoutRecord r.code s.table
      freeStops := s.freeStops + r.stops.length
      pinCount := if r.pinned then s.pinCount - 1 else s.pinCount } with hs1
  have e : s.removeRecord r o = (s1.loseReservations r.code o).touch [r.platform] := rfl
  have hto := touch_only (s1.loseReservations r.code o) [r.platform]
  have hlo := loseReservations_only s1 r.code o
  have htab : (s.removeRecord r o).table = withoutRecord r.code s.table := by rw [e, hto.table, hlo.table]
  refine ⟨?_, ?_, ?_, ?_, ?_, ?_⟩
  · rw [record?_eq, htab]; exact findCode_without_same _ _
  · intro c hc; rw [record?_eq, htab, findCode_without_other _ hc]; rfl
  · rw [e, hto.freeStops, hlo.freeStops]
  · rw [e, hto.pinCount, hlo.pinCount]
  · intro x
    have hl := loseReservations_loses s1 r.code o x
    rw [e, hto.reservations, hto.events, hl.1, hl.2]
    exact ⟨rfl, rfl⟩
  · rw [e]
    have h1 : OnlyIn [.table, .freeStops, .pinCount, .reservations, .events] s s1 := by
      intro q hq; cases q <;> first | rfl | exact absurd (by decide) hq
    exact (touch_wakes _ _).before (h1.trans (hlo.mono (by decide)))

theorem LosesReservations.sendReply {s t : State} {code : Nat} {o : Origin} (h : LosesReservations s t code o)
    (p : Port) (kind tag : Byte) (r : Reply) : LosesReservations s (t.sendReply p kind tag r) code o := h

/-- The loss of reservations after a frame was accepted is that before it. -/
theorem LosesReservations.of_accept {s t : State} {x : Port} {code : Nat} {o : Origin}
    (h : LosesReservations (s.acceptFrame x) t code o) : LosesReservations s t code o := by
  intro q
  have := h q
  rw [acceptFrame_reservations, acceptFrame_events] at this
  exact this

theorem OthersSame.of_accept {s t : State} {x : Port} {code : Nat} (h : OthersSame (s.acceptFrame x) t code) :
    OthersSame s t code := by
  intro c hc
  rw [h c hc, acceptFrame_record?]

/-! ## The rights of the table's requests (R7) -/

theorem platforms_allow {s : State} {p x right} {old : Departure} {n : Nat} (ha : s.allows x right [old.platform, n]) :
   (s.acceptFrame p).allows x right (platformsFor (some old) (some n)) := by
    apply acceptFrame_allows
    intro pl hpl; apply ha
    unfold platformsFor at hpl; dsimp only at hpl; split at hpl
    · simp at hpl; simp [hpl]
    · simpa using hpl

theorem amend_allow {s : State} {p x right} {r : Departure} {a : Action Nat} (ha : s.allows x right (r.platform :: a.toOption.toList)) :
   (s.acceptFrame p).allows x right (platformsFor (some r) a.toOption) := by
    apply acceptFrame_allows
    intro pl hpl; apply ha
    unfold platformsFor at hpl
    cases a with
    | leave => simpa [Action.toOption] using hpl
    | set n =>
      simp only [Action.toOption] at hpl
      split at hpl
      · simp at hpl; simp [hpl]
      · simpa [Action.toOption] using hpl

/-- A change of a record by an accepted request that is answered OK, for any earlier handling that touched the reservations of its port alone. -/
theorem changesRecord_request {s : State} {p : Port} {k tag : Byte} {r new : Departure} {u0 : State}
  (hu0 : OnlyIn [.reservations] (s.acceptFrame p) u0) (hrec : ∀ c, u0.record? c = s.record? c) (htab : u0.table = s.table)
  (hres : ∀ x, u0.reservations.get x = if x = p ∧ s.reservations.get x = some r.code then none else s.reservations.get x) (hev : u0.events = s.events)
  (hn : s.record? r.code = some r) (hc : new.code = r.code)
  (h3 : OnlyIn (.ports :: .faces :: .table :: .reservations :: .events :: faceParts) s ((u0.changeRecord r new (.port p)).sendReply p k tag (.plain .ok))) :
  ChangesRecord s ((u0.changeRecord r new (.port p)).sendReply p k tag (.plain .ok)) r { new with revision := new.revision + 1, writer := .port p } p := by
  obtain ⟨c1, c2, c3, c4, c5⟩ := changeRecord_spec u0 r new (.port p) hc (by
        have := hrec r.code; rw [record?_eq] at this; rw [this, hn]; simp)
  refine ⟨?_, ?_, ?_, ?_, (c5.before hu0).reply _ _ _, h3.mono (by decide)⟩
  · rw [sendReply_record?, c1]
  · intro c hc'; rw [sendReply_record?, c2 c hc', hrec]
  · rw [State.sendReply_table, c3, htab]
  · intro x
    rw [State.sendReply_reservations, State.sendReply_events, (c4 x).1, (c4 x).2, hres, hev]
    by_cases hx : x = p
    · subst hx; by_cases h : s.reservations.get x = some r.code <;> simp [h]
    · simp [hx, Ne.symm hx]

/-- A removal of a record by an accepted request that is answered OK. -/
theorem removesRecord_request {s : State} {p : Port} {k tag : Byte} {r : Departure} {u0 : State}
  (hu0 : OnlyIn [.reservations] (s.acceptFrame p) u0) (hrec : ∀ c, u0.record? c = s.record? c) (hf : u0.freeStops = s.freeStops) (hpc : u0.pinCount = s.pinCount)
  (hres : ∀ x, u0.reservations.get x = if x = p ∧ s.reservations.get x = some r.code then none else s.reservations.get x) (hev : u0.events = s.events)
  (h3 : OnlyIn (.ports :: .faces :: tableParts) s ((u0.removeRecord r (.port p)).sendReply p k tag (.plain .ok))) :
  RemovesRecord s ((u0.removeRecord r (.port p)).sendReply p k tag (.plain .ok)) r p := by
  obtain ⟨c1, c2, c3, c4, c5, c6⟩ := removeRecord_spec u0 r (.port p)
  refine ⟨by rw [sendReply_record?, c1], ?_, ?_, ?_, ?_, (c6.before hu0).reply _ _ _, h3.mono (by decide)⟩
  · intro c hc; rw [sendReply_record?, c2 c hc, hrec]
  · rw [State.sendReply_freeStops, c3, hf]
  · rw [State.sendReply_pinCount, c4, hpc]
  · intro x
    rw [State.sendReply_reservations, State.sendReply_events, (c5 x).1, (c5 x).2, hres, hev]
    by_cases hx : x = p
    · subst hx; by_cases h : s.reservations.get x = some r.code <;> simp [h]
    · simp [hx, Ne.symm hx]

end Sys2Proof.Machine
end

