-- ==== Sys2Proof/Laws/Requests.lean ====
section
/-! SUPPORT. Operands and reply blocks that the statements spell out, the parameter table by number, and the parts a store touches. -/

namespace Sys2Proof.Machine
-- one proof at a time: proofs elaborated at once would each take a thread of their own
set_option Elab.async false

theorem parseWriteZone_badField (n enabled who low high rights : Byte) (h : 7 < n ∨ 1 < enabled ∨ (2 < who ∧
    who ≠ 0xFF) ∨ 31 < low ∨ 31 < high ∨ 15 < rights) :
    parseWriteZone [n, enabled, who, low, high, rights] = .error .badField := by
  have key : readZone [enabled, who, low, high, rights] = none ∨ ¬ n.toNat < 8 := by
    rcases h with h | h | h | h | h | h
    · right; have : (7#8).toNat < n.toNat := h; simp at this; omega
    · left
      have : (1#8).toNat < enabled.toNat := h
      have he : readYesNo enabled = none := by
        unfold readYesNo; split <;> simp_all
      simp only [readZone, he]
    · left
      have h1 : (2#8).toNat < who.toNat := h.1
      have he : readMatch who = none := by
        unfold readMatch readPort
        rw [if_neg (by intro hh; apply h.2; apply BitVec.eq_of_toNat_eq; simpa using hh)]
        split <;> simp_all
      simp only [readZone, he]; split <;> simp_all
    · left
      have h1 : (31#8).toNat < low.toNat := h
      simp only [readZone]; split
      · rw [if_neg]; simp at h1; simp; omega
      · rfl
    · left
      have h1 : (31#8).toNat < high.toNat := h
      simp only [readZone]; split
      · rw [if_neg]; simp at h1; simp; omega
      · rfl
    · left
      have h1 : (15#8).toNat < rights.toNat := h
      have he : readRights rights = none := by
        unfold readRights; rw [if_neg]; simp at h1; omega
      simp only [readZone, he]; split <;> simp_all
  rcases key with k | k
  · simp only [parseWriteZone, k]
  · simp only [parseWriteZone]; split
    · rw [dif_neg k]
    · rfl

theorem ok_of_isOk {α} {x : Parsed α} (h : x.isOk = true) : ∃ a, x = .ok a := by
  cases x with
  | ok a => exact ⟨a, rfl⟩
  | error e => simp [Except.isOk, Except.toBool] at h

theorem acceptFrame_shownBytes (s : State) (p : Port) (f : Face) : (s.acceptFrame p).shownBytes f = s.shownBytes f := by
  unfold State.shownBytes
  rw [acceptFrame_panels]
  have : ((s.acceptFrame p).faces.get f).state = (s.faces.get f).state := by
    rw [acceptFrame_faces]; split
    · cases f <;> rfl
    · rfl
  rw [this]

theorem lineBytes_eq (line : InputLine) : line.bytes =
        [if line.function = .approach then 1 else if line.function = .blank then 2
            else if line.function = .wake then 3 else if line.function = .lampTest then 4 else 0,
         if line.face = .a then 1 else if line.face = .b then 2 else 3, byte line.sense, byte line.debounce,
         if line.settled = .high then 1 else 0,
         if (line.function = .blank ∨ line.function = .lampTest) ∧ (line.sense = 0 ↔ line.settled = .high) then 1 else 0,
         if line.pending = 0 then 0 else 1] := by
  obtain ⟨fn, fc, sn, db, st, pn⟩ := line
  unfold InputLine.bytes
  have h1 : yesNo (pn != 0) = if pn = 0 then 0 else 1 := by unfold yesNo; by_cases h : pn = 0 <;> simp [h]
  by_cases hs : sn = 0 <;> cases fn <;> cases fc <;> cases st <;> simp [h1, hs, LineFunction.code, FaceSel.code, byte, Level.code,
      InputLine.active, yesNo]

theorem parseNonZero_byte {n : Nat} (h1 : 1 ≤ n) (h2 : n ≤ 255) : parseNonZero [byte n] = .ok n := by
  show inRange ((byte n).toNat != 0) (byte n).toNat = _
  rw [byte_toNat (by omega)]; unfold inRange; rw [if_pos (by simp; omega)]

theorem recompute_panels (s : State) (f g : Face) : (s.recomputeDuties f).panels.get g = if g = f then
   { s.panels.get f with faceDuty := s.faceDutyOf f, duties := (s.panels.get f).trims.map (moduleDuty (s.faceDutyOf f)) } else s.panels.get g := by
  unfold State.recomputeDuties; dsimp only
  rw [State.modPanel_panels, PerFace.get_set]

theorem major_iff (k : FaultKind) : k.major = true ↔ k ∉ [FaultKind.glyphSubstituted, .placeUndefined, .linkFrameBad,
    .zonesDefaulted] := by cases k <;> decide

theorem unitByte_eq (u : LocaleUnit) : unitByte u = byte u.code := by
  cases u with
  | none => rfl
  | face f => cases f <;> rfl
  | port p => cases p <;> rfl

theorem capturedBlock_eq (c : Captured) : capturedBlock c = c.bytes := by
  obtain ⟨k, ⟨u, p, l⟩, m⟩ := c
  unfold capturedBlock Captured.bytes
  rw [unitByte_eq]
  have e1 : (if k.index.val < 4 then (1 : Byte) else 2) = byte (if k.major then 2 else 1) := by cases k <;> rfl
  have e2 : optional16 m = be16 (m.getD 65535) := by cases m <;> rfl
  have e3 : optional8 l = byte (l.getD 0) := by cases l <;> rfl
  have e4 : byte ((p.map fun n => if k = .chainFailed then n + 1 else n).getD 0) = byte (Captured.positionCode ⟨k, ⟨u, p, l⟩, m⟩) := by
    unfold Captured.positionCode
    cases k <;> cases p <;> rfl
  dsimp only
  rw [e1, e2, e3, e4]
  rfl

/-- R183: the number of a parameter gives the parameter. -/
theorem ofNumber_number (q : Param) : Param.ofNumber q.number = some q := by
  have h1 : ∀ i : Fin 6, Param.ofNumber (Param.number (.reload i)) = some (.reload i) ∧
      Param.ofNumber (Param.number (.unit i)) = some (.unit i)
    ∧ Param.ofNumber (Param.number (.mode i)) = some (.mode i) := by decide
  have h2 : ∀ l : Fin 4, Param.ofNumber (Param.number (.line l)) = some (.line l) := by decide
  have h3 : ∀ m : Fin 32, Param.ofNumber (Param.number (.trim .a m)) = some (.trim .a m) := by decide
  have h4 : ∀ m : Fin 32, Param.ofNumber (Param.number (.trim .b m)) = some (.trim .b m) := by decide
  cases q
  case reload i => exact (h1 i).1
  case unit i => exact (h1 i).2.1
  case mode i => exact (h1 i).2.2
  case line l => exact h2 l
  case trim f m => cases f; exact h3 m; exact h4 m
  case cap f => cases f <;> decide
  case baud p => cases p <;> decide
  case limit p => cases p <;> decide
  case stale p => cases p <;> decide
  all_goals decide

theorem mem_all (q : Param) : q ∈ Param.all := List.mem_of_find?_eq_some (ofNumber_number q)

theorem number_inj {p q : Param} (h : p.number = q.number) : p = q := by
  have := ofNumber_number p
  rw [h, ofNumber_number q] at this
  exact (Option.some.inj this).symm

theorem number_lt (q : Param) : q.number < 256 := by
  cases q
  case cap f => cases f <;> decide
  case baud f => cases f <;> decide
  case limit f => cases f <;> decide
  case stale f => cases f <;> decide
  case trim f m => cases f <;> (simp only [Param.number]; omega)
  all_goals (simp only [Param.number]; omega)

theorem parseSetParameter_eq (q : Param) (value : List Byte) (hl : value.length = q.bytes) (ha : q.accepts value = true) :
    parseSetParameter (byte q.number :: value) = .ok (q, value) := by
  unfold parseSetParameter
  dsimp only
  rw [byte_toNat (number_lt q), ofNumber_number]
  dsimp only
  rw [if_neg (by simp [hl])]
  unfold inRange; rw [if_pos ha]

theorem restart_counts (t : Timer) : t.restart.counter = 0 ∧ t.restart.sub = 0 ∧ t.restart.running = decide (t.restart.reload ≠ 0) := by
  refine ⟨rfl, rfl, ?_⟩
  unfold Timer.restart; dsimp only
  by_cases h : t.reload = 0 <;> simp [h]

theorem writeParam_table (s : State) (q : Param) (v : List Byte) : (s.writeParam q v).table = if q = .ro then sortRecords (beValue v) s.table else s.table := by
  cases q
  case ro => rfl
  case line l => rw [if_neg (by simp)]; unfold State.writeParam; dsimp only; split <;> rfl
  all_goals rw [if_neg (by simp)]; rfl

theorem freeImage_length (d : Nat) : (freeImage d).length = 10158 := by
  unfold freeImage; rw [List.length_map, List.length_range]; rfl

theorem image_accept (s : State) (p : Port) : (s.acceptFrame p).image = s.image := by
  have h : (s.acceptFrame p).imageBody = s.imageBody := by
    unfold State.imageBody
    have ao : OnlyIn [.ports, .faces] s (s.acceptFrame p) := acceptFrame_only s p
    have e1 : (s.acceptFrame p).readParam = s.readParam := by
      funext q
      refine readParam_congr ao.params ?_ (by rw [ao.ambient]) ?_ ?_ ?_ q
      · intro i; rw [ao.timers]; exact ⟨rfl, rfl, rfl⟩
      · intro f; rw [ao.panels]; exact ⟨rfl, rfl⟩
      · intro l; rw [ao.lines]; exact ⟨rfl, rfl, rfl, rfl⟩
      · intro o; rw [acceptFrame_ports, PerPort.get_set]; split
        · rename_i h; subst h; exact ⟨rfl, rfl, rfl⟩
        · exact ⟨rfl, rfl, rfl⟩
    have e2 := acceptFrame_settings s p .a
    have e3 := acceptFrame_settings s p .b
    have e4 : (s.acceptFrame p).faces.a.settings = s.faces.a.settings := e2
    have e5 : (s.acceptFrame p).faces.b.settings = s.faces.b.settings := e3
    rw [e1, e4, e5, ao.zones, ao.places]
  unfold State.image; rw [h]

theorem startStore_only (s : State) (p : Port) (tag : Byte) : OnlyIn [.loader] s (s.startStore p tag) := by
  intro q hq; cases q <;> first | rfl | exact absurd (by decide) hq

end Sys2Proof.Machine
end

