-- ==== Sys2Proof/Laws/Steps.lean ====
section
/-! SUPPORT. What a step can do, said once: the parts each command may touch, the cases of a byte arrival, and the induction by which every step keeps a condition. -/

namespace Sys2Proof.Machine
-- one proof at a time: proofs elaborated at once would each take a thread of their own
set_option Elab.async false

/-! ## The parts of each command -/

/-- Every part of State. -/
def allParts : List Part :=
  [.params, .table, .pinCount, .freeStops, .places, .zones, .reservations, .notices, .postCounter, .clock, .timers,
   .flashOn, .faces, .painter, .panels, .ambient, .lines, .ports, .capture, .seen, .events, .loader, .mem, .free, .pending]

/-- What a request touches: its port, the faces when the port was SILENT, and its own parts. -/
def requestParts (own : List Part) : List Part := .ports :: .faces :: own

/-- The parts that a command may touch. A byte or an unknown KIND may stand for any request. -/
def partsOf : Instr → List Part
  | .reset .. | .byteArrival .. | .unknownKindFrame .. => allParts
  | .boardRestart .. => allParts
  | .settingsReadComplete _ => [.params, .table, .zones, .places, .timers, .ambient, .lines, .ports, .capture, .seen, .events,
      .loader] ++ faceParts
  | .framingError _ | .frameCrcFail _ => [.ports, .capture, .seen, .events]
  | .gapTimerExpiry _ | .replySent _ => [.ports]
  | .portSilent _ => [.ports, .reservations, .faces]
  | .putDeparture .. | .amend .. | .amendIfReserved .. | .withdrawDeparture .. => requestParts tableParts
  | .pin .. | .unpin .. => requestParts [.table, .pinCount]
  | .readDeparture .. | .listDepartures .. | .readPlace .. | .readZone .. | .probeRights .. | .readNotice .. | .listNotices ..
  | .readClock .. | .readFace .. | .readShown .. | .readInputs .. | .readParameter .. | .readFaults .. => requestParts []
  | .putPlace .. | .withdrawPlace .. => requestParts [.places]
  | .reserve .. | .dropReservation .. => requestParts [.reservations]
  | .writeZone .. => requestParts [.zones]
  | .postNotice .. => requestParts noticeParts
  | .withdrawNotice .. => requestParts [.notices]
  | .setClock .. => requestParts (.clock :: tableParts)
  | .setFace .. => requestParts faceParts
  | .setParameter .. => requestParts (paramParts ++ faceParts)
  | .storeSettings .. => requestParts [.loader]
  | .storeComplete _ => [.loader, .mem, .ports, .capture, .seen, .events, .free]
  | .clearFaults .. => requestParts [.capture, .seen]
  | .readEvents .. => requestParts [.events]
  | .oscillatorRunning => [.clock]
  | .startupDeadlineExpiry => [.clock, .capture, .seen, .events]
  | .secondEvent => .clock :: .notices :: tableParts
  | .timerExpiry _ => [.timers, .faces, .flashOn, .ambient]
  | .conversionCompletion _ => [.ambient, .panels]
  | .plan _ => planParts
  | .paintCompletion .. => planParts
  | .frameBoundary .. => [.panels, .faces, .capture, .seen, .events]
  | .panelStartupDelayExpiry _ => [.panels]
  | .changeCounts _ | .pinSample .. => lineParts

/-! ## The take functions -/

theorem takeOnRecord_only {ps : List Part} (p : Port) (right : Right) (fields : List Byte) (s : State) (k : Departure → State × Reply)
    (h : ∀ r, OnlyIn ps s (k r).1) : OnlyIn ps s (takeOnRecord p right fields s k).1 := by
  unfold takeOnRecord
  refine withOperands_only _ _ _ fun code => withRights_only _ _ _ _ _ ?_
  split
  · exact OnlyIn.refl _ _
  · exact h _

theorem takePutDeparture_only (p : Port) (fields : List Byte) (s : State) : OnlyIn tableParts s (takePutDeparture p fields s).1 := by
  unfold takePutDeparture
  refine withOperands_only _ _ _ fun q => withRights_only _ _ _ _ _ ?_
  have h1 : OnlyIn tableParts s (s.insertDeparture (q.record p)) := insertDeparture_only _ _
  have h2 : ∀ old, OnlyIn tableParts s (s.replaceDeparture old (q.replacing old p) (.port p)) := fun old => replaceDeparture_only _ _ _ _
  have h0 : OnlyIn tableParts s s := OnlyIn.refl _ _
  generalize s.insertDeparture (q.record p) = u at h1 ⊢
  cases s.record? q.code with
  | none =>
    dsimp only
    split
    · exact h0
    · split
      · exact h0
      · exact h1
  | some old =>
    have h2 := h2 old
    dsimp only
    generalize s.replaceDeparture old (q.replacing old p) (.port p) = v at h2 ⊢
    split
    · exact h0
    · exact h2

theorem takeAmend_only (p : Port) (fields : List Byte) (s : State) : OnlyIn tableParts s (takeAmend p fields s).1 := by
  unfold takeAmend
  refine withOperands_only _ _ _ fun q => withRights_only _ _ _ _ _ ?_
  split
  · exact OnlyIn.refl _ _
  · exact amendRecord_only _ _ _ _

theorem takeAmendIfReserved_only (p : Port) (fields : List Byte) (s : State) : OnlyIn tableParts s (takeAmendIfReserved p fields s).1 := by
  unfold takeAmendIfReserved
  refine withOperands_only _ _ _ fun q => withRights_only _ _ _ _ _ ?_
  have h : OnlyIn tableParts s (s.setReservation p none) := (setReservation_only _ _ _).mono (by decide)
  split
  · exact OnlyIn.refl _ _
  · dsimp only
    split
    · exact h.trans (amendRecord_only _ _ _ _)
    · exact h

theorem takePin_only (p : Port) (fields : List Byte) (s : State) : OnlyIn [.table, .pinCount] s (takePin p fields s).1 := by
  refine takeOnRecord_only _ _ _ _ _ fun r => ?_
  split
  · exact OnlyIn.refl _ _
  · split
    · exact OnlyIn.refl _ _
    · intro q hq; cases q <;> first | rfl | exact absurd (by decide) hq

theorem takeUnpin_only (p : Port) (fields : List Byte) (s : State) : OnlyIn [.table, .pinCount] s (takeUnpin p fields s).1 := by
  refine takeOnRecord_only _ _ _ _ _ fun r => ?_
  split
  · intro q hq; cases q <;> first | rfl | exact absurd (by decide) hq
  · exact OnlyIn.refl _ _

theorem takeWithdrawDeparture_only (p : Port) (fields : List Byte) (s : State) :
    OnlyIn tableParts s (takeWithdrawDeparture p fields s).1 := by
  refine takeOnRecord_only _ _ _ _ _ fun r => ?_
  have h := removeRecord_only s r (.port p)
  generalize s.removeRecord r (.port p) = u at h ⊢
  exact h

theorem takePutPlace_only (p : Port) (fields : List Byte) (s : State) : OnlyIn [.places, .faces] s (takePutPlace p fields s).1 := by
  unfold takePutPlace
  refine withOperands_only _ _ _ fun q => withRights_only _ _ _ _ _ ?_
  exact ((setPlace_only _ _ _).mono (by decide)).trans ((markBoth_only _).mono (by decide))

theorem takeWithdrawPlace_only (p : Port) (fields : List Byte) (s : State) : OnlyIn [.places, .faces] s (takeWithdrawPlace p fields s).1 := by
  unfold takeWithdrawPlace
  refine withOperands_only _ _ _ fun q => withRights_only _ _ _ _ _ ?_
  split
  · exact OnlyIn.refl _ _
  · exact ((setPlace_only _ _ _).mono (by decide)).trans ((markBoth_only _).mono (by decide))

theorem takeWriteZone_only (p : Port) (fields : List Byte) (s : State) : OnlyIn [.zones] s (takeWriteZone p fields s).1 := by
  unfold takeWriteZone
  refine withOperands_only _ _ _ fun q => withRights_only _ _ _ _ _ ?_
  dsimp only
  split
  · intro q hq; cases q <;> first | rfl | exact absurd (by decide) hq
  · exact OnlyIn.refl _ _

theorem takePostNotice_only (p : Port) (fields : List Byte) (s : State) : OnlyIn noticeParts s (takePostNotice p fields s).1 := by
  unfold takePostNotice
  exact withOperands_only _ _ _ fun q => withRights_only _ _ _ _ _ (post_only _ _ _)

theorem takeWithdrawNotice_only (p : Port) (fields : List Byte) (s : State) : OnlyIn [.notices, .faces] s (takeWithdrawNotice p fields s).1 := by
  unfold takeWithdrawNotice
  refine withOperands_only _ _ _ fun q => ?_
  split
  · exact OnlyIn.refl _ _
  · exact withRights_only _ _ _ _ _ (((dropNotice_only _ _).mono (by decide)).trans ((markTargets_only _ _).mono (by decide)))

theorem setClock_only (s : State) (hh mm ss : Nat) : OnlyIn (.clock :: tableParts) s (s.setClock hh mm ss) := by
  refine OnlyIn.trans ?_ (minuteEvent_only _ _)
  intro q hq; cases q <;> first | rfl | exact absurd (by decide) hq

theorem takeSetClock_only (p : Port) (fields : List Byte) (s : State) : OnlyIn (.clock :: tableParts) s (takeSetClock p fields s).1 := by
  unfold takeSetClock
  exact withOperands_only _ _ _ fun q => withRights_only _ _ _ _ _ (setClock_only _ _ _ _)

theorem takeSetFace_only (p : Port) (fields : List Byte) (s : State) : OnlyIn faceParts s (takeSetFace p fields s).1 := by
  unfold takeSetFace
  exact withOperands_only _ _ _ fun q => withRights_only _ _ _ _ _ (setFaceSettings_only _ _ _)

theorem takeSetParameter_only (p : Port) (fields : List Byte) (s : State) :
    OnlyIn (paramParts ++ faceParts) s (takeSetParameter p fields s).1 := by
  unfold takeSetParameter
  refine withOperands_only _ _ _ fun q => withRights_only _ _ _ _ _ ?_
  exact ((writeParam_only _ _ _).mono (by decide)).trans ((paramEffects_only _ _ _).mono (by decide))

theorem takeClearFaults_only (p : Port) (fields : List Byte) (s : State) : OnlyIn [.capture, .seen] s (takeClearFaults p fields s).1 := by
  unfold takeClearFaults
  refine withOperands_only _ _ _ fun q => withRights_only _ _ _ _ _ ?_
  intro q hq; cases q <;> first | rfl | exact absurd (by decide) hq

theorem takeReadEvents_only (p : Port) (fields : List Byte) (s : State) : OnlyIn [.events] s (takeReadEvents p fields s).1 := by
  unfold takeReadEvents
  exact withOperands_only _ _ _ fun q => modEvents_only _ _ _

theorem takeReserve_only (p : Port) (fields : List Byte) (s : State) : OnlyIn [.reservations] s (takeReserve p fields s).1 :=
  takeOnRecord_only _ _ _ _ _ fun _ => setReservation_only _ _ _

theorem takeDropReservation_only (p : Port) (fields : List Byte) (s : State) : OnlyIn [.reservations] s (takeDropReservation p fields s).1 := by
  unfold takeDropReservation
  exact withOperands_only _ _ _ fun q => setReservation_only _ _ _

/-- A request that only reads leaves the state. -/
theorem reads_only {α : Type} (x : Parsed α) (s : State) (k : α → State × Reply) (h : ∀ a, (k a).1 = s) :
    OnlyIn [] s (withOperands x s k).1 :=
  withOperands_only _ _ _ fun a => by rw [h a]; exact OnlyIn.refl _ _

theorem serveStore_only (p : Port) (tag : Byte) (fields : List Byte) (s : State) :
    OnlyIn (requestParts [.loader]) s (s.serveStore p tag fields) := by
  refine OnlyIn.mono (ps := .ports :: .faces :: [.ports, .loader]) (serveWith_only p 0x42 tag _ (fun t => ?_) s) (by decide)
  have h1 : OnlyIn [.loader] t (takeStoreSettings p tag fields t).1 := by
    unfold takeStoreSettings
    split
    · exact OnlyIn.refl _ _
    · split
      · exact OnlyIn.refl _ _
      · by_cases hs : t.loader.phase = .storing
        · rw [if_pos hs]; exact OnlyIn.refl _ _
        · rw [if_neg hs]
          intro q hq; cases q <;> first | rfl | exact absurd (by decide) hq
  refine (h1.mono (by decide)).trans ?_
  unfold State.sendReply?
  split
  · exact (sendReply_only _ _ _ _ _).mono (by decide)
  · exact OnlyIn.refl _ _

theorem wakeUp_apply_only (s : State) (st : Settings) :
    OnlyIn ([.params, .table, .zones, .places, .timers, .ambient, .lines, .ports, .loader] ++ faceParts) s (s.applySettings st) := by
  have h1 : OnlyIn [.zones, .places, .faces] s (s.takeSettings st) := by
    intro q hq; cases q <;> first | rfl | exact absurd (by decide) hq
  have h2 := writeParams_only (s.takeSettings st) st.params
  have h3 : OnlyIn faceParts ((s.takeSettings st).writeParams st.params)
      (((s.takeSettings st).writeParams st.params).eachFace fun f t => t.wakeUpFace f) := OnlyIn.eachFace fun f t => wakeUpFace_only t f
  have h4 : ∀ (t : State) (l : Loader), OnlyIn [.loader] t { t with loader := l } := by
    intro t l q hq; cases q <;> first | rfl | exact absurd (by decide) hq
  unfold State.applySettings
  exact (((h1.mono (by decide)).trans (h2.mono (by decide))).trans (h3.mono (by decide))).trans ((h4 _ _).mono (by decide))

theorem raiseLoad_only (s : State) (k : Option FaultKind) : OnlyIn [.capture, .seen, .events] s (s.raiseLoad k) := by
  cases k with
  | none => exact OnlyIn.refl _ _
  | some k => exact raise_only _ _ _

theorem endStore_only (s : State) (image : List Byte) : OnlyIn [.mem, .loader] s (s.endStore image) := by
  intro q hq; cases q <;> first | rfl | exact absurd (by decide) hq

theorem failStore_only (s : State) : OnlyIn [.loader, .mem, .capture, .seen, .events, .free] s s.failStore := by
  have h1 : OnlyIn [.free] s { s with free := s.free + 1 } := by
    intro q hq; cases q <;> first | rfl | exact absurd (by decide) hq
  exact ((h1.mono (by decide)).trans ((endStore_only _ _).mono (by decide))).trans ((raise_only _ _ _).mono (by decide))

theorem silence_only (s : State) (p : Port) : OnlyIn [.ports, .reservations, .faces] s (s.silence p) :=
  (((modPort_only s p _).mono (by decide)).trans ((setReservation_only _ _ _).mono (by decide))).trans
    ((markBoth_only _).mono (by decide))

theorem deadlineExpires_only (s : State) : OnlyIn [.clock, .capture, .seen, .events] s s.deadlineExpires := by
  refine OnlyIn.trans (t := { s with clock := { s.clock with deadline := none, source := .system, divider := 0 } }) ?_
    ((raise_only _ _ _).mono (by decide))
  intro q hq; cases q <;> first | rfl | exact absurd (by decide) hq

theorem second_only (s : State) : OnlyIn (.clock :: .notices :: tableParts) s s.second := by
  have h1 : OnlyIn [.clock] s { s with clock := { s.clock.advance with divider := 0 } } := by
    intro q hq; cases q <;> first | rfl | exact absurd (by decide) hq
  have h2 := ((h1.mono (qs := .clock :: .notices :: tableParts) (by decide)).trans ((countNotices_only _).mono (by decide))).trans
    ((markClockLines_only _).mono (by decide))
  exact OnlyIn.ite (h2.trans ((minuteEvent_only _ _).mono (by decide))) h2

theorem startDriving_only (s : State) (f : Face) : OnlyIn [.panels] s (s.startDriving f) :=
  (modPanel_only _ _ _).trans (recomputeDuties_only _ _)

/-- What a command may touch. -/
theorem exec_only {c : Instr} {s t : State} (h : exec c s = .next t) : OnlyIn (partsOf c) s t := by
  have all : OnlyIn allParts s t := fun q hq => absurd (by cases q <;> decide) hq
  have req : ∀ {own : List Part} {p : Port} {kind tag : Byte} {take : State → State × Reply},
      exec c s = .next (s.serve p kind tag take) → (∀ u, OnlyIn own u (take u).1) → OnlyIn (requestParts own) s t := by
    intro own p kind tag take he ho
    rw [he] at h
    cases h
    exact serve_only p kind tag take ho s
  have face : ∀ {own : List Part} {p : Port} {kind tag : Byte} {take : State → State × Reply},
      exec c s = .next (s.serve p kind tag take) → (∀ u, OnlyIn (.faces :: own) u (take u).1) → OnlyIn (requestParts own) s t := by
    intro own p kind tag take he ho
    refine (req he ho).mono ?_
    intro q hq
    simp only [requestParts, List.mem_cons] at hq ⊢
    tauto
  have got : ∀ {u : State} {ps : List Part}, exec c s = .next u → OnlyIn ps s u → OnlyIn ps s t := by
    intro u ps he ho; rw [he] at h; cases h; exact ho
  cases c <;> dsimp only [partsOf]
  case reset | byteArrival | unknownKindFrame | boardRestart => exact all
  case settingsReadComplete ack =>
    have e : exec (.settingsReadComplete ack) s = execSettingsReadComplete ack s := rfl
    unfold execSettingsReadComplete at e
    cases hp : s.loader.phase <;> rw [hp] at e
    · exact got e (((raiseLoad_only _ _).mono (by decide)).trans ((wakeUp_apply_only _ _).mono (by decide)))
    · exact got e (OnlyIn.refl _ _)
    · exact got e (OnlyIn.refl _ _)
  case framingError p =>
    have e : exec (.framingError p) s = execFramingError p s := rfl
    unfold execFramingError at e
    cases hp : (s.ports.get p).state <;> rw [hp] at e
    case receive => exact got e (crcFail_only s p)
    all_goals exact got e (OnlyIn.refl _ _)
  case frameCrcFail p =>
    exact got (u := if (s.ports.get p).listening then s.crcFail p else s) rfl (OnlyIn.ite (crcFail_only s p) (OnlyIn.refl _ _))
  case gapTimerExpiry p =>
    exact got (u := if (s.ports.get p).state = .receive then s.dropFrame p else s) rfl
      (OnlyIn.ite (modPort_only s p _) (OnlyIn.refl _ _))
  case replySent p =>
    have e : exec (.replySent p) s = execReplySent p s := rfl
    unfold execReplySent at e
    cases hp : (s.ports.get p).state <;> rw [hp] at e
    case reply => exact got e (modPort_only s p _)
    all_goals exact got e (OnlyIn.refl _ _)
  case portSilent p =>
    exact got (u := if (s.ports.get p).silenceOver then s.silence p else s) rfl
      (OnlyIn.ite (silence_only s p) (OnlyIn.refl _ _))
  case putDeparture p tag fields => exact req rfl (takePutDeparture_only p fields)
  case amend p tag fields => exact req rfl (takeAmend_only p fields)
  case amendIfReserved p tag fields => exact req rfl (takeAmendIfReserved_only p fields)
  case withdrawDeparture p tag fields => exact req rfl (takeWithdrawDeparture_only p fields)
  case pin p tag fields => exact req rfl (takePin_only p fields)
  case unpin p tag fields => exact req rfl (takeUnpin_only p fields)
  case readDeparture p tag fields => exact req rfl fun u => reads_only _ _ _ fun a => by split <;> rfl
  case listDepartures p tag fields => exact req rfl fun u => reads_only _ _ _ fun _ => rfl
  case putPlace p tag fields => exact face rfl fun u => (takePutPlace_only p fields u).mono (by decide)
  case withdrawPlace p tag fields => exact face rfl fun u => (takeWithdrawPlace_only p fields u).mono (by decide)
  case readPlace p tag fields => exact req rfl fun u => reads_only _ _ _ fun a => by split <;> rfl
  case reserve p tag fields => exact req rfl (takeReserve_only p fields)
  case dropReservation p tag fields => exact req rfl (takeDropReservation_only p fields)
  case writeZone p tag fields => exact req rfl (takeWriteZone_only p fields)
  case readZone p tag fields => exact req rfl fun u => reads_only _ _ _ fun _ => rfl
  case probeRights p tag fields =>
    exact req rfl fun u => withOperands_only _ _ _ fun q => withRights_only _ _ _ _ _ (OnlyIn.refl _ _)
  case postNotice p tag fields => exact req rfl (takePostNotice_only p fields)
  case withdrawNotice p tag fields => exact face rfl fun u => (takeWithdrawNotice_only p fields u).mono (by decide)
  case readNotice p tag fields => exact req rfl fun u => reads_only _ _ _ fun a => by split <;> rfl
  case listNotices p tag fields => exact req rfl fun u => reads_only _ _ _ fun _ => rfl
  case setClock p tag fields => exact req rfl (takeSetClock_only p fields)
  case readClock p tag fields => exact req rfl fun u => reads_only _ _ _ fun _ => rfl
  case setFace p tag fields => exact req rfl (takeSetFace_only p fields)
  case readFace p tag fields => exact req rfl fun u => reads_only _ _ _ fun _ => rfl
  case readShown p tag fields => exact req rfl fun u => reads_only _ _ _ fun _ => rfl
  case readInputs p tag fields => exact req rfl fun u => reads_only _ _ _ fun _ => rfl
  case setParameter p tag fields => exact req rfl (takeSetParameter_only p fields)
  case readParameter p tag fields => exact req rfl fun u => reads_only _ _ _ fun a => by split <;> rfl
  case storeSettings p tag fields => exact got rfl (serveStore_only p tag fields s)
  case storeComplete outcome =>
    have e : exec (.storeComplete outcome) s = execStoreComplete outcome s := rfl
    unfold execStoreComplete at e
    split at e
    · split at e
      · exact got e (((endStore_only _ _).mono (by decide)).trans ((sendReply_only _ _ _ _ _).mono (by decide)))
      · exact got e (((failStore_only _).mono (by decide)).trans ((sendReply_only _ _ _ _ _).mono (by decide)))
      · exact got e (((failStore_only _).mono (by decide)).trans ((sendReply_only _ _ _ _ _).mono (by decide)))
    · exact got e (OnlyIn.refl _ _)
  case readFaults p tag fields => exact req rfl fun u => reads_only _ _ _ fun _ => rfl
  case clearFaults p tag fields => exact req rfl (takeClearFaults_only p fields)
  case readEvents p tag fields => exact req rfl (takeReadEvents_only p fields)
  case oscillatorRunning =>
    refine got (u := if s.clock.osc = .starting then { s with clock := s.clock.enterRunning } else s) rfl
      (OnlyIn.ite ?_ (OnlyIn.refl _ _))
    intro q hq; cases q <;> first | rfl | exact absurd (by decide) hq
  case startupDeadlineExpiry =>
    exact got (u := if s.clock.deadline.isSome then s.deadlineExpires else s) rfl
      (OnlyIn.ite (deadlineExpires_only s) (OnlyIn.refl _ _))
  case secondEvent =>
    exact got (u := if s.clock.secondOver then s.second else s) rfl (OnlyIn.ite (second_only s) (OnlyIn.refl _ _))
  case timerExpiry i =>
    refine got (u := if s.timers[i].over then (s.modTimer i Timer.expire).handExpiry i else s) rfl (OnlyIn.ite ?_ (OnlyIn.refl _ _))
    exact ((modTimer_only _ _ _).mono (by decide)).trans ((handExpiry_only _ _).mono (by decide))
  case conversionCompletion reading =>
    have e : exec (.conversionCompletion reading) s = execConversionCompletion reading s := rfl
    unfold execConversionCompletion at e
    have h1 : OnlyIn [.ambient] s { s with ambient := s.ambient.enter reading.toNat } := by
      intro q hq; cases q <;> first | rfl | exact absurd (by decide) hq
    split at e
    · refine got e (OnlyIn.ite (h1.mono (by decide)) ((h1.mono (by decide)).trans ?_))
      exact OnlyIn.eachFace fun f u => (recomputeDuties_only u f).mono (by decide)
    · exact got e (OnlyIn.refl _ _)
  case plan f => exact got (u := if s.planDue f then s.takePlan f else s) rfl (OnlyIn.ite (takePlan_only s f) (OnlyIn.refl _ _))
  case paintCompletion f n =>
    refine got (u := if s.painter.current = some ⟨f, n⟩ then s.painterNext.takeCompletion f n else s) rfl (OnlyIn.ite ?_ (OnlyIn.refl _ _))
    exact ((painterNext_only s).mono (by decide)).trans ((takeCompletion_only _ _ _).mono (by decide))
  case frameBoundary f e0 e1 e2 e3 => exact got rfl (frameBoundary_only s f _)
  case panelStartupDelayExpiry f =>
    exact got (u := if (s.panels.get f).out = .starting then s.startDriving f else s) rfl
      (OnlyIn.ite (startDriving_only s f) (OnlyIn.refl _ _))
  case changeCounts l => exact got rfl (countChange_only s l)
  case pinSample l level =>
    have m : ∀ g, OnlyIn lineParts s (s.modLine l g) := fun g => (modLine_only s l g).mono (by decide)
    exact got (u := if level = s.lines[l].settled then s.modLine l fun x => { x with pending := 0 }
      else if s.lines[l].pending < s.lines[l].debounce then s.modLine l fun x => { x with pending := x.pending + 1 }
      else s.countChange l) rfl (OnlyIn.ite (m _) (OnlyIn.ite (m _) (countChange_only s l)))

/-! ## Frames and bytes -/

/-- A frame taken at a port does not look at what the port's buffer held. -/
theorem takeFrame_buffer (p : Port) (kind tag : Byte) (fields : List Byte) (s : State) (data : List Byte) (gap : Nat)
    (hs : (s.ports.get p).state = .receive) :
    (s.modPort p fun port => { port with data := data, gap := gap }).takeFrame p kind tag fields = s.takeFrame p kind tag fields := by
  obtain ⟨h, hh⟩ := takeFrame_served p kind tag fields
  rw [hh, hh]
  have e1 : (s.modPort p fun port => { port with data := data, gap := gap }).acceptFrame p = s.acceptFrame p := by
    unfold State.acceptFrame
    dsimp only
    rw [State.modPort_ports, PerPort.get_set_same]
    have : (s.modPort p fun port => { port with data := data, gap := gap }).modPort p (fun port =>
        { port with state := .execute, len := none, data := [], gap := 0, count := 0, silent := false }) =
        s.modPort p fun port => { port with state := .execute, len := none, data := [], gap := 0, count := 0, silent := false } := by
      unfold State.modPort
      cases p <;> rfl
    rw [this]
  unfold State.serveWith
  rw [State.modPort_ports, PerPort.get_set_same, e1]
  have l1 : (s.ports.get p).listening = true := by unfold LinkPort.listening; rw [hs]; rfl
  have l2 : ({ s.ports.get p with data := data, gap := gap } : LinkPort).listening = true := l1
  rw [if_pos l1, if_pos l2]

/-- R165: the cases of a byte arrival. -/
theorem byteArrival_cases (p : Port) (b : Byte) (s : State) : ∃ t, exec (.byteArrival p b) s = .next t ∧
    (t = s ∨
     ((s.ports.get p).state = .hunt ∧
       t = s.modPort p fun port => { port with state := .receive, len := none, data := [], gap := 0 }) ∨
     ((s.ports.get p).state = .receive ∧ (s.ports.get p).len = none ∧ 2 ≤ b.toNat ∧ b.toNat ≤ 250 ∧
       t = s.modPort p fun port => { port with len := some b.toNat, gap := 0 }) ∨
     ((s.ports.get p).state = .receive ∧ t = s.crcFail p) ∨
     (∃ n, (s.ports.get p).state = .receive ∧ (s.ports.get p).len = some n ∧ (s.ports.get p).data.length + 1 ≠ n + 2 ∧
       t = s.modPort p fun port => { port with data := (s.ports.get p).data ++ [b], gap := 0 }) ∨
     ∃ kind tag fields, (s.ports.get p).state = .receive ∧ exec (requestOf p kind tag fields) s = .next t) := by
  have e : exec (.byteArrival p b) s = execByteArrival p b s := rfl
  rw [e]
  unfold execByteArrival
  cases hs : (s.ports.get p).state
  case hunt =>
    dsimp only
    by_cases hb : b = 0xA5
    · rw [if_pos hb]; exact ⟨_, rfl, .inr (.inl ⟨rfl, rfl⟩)⟩
    · rw [if_neg hb]; exact ⟨_, rfl, .inl rfl⟩
  case execute => exact ⟨s, rfl, .inl rfl⟩
  case reply => exact ⟨s, rfl, .inl rfl⟩
  case receive =>
    cases hl : (s.ports.get p).len
    case none =>
      dsimp only
      refine ⟨_, rfl, ?_⟩
      unfold State.takeLen
      by_cases hb : (2 ≤ b.toNat && b.toNat ≤ 250) = true
      · rw [if_pos hb]
        simp only [Bool.and_eq_true, decide_eq_true_eq] at hb
        exact .inr (.inr (.inl ⟨rfl, rfl, hb.1, hb.2, rfl⟩))
      · rw [if_neg hb]
        exact .inr (.inr (.inr (.inl ⟨rfl, rfl⟩)))
    case some n =>
      dsimp only
      refine ⟨_, rfl, ?_⟩
      unfold State.holdByte
      dsimp only
      split
      · have fail : (s.modPort p fun port => { port with data := (s.ports.get p).data ++ [b], gap := 0 }).crcFail p = s.crcFail p := by
          unfold State.crcFail State.dropFrame State.modPort
          cases p <;> rfl
        unfold State.completeFrame
        split
        · split
          · rename_i kind tag fields _
            refine .inr (.inr (.inr (.inr (.inr ⟨kind, tag, fields, rfl, ?_⟩))))
            rw [exec_requestOf, takeFrame_buffer p kind tag fields s _ _ hs]
          · exact .inr (.inr (.inr (.inl ⟨rfl, fail⟩)))
        · exact .inr (.inr (.inr (.inl ⟨rfl, fail⟩)))
      · rename_i hn
        refine .inr (.inr (.inr (.inr (.inl ⟨n, rfl, rfl, ?_, rfl⟩))))
        simpa using hn

/-- A request command that is not of an unknown KIND, or the answer BAD_KIND. -/
theorem requestOf_cases (p : Port) (kind tag : Byte) (fields : List Byte) :
    (∀ q b, requestOf p kind tag fields ≠ .byteArrival q b) ∧
      ((∀ q k g fs, requestOf p kind tag fields ≠ .unknownKindFrame q k g fs) ∨
        ∀ s, exec (requestOf p kind tag fields) s = .next (s.badKind p kind tag)) := by
  unfold requestOf
  split
  all_goals first
    | (rename_i h
       refine ⟨(fun q b h => by cases h), .inr fun s => ?_⟩
       show Host.Outcome.next (s.takeFrame p kind tag fields) = _
       unfold State.takeFrame
       split <;> first | contradiction | rfl)
    | exact ⟨(fun q b h => by cases h), .inl fun q k g fs h => by cases h⟩

/-- A step keeps a condition that every command other than a byte and a frame of unknown KIND keeps, and the
byte by byte work of a port, the answer BAD_KIND, the idle step and a change of the queue. -/
theorem step_keeps {I : State → Prop}
    (queue : ∀ s rest, I s → I { s with pending := rest })
    (idle : ∀ s, I s → I s.idle)
    (command : ∀ c s t, (∀ p b, c ≠ .byteArrival p b) → (∀ p k g fs, c ≠ .unknownKindFrame p k g fs) →
      I s → exec c s = .next t → I t)
    (badKind : ∀ s p kind tag, I s → I (s.badKind p kind tag))
    (opens : ∀ s p, (s.ports.get p).state = .hunt → I s →
      I (s.modPort p fun port => { port with state := .receive, len := none, data := [], gap := 0 }))
    (takes : ∀ s p n, (s.ports.get p).state = .receive → (s.ports.get p).len = none → 2 ≤ n → n ≤ 250 → I s →
      I (s.modPort p fun port => { port with len := some n, gap := 0 }))
    (fails : ∀ s p, (s.ports.get p).state = .receive → I s → I (s.crcFail p))
    (joins : ∀ s p b n, (s.ports.get p).state = .receive → (s.ports.get p).len = some n →
      (s.ports.get p).data.length + 1 ≠ n + 2 → I s →
      I (s.modPort p fun port => { port with data := (s.ports.get p).data ++ [b], gap := 0 }))
    {s t : State} (hi : I s) (h : step s = .next t) : I t := by
  have frame : ∀ (u v : State) (p : Port) (kind tag : Byte) (fields : List Byte), I u →
      exec (requestOf p kind tag fields) u = .next v → I v := by
    intro u v p kind tag fields hu he
    obtain ⟨h1, h2⟩ := requestOf_cases p kind tag fields
    rcases h2 with h2 | h2
    · exact command _ u v h1 h2 hu he
    · rw [h2 u] at he; cases he; exact badKind u p kind tag hu
  have run : ∀ (c : Instr) (u v : State), I u → exec c u = .next v → I v := by
    intro c u v hu he
    by_cases hb : ∃ p b, c = .byteArrival p b
    · obtain ⟨p, b, rfl⟩ := hb
      obtain ⟨w, hw, hc⟩ := byteArrival_cases p b u
      rw [hw] at he; cases he
      rcases hc with rfl | ⟨h1, rfl⟩ | ⟨h1, h2, h3, h4, rfl⟩ | ⟨h1, rfl⟩ | ⟨n, h1, h2, h3, rfl⟩ | ⟨kind, tag, fields, _, h1⟩
      · exact hu
      · exact opens u p h1 hu
      · exact takes u p _ h1 h2 h3 h4 hu
      · exact fails u p h1 hu
      · exact joins u p b n h1 h2 h3 hu
      · exact frame u _ p kind tag fields hu h1
    · by_cases hk : ∃ p k g fs, c = .unknownKindFrame p k g fs
      · obtain ⟨p, k, g, fs, rfl⟩ := hk
        have : exec (.unknownKindFrame p k g fs) u = exec (requestOf p k g fs) u := by rw [exec_requestOf]; rfl
        rw [this] at he
        exact frame u v p k g fs hu he
      · exact command c u v (fun p b e => hb ⟨p, b, e⟩) (fun p k g fs e => hk ⟨p, k, g, fs, e⟩) hu he
  unfold step at h
  split at h
  · cases h; exact idle s hi
  · rename_i c rest _
    exact run c _ t (queue s rest hi) h

/-! ## Conditions kept by serving -/

theorem serveWith_keeps {I : State → Prop} (acc : ∀ s p, I s → I (s.acceptFrame p))
    (rep : ∀ s p k g r, I s → I (s.sendReply p k g r)) {p : Port} {kind tag : Byte} {h : State → State}
    (hh : ∀ u, (u.ports.get p).state = .execute → I u → I (h u)) {s : State} (hi : I s) : I (s.serveWith p kind tag h) := by
  unfold State.serveWith
  split
  · dsimp only
    split
    · exact rep _ _ _ _ _ (acc _ _ hi)
    · exact hh _ (by rw [acceptFrame_ports, PerPort.get_set_same]; rfl) (acc _ _ hi)
  · exact hi

theorem serve_keeps {I : State → Prop} (acc : ∀ s p, I s → I (s.acceptFrame p))
    (rep : ∀ s p k g r, I s → I (s.sendReply p k g r)) {p : Port} {kind tag : Byte} {take : State → State × Reply}
    (h : ∀ u, I u → I (take u).1) {s : State} (hi : I s) : I (s.serve p kind tag take) :=
  serveWith_keeps acc rep (fun u _ hu => rep _ _ _ _ _ (h u hu)) hi

theorem withOperands_keeps {I : State → Prop} {α : Type} {x : Parsed α} {s : State} {k : α → State × Reply} (hi : I s)
    (h : ∀ a, x = .ok a → I (k a).1) : I (withOperands x s k).1 := by
  unfold withOperands
  split
  · exact hi
  · exact h _ rfl

theorem withRights_keeps {I : State → Prop} {p : Port} {right : Right} {pls : List Nat} {s : State} {k : State × Reply}
    (hi : I s) (h : missing s.zones p right pls = none → I k.1) : I (withRights p right pls s k).1 := by
  unfold withRights
  split
  · exact hi
  · rename_i hm; exact h hm

theorem takeOnRecord_keeps {I : State → Prop} {p : Port} {right : Right} {fields : List Byte} {s : State}
    {k : Departure → State × Reply} (hi : I s) (h : ∀ code r, s.record? code = some r → I (k r).1) :
    I (takeOnRecord p right fields s k).1 := by
  unfold takeOnRecord
  refine withOperands_keeps hi fun code _ => withRights_keeps hi fun _ => ?_
  split
  · exact hi
  · rename_i r hr; exact h code r hr

/-- A BOARD RESTART answers a failing step, or restarts. -/
theorem serveRestart_keeps {I : State → Prop} (acc : ∀ s p, I s → I (s.acceptFrame p))
    (rep : ∀ s p k g r, I s → I (s.sendReply p k g r)) (hr : ∀ s p frame, I s → I (s.restart p frame))
    {p : Port} {tag : Byte} {fields : List Byte} {s : State} (hi : I s) : I (s.serveRestart p tag fields) := by
  refine serveWith_keeps acc rep (fun u _ hu => ?_) hi
  unfold State.takeBoardRestart
  split
  · exact rep _ _ _ _ _ hu
  · split
    · exact rep _ _ _ _ _ hu
    · exact hr _ _ _ hu

/-- What an idle step may touch. -/
theorem idle_only (s : State) : OnlyIn [.clock, .timers, .ports, .panels, .free, .pending] s s.idle := by
  unfold State.idle
  split
  · split
    · intro q hq; cases q <;> first | rfl | exact absurd (by decide) hq
    · intro q hq; cases q <;> first | rfl | exact absurd (by decide) hq
  · intro q hq; cases q <;> first | rfl | exact absurd (by decide) hq

/-- A condition on some parts of the state, the ports, the faces and the reports not among them, is kept by every
step, if the idle step keeps it and each command that may touch those parts does. -/
theorem step_keeps_on {I : State → Prop} (ps : List Part) (dep : ∀ s t, (∀ q ∈ ps, q.same s t) → I s → I t)
    (hps : ∀ q ∈ ps, q ∉ [Part.ports, .faces, .capture, .seen, .events, .pending])
    (idle : ∀ s, I s → I s.idle)
    (own : ∀ c s t, (∀ p b, c ≠ .byteArrival p b) → (∀ p k g fs, c ≠ .unknownKindFrame p k g fs) →
      ¬ (∀ q ∈ ps, q ∉ partsOf c) → (∀ s p, I s → I (s.acceptFrame p)) → (∀ s p k g r, I s → I (s.sendReply p k g r)) →
      I s → exec c s = .next t → I t)
    {s t : State} (hi : I s) (h : step s = .next t) : I t := by
  have only : ∀ {qs : List Part} {u v : State}, OnlyIn qs u v → (∀ q ∈ ps, q ∉ qs) → I u → I v :=
    fun ho hq hu => dep _ _ (fun q hm => ho q (hq q hm)) hu
  have away : ∀ {qs : List Part}, qs ⊆ [Part.ports, .faces, .capture, .seen, .events, .pending] → ∀ q ∈ ps, q ∉ qs :=
    fun hs q hq hm => hps q hq (hs hm)
  have acc : ∀ s p, I s → I (s.acceptFrame p) := fun s p hu => only (acceptFrame_only s p) (away (by decide)) hu
  have rep : ∀ s p k g r, I s → I (s.sendReply p k g r) := fun s p k g r hu => only (sendReply_only s p k g r) (away (by decide)) hu
  refine step_keeps (I := I) ?_ idle ?_ ?_ ?_ ?_ ?_ ?_ hi h
  · intro s rest hu
    refine only (qs := [.pending]) ?_ (away (by decide)) hu
    intro q hq; cases q <;> first | rfl | exact absurd (by decide) hq
  · intro c s t nb nu hu he
    by_cases hd : ∀ q ∈ ps, q ∉ partsOf c
    · exact only (exec_only he) hd hu
    · exact own c s t nb nu hd acc rep hu he
  · intro s p kind tag hu
    exact serve_keeps acc rep (fun _ hv => hv) hu
  · exact fun s p _ hu => only (modPort_only s p _) (away (by decide)) hu
  · exact fun s p n _ _ _ _ hu => only (modPort_only s p _) (away (by decide)) hu
  · exact fun s p _ hu => only (crcFail_only s p) (away (by decide)) hu
  · exact fun s p b n _ _ _ hu => only (modPort_only s p _) (away (by decide)) hu

end Sys2Proof.Machine
end

