-- ==== Sys2Proof/Laws/Due.lean ====
section
/-! SUPPORT. What an idle step queues, the moment each count is reached, and that a request leaves its port LIVE. -/

namespace Sys2Proof.Machine
-- one proof at a time: proofs elaborated at once would each take a thread of their own
set_option Elab.async false

/-- R165: the gap timer has expired. -/
theorem gapOver_iff (port : LinkPort) : port.gapOver = true ↔ port.state = .receive ∧ 21 ≤ port.gap := by
  unfold LinkPort.gapOver
  rw [Bool.and_eq_true, beq_iff_eq, decide_eq_true_iff]; rfl

/-- R169: the silence count has reached a limit that is not off. -/
theorem silenceOver_iff (port : LinkPort) :
    port.silenceOver = true ↔ port.silent = false ∧ port.limitInForce ≠ 0 ∧ port.limitInForce * 1000 ≤ port.count := by
  unfold LinkPort.silenceOver; simp [and_assoc]

/-- R65: the divider has counted a second of the second source. -/
theorem secondOver_iff (c : Clock) : c.secondOver = true ↔ c.secondDue := by
  unfold Clock.secondOver Clock.secondDue
  cases c.source with
  | none => simp
  | timekeeper => rw [decide_eq_true_iff]; simp [Config.crystalSecond]
  | system => rw [decide_eq_true_iff]; simp [Config.systemSecond]

/-- Commands queued by a filter are those queued one by one by a condition. -/
theorem filter_map_commands {α : Type} (g : α → Instr) (l : List α) (c : α → Bool) (d : α → Prop) [DecidablePred d] (h : ∀ i, c i = decide (d i)) :
    (l.filter c).map g = l.flatMap fun i => if d i then [g i] else [] := by
  induction l with
  | nil => rfl
  | cons x r ih => 
    rw [List.filter_cons, List.flatMap_cons, ← ih, h]
    by_cases hx : d x <;> simp [hx]

/-- R115: the plans an idle step queues. -/
theorem plansDue_eq (s : State) : s.plansDue = [Face.a, .b].flatMap fun f =>
      if (s.faces.get f).rebuild = .idle ∧ (s.faces.get f).dirty = true ∧
          ((s.faces.get f).state = .lit ∨ (s.faces.get f).state = .woken) ∧ s.loader.phase ≠ .loading
        then [Instr.plan f] else [] := by
  have k : ∀ f, s.planDue f = decide ((s.faces.get f).rebuild = .idle ∧ (s.faces.get f).dirty = true ∧
          ((s.faces.get f).state = .lit ∨ (s.faces.get f).state = .woken) ∧ s.loader.phase ≠ .loading) := by
    intro f
    unfold State.planDue Composer.showing
    rw [Bool.eq_iff_iff]
    simp [and_assoc]
  exact filter_map_commands _ _ _ _ k

/-- A request leaves its own port LIVE with its count at 0. -/
theorem takeFrame_live (p : Port) (kind tag : Byte) (fields : List Byte) (s : State) (hl : (s.ports.get p).listening = true) :
    ((s.takeFrame p kind tag fields).ports.get p).silent = false ∧ ((s.takeFrame p kind tag fields).ports.get p).count = 0 := by
  have acc : ((s.acceptFrame p).ports.get p).silent = false ∧ ((s.acceptFrame p).ports.get p).count = 0 := by
    rw [acceptFrame_ports, PerPort.get_set_same]; exact ⟨rfl, rfl⟩
  have rep : ∀ (u : State) (k g : Byte) (r : Reply), (u.ports.get p).silent = false ∧ (u.ports.get p).count = 0 →
      ((u.sendReply p k g r).ports.get p).silent = false ∧ ((u.sendReply p k g r).ports.get p).count = 0 := by
    intro u k g r hu
    unfold State.sendReply; rw [State.modPort_ports, PerPort.get_set_same]; exact hu
  have sw : ∀ (k g : Byte) (h : State → State), (∀ u : State, (u.ports.get p).silent = false ∧ (u.ports.get p).count = 0 →
      ((h u).ports.get p).silent = false ∧ ((h u).ports.get p).count = 0) →
      ((s.serveWith p k g h).ports.get p).silent = false ∧ ((s.serveWith p k g h).ports.get p).count = 0 := by
    intro k g h hh
    unfold State.serveWith
    rw [if_pos hl]
    dsimp only
    split
    · exact rep _ _ _ _ acc
    · exact hh _ acc
  have sv : ∀ (take : State → State × Reply), (∀ u : State, (u.ports.get p).silent = false ∧ (u.ports.get p).count = 0 →
      ((take u).1.ports.get p).silent = false ∧ ((take u).1.ports.get p).count = 0) →
      ((s.serve p kind tag take).ports.get p).silent = false ∧ ((s.serve p kind tag take).ports.get p).count = 0 := by
    intro take ht
    exact sw _ _ _ fun u hu => rep _ _ _ _ (ht u hu)
  have only : ∀ (take : State → State × Reply) (ps : List Part), (∀ u, OnlyIn ps u (take u).1) → Part.ports ∉ ps →
      ((s.serve p kind tag take).ports.get p).silent = false ∧ ((s.serve p kind tag take).ports.get p).count = 0 := by
    intro take ps ho hp
    exact sv _ fun u hu => by rw [(ho u).ports hp]; exact hu
  unfold State.takeFrame
  split
  case h_1 => exact only _ _ (takePutDeparture_only p fields) (by decide)
  case h_2 => exact only _ _ (takeAmend_only p fields) (by decide)
  case h_3 => exact only _ _ (takeAmendIfReserved_only p fields) (by decide)
  case h_4 => exact only _ _ (takeWithdrawDeparture_only p fields) (by decide)
  case h_5 => exact only _ _ (takePin_only p fields) (by decide)
  case h_6 => exact only _ _ (takeUnpin_only p fields) (by decide)
  case h_9 => exact only _ _ (takePutPlace_only p fields) (by decide)
  case h_10 => exact only _ _ (takeWithdrawPlace_only p fields) (by decide)
  case h_12 => exact only _ _ (takeReserve_only p fields) (by decide)
  case h_13 => exact only _ _ (takeDropReservation_only p fields) (by decide)
  case h_14 => exact only _ _ (takeWriteZone_only p fields) (by decide)
  case h_16 => exact only _ [] (fun u => withOperands_only _ _ _ fun q => withRights_only _ _ _ _ _ (OnlyIn.refl _ _)) (by decide)
  case h_17 => exact only _ _ (takePostNotice_only p fields) (by decide)
  case h_18 => exact only _ _ (takeWithdrawNotice_only p fields) (by decide)
  case h_21 => exact only _ _ (takeSetClock_only p fields) (by decide)
  case h_23 => exact only _ _ (takeSetFace_only p fields) (by decide)
  case h_27 =>
    refine sv _ fun u hu => ?_
    unfold takeSetParameter
    refine withOperands_keeps (I := fun v => (v.ports.get p).silent = false ∧ (v.ports.get p).count = 0) hu fun q _ => ?_
    refine withRights_keeps (I := fun v => (v.ports.get p).silent = false ∧ (v.ports.get p).count = 0) hu fun _ => ?_
    rw [(paramEffects_only _ _ _).ports]
    unfold State.writeParam
    dsimp only
    split <;> first | exact hu | (rename_i o _; cases o <;> cases p <;> exact hu) | (split <;> exact hu)
  case h_29 =>
    unfold State.serveStore
    refine sw _ _ _ fun u hu => ?_
    have h : OnlyIn [.loader] u (takeStoreSettings p tag fields u).1 := by
      unfold takeStoreSettings
      split
      · exact OnlyIn.refl _ _
      · split
        · exact OnlyIn.refl _ _
        · split
          · exact OnlyIn.refl _ _
          · intro q hq; cases q <;> first | rfl | exact absurd (by decide) hq
    have h2 : ((takeStoreSettings p tag fields u).1.ports.get p).silent = false ∧ ((takeStoreSettings p tag fields u).1.ports.get p).count = 0 := by
      rw [h.ports]; exact hu
    unfold State.sendReply?
    split
    · exact rep _ _ _ _ h2
    · exact h2
  case h_30 =>
    unfold State.serveRestart
    refine sw _ _ _ fun u hu => ?_
    unfold State.takeBoardRestart
    split
    · exact rep _ _ _ _ hu
    · split
      · exact rep _ _ _ _ hu
      · cases p <;> exact hu
  case h_32 => exact only _ _ (takeClearFaults_only p fields) (by decide)
  case h_33 => exact only _ _ (takeReadEvents_only p fields) (by decide)
  case h_34 => exact only _ [] (fun u => OnlyIn.refl _ _) (by decide)
  all_goals exact only _ [] (fun u => reads_only _ _ _ fun _ => by first | rfl | (split <;> rfl)) (by decide)

end Sys2Proof.Machine
end

