-- ==== Sys2Proof/Laws/Events.lean ====
section
/-! SUPPORT. Timer expiries, the bottom rotation, the local approach with the faces it touches and the reservations it deletes, the marks and wakes of a posted notice. -/

namespace Sys2Proof.Machine
-- one proof at a time: proofs elaborated at once would each take a thread of their own
set_option Elab.async false

theorem timer_eq (i : Fin 6) (s : State) (h : s.timers[i].over = true) : exec (.timerExpiry i) s = .next ((s.modTimer i Timer.expire).handExpiry i) := by
  show execTimerExpiry i s = _
  unfold execTimerExpiry; rw [if_pos h]

theorem timer_early (i : Fin 6) (s : State) (h : s.timers[i].over = false) : exec (.timerExpiry i) s = .next s := by
  show execTimerExpiry i s = _
  unfold execTimerExpiry; rw [h]; rfl

/-- R73: when an expiry comes. -/
theorem over_iff (t : Timer) : t.over = true ↔ t.running = true ∧ t.reload ≤ t.counter := by
  unfold Timer.over; simp

theorem showing_iff (c : Composer) : c.showing = true ↔ c.state = .lit ∨ c.state = .woken := by
  unfold Composer.showing; simp

theorem expire_eq (t : Timer) (h : t.running = true) : t.expire = { t with counter := 0, sub := 0, running := decide (t.mode = .auto) } := by
  unfold Timer.expire
  cases hm : t.mode <;> simp [h]

theorem entryAfter_split (e : BottomEntry) (before after : List BottomEntry) (h : e ∉ before) : entryAfter e (before ++ e :: after) = after.headD .clock := by
  induction before with
  | nil => simp [entryAfter]
  | cons x rest ih =>
    simp only [List.mem_cons, not_or] at h
    simp only [List.cons_append, entryAfter]
    rw [if_neg (Ne.symm h.1)]
    exact ih h.2

theorem findCode_unique {t : List Departure} (hn : (t.map fun r => r.code).Nodup) {r : Departure} (hr : r ∈ t) : findCode t r.code = some r := by
  unfold findCode
  induction t with
  | nil => cases hr
  | cons x rest ih =>
    rw [List.map_cons, List.nodup_cons] at hn
    rw [List.find?_cons]
    rcases List.mem_cons.mp hr with h | h
    · subst h; simp
    · have : x.code ≠ r.code := fun e => hn.1 (List.mem_map.mpr ⟨r, h, e.symm⟩)
      rw [show (x.code == r.code) = false by simpa using this]
      exact ih hn.2 h

theorem approach_spec (s : State) (code : Nat) :
   (∀ r, s.record? code = some r → (s.approach code).record? code = some (if r.approaching then r
            else { r with approaching := true, revision := r.revision + 1, writer := .loc })) ∧
   (∀ c, c ≠ code → (s.approach code).record? c = s.record? c) := by
  unfold State.approach
  cases h : s.record? code with
  | none => exact ⟨fun r hr => (by cases hr), fun _ _ => rfl⟩
  | some r =>
    have hc : r.code = code := (findCode_some h).1
    subst hc
    dsimp only
    cases ha : r.approaching
    · have hp : findCode s.table r.code ≠ none := by rw [← record?_eq, h]; simp
      obtain ⟨k1, k2, _⟩ := changeRecord_spec s r { r with approaching := true } .loc rfl hp
      rw [if_neg (by simp)]
      refine ⟨fun r' hr => ?_, fun c hne => k2 c hne⟩
      cases hr
      rw [k1, ha, if_neg (by simp)]
    · rw [if_pos rfl]
      refine ⟨fun r' hr => ?_, fun _ _ => rfl⟩
      cases hr; rw [ha]; exact h

/-! ## The faces an approach touches (R6, R19, R158) -/

theorem approach_settings (s : State) (code : Nat) (f : Face) : ((s.approach code).faces.get f).settings = (s.faces.get f).settings := by
  unfold State.approach
  split
  · split
    · rfl
    · exact changeRecord_settings _ _ _ _ f
  · rfl

/-- The platforms of the record of a code that is not yet approaching. -/
def State.approachPlatforms (s : State) (code : Nat) : List Nat :=
  ((s.record? code).toList.filter fun r => !r.approaching).map fun r => r.platform

theorem approach_touches (s : State) (code : Nat) : TouchWakes s (s.approach code) (s.approachPlatforms code) false ∧
    ∀ f, (s.approach code).bound f (s.approachPlatforms code) = false →
      SameBefore s (s.approach code) f ∧ SameAfter s (s.approach code) f := by
  unfold State.approach State.approachPlatforms
  cases h : s.record? code with
  | none => exact ⟨TouchWakes.none s, fun f _ => ⟨SameBefore.refl _ _, SameAfter.refl _ _⟩⟩
  | some r =>
    dsimp only
    cases ha : r.approaching
    · have hr : r.code = code := (findCode_some h).1
      have e : ((some r).toList.filter fun r => !r.approaching).map (fun r => r.platform) = [r.platform] := by simp [ha]
      rw [e, if_neg (by decide)]
      have hc := (changeRecord_spec s r { r with approaching := true } .loc rfl
        (by rw [hr, ← record?_eq, h]; simp)).2.2.2.2
      refine ⟨hc.congr (by simp), fun f hb => ?_⟩
      exact changeRecord_unbound s r { r with approaching := true } .loc (by rw [← hb]; simp [State.bound])
    · have e : ((some r).toList.filter fun r => !r.approaching).map (fun r => r.platform) = [] := by simp [ha]
      rw [e, if_pos rfl]
      exact ⟨TouchWakes.none s, fun f _ => ⟨SameBefore.refl _ _, SameAfter.refl _ _⟩⟩

/-- An approach puts a record in the place of the one it names. -/
theorem approach_table (s : State) (code : Nat) : ∃ g : Departure → Departure, (s.approach code).table = s.table.map g ∧
    (∀ x, (g x).code = x.code) ∧ ∀ x ∈ s.table, g x = x ∨ ∃ r, s.record? code = some r ∧ x.code = r.code ∧
      g x = { r with approaching := true, revision := r.revision + 1, writer := .loc } := by
  unfold State.approach
  cases h : s.record? code with
  | none => exact ⟨id, by simp, fun _ => rfl, fun x _ => .inl rfl⟩
  | some r =>
    dsimp only
    split
    · exact ⟨id, by simp, fun _ => rfl, fun x _ => .inl rfl⟩
    · refine ⟨fun x => if x.code = r.code then Departure.changedBy { r with approaching := true } .loc else x, ?_, fun x => ?_, fun x _ => ?_⟩
      · exact changeRecord_table s r { r with approaching := true } .loc
      · dsimp only; split
        · rename_i hx; exact hx.symm
        · rfl
      · dsimp only; split
        · rename_i hx; exact .inr ⟨r, rfl, hx, rfl⟩
        · exact .inl rfl

theorem approach_codes (s : State) (code : Nat) :
    (s.approach code).table.map (fun x => x.code) = s.table.map fun x => x.code := by
  obtain ⟨g, h1, h2, _⟩ := approach_table s code
  rw [h1, List.map_map]
  exact List.map_congr_left fun x _ => h2 x

/-- R99: an approach leaves what a wake check looks for, where the record it names is not hidden. -/
theorem approach_departureWakes {s : State} {code : Nat} (hn : (s.table.map fun r => r.code).Nodup)
    (hh : ∀ r, s.record? code = some r → s.hidden r = false) (f : Face) :
    (s.approach code).departureWakes f ↔ s.departureWakes f := by
  have ho := approach_only s code
  obtain ⟨g, h1, _, h3⟩ := approach_table s code
  have hid : ∀ r, (s.approach code).hidden r = s.hidden r := by
    intro r; unfold State.hidden; rw [ho.ports]
  have same : ∀ x ∈ s.table, (g x).platform = x.platform ∧ (g x).key s.params.ro = x.key s.params.ro ∧ (g x).delay = x.delay ∧
      s.hidden (g x) = s.hidden x := by
    intro x hx
    rcases h3 x hx with h | ⟨r, hr, hc, h⟩
    · rw [h]; exact ⟨rfl, rfl, rfl, rfl⟩
    · have e : x = r := by
        have hc' := (findCode_some hr).1
        have := findCode_unique hn hx
        rw [hc, hc', ← record?_eq, hr] at this
        exact (Option.some.inj this).symm
      subst e
      rw [h]
      exact ⟨rfl, rfl, rfl, by rw [hh x hr]; rfl⟩
  unfold State.departureWakes State.wakes State.nowKey
  rw [ho.clock, ho.params, approach_settings s code f]
  refine and_congr_right fun _ => and_congr_right fun _ => ?_
  constructor
  · rintro ⟨r, hr, hk⟩
    rw [mem_view, h1, List.mem_map, approach_settings] at hr
    obtain ⟨⟨x, hx, rfl⟩, hp, hd⟩ := hr
    obtain ⟨e1, e2, e3, e4⟩ := same x hx
    rw [hid, e4] at hd
    rw [e1] at hp
    rw [e2, e3] at hk
    exact ⟨x, (mem_view s f x).mpr ⟨hx, hp, hd⟩, hk⟩
  · rintro ⟨x, hx, hk⟩
    rw [mem_view] at hx
    obtain ⟨hx, hp, hd⟩ := hx
    obtain ⟨e1, e2, e3, e4⟩ := same x hx
    rw [← e2, ← e3] at hk
    exact ⟨g x, (mem_view _ f _).mpr ⟨by rw [h1]; exact List.mem_map_of_mem hx, by rw [approach_settings, e1]; exact hp, by rw [hid, e4]; exact hd⟩, hk⟩

/-- R6, R19: two approaches one after the other touch the platforms of both. -/
theorem approach_approach_touches {s : State} {x y : Nat} (hn : (s.table.map fun r => r.code).Nodup) (hne : x ≠ y)
    (hh : ∀ r, s.record? y = some r → s.hidden r = false) :
    TouchWakes s ((s.approach x).approach y) (s.approachPlatforms x ++ s.approachPlatforms y) false := by
  have hu := approach_touches s x
  have ht := approach_touches (s.approach x) y
  have hor := approach_only s x
  have hot := approach_only (s.approach x) y
  have hry : (s.approach x).record? y = s.record? y := (approach_spec s x).2 y (Ne.symm hne)
  have hp : (s.approach x).approachPlatforms y = s.approachPlatforms y := by
    unfold State.approachPlatforms; rw [hry]
  rw [hp] at ht
  refine hu.1.trans ht.1 hot.lines hor.params (fun f => approach_settings _ _ f) (fun f => ?_) (fun f h => (hu.2 f h).1)
    fun f h => (ht.2 f h).2
  refine approach_departureWakes (by rw [approach_codes]; exact hn) (fun r hr => ?_) f
  rw [hry] at hr
  have := hh r hr
  unfold State.hidden at this ⊢
  rw [hor.ports]
  exact this

/-- R6, R158: an APPROACH edge touches the platforms of the records that it changes. -/
theorem approachEdge_touches {s : State} (hn : (s.table.map fun r => r.code).Nodup) (sel : FaceSel) :
    TouchWakes s (s.approachEdge sel) ([Face.a, .b].flatMap fun f => if sel.has f then
      ((s.view f).head?.toList.filter fun r => !r.approaching).map fun r => r.platform else []) false := by
  have named : ∀ f, (if sel.has f then ((s.view f).head?.toList.filter fun r => !r.approaching).map fun r => r.platform else [])
      = ((s.namedBy sel f).map s.approachPlatforms).getD [] ∧
      ∀ code, s.namedBy sel f = some code → ∀ r, s.record? code = some r → s.hidden r = false := by
    intro f
    unfold State.namedBy
    cases sel.has f
    · exact ⟨rfl, fun _ h => by cases h⟩
    · rw [if_pos rfl, if_pos rfl]
      cases hv : (s.view f).head? with
      | none => exact ⟨rfl, fun _ h => by cases h⟩
      | some r =>
        have hm := (mem_view s f r).mp (List.mem_of_mem_head? hv)
        have hr : s.record? r.code = some r := findCode_unique hn hm.1
        refine ⟨?_, fun code h r' hr' => ?_⟩
        · show _ = s.approachPlatforms r.code
          unfold State.approachPlatforms; rw [hr]
        · cases h
          rw [hr] at hr'; cases hr'
          exact hm.2.2
  rw [List.flatMap_cons, List.flatMap_cons, List.flatMap_nil, List.append_nil, (named .a).1, (named .b).1]
  unfold State.approachEdge
  cases ha : s.namedBy sel .a with
  | none =>
    cases hb : s.namedBy sel .b with
    | none => exact TouchWakes.none s
    | some y => exact (approach_touches s y).1
  | some x =>
    cases hb : s.namedBy sel .b with
    | none => exact (approach_touches s x).1.congr (by simp)
    | some y =>
      dsimp only
      split
      · rename_i h
        subst h
        exact (approach_touches s x).1.congr (by simp)
      · rename_i h
        exact approach_approach_touches hn h ((named .b).2 y hb)

/-! ## A posted notice (R6, R88) -/

theorem markTargets_face (s : State) (ts : List FaceSel) (f : Face) : (s.markTargets ts).faces.get f = { s.faces.get f with dirty := (s.faces.get f).dirty || ts.any (fun x => x.has f) } := by
  unfold State.markTargets State.eachFace
  cases f <;> cases ha : ts.any (fun x => x.has .a) <;> cases hb : ts.any (fun x => x.has .b) <;> simp [State.markDirty, State.modFace, PerFace.get, PerFace.set, ha, hb]

/-- R85, R98: what a request that posts a notice, whatever it wrote besides, does at the faces. -/
theorem noticeReaches_post {s u : State} {p : Port} (q : NoticeRequest) (n : Notice) (hn : n.cls = q.cls ∧ n.targets = q.targets)
    (old : List FaceSel) {ps} (ho : OnlyIn ps (s.acceptFrame p) u)
    (hps : ∀ q ∈ [Part.faces, .panels, .params, .ambient, .painter], q ∉ ps) (k tag r) :
    NoticeReaches s ((u.handOnPost old n).sendReply p k tag r) q (fun f => q.targets.has f || old.any fun x => x.has f)
      (s.ports.get p).silent := by
  have hmo := markTargets_only u (n.targets :: old)
  have huf : u.faces = (s.acceptFrame p).faces := ho .faces (hps _ (by decide))
  have hup : u.panels = s.panels := (ho .panels (hps _ (by decide))).trans (acceptFrame_panels s p)
  have hupa : u.params = s.params := (ho .params (hps _ (by decide))).trans (acceptFrame_params s p)
  have hua : u.ambient = s.ambient := (ho .ambient (hps _ (by decide))).trans (acceptFrame_ambient s p)
  have hupn : u.painter = s.painter := (ho .painter (hps _ (by decide))).trans (acceptFrame_only s p).painter
  set m := u.markTargets (n.targets :: old) with hm
  have hpm : m.panels = s.panels := by rw [hmo.panels, hup]
  have hpn : m.painter = s.painter := by rw [hmo.painter, hupn]
  have hmd : ∀ f, m.faces.get f = { s.faces.get f with
      dirty := (s.faces.get f).dirty || ((s.ports.get p).silent || (q.targets.has f || old.any fun x => x.has f)) } := by
    intro f; rw [hm, markTargets_face, huf, acceptFrame_face, List.any_cons, hn.2, Bool.or_assoc]
  set t := u.handOnPost old n with ht
  have hte : t = m.wakeForNotice n.cls n.targets := rfl
  have hso := sendReply_only t p k tag r
  have hmf : ∀ f, { m.faces.get f with countdown := (s.faces.get f).countdown, dirty := (s.faces.get f).dirty } = s.faces.get f := by
    intro f; rw [hmd]
  have hb : ∀ f, SameBefore s m f := by
    intro f
    exact ⟨by rw [hmd], by rw [hmd], by rw [hmd], by rw [hmd], by rw [hmd], by rw [hmd], by rw [hmd], by rw [hpm],
      by rw [hmo.params, hupa], by rw [hmo.ambient, hua], fun h => by rw [hmd, h]; simp, by rw [hmd]; exact id,
      by rw [hmd]; exact id, fun j _ => by unfold State.paints; rw [hpn]; exact id, BackLeft.of_eq hpm hpn f⟩
  have hleft : ∀ f, FaceLeft s m f ((s.ports.get p).silent || (q.targets.has f || old.any fun x => x.has f)) :=
    fun f => FaceLeft.of_faces (hmd f) hpm hpn
  have hreply : ∀ f, FaceLeft t (t.sendReply p k tag r) f false :=
    fun f => FaceLeft.of_faces (by rw [hso.faces, Bool.or_false]) hso.panels hso.painter
  intro f
  refine ⟨fun h => ?_, fun ⟨h1, h2⟩ => ?_, fun h => ?_⟩
  · rw [hso.faces]
    exact handOnPost_dirty u old n f (by rw [List.any_cons, hn.2]; exact h)
  · rw [hn.1, hn.2, h1] at hte
    have hw := (wakeSel_spec m .notice q.targets.has f).2.1 h2
    have hte2 : t = (m.eachFace fun f u => if q.targets.has f then u.wake f .notice else u).eachFace fun f u => if q.targets.has f then u.settle f else u := hte
    rw [← hte2] at hw
    have h3 := (hw.1.after (t' := t.sendReply p k tag r) Iff.rfl (SameAfter.of_eq hso.faces hso.panels hso.painter f) hso.lines).before
      (hb f) (hmf f) (by rw [hmo.params, hupa])
    have hs2 : (m.faces.get f).settings = (s.faces.get f).settings := by rw [hmd]
    have hc2 : (m.faces.get f).countdown = (s.faces.get f).countdown := by rw [hmd]
    rw [hs2, hc2] at h3
    have hw2 := wakes_congr (s := s) (t := m) (f := f) (by rw [hmo.params, hupa]) hs2
    exact ⟨fun h => h3.1 ((hw2 _).mpr h), fun h => h3.2.1 (fun k => h ((hw2 _).mp k)), h3.2.2⟩
  · have hmt : FaceLeft m t f false := by
      rw [hte, hn.1, hn.2]
      cases hc : q.cls with
      | low => exact FaceLeft.refl m f
      | high =>
        rcases h with h | h
        · rw [hc] at h; cases h
        · exact (wakeSel_spec m .notice q.targets.has f).2.2 h
    have := ((hleft f).trans hmt).trans (hreply f)
    rwa [Bool.or_false, Bool.or_false] at this

/-! ## The reservations an approach deletes (R19, R58, R60, R158) -/

/-- R19, R58, R60: the reservations that an approach of a code deletes. -/
theorem approach_loses (s : State) (code : Nat) : ReservationsLost s (s.approach code) fun q =>
    s.reservations.get q = some code ∧ ∃ r, s.record? code = some r ∧ r.approaching = false := by
  unfold State.approach
  intro q
  cases hr : s.record? code with
  | none => exact ⟨fun h => (by obtain ⟨_, _, h, _⟩ := h; cases h), fun _ => ⟨rfl, rfl⟩⟩
  | some r =>
    have hc : r.code = code := (findCode_some hr).1
    subst hc
    dsimp only
    cases ha : r.approaching
    · obtain ⟨_, _, _, h, _⟩ := changeRecord_spec s r { r with approaching := true } .loc rfl (by rw [← record?_eq, hr]; simp)
      have h := h q
      simp only [Bool.false_eq_true, if_false]
      refine ⟨fun ⟨k, _⟩ => ?_, fun k => ?_⟩
      · exact ⟨h.1.trans (if_pos k), h.2.trans (if_pos ⟨k, by simp⟩)⟩
      · have k2 : ¬ s.reservations.get q = some r.code := fun h => k ⟨h, r, rfl, ha⟩
        exact ⟨h.1.trans (if_neg k2), h.2.trans (if_neg fun h => k2 h.1)⟩
    · exact ⟨fun ⟨_, x, h, k⟩ => (by cases h; rw [ha] at k; cases k), fun _ => ⟨rfl, rfl⟩⟩

theorem ReservationsLost.congr {s t : State} {a b : Port → Prop} (h : ReservationsLost s t a) (e : ∀ q, a q ↔ b q) : ReservationsLost s t b := by
  intro q; rw [← e]; exact h q

/-- Two losses one after the other. -/
theorem ReservationsLost.trans {s t u : State} {a b c : Port → Prop} (h : ReservationsLost s t a) (k : ReservationsLost t u b)
    (hc : ∀ q, c q ↔ a q ∨ b q) : ReservationsLost s u c := by
  intro q
  obtain ⟨h1, h2⟩ := h q
  obtain ⟨k1, k2⟩ := k q
  rw [hc]
  refine ⟨fun hl => ?_, fun hn => ?_⟩
  · by_cases hb : b q
    · refine ⟨(k1 hb).1, ?_⟩
      rw [(k1 hb).2]
      by_cases ha : a q
      · rw [(h1 ha).2]
      · rw [(h2 ha).2]
    · have ha := hl.resolve_right hb
      rw [(k2 hb).1, (k2 hb).2]; exact h1 ha
  · rw [not_or] at hn
    rw [(k2 hn.2).1, (k2 hn.2).2]; exact h2 hn.1

/-- R19, R58, R60, R158: the reservations that an APPROACH edge deletes. -/
theorem approachEdge_loses {s : State} (hn : (s.table.map fun r => r.code).Nodup) (sel : FaceSel) :
    ReservationsLost s (s.approachEdge sel) fun q => ∃ f r, sel.has f = true ∧ (s.view f).head? = some r ∧
      r.approaching = false ∧ s.reservations.get q = some r.code := by
  have named : ∀ f q, (∃ r, sel.has f = true ∧ (s.view f).head? = some r ∧ r.approaching = false ∧ s.reservations.get q = some r.code)
      ↔ ∃ code, s.namedBy sel f = some code ∧ s.reservations.get q = some code ∧ ∃ r, s.record? code = some r ∧ r.approaching = false := by
    intro f q
    unfold State.namedBy
    constructor
    · rintro ⟨r, h1, h2, h3, h4⟩
      have hm := (mem_view s f r).mp (List.mem_of_mem_head? h2)
      exact ⟨r.code, by rw [if_pos h1, h2]; rfl, h4, r, findCode_unique hn hm.1, h3⟩
    · rintro ⟨code, h1, h2, r, h3, h4⟩
      split at h1
      · rename_i hf
        cases hv : (s.view f).head? with
        | none => rw [hv] at h1; cases h1
        | some x =>
          rw [hv] at h1; cases h1
          have hm := (mem_view s f x).mp (List.mem_of_mem_head? hv)
          rw [record?_eq, findCode_unique hn hm.1] at h3; cases h3
          exact ⟨_, hf, rfl, h4, h2⟩
      · cases h1
  have all : ∀ q, (∃ f r, sel.has f = true ∧ (s.view f).head? = some r ∧ r.approaching = false ∧ s.reservations.get q = some r.code)
      ↔ (∃ code, s.namedBy sel .a = some code ∧ s.reservations.get q = some code ∧ ∃ r, s.record? code = some r ∧ r.approaching = false)
        ∨ ∃ code, s.namedBy sel .b = some code ∧ s.reservations.get q = some code ∧ ∃ r, s.record? code = some r ∧ r.approaching = false := by
    intro q
    rw [← named .a q, ← named .b q]
    exact ⟨fun ⟨f, h⟩ => by cases f; exacts [.inl h, .inr h], fun h => h.elim (fun h => ⟨_, h⟩) fun h => ⟨_, h⟩⟩
  unfold State.approachEdge
  cases ha : s.namedBy sel .a with
  | none =>
    cases hb : s.namedBy sel .b with
    | none => intro q; refine ⟨fun h => ?_, fun _ => ⟨rfl, rfl⟩⟩; have h := (all q).mp h; rw [ha, hb] at h; simp at h
    | some y => refine (approach_loses s y).congr fun q => ?_; rw [all, ha, hb]; simp
  | some x =>
    cases hb : s.namedBy sel .b with
    | none => refine (approach_loses s x).congr fun q => ?_; rw [all, ha, hb]; simp
    | some y =>
      dsimp only
      split
      · rename_i e; subst e
        refine (approach_loses s x).congr fun q => ?_; rw [all, ha, hb]; simp
      · rename_i hne
        have hx := approach_loses s x
        refine hx.trans (approach_loses (s.approach x) y) fun q => ?_
        rw [all, ha, hb, (approach_spec s x).2 y (Ne.symm hne)]
        simp only [Option.some.injEq, exists_eq_left']
        have : (s.approach x).reservations.get q = some y ↔ s.reservations.get q = some y := by
          by_cases hl : s.reservations.get q = some x ∧ ∃ r, s.record? x = some r ∧ r.approaching = false
          · rw [((hx q).1 hl).1, hl.1]; simp [hne]
          · rw [((hx q).2 hl).1]
        rw [this]

end Sys2Proof.Machine
end

