-- ==== Sys2Proof/Laws/Fit.lean ====
section
/-! SUPPORT. Widths, the fitting ladder, word wrap and tickers. -/

namespace Sys2Proof.Machine
-- one proof at a time: proofs elaborated at once would each take a thread of their own
set_option Elab.async false

def colsOf (t : List Byte) : Nat := (t.map fun b => advance b + 1).sum

theorem colsOf_cons (b : Byte) (t : List Byte) : colsOf (b :: t) = advance b + 1 + colsOf t := by simp [colsOf]

theorem colsOf_append (a b : List Byte) : colsOf (a ++ b) = colsOf a + colsOf b := by simp [colsOf]

theorem colsOf_pos {t : List Byte} (h : t ≠ []) : 1 ≤ colsOf t := by
  cases t with
  | nil => exact absurd rfl h
  | cons b r => rw [colsOf_cons]; omega

theorem advances_cols (t : List Byte) : colsOf t = advances t + t.length := by
  induction t with
  | nil => rfl
  | cons b r ih => rw [colsOf_cons, ih]; simp [advances]; omega

theorem textWidth_eq (t : List Byte) : textWidth t = colsOf t - 1 := by
  rw [advances_cols]; unfold textWidth
  cases t with
  | nil => rfl
  | cons b r => simp

theorem fitCount_spec (f : Nat) (t : List Byte) : ∀ u, fitCount f u t ≤ t.length ∧
    (0 < fitCount f u t → u + colsOf (t.take (fitCount f u t)) ≤ f + 1) ∧
    (fitCount f u t < t.length → f + 1 < u + colsOf (t.take (fitCount f u t + 1))) := by
  induction t with
  | nil => intro u; simp [fitCount]
  | cons b r ih =>
    intro u
    unfold fitCount
    split
    · rename_i h
      obtain ⟨a1, a2, a3⟩ := ih (u + advance b + 1)
      set k := fitCount f (u + advance b + 1) r
      refine ⟨by simp; omega, fun _ => ?_, fun hl => ?_⟩
      · rw [Nat.add_comm 1 k, List.take_succ_cons, colsOf_cons]
        by_cases hk : 0 < k
        · have := a2 hk; omega
        · have : k = 0 := by omega
          rw [this]; simp [colsOf]; omega
      · rw [Nat.add_comm 1 k, List.take_succ_cons, colsOf_cons]
        have := a3 (by simp at hl; omega); omega
    · rename_i h
      refine ⟨by simp, fun h => by omega, fun _ => ?_⟩
      rw [List.take_succ_cons, colsOf_cons]; simp [colsOf]; omega

theorem cut_fits (f : Nat) (t : List Byte) : textWidth (t.take (fitCount f 0 t)) ≤ f := by
  rw [textWidth_eq]
  obtain ⟨a1, a2, a3⟩ := fitCount_spec f t 0
  by_cases hk : 0 < fitCount f 0 t
  · have := a2 hk; omega
  · have : fitCount f 0 t = 0 := by omega
    rw [this]; simp [colsOf]

theorem cut_longest (f : Nat) (t : List Byte) (h : f < textWidth t) : fitCount f 0 t < t.length ∧
    f < textWidth (t.take (fitCount f 0 t + 1)) := by
  obtain ⟨a1, a2, a3⟩ := fitCount_spec f t 0
  have hk : fitCount f 0 t < t.length := by
    rcases Nat.lt_or_ge (fitCount f 0 t) t.length with h1 | h1
    · exact h1
    · exfalso
      have h2 := cut_fits f t
      rw [List.take_of_length_le h1] at h2; omega
  refine ⟨hk, ?_⟩
  rw [textWidth_eq]; have := a3 hk; omega

theorem advance_le (b : Byte) : advance b ≤ 7 := by
  unfold advance; repeat' split
  all_goals omega

theorem cutWord_spec (f : Nat) (hf : 7 ≤ f) (n : Nat) : ∀ w : List Byte, w.length ≤ n →
    (∀ l ∈ (cutWord f n w).1, textWidth l ≤ f) ∧ textWidth (cutWord f n w).2 ≤ f ∧ (cutWord f n w).1.flatten ++ (cutWord f n w).2 = w := by
  induction n with
  | zero =>
    intro w hw
    have : w = [] := by cases w <;> simp_all
    subst this; simp [cutWord, textWidth, advances]
  | succ n ih =>
    intro w hw
    unfold cutWord
    split
    · rename_i h; simp [h]
    · rename_i h
      have hk : 1 ≤ fitCount f 0 w := by
        cases w with
        | nil => simp [textWidth, advances] at h
        | cons b r => unfold fitCount; rw [if_pos (by have := advance_le b; omega)]; omega
      obtain ⟨b1, b2, b3⟩ := ih (w.drop (fitCount f 0 w)) (by rw [List.length_drop]; omega)
      dsimp only
      refine ⟨?_, b2, ?_⟩
      · intro l hl
        rcases List.mem_cons.mp hl with rfl | hl
        · exact cut_fits f w
        · exact b1 l hl
      · rw [List.flatten_cons, List.append_assoc, b3, List.take_append_drop]

theorem join_width (cur w : List Byte) (h : cur ≠ []) : textWidth (cur ++ 0x20 :: w) ≤ textWidth cur + 5 + textWidth w := by
  rw [textWidth_eq, textWidth_eq, textWidth_eq, colsOf_append, colsOf_cons]
  have h1 := colsOf_pos h
  have : advance 0x20 = 3 := by decide
  rw [this]
  by_cases hw : w = []
  · subst hw; simp [colsOf]; omega
  · have := colsOf_pos hw; omega

def solid (t : List Byte) : List Byte := t.filter fun b => b != 0x20

theorem solid_append (a b : List Byte) : solid (a ++ b) = solid a ++ solid b := List.filter_append _ _

theorem placeWords_spec (f : Nat) (hf : 7 ≤ f) (ws : List (List Byte)) : ∀ cur, textWidth cur ≤ f →
    (∀ l ∈ placeWords f ws cur, textWidth l ≤ f) ∧ solid (placeWords f ws cur).flatten = solid cur ++ solid ws.flatten := by
  induction ws with
  | nil =>
    intro cur hc
    unfold placeWords
    split
    · rename_i h; have : cur = [] := by simpa using h
      subst this; simp [solid]
    · simp [hc, solid]
  | cons w rest ih =>
    intro cur hc
    unfold placeWords
    split
    · rename_i h
      simp only [Bool.and_eq_true, decide_eq_true_eq, Bool.not_eq_eq_eq_not, Bool.not_true, List.isEmpty_eq_false_iff] at h
      have hj := join_width cur w h.1
      obtain ⟨a, b⟩ := ih (cur ++ 0x20 :: w) (by omega)
      refine ⟨a, ?_⟩
      rw [b, solid_append, List.flatten_cons, solid_append]
      simp [solid]
    · obtain ⟨c1, c2, c3⟩ := cutWord_spec f hf w.length w (Nat.le_refl _)
      obtain ⟨a, b⟩ := ih (cutWord f w.length w).2 c2
      dsimp only
      constructor
      · intro l hl
        rcases List.mem_append.mp hl with hl | hl
        · rcases List.mem_append.mp hl with hl | hl
          · split at hl
            · simp at hl
            · simp at hl; subst hl; exact hc
          · exact c1 l hl
        · exact a l hl
      · rw [List.flatten_append, List.flatten_append, solid_append, solid_append, b, List.flatten_cons, solid_append, ← c3]
        rw [solid_append]
        have : solid (List.flatten (if cur.isEmpty then [] else [cur])) = solid cur := by
          split
          · rename_i h; have : cur = [] := by simpa using h
            subst this; rfl
          · simp
        rw [this, c3]
        simp [List.append_assoc]

theorem wordsFrom_solid (t : List Byte) : ∀ cur, solid (wordsFrom cur t).flatten = solid cur.reverse ++ solid t := by
  induction t with
  | nil =>
    intro cur; unfold wordsFrom
    split
    · rename_i h; have : cur = [] := by simpa using h
      subst this; rfl
    · simp [solid]
  | cons b r ih =>
    intro cur; unfold wordsFrom
    split
    · rename_i hb; subst hb
      split
      · rename_i h; have : cur = [] := by simpa using h
        subst this; rw [ih]; simp [solid]
      · rw [List.flatten_cons, solid_append, ih]; simp [solid]
    · rw [ih, List.reverse_cons, solid_append, List.append_assoc]; congr 1
      rw [← solid_append]; rfl

theorem lastStep (key : TickerKey) (text : List Byte) (W hold : Nat) (h : 0 < W) :
    Ticker.step ⟨key, text, W, 255, .scroll, 0⟩ hold = ⟨key, text, W, 256, if hold = 0 then .scroll else .hold, hold⟩ := by
  unfold Ticker.step; dsimp only
  rw [if_neg (show ¬ 255 + 1 = Config.lineWidth + W by unfold Config.lineWidth; omega)]
  rw [if_pos (show 255 + 1 = Config.lineWidth by rfl)]

/-! ## Word wrap by the rules of R130 -/

/-- R130: a word cut on an empty line. -/
theorem cutWord_wraps {ws lines : List (List Byte)} (n : Nat) : ∀ w : List Byte, w.length ≤ n → w ≠ [] →
    Wraps (cutWord 256 n w).2 ws lines → Wraps [] (w :: ws) ((cutWord 256 n w).1 ++ lines) := by
  induction n with
  | zero => intro w hl hw; exact absurd (List.length_eq_zero_iff.mp (by omega)) hw
  | succ n ih =>
    intro w hl hw
    unfold cutWord
    split
    · rename_i h; exact fun k => .first h k
    · rename_i h
      dsimp only
      obtain ⟨k1, k2⟩ := cut_longest 256 w (by omega)
      have k0 : 0 < fitCount 256 0 w := by
        cases w with
        | nil => exact absurd rfl hw
        | cons b r =>
          have := advance_le b
          unfold fitCount; rw [if_pos (by omega)]; omega
      have h1 := cut_fits 256 w
      generalize fitCount 256 0 w = k at k1 k2 k0 h1 ⊢
      cases hd : w.drop k with
      | nil => rw [List.drop_eq_nil_iff] at hd; omega
      | cons b rest =>
        intro hwr
        have hlen : (b :: rest).length ≤ n := by rw [← hd, List.length_drop]; omega
        have hj := ih (b :: rest) hlen (by simp) hwr
        have hw2 : w = w.take k ++ b :: rest := by rw [← hd, List.take_append_drop]
        have ht : w.take (k + 1) = w.take k ++ [b] := by
          rw [List.take_add_one]
          have : w[k]? = some b := by
            have := congrArg (fun l => l[0]?) hd
            simpa [List.getElem?_drop] using this
          rw [this]; rfl
        rw [ht] at k2
        rw [List.cons_append]
        conv => arg 2; rw [hw2]
        exact .cut h1 k2 hj

/-- R130: the words placed on lines of 256 columns. -/
theorem placeWords_wraps : ∀ (ws : List (List Byte)) (cur : List Byte), (∀ w ∈ ws, w ≠ []) →
    Wraps cur ws (placeWords 256 ws cur)
  | [], cur, _ => by
    unfold placeWords
    cases cur with
    | nil => exact .nothing
    | cons b r => exact .last (by simp)
  | w :: ws, cur, h => by
    have hw : w ≠ [] := h w (by simp)
    have hr : ∀ x ∈ ws, x ≠ [] := fun x hx => h x (by simp [hx])
    unfold placeWords
    split
    · rename_i hj
      simp only [Bool.and_eq_true, Bool.not_eq_true', decide_eq_true_eq, List.isEmpty_eq_false_iff] at hj
      exact .join hj.1 hj.2 (placeWords_wraps ws _ hr)
    · rename_i hj
      dsimp only
      have hc := cutWord_wraps w.length w (Nat.le_refl _) hw (placeWords_wraps ws (cutWord 256 w.length w).2 hr)
      cases cur with
      | nil => simpa using hc
      | cons b r =>
        simp at hj
        simpa using Wraps.close (by simp) hj hc

/-- R129: the words of a text. -/
theorem wordsFrom_eq (t : List Byte) : ∀ cur : List Byte,
    wordsFrom cur t = ((t.splitOn 0x20).modifyHead (cur.reverse ++ ·)).filter fun w => w ≠ [] := by
  induction t with
  | nil => intro cur; unfold wordsFrom; cases cur <;> simp [List.splitOn]
  | cons b r ih =>
    intro cur
    unfold wordsFrom
    have e : (b :: r).splitOn 0x20 = if b = 0x20 then [] :: r.splitOn 0x20 else (r.splitOn 0x20).modifyHead (List.cons b) := by
      unfold List.splitOn
      rw [List.splitOnP_cons_eq_if_modifyHead]
      by_cases h : b = 0x20 <;> simp [h]
    rw [e]
    by_cases h : b = 0x20
    · rw [if_pos h, if_pos h, ih]
      have : (r.splitOn 0x20).modifyHead (([] : List Byte).reverse ++ ·) = r.splitOn 0x20 := by
        cases r.splitOn 0x20 <;> simp
      rw [this]
      cases cur with
      | nil => simp
      | cons c d => simp
    · rw [if_neg h, if_neg h, ih]
      congr 1
      cases r.splitOn 0x20 <;> simp

/-- R129 to R131: the lines of a text. -/
theorem wrapText_wraps (text : List Byte) :
    ∃ lines, Wraps [] ((text.splitOn 0x20).filter fun w => w ≠ []) lines ∧
      wrapText text = if lines = [] then [[]] else lines := by
  refine ⟨placeWords 256 (wordsFrom [] text) [], ?_, ?_⟩
  · rw [wordsFrom_eq]
    have : (text.splitOn 0x20).modifyHead (([] : List Byte).reverse ++ ·) = text.splitOn 0x20 := by
      cases text.splitOn 0x20 <;> simp
    rw [this]
    exact placeWords_wraps _ _ fun w hw => by simpa using (List.mem_filter.mp hw).2
  · unfold wrapText Config.lineWidth
    cases placeWords 256 (wordsFrom [] text) [] <;> simp
end Sys2Proof.Machine
end

