-- ==== Sys2Proof/Laws/Image.lean ====
section
/-! SUPPORT. Slices of the image, place blocks and parameter values read back, and what applying settings and a restart do, to the silence limit and the stale action in force as well. -/

namespace Sys2Proof.Machine
-- one proof at a time: proofs elaborated at once would each take a thread of their own
set_option Elab.async false

theorem slice_append (a b c : List Byte) : slice (a ++ (b ++ c)) a.length b.length = b := by
  unfold slice; rw [List.drop_left, List.take_left]

theorem slice_skip (a b : List Byte) (i n : Nat) : slice (a ++ b) (a.length + i) n = slice b i n := by
  unfold slice; rw [List.drop_append, List.drop_of_length_le (by omega)]; simp

theorem slice_inside (a b : List Byte) (i n : Nat) (h : i + n ≤ a.length) : slice (a ++ b) i n = slice a i n := by
  unfold slice
  rw [List.drop_append_of_le_length (by omega), List.take_append_of_le_length (by rw [List.length_drop]; omega)]

/-- The block of one entry in a run of blocks of one length. -/
theorem slice_blocks {α : Type} (g : α → List Byte) (n : Nat) (hg : ∀ x, (g x).length = n) (l : List α) (i : Nat) (h : i < l.length) :
    slice (l.flatMap g) (n * i) n = g l[i] := by
  induction l generalizing i with
  | nil => simp at h
  | cons x rest ih =>
    rw [List.flatMap_cons]
    cases i with
    | zero =>
      have := slice_append [] (g x) (rest.flatMap g)
      rw [hg] at this
      simpa using this
    | succ i =>
      have := slice_skip (g x) (rest.flatMap g) (n * i) n
      rw [hg] at this
      rw [Nat.mul_succ, Nat.add_comm (n * i) n, this]
      simp only [List.getElem_cons_succ]
      exact ih i (by simpa using h)

theorem blocks_length {α : Type} (g : α →
    List Byte) (n : Nat) (hg : ∀ x, (g x).length = n) (l : List α) : (l.flatMap g).length = n * l.length := by
  induction l with
  | nil => simp
  | cons x rest ih => rw [List.flatMap_cons, List.length_append, hg, ih, List.length_cons, Nat.mul_succ]; omega

theorem splitParams_flatMap (v : Param → List Byte) (l : List Param) (h : ∀ q ∈ l, (v q).length = q.bytes) :
    splitParams l (l.flatMap v) = l.map fun q => (q, v q) := by
  induction l with
  | nil => rfl
  | cons q rest ih =>
    unfold splitParams
    have hq := h q (by simp)
    rw [List.flatMap_cons, ← hq, List.take_left, List.drop_left, ih fun x hx => h x (by simp [hx])]
    rfl

theorem bytes_total : (Param.all.map Param.bytes).sum = 154 := by decide

theorem flatMap_length_sum {α : Type} (g : α → List Byte) (l : List α) : (l.flatMap g).length = (l.map fun x => (g x).length).sum := by
  rw [List.length_flatMap]

theorem padTo_length (n : Nat) (b : List Byte) (h : b.length ≤ n) : (padTo n b).length = n := by
  unfold padTo; rw [List.length_append, List.length_replicate]; omega

theorem slice_padTo (n : Nat) (a b c : List Byte) : slice (a ++ (padTo n b ++ c)) a.length b.length = b := by
  unfold padTo
  rw [List.append_assoc]; exact slice_append _ _ _

theorem placeBlock_length (e : Option Place) (h : ∀ x, e = some x → x.fits = true) : (placeBlock e).length = 39 := by
  cases e with
  | none => simp [placeBlock]
  | some x =>
    have := h x rfl
    unfold Place.fits at this
    simp only [Bool.and_eq_true, decide_eq_true_eq] at this
    unfold placeBlock
    simp only [List.cons_append, List.length_cons, List.length_append, padTo_length 24 _ this.1, padTo_length 12 _ this.2]

theorem readPlaceBlock_block (e : Option Place) (h : ∀ x, e = some x → x.name ≠ [] ∧ x.short ≠ some [] ∧ x.fits = true) :
    readPlaceBlock (placeBlock e) = some e := by
  cases e with
  | none => rfl
  | some x =>
    obtain ⟨h1, h2, h3⟩ := h x rfl
    unfold Place.fits at h3
    simp only [Bool.and_eq_true, decide_eq_true_eq] at h3
    have hb : placeBlock (some x) = [1,
        byte x.name.length] ++ (padTo 24 x.name ++ ([byte (x.short.getD []).length] ++ (padTo 12 (x.short.getD []) ++ []))) := by
      unfold placeBlock; simp
    have hn := padTo_length 24 x.name h3.1
    have g1 : (placeBlock (some x)).getD 1 0 = byte x.name.length := by rw [hb]; rfl
    have g0 : (placeBlock (some x)).getD 0 0 = 1 := by rw [hb]; rfl
    have g26 : (placeBlock (some x)).getD 26 0 = byte (x.short.getD []).length := by
      rw [hb]
      rw [List.getD_eq_getElem?_getD, List.getElem?_append_right (by simp), List.getElem?_append_right (by simp [hn])]
      simp [hn]
    have s1 : slice (placeBlock (some x)) 2 x.name.length = x.name := by
      rw [hb]; exact slice_padTo 24 [1, byte x.name.length] x.name _
    have s2 : slice (placeBlock (some x)) 27 (x.short.getD []).length = x.short.getD [] := by
      rw [hb]
      have := slice_padTo 12 ([1, byte x.name.length] ++ padTo 24 x.name ++ [byte (x.short.getD []).length]) (x.short.getD []) []
      rw [show ([1, byte x.name.length] ++ padTo 24 x.name ++ [byte (x.short.getD []).length]).length = 27 by simp [hn]] at this
      simpa using this
    have l1 : (byte x.name.length).toNat = x.name.length := byte_toNat (by omega)
    have l2 : (byte (x.short.getD []).length).toNat = (x.short.getD []).length := byte_toNat (by omega)
    unfold readPlaceBlock
    rw [g1, g0, g26, l1, l2]
    dsimp only
    rw [s1, s2]
    have hne : 1 ≤ x.name.length := List.length_pos_of_ne_nil h1
    have hs : shortName (x.short.getD []) = x.short := by
      unfold shortName
      cases hx : x.short with
      | none => rfl
      | some v => cases v with
        | nil => exact absurd hx h2
        | cons => rfl
    rw [hs]
    show (if 1 ≤ x.name.length ∧ x.name.length ≤ 24 ∧ (x.short.getD []).length ≤ 12 then _ else _) = _
    rw [if_pos ⟨hne, h3.1, h3.2⟩]

theorem place_get (s : State) (i : Nat) (h : i < 255) : s.places[i] = s.place? (i + 1) := by
  unfold State.place?
  rw [dif_pos (by omega)]
  rfl

theorem numbers_rise : (Param.all.map Param.number).Pairwise (fun x y => x < y) := by decide

theorem all_nodup : Param.all.Nodup := by
  have := numbers_rise
  rw [List.pairwise_map] at this
  exact this.imp fun h e => by rw [e] at h; exact absurd h (Nat.lt_irrefl _)

/-- A run of writes. -/
theorem readParam_writeParams : ∀ (vs : List (Param × List Byte)) (s : State), (vs.map fun x => x.1).Nodup →
    (∀ x ∈ vs, x.2.length = x.1.bytes ∧ x.1.accepts x.2 = true) → ∀ q,
      (∀ x ∈ vs, x.1 = q → (s.writeParams vs).readParam q = x.2) ∧
          (q ∉ vs.map (fun x => x.1) → (s.writeParams vs).readParam q = s.readParam q)
  | [], s, _, _, q => ⟨fun x hx => (by cases hx), fun _ => rfl⟩
  | v :: rest, s, hn, hv, q => by
    rw [List.map_cons, List.nodup_cons] at hn
    have ih := readParam_writeParams rest (s.writeParam v.1 v.2) hn.2 (fun x hx => hv x (by simp [hx])) q
    have e : s.writeParams (v :: rest) = (s.writeParam v.1 v.2).writeParams rest := rfl
    rw [e]
    refine ⟨fun x hx hq => ?_, fun hq => ?_⟩
    · rcases List.mem_cons.mp hx with h | h
      · subst h; subst hq
        rw [ih.2 hn.1]
        exact readParam_written s x.1 x.2 (hv x (by simp)).1 (hv x (by simp)).2
      · exact ih.1 x h hq
    · rw [List.map_cons, List.mem_cons, not_or] at hq
      rw [ih.2 hq.2]
      exact readParam_other s v.2 hq.1

theorem params_after (s : State) (vs : List (Param × List Byte)) (h1 : vs.map (fun x => x.1) = Param.all)
    (hv : ∀ x ∈ vs, x.2.length = x.1.bytes ∧ x.1.accepts x.2 = true) :
    (Param.all.map fun q => (q, (s.writeParams vs).readParam q)) = vs := by
  have hn : (vs.map fun x => x.1).Nodup := by rw [h1]; exact all_nodup
  rw [← h1, List.map_map]
  conv_rhs => rw [← List.map_id vs]
  apply List.map_congr_left
  intro x hx
  show (x.1, _) = x
  rw [(readParam_writeParams vs s hn hv x.1).1 x hx rfl]

theorem splitParams_fst : ∀ (l : List Param) (b : List Byte), (splitParams l b).map (fun x => x.1) = l
  | [], _ => rfl
  | q :: rest, b => by unfold splitParams; rw [List.map_cons, splitParams_fst rest]

theorem splitParams_length : ∀ (l : List Param) (b : List Byte), (l.map Param.bytes).sum ≤ b.length →
    ∀ x ∈ splitParams l b, x.2.length = x.1.bytes
  | [], _, _, x, hx => by cases hx
  | q :: rest, b, h, x, hx => by
    unfold splitParams at hx
    rw [List.map_cons, List.sum_cons] at h
    rcases List.mem_cons.mp hx with e | e
    · subst e; rw [List.length_take]; dsimp only; omega
    · exact splitParams_length rest _ (by rw [List.length_drop]; omega) x e

theorem writeParam_keeps (s : State) (q : Param) (v : List Byte) : (∀ f, ((s.writeParam q v).panels.get f).out = (s.panels.get f).out) := by
  intro f
  have k : ∀ (g : Face) (m : Panel → Panel), (∀ p, (m p).out = p.out) → ((s.modPanel g m).panels.get f).out = (s.panels.get f).out := by
    intro g m hm
    rw [State.modPanel_panels, PerFace.get_set]
    split
    · rename_i e; subst e; exact hm _
    · rfl
  cases q
  case cap g => exact k g _ fun _ => rfl
  case trim g m => exact k g _ fun _ => rfl
  case line l => unfold State.writeParam; dsimp only; split <;> rfl
  all_goals rfl

theorem writeParams_out (vs : List (Param × List Byte)) : ∀ s : State, ∀ f,
    ((s.writeParams vs).panels.get f).out = (s.panels.get f).out := by
  induction vs with
  | nil => intro s f; rfl
  | cons v rest ih => intro s f; show (((s.writeParam v.1 v.2).writeParams rest).panels.get f).out = _; rw [ih, writeParam_keeps]

/-- What waking up a face does. -/
theorem wakeUp_spec (s : State) (f : Face) :
    (s.wakeUpFace f).faces.get f = { s.faces.get f with state := s.effState f, dirty := (s.faces.get f).dirty || s.effState f == .lit || s.effState f == .woken } ∧
    (∀ g, g ≠ f → (s.wakeUpFace f).faces.get g = s.faces.get g ∧ (s.wakeUpFace f).panels.get g = s.panels.get g) ∧
    ((s.wakeUpFace f).panels.get f).out = (if s.effState f = .dark then (s.panels.get f).out else ((s.panels.get f).start s.params.startDelay).out) ∧
    KeepsCaps s (s.wakeUpFace f) := by
  set u := s.modFace f fun c => { c with state := s.effState f, dirty := c.dirty || s.effState f == .lit || s.effState f == .woken } with hu
  set v := if s.effState f = .dark then u else u.modPanel f (Panel.start u.params.startDelay) with hv
  have e : s.wakeUpFace f = v.recomputeDuties f := rfl
  have vf : v.faces = u.faces := by rw [hv]; split <;> rfl
  have uf : u.faces.get f = { s.faces.get f with state := s.effState f, dirty := (s.faces.get f).dirty || s.effState f == .lit || s.effState f == .woken } := by
    rw [hu, State.modFace_faces, PerFace.get_set_same]
  have start : ∀ (d : Nat) (p : Panel), (p.start d).cap = p.cap ∧ (p.start d).trims = p.trims := by
    intro d p; unfold Panel.start; split <;> exact ⟨rfl, rfl⟩
  have vp : ∀ g, v.panels.get g = if g = f then (if s.effState f = .dark then s.panels.get f else (s.panels.get f).start s.params.startDelay) else s.panels.get g := by
    intro g
    rw [hv]
    by_cases hd : s.effState f = .dark
    · rw [if_pos hd, if_pos hd]; split
      · rename_i h; subst h; rfl
      · rfl
    · rw [if_neg hd, if_neg hd, State.modPanel_panels, PerFace.get_set]; rfl
  have rp : ∀ g, (v.recomputeDuties f).panels.get g = if g = f then { v.panels.get f with faceDuty := v.faceDutyOf f, duties := (v.panels.get f).trims.map (moduleDuty (v.faceDutyOf f)) } else v.panels.get g := by
    intro g; unfold State.recomputeDuties; dsimp only; rw [State.modPanel_panels, PerFace.get_set]
  rw [e]
  refine ⟨?_, fun g hg => ⟨?_, ?_⟩, ?_, fun g => ?_⟩
  · show v.faces.get f = _; rw [vf, uf]
  · show v.faces.get g = _; rw [vf, hu, State.modFace_faces, PerFace.get_set_other _ _ hg]
  · rw [rp, if_neg hg, vp, if_neg hg]
  · rw [rp, if_pos rfl]; dsimp only; rw [vp, if_pos rfl]; split <;> rfl
  · rw [rp]
    split
    · rename_i h; subst h; dsimp only; rw [vp, if_pos rfl]
      split
      · exact ⟨rfl, rfl⟩
      · exact start _ _
    · rename_i h; rw [vp, if_neg h]; exact ⟨rfl, rfl⟩

theorem takeSettings_only (s : State) (st : Settings) : OnlyIn [.zones, .places, .faces] s (s.takeSettings st) := by
  intro q hq; cases q <;> first | rfl | exact absurd (by decide) hq

theorem setLoader_only (s : State) (l : Loader) : OnlyIn [.loader] s { s with loader := l } := by
  intro q hq; cases q <;> first | rfl | exact absurd (by decide) hq

theorem apply_spec (s : State) (st : Settings) (h1 : st.params.map (fun x => x.1) = Param.all)
    (hv : ∀ x ∈ st.params, x.2.length = x.1.bytes ∧ x.1.accepts x.2 = true) :
    (s.applySettings st).settings = st ∧ (s.applySettings st).loader = ⟨.ready, s.loader.store⟩ ∧
    (∀ f, ((s.applySettings st).faces.get f).state = (s.applySettings st).effState f ∧
      (((s.applySettings st).faces.get f).state = .lit ∨ ((s.applySettings st).faces.get f).state = .woken →
          ((s.applySettings st).faces.get f).dirty = true) ∧
      ((s.panels.get f).out = .off → ((s.applySettings st).panels.get f).out = if ((s.applySettings st).faces.get f).state = .dark then .off else .starting)) ∧
    OnlyIn ([.params, .table, .zones, .places, .timers, .ambient, .lines, .ports, .loader] ++ faceParts) s (s.applySettings st) := by
  obtain ⟨a, ha⟩ : ∃ a, a = s.takeSettings st := ⟨_, rfl⟩
  obtain ⟨b, hb⟩ : ∃ b, b = a.writeParams st.params := ⟨_, rfl⟩
  obtain ⟨c, hc⟩ : ∃ c, c = b.wakeUpFace .a := ⟨_, rfl⟩
  obtain ⟨d, hd⟩ : ∃ d, d = c.wakeUpFace .b := ⟨_, rfl⟩
  have e : s.applySettings st = { d with loader := { d.loader with phase := .ready } } := by
    rw [hd, hc, hb, ha]; rfl
  have ao : OnlyIn [.zones, .places, .faces] s a := by rw [ha]; exact takeSettings_only s st
  have bo : OnlyIn paramParts a b := by rw [hb]; exact writeParams_only a _
  have co : OnlyIn faceParts b c := by rw [hc]; exact wakeUpFace_only b .a
  have dO : OnlyIn faceParts c d := by rw [hd]; exact wakeUpFace_only c .b
  have eo : OnlyIn [.loader] d (s.applySettings st) := by rw [e]; exact setLoader_only d _
  obtain ⟨ca, cb, cp, ck⟩ := wakeUp_spec b .a
  obtain ⟨da, db, dp, dk⟩ := wakeUp_spec c .b
  rw [← hc] at ca cb cp ck
  rw [← hd] at da db dp dk
  have aset : ∀ f, (a.faces.get f).settings = st.faces.get f := by intro f; rw [ha]; cases f <;> rfl
  have bf : b.faces = a.faces := bo.faces
  have dset : ∀ f, (d.faces.get f).settings = st.faces.get f := by
    intro f
    cases f with
    | a => rw [(db .a (by decide)).1, ca]; dsimp only; rw [bf, aset]
    | b => rw [da]; dsimp only; rw [(cb .b (by decide)).1, bf, aset]
  have dcd : ∀ f, (d.faces.get f).countdown = (b.faces.get f).countdown := by
    intro f
    cases f with
    | a => rw [(db .a (by decide)).1, ca]
    | b => rw [da]; dsimp only; rw [(cb .b (by decide)).1]
  have bset : ∀ f, (b.faces.get f).settings = st.faces.get f := by intro f; rw [bf, aset]
  have dl : d.lines = b.lines := by rw [dO.lines, co.lines]
  have deff : ∀ f, d.effState f = b.effState f := fun f => effState_congr dl (by rw [dset, bset]) (dcd f)
  have ceff : c.effState .b = b.effState .b := effState_congr co.lines (by rw [(cb .b (by decide)).1]) (by rw [(cb .b (by decide)).1])
  have dst : ∀ f, (d.faces.get f).state = b.effState f := by
    intro f
    cases f with
    | a => rw [(db .a (by decide)).1, ca]
    | b => rw [da]; dsimp only; rw [ceff]
  have ddirty : ∀ f, (d.faces.get f).dirty = ((b.faces.get f).dirty || b.effState f == .lit || b.effState f == .woken) := by
    intro f
    cases f with
    | a => rw [(db .a (by decide)).1, ca]
    | b => rw [da]; dsimp only; rw [ceff, (cb .b (by decide)).1]
  have dout : ∀ f, (d.panels.get f).out = (if b.effState f = .dark then (b.panels.get f).out else ((b.panels.get f).start b.params.startDelay).out) := by
    intro f
    cases f with
    | a => rw [(db .a (by decide)).2, cp]
    | b => rw [dp, ceff, (cb .b (by decide)).2, co.params]
  have bout : ∀ f, (b.panels.get f).out = (s.panels.get f).out := by intro f; rw [hb, writeParams_out, ao.panels]
  have fin_faces : (s.applySettings st).faces = d.faces := eo.faces
  have fin_panels : (s.applySettings st).panels = d.panels := eo.panels
  have fin_eff : ∀ f, (s.applySettings st).effState f = b.effState f :=
      fun f => by rw [← deff f]; exact effState_congr eo.lines (by rw [fin_faces]) (by rw [fin_faces])
  refine ⟨?_, ?_, fun f => ⟨?_, ?_, ?_⟩, ?_⟩
  · have rd : ∀ q, (s.applySettings st).readParam q = b.readParam q := by
      intro q
      have : (s.applySettings st).readParam q = d.readParam q := by rw [e]; rfl
      rw [this, readParam_faceWork dO dk, readParam_faceWork co ck]
    have pr : (Param.all.map fun q => (q, (s.applySettings st).readParam q)) = st.params := by
      rw [List.map_congr_left fun q _ => by rw [rd q]]
      rw [hb]; exact params_after a st.params h1 hv
    have hz : (s.applySettings st).zones = st.zones := by rw [eo.zones, dO.zones, co.zones, bo.zones, ha]; rfl
    have hp : (s.applySettings st).places = st.places := by rw [eo.places, dO.places, co.places, bo.places, ha]; rfl
    unfold State.settings
    rw [pr, hz, hp, fin_faces]
    have h3 : d.faces.a.settings = st.faces.get .a := dset .a
    have h4 : d.faces.b.settings = st.faces.get .b := dset .b
    rw [h3, h4]
    rfl
  · rw [e]; show Loader.mk .ready d.loader.store = _
    rw [dO.loader, co.loader, bo.loader, ao.loader]
  · rw [fin_faces, fin_eff, dst]
  · rw [fin_faces, dst, ddirty]
    rintro (h | h) <;> rw [h] <;> simp
  · intro ho
    rw [fin_panels, fin_faces, dout, dst, bout, ho]
    by_cases hk : b.effState f = .dark
    · rw [if_pos hk, if_pos hk]
    · rw [if_neg hk, if_neg hk]
      unfold Panel.start; rw [bout, ho]
  · exact ((((ao.mono (by decide)).trans (bo.mono (by decide))).trans (co.mono (by decide))).trans (dO.mono (by decide))).trans (eo.mono (by decide))

theorem defaults_params : ∀ x ∈ Settings.defaults.params, x.2.length = x.1.bytes ∧ x.1.accepts x.2 = true := by decide

theorem readImage_params {b : List Byte} {st : Settings} (hb : b.length = 10158) (h : readImage b = some st) :
    st.params.map (fun x => x.1) = Param.all ∧ ∀ x ∈ st.params, x.2.length = x.1.bytes ∧ x.1.accepts x.2 = true := by
  unfold readImage at h
  split at h
  · cases h
  split at h
  · cases h
  split at h
  · split at h
    · rename_i hc
      cases h
      simp only [Bool.and_eq_true, List.all_eq_true] at hc
      refine ⟨splitParams_fst _ _, fun x hx => ⟨?_, hc.1.2 x hx⟩⟩
      refine splitParams_length _ _ ?_ x hx
      have : (Param.all.map Param.bytes).sum = 154 := by decide
      rw [this]; unfold slice; rw [List.length_take, List.length_drop, hb]; omega
    · cases h
  · cases h

theorem readBlock_length (m : Memory) (b n : Nat) : (m.readBlock b n).length = n := by unfold Memory.readBlock; simp

theorem readBlock_zero (m : Memory) : (m.readBlock 0 10158).getD 0 0 = m.read 0 := by
  unfold Memory.readBlock; rw [List.getD_eq_getElem?_getD]; simp

theorem readImage_version {b : List Byte} {st : Settings} (h : readImage b = some st) : b.getD 0 0 = 0x01 := by
  unfold readImage at h
  split at h
  · cases h
  · rename_i hn; simpa using hn

/-! ## The silence limit and the stale action in force -/

/-- R182: once the silence limit and the stale action of a port have been written, they are in force. -/
theorem writeParams_inForce (o : Port) : ∀ (vs : List (Param × List Byte)) (s : State),
    let t := s.writeParams vs
    (.limit o ∈ vs.map (fun x => x.1) ∨ (s.ports.get o).limitInForce = (s.ports.get o).limit →
      (t.ports.get o).limitInForce = (t.ports.get o).limit) ∧
    (.stale o ∈ vs.map (fun x => x.1) ∨ (s.ports.get o).staleInForce = (s.ports.get o).stale →
      (t.ports.get o).staleInForce = (t.ports.get o).stale) ∧
    (t.ports.get o).count = (s.ports.get o).count ∧ (t.ports.get o).silent = (s.ports.get o).silent
  | [], s => ⟨fun h => h.resolve_left (by simp), fun h => h.resolve_left (by simp), rfl, rfl⟩
  | x :: rest, s => by
    obtain ⟨i1, i2, i3, i4⟩ := writeParams_inForce o rest (s.writeParam x.1 x.2)
    obtain ⟨w1, w2, w3, w4, w5, w6⟩ := writeParam_inForce s x.1 x.2 o
    show _ ∧ _ ∧ (((s.writeParam x.1 x.2).writeParams rest).ports.get o).count = _ ∧
      (((s.writeParam x.1 x.2).writeParams rest).ports.get o).silent = _
    refine ⟨fun h => i1 ?_, fun h => i2 ?_, i3.trans w5, i4.trans w6⟩
    · by_cases e : x.1 = .limit o
      · exact .inr (by rw [w1, if_pos e])
      · rw [w1, if_neg e, w3 e]
        rw [List.map_cons, List.mem_cons] at h
        exact h.imp_left fun k => k.resolve_left fun k => e k.symm
    · by_cases e : x.1 = .stale o
      · exact .inr (by rw [w2, if_pos e])
      · rw [w2, if_neg e, w4 e]
        rw [List.map_cons, List.mem_cons] at h
        exact h.imp_left fun k => k.resolve_left fun k => e k.symm

/-- R169, R182: at the end of LOADING the silence limit and the stale action reloaded are in force on every port; its
count and its flag are kept. -/
theorem applySettings_inForce (s : State) (st : Settings) (h : st.params.map (fun x => x.1) = Param.all) (p : Port) :
    let t := s.applySettings st
    (t.ports.get p).limitInForce = (t.ports.get p).limit ∧ (t.ports.get p).staleInForce = (t.ports.get p).stale ∧
      (t.ports.get p).count = (s.ports.get p).count ∧ (t.ports.get p).silent = (s.ports.get p).silent := by
  obtain ⟨b, hb⟩ : ∃ b, b = (s.takeSettings st).writeParams st.params := ⟨_, rfl⟩
  have k : OnlyIn faceParts b (b.eachFace fun f t => t.wakeUpFace f) := OnlyIn.eachFace fun f t => wakeUpFace_only t f
  have e : (s.applySettings st).ports = b.ports := by
    rw [← k.ports, hb]; rfl
  obtain ⟨h1, h2, h3, h4⟩ := writeParams_inForce p st.params (s.takeSettings st)
  rw [← hb] at h1 h2 h3 h4
  dsimp only
  rw [e]
  exact ⟨h1 (.inl (by rw [h]; cases p <;> decide)), h2 (.inl (by rw [h]; cases p <;> decide)), h3, h4⟩

/-- R169, R185: a restart keeps the silence limit and the stale action in force, and the parameters take their defaults. -/
theorem restart_inForce (s : State) (p q : Port) (frame : List Byte) :
    let port := (s.restart p frame).ports.get q
    port.limitInForce = (s.ports.get q).limitInForce ∧ port.staleInForce = (s.ports.get q).staleInForce ∧
      port.limit = 120 ∧ port.stale = .hold ∧ port.count = (s.ports.get q).count ∧ port.silent = (s.ports.get q).silent := by
  have : (s.restart p frame).ports.get q = ((s.ports.get q).cutBy p frame q).withDefaults := PerPort.get_mapWith ..
  dsimp only
  rw [this]
  unfold LinkPort.cutBy LinkPort.withDefaults LinkPort.setBaud LinkPort.toHunt
  generalize s.ports.get q = o
  obtain ⟨st, _, _, _, _, _, _, _, _, _, _, _, _⟩ := o
  by_cases h : q = p <;> cases st <;> simp [h]

end Sys2Proof.Machine
end

