-- ==== Sys2Proof/Laws/Keeps.lean ====
section
/-! SUPPORT. What notices, clock, zones and settings memory keep, and the fault of a load. -/

namespace Sys2Proof.Machine
-- one proof at a time: proofs elaborated at once would each take a thread of their own
set_option Elab.async false

theorem notices_congr {s t : State} (h : t.notices = s.notices) (k : NoticesSound s) : NoticesSound t := by
  obtain ⟨a, b, c, d⟩ := k
  exact ⟨by rw [h]; exact a, by rw [h]; exact b, by rw [h]; exact c, by rw [h]; exact d⟩

theorem parseNotice_fits {fields : List Byte} {q : NoticeRequest} (h : parseNotice fields = .ok q) : 1 ≤ q.text.length ∧
    q.text.length ≤ 160 := by
  unfold parseNotice at h
  split at h
  · split at h
    · cases h
    · rename_i tl text hl
      split at h
      · unfold inRange at h
        split at h
        · rename_i hc
          cases h
          simp only [Bool.and_eq_true, bne_iff_ne, decide_eq_true_eq] at hc
          simp at hl
          dsimp only
          omega
        · cases h
      · cases h
  · cases h

theorem mem_of_notice? {s : State} {id : Nat} {n : Notice} (h : s.notice? id = some n) : n ∈ s.notices ∧ n.id = id := by
  unfold State.notice? at h
  exact ⟨List.mem_of_find?_eq_some h, by simpa using List.find?_some h⟩

theorem notices_post (s : State) (q : NoticeRequest) (p : Port) (hq : 1 ≤ q.text.length ∧ q.text.length ≤ 160) (k : NoticesSound s) :
    NoticesSound (s.post q p).1 := by
  obtain ⟨ka, kb, kc, kd⟩ := k
  have new : ∀ c, (q.notice p c).remaining ≤ (q.notice p c).duration ∧
      ((q.notice p c).duration ≠ 0 → (q.notice p c).remaining ≠ 0) := fun c => ⟨Nat.le_refl _, id⟩
  unfold State.post
  cases hn : s.notice? q.id with
  | some old =>
    dsimp only
    obtain ⟨ho1, ho2⟩ := mem_of_notice? hn
    have e : (s.replaceNotice old (q.notice p old.posting)).notices = s.notices.map fun n => if n.id = old.id then q.notice p old.posting else n := (handOnPost_only _ _ _).notices
    have hid : (q.notice p old.posting).id = old.id := by rw [ho2]; rfl
    have mem : ∀ n ∈ (s.replaceNotice old (q.notice p old.posting)).notices, n = q.notice p old.posting ∨ n ∈ s.notices := by
      intro n hn
      rw [e] at hn
      obtain ⟨m, hm, rfl⟩ := List.mem_map.mp hn
      split
      · exact .inl rfl
      · exact .inr hm
    refine ⟨by rw [e, List.length_map]; exact ka, ?_, fun n hn => ?_, fun n hn => ?_⟩
    · rw [e, List.map_map]
      have : (s.notices.map ((fun n => n.id) ∘ fun n => if n.id = old.id then q.notice p old.posting else n)) = s.notices.map fun n => n.id := by
        apply List.map_congr_left; intro n _; dsimp only [Function.comp]; split
        · rename_i h; rw [hid, h]
        · rfl
      rw [this]; exact kb
    · rcases mem n hn with rfl | h
      · exact hq
      · exact kc n h
    · rcases mem n hn with rfl | h
      · exact new _
      · exact kd n h
  | none =>
    dsimp only
    have hnone : ∀ n ∈ s.notices, n.id ≠ q.id := by
      intro n hm
      unfold State.notice? at hn
      rw [List.find?_eq_none] at hn
      simpa using hn n hm
    have app : ∀ l : List Notice, l ⊆ s.notices → l.Sublist s.notices → l.length < 8 →
        ∀ t : State, t.notices = l ++ [q.notice p s.postCounter] → NoticesSound t := by
      intro l hs hsub hl t ht
      have mem : ∀ n ∈ t.notices, n ∈ s.notices ∨ n = q.notice p s.postCounter := by
        intro n hn; rw [ht, List.mem_append, List.mem_singleton] at hn
        rcases hn with h | h
        · exact .inl (hs h)
        · exact .inr h
      refine ⟨by rw [ht, List.length_append]; show l.length + 1 ≤ 8; omega, ?_, fun n hn => ?_, fun n hn => ?_⟩
      · rw [ht, List.map_append, List.nodup_append]
        refine ⟨kb.sublist (hsub.map _), by simp, ?_⟩
        intro a ha b hb
        obtain ⟨n, hn, rfl⟩ := List.mem_map.mp ha
        simp at hb
        subst hb
        exact hnone n (hs hn)
      · rcases mem n hn with h | rfl
        · exact kc n h
        · exact hq
      · rcases mem n hn with h | rfl
        · exact kd n h
        · exact new _
    by_cases hl : s.notices.length < Config.maxNotices
    · rw [if_pos hl]
      refine app s.notices (fun _ h => h) (List.Sublist.refl _) hl _ ?_
      show (State.handOnPost _ _ _).notices = _
      rw [(handOnPost_only _ _ _).notices]; rfl
    · rw [if_neg hl]
      split
      · rename_i gone _ hg
        have hgm : gone ∈ s.notices := List.mem_of_find?_eq_some hg
        have hsub : (s.notices.filter fun n => n.id != gone.id).Sublist s.notices := List.filter_sublist
        refine app (s.notices.filter fun n => n.id != gone.id) hsub.subset hsub ?_ _ ?_
        · have h1 : (s.notices.filter fun n => n.id != gone.id).length < s.notices.length := by
            refine lt_of_le_of_ne hsub.length_le fun he => ?_
            have := hsub.eq_of_length he
            have : gone ∈ s.notices.filter fun n => n.id != gone.id := by rw [this]; exact hgm
            simp at this
          have : s.notices.length ≤ 8 := ka
          omega
        · show (State.handOnPost _ _ _).notices = _
          rw [(handOnPost_only _ _ _).notices]; rfl
      · exact ⟨ka, kb, kc, kd⟩

theorem notices_count (s : State) (k : NoticesSound s) : NoticesSound s.countNotices := by
  obtain ⟨ka, kb, kc, kd⟩ := k
  have e : s.countNotices.notices = (s.notices.filter fun n => !n.expiring).map fun n => { n with remaining := n.remaining - 1 } := by
    unfold State.countNotices
    rw [(markTargets_only _ _).notices]
    have := OnlyIn.foldl (ps := [.events]) (fun (t : State) (n : Notice) => t.signal n.origin .noticeExpired) (fun t n => signal_only t n.origin .noticeExpired)
      (s.notices.filter Notice.expiring) { s with notices := (s.notices.filter fun n => !n.expiring).map fun n => { n with remaining := n.remaining - 1 } }
    rw [this.notices]
  have hsub : (s.notices.filter fun n => !n.expiring).Sublist s.notices := List.filter_sublist
  refine ⟨?_, ?_, fun n hn => ?_, fun n hn => ?_⟩
  · rw [e, List.length_map]; exact le_trans hsub.length_le ka
  · rw [e, List.map_map]; exact kb.sublist (hsub.map _)
  · rw [e] at hn; obtain ⟨m, hm, rfl⟩ := List.mem_map.mp hn
    exact kc m (hsub.subset hm)
  · rw [e] at hn; obtain ⟨m, hm, rfl⟩ := List.mem_map.mp hn
    have h1 := kd m (hsub.subset hm)
    have h2 := (List.mem_filter.mp hm).2
    unfold Notice.expiring at h2
    simp at h2
    dsimp only
    omega

theorem notices_reset (s : State) (h : s.notices = []) : NoticesSound s :=
  ⟨by rw [h]; simp, by rw [h]; simp, by rw [h]; simp, by rw [h]; simp⟩

theorem clock_congr {s t : State} (h : t.clock = s.clock) (k : ClockSound s) : ClockSound t := by
  obtain ⟨a, b, c, d, e⟩ := k
  exact ⟨by rw [h]; exact a, by rw [h]; exact b, by rw [h]; exact c, by rw [h]; exact d, by rw [h]; exact e⟩

theorem minuteEvent_clock (s : State) (v : Bool) : (s.minuteEvent v).clock = { s.clock with prevMinute := some s.clock.minute } := by
  have h1 : OnlyIn tableParts s (((s.closeIfDue v).expireIfValid).wakePart.markBoth) := by
    have a1 : OnlyIn tableParts s (s.closeIfDue v) := by
      unfold State.closeIfDue State.dayClose
      exact OnlyIn.ite ((takeOutAll_only _ _).mono (by decide)) (OnlyIn.refl _ _)
    have a2 : OnlyIn tableParts (s.closeIfDue v) ((s.closeIfDue v).expireIfValid) := by
      unfold State.expireIfValid State.expiry
      exact OnlyIn.ite ((takeOutAll_only _ _).mono (by decide)) (OnlyIn.refl _ _)
    exact ((a1.trans a2).trans ((wakePart_only _).mono (by decide))).trans ((markBoth_only _).mono (by decide))
  have h2 : (s.minuteEvent v).clock = { ((s.closeIfDue v).expireIfValid).wakePart.markBoth.clock with prevMinute := some ((s.closeIfDue v).expireIfValid).wakePart.markBoth.clock.minute } := rfl
  rw [h2, h1.clock]

theorem clock_note {s t : State} (m : Option Nat) (h : t.clock = { s.clock with prevMinute := m }) (k : ClockSound s) : ClockSound t := by
  obtain ⟨a, b, c, d, e⟩ := k
  exact ⟨by rw [h]; exact a, by rw [h]; exact b, by rw [h]; exact c, by rw [h]; exact d, by rw [h]; exact e⟩

theorem clock_minute (s : State) (v : Bool) (k : ClockSound s) : ClockSound (s.minuteEvent v) := clock_note _ (minuteEvent_clock s v) k

theorem parseClock_range {fields : List Byte} {q : Nat × Nat × Nat} (h : parseClock fields = .ok q) : q.1 < 24 ∧ q.2.1 < 60 ∧
    q.2.2 < 60 := by
  unfold parseClock at h
  split at h
  · unfold inRange at h
    split at h
    · rename_i hc
      cases h
      simp only [Bool.and_eq_true, decide_eq_true_eq] at hc
      dsimp only; omega
    · cases h
  · cases h

theorem advance_sound {c : Clock} (h1 : c.hh < 24) (h2 : c.mm < 60) (h3 : c.ss < 60) : c.advance.hh < 24 ∧ c.advance.mm < 60 ∧
    c.advance.ss < 60 ∧
    c.advance.deadline = c.deadline ∧ c.advance.source = c.source ∧ c.advance.osc = c.osc := by
  unfold Clock.advance
  split
  · exact ⟨h1, h2, by dsimp only; omega, rfl, rfl, rfl⟩
  split
  · exact ⟨h1, by dsimp only; omega, by dsimp only; omega, rfl, rfl, rfl⟩
  split
  · exact ⟨by dsimp only; omega, by dsimp only; omega, by dsimp only; omega, rfl, rfl, rfl⟩
  · exact ⟨by dsimp only; omega, by dsimp only; omega, by dsimp only; omega, rfl, rfl, rfl⟩

theorem readImage_zones {b : List Byte} {st : Settings} (h : readImage b = some st) : st.zones = Vector.ofFn fun i : Fin 8 => ((imageZones b).getD i none).getD Zone.defaults[i] := by
  unfold readImage at h
  split at h
  · cases h
  split at h
  · cases h
  split at h
  · split at h
    · cases h; rfl
    · cases h
  · cases h

theorem applySettings_zones (s : State) (st : Settings) : (s.applySettings st).zones = st.zones := by
  unfold State.applySettings
  show (State.eachFace _ _).zones = _
  rw [(OnlyIn.eachFace fun f t => wakeUpFace_only t f).zones, (writeParams_only _ _).zones]; rfl

theorem applied_zones (ack : Bool) (m : Memory) : lockoutPasses (loadOutcome ack m).applied.zones = true := by
  have d : lockoutPasses Zone.defaults = true := by decide
  unfold loadOutcome
  split
  · exact d
  split
  · exact d
  split
  · exact d
  · split
    · rename_i h; exact h
    · exact d

theorem readParam_length (s : State) (q : Param) : (s.readParam q).length = q.bytes := by
  cases q <;> try rfl
  case curve =>
    show (s.ambient.curve.toList.flatMap _).length = _
    rw [blocks_length _ 3 (fun x => rfl)]; simp; rfl

theorem image_length (s : State) (h : ∀ n e, s.place? n = some e → e.fits = true) : s.image.length = 10158 := by
  have zl : ∀ z : Zone, z.bytes.length = 5 := fun z => rfl
  have zones_len : (s.zones.toList.flatMap Zone.bytes).length = 40 := by rw [blocks_length _ 5 zl]; simp
  have params_len : (Param.all.flatMap s.readParam).length = 154 := by
    rw [flatMap_length_sum, List.map_congr_left fun q _ => readParam_length s q]; exact bytes_total
  have pl : ∀ e ∈ s.places.toList, (placeBlock e).length = 39 := by
    intro e he
    refine placeBlock_length e fun x hx => ?_
    obtain ⟨i, hi, rfl⟩ := Vector.mem_iff_getElem.mp (Vector.mem_toList_iff.mp he)
    exact h (i + 1) x (by rw [← place_get s i hi]; exact hx)
  have places_len : (s.places.toList.flatMap placeBlock).length = 9945 := by
    rw [flatMap_length_sum, List.map_congr_left (g := fun _ => 39) pl, List.map_const', List.sum_replicate, Vector.length_toList]; rfl
  unfold State.image State.imageBody
  have fl : ∀ c : FaceSettings, c.bytes.length = 8 := fun c => rfl
  have cl : ∀ b, (crcBytes b).length = 2 := fun b => rfl
  simp only [List.length_append, List.length_cons, zones_len, params_len, places_len, fl, cl]

theorem memory_congr {s t : State} (h1 : t.mem = s.mem) (h2 : t.places = s.places) (h3 : t.loader = s.loader) (k : MemorySound s) :
    MemorySound t := by
  refine ⟨by rw [h1]; exact k.canonical, fun n e h => k.names n e ?_, fun j h => k.job j (by rw [← h3]; exact h)⟩
  rw [← h]; unfold State.place?; simp only [h2]

theorem spoilLast_length (b : List Byte) (h : b ≠ []) : (spoilLast b).length = b.length := by
  unfold spoilLast; rw [List.length_append, List.length_dropLast]
  have := List.length_pos_iff.mpr h
  simp; omega

theorem mixedImage_length (d : Nat) : (mixedImage d).length = 10158 := by
  unfold mixedImage
  have := freeImage_length d
  split
  · rw [spoilLast_length _ (by intro e; rw [e] at this; cases this), this]
  · exact this

theorem abandonedMemory_wf (s : State) (k : MemorySound s) : s.abandonedMemory.wf = true := by
  unfold State.abandonedMemory
  split
  · rename_i job h1 h2
    split
    · exact k.canonical
    · refine wf_writeBlock k.canonical 0 _ ?_
      rw [k.job _ h2]; decide
    · refine wf_writeBlock k.canonical 0 _ ?_
      rw [mixedImage_length]; decide
  · exact k.canonical

theorem reset_place?_none (n : Nat) (e : Place) : State.reset.place? n ≠ some e := by
  intro h
  unfold State.place? at h
  split at h
  · rw [show State.reset.places = Vector.replicate 255 none from rfl, Vector.getElem_replicate] at h
    cases h
  · cases h

theorem readPlaceBlock_fits {b : List Byte} {x : Option Place} {e : Place} (hb : b.length = 39) (h : readPlaceBlock b = some x) (he : x = some e) :
    e.name ≠ [] ∧ e.short ≠ some [] ∧ e.fits = true := by
  subst he
  unfold readPlaceBlock at h
  dsimp only at h
  split at h
  · split at h <;> cases h
  · split at h
    · rename_i hc
      cases h
      have l1 : (slice b 2 (b.getD 1 0).toNat).length = (b.getD 1 0).toNat := by
        unfold slice; rw [List.length_take, List.length_drop, hb]; omega
      have l2 : (slice b 27 (b.getD 26 0).toNat).length ≤ 12 := by
        unfold slice; rw [List.length_take]; omega
      refine ⟨?_, ?_, ?_⟩
      · intro e; dsimp only at e; have := congrArg List.length e; rw [l1, List.length_nil] at this; omega
      · unfold shortName; split <;> simp_all
      · unfold Place.fits
        simp only [Bool.and_eq_true, decide_eq_true_eq, l1]
        refine ⟨hc.2.1, ?_⟩
        unfold shortName; split
        · simp
        · simpa using l2
    · cases h
  · cases h

theorem readImage_places {b : List Byte} {st : Settings} (hb : b.length = 10158) (h : readImage b = some st) (i : Nat) (hi : i < 255) (e : Place)
    (he : st.places[i] = some e) : e.name ≠ [] ∧ e.short ≠ some [] ∧ e.fits = true := by
  unfold readImage at h
  split at h
  · cases h
  split at h
  · cases h
  split at h
  · split at h
    · rename_i hc
      cases h
      simp only [Bool.and_eq_true, List.all_eq_true] at hc
      rw [Vector.getElem_ofFn] at he
      dsimp only at he
      have hl : (imagePlaces b).length = 255 := by unfold imagePlaces; simp
      have hx : (imagePlaces b)[i]'(by omega) = readPlaceBlock (slice b (211 + 39 * i) 39) := by
        unfold imagePlaces; simp
      have hm := hc.2 _ (List.getElem_mem (by omega : i < (imagePlaces b).length))
      rw [List.getD_eq_getElem?_getD, List.getElem?_eq_getElem (by omega)] at he
      simp only [Option.getD_some] at he
      rw [hx] at hm he
      obtain ⟨x, hx2⟩ := Option.isSome_iff_exists.mp hm
      rw [hx2] at he
      simp only [Option.getD_some] at he
      refine readPlaceBlock_fits ?_ hx2 he
      unfold slice; rw [List.length_take, List.length_drop, hb]; omega
    · cases h
  · cases h

theorem applied_spec (ack : Bool) (m : Memory) : (loadOutcome ack m).applied = Settings.defaults ∨
    (∃ st, readImage (m.readBlock 0 Config.imageSize) = some st ∧
      ((loadOutcome ack m).applied = st ∨ (loadOutcome ack m).applied = { st with zones := Zone.defaults })) := by
  unfold loadOutcome
  split
  · exact .inl rfl
  split
  · exact .inl rfl
  split
  · exact .inl rfl
  · rename_i st h
    refine .inr ⟨st, h, ?_⟩
    split
    · exact .inl rfl
    · exact .inr rfl

theorem applied_params (ack : Bool) (m : Memory) : (loadOutcome ack m).applied.params.map (fun x => x.1) = Param.all ∧
    ∀ x ∈ (loadOutcome ack m).applied.params, x.2.length = x.1.bytes ∧ x.1.accepts x.2 = true := by
  rcases applied_spec ack m with h | ⟨st, h, k | k⟩
  · rw [h]; exact ⟨by unfold Settings.defaults State.settings; simp [Function.comp_def], defaults_params⟩
  · rw [k]; exact readImage_params (readBlock_length _ _ _) h
  · have := readImage_params (readBlock_length _ _ _) h
    rw [k]; exact this

theorem applied_places (ack : Bool) (m : Memory) (i : Nat) (hi : i < 255) (e : Place) (he : (loadOutcome ack m).applied.places[i] = some e) :
    e.name ≠ [] ∧ e.short ≠ some [] ∧ e.fits = true := by
  rcases applied_spec ack m with h | ⟨st, h, k | k⟩
  · rw [h] at he
    exact absurd (show State.reset.place? (i + 1) = some e by rw [← place_get State.reset i hi]; exact he) (reset_place?_none _ _)
  · rw [k] at he; exact readImage_places (readBlock_length _ _ _) h i hi e he
  · rw [k] at he; exact readImage_places (readBlock_length _ _ _) h i hi e he

theorem parsePlace_fits {fields : List Byte} {q : PlaceRequest} (h : parsePlace fields = .ok q) :
    1 ≤ q.number ∧ q.number ≤ 255 ∧ q.place.name ≠ [] ∧ q.place.short ≠ some [] ∧ q.place.fits = true := by
  unfold parsePlace at h
  split at h
  · rename_i number nl rest
    split at h
    · rename_i sl short hd
      split at h
      · cases h
      · rename_i hl
        unfold inRange at h
        split at h
        · rename_i hc
          cases h
          simp only [Bool.and_eq_true, bne_iff_ne, ne_eq, decide_eq_true_eq] at hc
          have hlen : rest.length = nl.toNat + (sl :: short).length := by
            have := congrArg List.length hd
            rw [List.length_drop] at this
            simp only [List.length_cons] at this ⊢; omega
          have hl2 : short.length = sl.toNat := by simpa using hl
          have nameLen : (rest.take nl.toNat).length = nl.toNat := by
            rw [List.length_take]; simp only [List.length_cons] at hlen; omega
          have := number.isLt
          refine ⟨by dsimp only; omega, by dsimp only; omega, ?_, ?_, ?_⟩
          · intro e; dsimp only at e; rw [e] at nameLen; simp at nameLen; omega
          · unfold shortName; split <;> simp_all
          · unfold Place.fits
            simp only [Bool.and_eq_true, decide_eq_true_eq, nameLen]
            refine ⟨hc.1.2, ?_⟩
            unfold shortName; split
            · simp
            · simp; omega
        · cases h
    · cases h
  · cases h

theorem parseNonZero_range {fields : List Byte} {n : Nat} (h : parseNonZero fields = .ok n) : 1 ≤ n ∧ n ≤ 255 := by
  unfold parseNonZero parseByte at h
  split at h
  · rename_i b
    have := b.isLt
    simp only [bind, Except.bind, inRange] at h
    split at h
    · rename_i hc; cases h; simp at hc; constructor <;> omega
    · cases h
  · cases h

/-- R182: the fault of a load, by what the memory gave. -/
theorem loadOutcome_fault (ack : Bool) (m : Memory) : let held := readImage (m.readBlock 0 10158)
    (ack = false → (loadOutcome ack m).fault = some .settingsAbsent) ∧
    (ack = true → held = none → (loadOutcome ack m).fault = some .settingsInvalid) ∧
    (∀ st, ack = true → held = some st → lockoutPasses st.zones = false → (loadOutcome ack m).fault = some .zonesDefaulted) := by
  intro held
  have hh : readImage (m.readBlock 0 Config.imageSize) = held := rfl
  unfold loadOutcome
  rw [hh]
  refine ⟨fun h => by rw [h]; rfl, fun h k => ?_, fun st h k l => ?_⟩
  · rw [h, k]; simp only [Bool.not_true, Bool.false_eq_true, if_false]; split <;> rfl
  · have hv := readImage_version (b := m.readBlock 0 10158) k
    rw [readBlock_zero] at hv
    rw [h, k, hv]; dsimp only; rw [if_neg (by decide), if_neg (by decide), l]; rfl

end Sys2Proof.Machine
end

