-- ==== Sys2Proof/Laws/ParamRows.lean ====
section
/-! SUPPORT. The parameter table: each parameter's number, length, range, default and value held are those of its row as Safety writes it; and what writes of an input line, of RO and of every other parameter do at the faces. -/

namespace Sys2Proof.Machine
-- one proof at a time: proofs elaborated at once would each take a thread of their own
set_option Elab.async false

theorem number_row (q : Param) : q.number = q.row.number := by
  cases q
  case cap f => cases f <;> rfl
  case baud p => cases p <;> rfl
  case limit p => cases p <;> rfl
  case stale p => cases p <;> rfl
  case trim f m => cases f <;> rfl
  all_goals rfl

theorem bytes_row (q : Param) : q.bytes = q.row.bytes := by cases q <;> rfl

/-- R152, R183: a value of the curve's length holds eight points. -/
theorem readPoints_flatMap : ∀ points : List (Nat × Nat), (∀ p ∈ points, p.1 ≤ 1023 ∧ p.2 ≤ 255) →
    readPoints (points.flatMap fun p => be16 p.1 ++ [byte p.2]) = points.map fun p => ⟨p.1, p.2⟩
  | [], _ => rfl
  | p :: rest, h => by
    have ih := readPoints_flatMap rest fun q hq => h q (List.mem_cons_of_mem _ hq)
    obtain ⟨h1, h2⟩ := h p (List.mem_cons_self)
    have e : (p :: rest).flatMap (fun p => be16 p.1 ++ [byte p.2])
      = byte (p.1 / 256) :: byte p.1 :: byte p.2 :: rest.flatMap (fun p => be16 p.1 ++ [byte p.2]) := rfl
    rw [e, readPoints, ih, List.map_cons]
    congr 2
    · unfold nat16; rw [byte_toNat (by omega)]; unfold byte; rw [BitVec.toNat_ofNat]; omega
    · exact byte_toNat (by omega)

/-- R152: the curves taken. -/
theorem curve_row {value : List Byte} (hl : value.length = 24) : curveFits (readPoints value) = true ↔ curveTaken value := by
  unfold curveFits curveTaken
  rw [Bool.and_eq_true, List.all_eq_true, decide_eq_true_eq]
  constructor
  · rintro ⟨h1, h2⟩
    obtain ⟨k1, k2⟩ := readPoints_bytes 8 value hl
    refine ⟨(readPoints value).map fun x => (x.amb, x.duty), by rw [List.length_map, k1], ?_, ?_, ?_⟩
    · rw [List.flatMap_map]; exact k2.symm
    · intro p hp
      obtain ⟨x, hx, rfl⟩ := List.mem_map.mp hp
      have := h1 x hx
      simpa using this
    · rw [List.isChain_map]; exact h2
  · rintro ⟨points, k1, rfl, k2, k3⟩
    rw [readPoints_flatMap points k2]
    refine ⟨fun x hx => ?_, ?_⟩
    · obtain ⟨p, hp, rfl⟩ := List.mem_map.mp hx
      simpa using k2 p hp
    · rw [List.isChain_map]; exact k3

/-- R155: the input line settings taken. -/
theorem line_row {value : List Byte} (hl : value.length = 4) : (readLine value).isSome = true ↔ lineTaken value := by
  match value, hl with
  | [a, b, c, d], _ =>
    have hf : ∀ n, readFunction n = if n = 0 then some .none else if n = 1 then some .approach else if n = 2 then some .blank
        else if n = 3 then some .wake else if n = 4 then some .lampTest else none := by
      intro n; unfold readFunction; split <;> simp_all
    have hs : ∀ n, (readFaceSel n).isSome = true ↔ 1 ≤ n ∧ n ≤ 3 := by
      intro n; unfold readFaceSel; split <;> simp_all; omega
    have ht : lineTaken [a, b, c, d] ↔ a.toNat ≤ 4 ∧ (1 ≤ b.toNat ∧ b.toNat ≤ 3) ∧ c.toNat ≤ 2 ∧
        (a.toNat = 2 ∨ a.toNat = 4 → c.toNat ≤ 1) := by
      have e2 : a = 2 ↔ a.toNat = 2 := ⟨fun h => by rw [h]; rfl, fun h => BitVec.eq_of_toNat_eq h⟩
      have e4 : a = 4 ↔ a.toNat = 4 := ⟨fun h => by rw [h]; rfl, fun h => BitVec.eq_of_toNat_eq h⟩
      rw [← e2, ← e4]
      constructor
      · rintro ⟨_, _, _, _, h, h1, h2, h3, h4, h5⟩
        cases h
        exact ⟨h1, ⟨h2, h3⟩, h4, h5⟩
      · rintro ⟨h1, ⟨h2, h3⟩, h4, h5⟩
        exact ⟨a, b, c, d, rfl, h1, h2, h3, h4, h5⟩
    rw [ht, ← hs]
    unfold readLine
    dsimp only
    rw [hf]
    cases readFaceSel b.toNat with
    | none => split <;> simp_all
    | some sel =>
      generalize a.toNat = n
      generalize c.toNat = m
      by_cases h0 : n = 0
      · subst h0; simp; omega
      by_cases h1 : n = 1
      · subst h1; simp; omega
      by_cases h2 : n = 2
      · subst h2; simp; omega
      by_cases h3 : n = 3
      · subst h3; simp; omega
      by_cases h4 : n = 4
      · subst h4; simp; omega
      rw [if_neg h0, if_neg h1, if_neg h2, if_neg h3, if_neg h4]
      simp; omega

/-- R183: a value of its length is accepted exactly where its row takes it. -/
theorem accepts_row (q : Param) (value : List Byte) (hl : value.length = q.row.bytes) : q.accepts value = true ↔ q.row.takes value := by
  have hb : ∀ n, (readBaud n).isSome = true ↔ n ≤ 3 := by intro n; unfold readBaud; split <;> simp_all; omega
  have hs : ∀ n, (readStale n).isSome = true ↔ n ≤ 1 := by intro n; unfold readStale; split <;> simp_all; omega
  have hu : ∀ n, (readUnit n).isSome = true ↔ n ≤ 1 := by intro n; unfold readUnit; split <;> simp_all; omega
  have hm : ∀ n, (readMode n).isSome = true ↔ n ≤ 1 := by intro n; unfold readMode; split <;> simp_all; omega
  have one : ∀ {v : List Byte}, v.length = 1 → beValue v = wireNumber v := by
    intro v h; obtain ⟨a, rfl⟩ := length_one h; exact beValue_one a
  have two : ∀ {v : List Byte}, v.length = 2 → beValue v = wireNumber v := by
    intro v h; obtain ⟨a, b, rfl⟩ := length_two h; exact beValue_two a b
  cases q
  case curve => exact curve_row hl
  case line l => exact line_row hl
  all_goals
    first | (have e := one hl) | (have e := two hl)
    simp only [Param.accepts, Param.row, e, hb, hs, hu, hm, decide_eq_true_eq, Bool.and_eq_true, Bool.or_eq_true, beq_iff_eq]
  all_goals omega

/-! ## A write of an input line (R157) -/

/-- R157, R159: after a write of an input line, the effects at each face, and the state of R97 where its holding changed. -/
theorem writeLine_effects (s : State) (p : Port) (l : Fin 4) (value : List Byte) (kind tag : Byte) (r : Reply) (f : Face) :
    let a := s.acceptFrame p
    let t := ((a.writeParam (.line l) value).paramEffects a (.line l)).sendReply p kind tag r
    StateEffects s t f ∧ LayoutLeft s t f ∧ (t.faces.get f).countdown = (s.faces.get f).countdown ∧
      DirtyByState s t f (s.ports.get p).silent ∧
      ((s.heldLamp ↔ ¬ t.heldLamp) ∨ (s.heldBlank f ↔ ¬ t.heldBlank f) → (t.faces.get f).state = t.effState f) := by
  dsimp only
  set a := s.acceptFrame p with ha
  set w := a.writeParam (.line l) value with hw
  have hwo : OnlyIn [.lines] a w := by
    rw [hw]; unfold State.writeParam; dsimp only
    split
    · exact modLine_only _ _ _
    · exact OnlyIn.refl _ _
  have hso : OnlyIn [.ports, .faces, .lines] s w := ((acceptFrame_only s p).mono (by decide)).trans (hwo.mono (by decide))
  have haf := acceptFrame_face s p f
  rw [← ha, ← hwo.faces] at haf
  have hb : SameBefore s w f := SameBefore.of_faces hso (by decide) (by rw [haf]) (by
    rw [haf]; intro h; dsimp only; rw [h, Bool.true_or])
  set e := w.paramEffects a (.line l) with he
  have hee : e = w.eachFace fun f u => if a.holdingDiffers w f then u.settle f else u := rfl
  obtain ⟨k1, k2, k3, k4, k5⟩ := settleSel_spec w (fun f => a.holdingDiffers w f) f
  rw [← hee] at k1 k2 k3 k4 k5
  have heo : OnlyIn faceParts w e := paramEffects_only w a _
  set t := e.sendReply p kind tag r with ht
  have hto : OnlyIn [.ports] e t := sendReply_only _ _ _ _ _
  have hta : SameAfter e t f := SameAfter.of_eq hto.faces hto.panels hto.painter f
  have hlines : t.lines = w.lines := by rw [hto.lines, heo.lines]
  have hwf : { w.faces.get f with countdown := (s.faces.get f).countdown, dirty := (s.faces.get f).dirty } = s.faces.get f := by
    rw [haf]
  have htf : t.faces.get f = if a.holdingDiffers w f then (w.settle f).faces.get f else w.faces.get f := by
    rw [hto.faces]
    cases hd : a.holdingDiffers w f with
    | true => exact (k4 hd).2.2.2
    | false => exact k5 hd
  refine ⟨?_, ?_, ?_, ?_, fun h => ?_⟩
  · cases hd : a.holdingDiffers w f with
    | true => exact (k4 hd).2.1.congr hb hta
    | false =>
      have h2 := (settleSel_unselected w (fun f => a.holdingDiffers w f) hd).2
      rw [← hee] at h2
      exact (StateEffects.refl w f).congr hb (h2.trans hta)
  · refine LayoutLeft.congr (t := t) ?_ hwf rfl
    split at htf
    · exact (settle_layout w f).congr rfl (by rw [htf])
    · exact LayoutLeft.of_eq htf
  · rw [hto.faces, k2, haf]
  · have hm : DirtyByState w t f false := by
      split at htf
      · exact (settle_marks w f).congr ⟨rfl, rfl⟩ htf
      · exact DirtyByState.of_eq htf
    unfold DirtyByState at hm ⊢
    dsimp only at hm ⊢
    rw [hm, haf, Bool.or_false]
  · have hd : a.holdingDiffers w f = true := by
      have hal : a.lines = s.lines := (acceptFrame_only s p).lines
      have e1 : s.heldLamp ↔ a.lampTestHeld = true := by rw [lampTestHeld_iff]; unfold State.heldLamp State.lineHolds; rw [hal]
      have e2 : s.heldBlank f ↔ a.blankHeld f = true := by rw [blankHeld_iff]; unfold State.heldBlank State.lineHolds; rw [hal]
      have e3 : t.heldLamp ↔ w.lampTestHeld = true := by rw [lampTestHeld_iff]; unfold State.heldLamp State.lineHolds; rw [hlines]
      have e4 : t.heldBlank f ↔ w.blankHeld f = true := by rw [blankHeld_iff]; unfold State.heldBlank State.lineHolds; rw [hlines]
      rw [e1, e2, e3, e4] at h
      unfold State.holdingDiffers
      cases h1 : a.lampTestHeld <;> cases h2 : w.lampTestHeld <;> cases h3 : a.blankHeld f <;> cases h4 : w.blankHeld f <;> simp_all
    rw [hto.faces, (k4 hd).1, ← k3]
    exact (effState_congr hto.lines (by rw [hto.faces]) (by rw [hto.faces])).symm

/-- R6, R23, R99: after a write of RO, the wake check of each face. -/
theorem writeRo_wakes (s : State) (p : Port) (value : List Byte) (kind tag : Byte) (r : Reply) (f : Face) :
    let a := s.acceptFrame p
    let t := ((a.writeParam .ro value).paramEffects a .ro).sendReply p kind tag r
    Wakens s t f (t.departureWakes f) (s.faces.get f).countdown := by
  dsimp only
  set a := s.acceptFrame p with ha
  set w := a.writeParam .ro value with hw
  have haf := acceptFrame_face s p f
  rw [← ha] at haf
  have hb : SameBefore s w f := by
    obtain ⟨b1, b2, b3, b4, b5, bl, bs, b6, b7, b8, b9, b10, b11, b12, bb⟩ : SameBefore s a f :=
      SameBefore.of_faces (acceptFrame_only s p) (by decide) (by rw [haf]) (by
        rw [haf]; intro h; dsimp only; rw [h, Bool.true_or])
    exact ⟨b1, b2, b3, b4, b5, bl, bs, b6, b7, b8, b9, b10, b11, b12, bb⟩
  set m := w.touchEvery with hm
  set t := m.markBoth.sendReply p kind tag r with ht
  have hm' : OnlyIn [.faces] m m.markBoth := OnlyIn.eachFace fun f u => markDirty_only u f
  have hto : OnlyIn [.ports] m.markBoth t := sendReply_only _ _ _ _ _
  have hface : t.faces.get f = { m.faces.get f with dirty := true } := by
    rw [hto.faces]; cases f <;> rfl
  have hbound : m.bound f (w.faces.a.settings.platforms ++ w.faces.b.settings.platforms) = true := by
    have hs : (m.faces.get f).settings = (w.faces.get f).settings := touch_settings w _ f
    unfold State.bound
    rw [hs, List.any_eq_true]
    have hp : (w.faces.get f).settings.primary ∈ (w.faces.get f).settings.platforms := by
      unfold FaceSettings.platforms; split <;> simp
    refine ⟨(w.faces.get f).settings.primary, ?_, by simpa using hp⟩
    cases f
    · exact List.mem_append_left _ hp
    · exact List.mem_append_right _ hp
  have hk := ((touch_wakes w (w.faces.a.settings.platforms ++ w.faces.b.settings.platforms) f).1 hbound).2
  have hdw : t.departureWakes f ↔ m.departureWakes f := by
    refine departureWakes_congr (by rw [hto.clock, hm'.clock]) (by rw [hto.params, hm'.params]) (by rw [hface])
      (view_congr (by rw [hto.table, hm'.table]) (by rw [hface]) fun q => ?_)
    have := sendReply_silent m.markBoth p kind tag r q
    rw [hm'.ports] at this
    exact this
  have hwf : (w.faces.get f).countdown = (s.faces.get f).countdown := by
    rw [show w.faces = a.faces from rfl, haf]
  rw [hwf] at hk
  have hsa : SameAfter m t f := by
    refine ⟨by rw [hface], fun _ => by rw [hface], by rw [hto.panels, hm'.panels], fun j _ => ?_,
      BackLeft.of_eq (hto.panels.trans hm'.panels) (hto.painter.trans hm'.painter) f⟩
    unfold State.paints; rw [hto.painter, hm'.painter]; exact id
  have hl : t.lines = m.lines := by rw [hto.lines, hm'.lines]
  have ht' : Wakens s t f (t.departureWakes f) (s.faces.get f).countdown :=
    (Wakens.after (t := m) hk hdw hsa hl).before hb (by rw [show w.faces = a.faces from rfl, haf]) (by
      rw [show w.params.wakeHold = a.params.wakeHold from rfl, (acceptFrame_only s p).params])
  exact ht'

/-- R183: a parameter is read as its owner holds it. -/
theorem readParam_held (s : State) (q : Param) : s.readParam q = q.row.held s := by
  cases q with
  | unit t => show [byte s.timers[t].unit.code] = [if s.timers[t].unit = .ms1 then 0 else 1]; cases s.timers[t].unit <;> rfl
  | mode t => show [byte s.timers[t].mode.code] = [if s.timers[t].mode = .auto then 0 else 1]; cases s.timers[t].mode <;> rfl
  | baud p =>
    show [byte (s.ports.get p).baud.code] = [if (s.ports.get p).baud = .b9600 then 0 else if (s.ports.get p).baud = .b19200 then 1 else if (s.ports.get p).baud = .b38400 then 2 else 3]
    cases (s.ports.get p).baud <;> rfl
  | stale p => show [byte (s.ports.get p).stale.code] = [if (s.ports.get p).stale = .hold then 0 else 1]; cases (s.ports.get p).stale <;> rfl
  | line l =>
    show [byte s.lines[l].function.code, byte s.lines[l].face.code, byte s.lines[l].sense, byte s.lines[l].debounce] =
      [if s.lines[l].function = .approach then 1 else if s.lines[l].function = .blank then 2
        else if s.lines[l].function = .wake then 3 else if s.lines[l].function = .lampTest then 4 else 0,
       if s.lines[l].face = .a then 1 else if s.lines[l].face = .b then 2 else 3,
       byte s.lines[l].sense, byte s.lines[l].debounce]
    cases s.lines[l].function <;> cases s.lines[l].face <;> rfl
  | _ => rfl

/-- R183: the defaults. -/
theorem reset_defaults (q : Param) : State.reset.readParam q = q.row.default := by
  cases q with
  | reload t => revert t; decide
  | unit t => revert t; decide
  | mode t => revert t; decide
  | baud p => cases p <;> rfl
  | limit p => cases p <;> rfl
  | stale p => cases p <;> rfl
  | cap f => cases f <;> rfl
  | line l => revert l; decide
  | trim f m => cases f <;> revert m <;> decide
  | _ => decide

/-! ## A write of any other parameter (R114, R152, R153) -/

/-- R153: the duties of a face are those worked out from what the state holds. -/
def DutiesAnew (s : State) (f : Face) : Prop :=
  (s.panels.get f).faceDuty = s.faceDutyOf f ∧
    (s.panels.get f).duties = (s.panels.get f).trims.map (moduleDuty (s.faceDutyOf f))

theorem recompute_anew (s : State) (f : Face) : DutiesAnew (s.recomputeDuties f) f := by
  have h : (s.recomputeDuties f).faceDutyOf f = s.faceDutyOf f := by
    unfold State.faceDutyOf; rw [recompute_panels, if_pos rfl]; rfl
  unfold DutiesAnew
  rw [h, recompute_panels, if_pos rfl]
  exact ⟨rfl, rfl⟩

theorem recompute_anew_other (s : State) {f g : Face} (h : g ≠ f) (k : DutiesAnew s g) : DutiesAnew (s.recomputeDuties f) g := by
  have hp := recompute_panels s f g
  rw [if_neg h] at hp
  unfold DutiesAnew State.faceDutyOf at k ⊢
  rw [hp]
  exact k

theorem recomputeBoth_anew (s : State) (f : Face) : DutiesAnew (s.eachFace fun f t => t.recomputeDuties f) f := by
  cases f with
  | a => exact recompute_anew_other _ (by decide) (recompute_anew s .a)
  | b => exact recompute_anew _ .b

/-- R114, R152, R153: a write of a parameter but RO and the input lines leaves the composers but for their marks, and
works out the duties where it is of the curve, of a cap or of a trim. -/
theorem writeParam_faces (s before : State) (q : Param) (value : List Byte) (h1 : q ≠ .ro) (h2 : ∀ l, q ≠ .line l) :
    let t := (s.writeParam q value).paramEffects before q
    t.painter = s.painter ∧ t.free = s.free ∧ ∀ f,
      t.faces.get f = { s.faces.get f with
        dirty := (s.faces.get f).dirty
          || decide (q ∈ [.rotateDepth, .tickerHold, .stale .lp0, .stale .lp1, .stale .lp2]) } ∧
      (q = .curve ∨ q = .cap f ∨ (∃ m, q = .trim f m) → DutiesAnew t f) ∧
      (¬ (q = .curve ∨ q = .cap f ∨ ∃ m, q = .trim f m) → t.panels.get f = s.panels.get f) := by
  have quiet : ∀ c : Composer, c = { c with dirty := c.dirty || false } := fun c => by rw [Bool.or_false]
  have loud : ∀ (w : State) (f : Face), w.faces = s.faces →
      w.markBoth.faces.get f = { s.faces.get f with dirty := (s.faces.get f).dirty || true } := fun w f h => by
    rw [Bool.or_true, ← h]; cases f <;> rfl
  have other : ∀ (h : Panel → Panel) (f g : Face), g ≠ f →
      ((s.modPanel f h).recomputeDuties f).panels.get g = s.panels.get g := fun h f g hg => by
    rw [recompute_panels, if_neg hg, State.modPanel_panels, PerFace.get_set_other _ _ hg]
  dsimp only [State.paramEffects, State.writeParam]
  cases q with
  | ro => exact absurd rfl h1
  | line l => exact absurd rfl (h2 l)
  | curve =>
    refine ⟨rfl, rfl, fun f => ⟨?_, fun _ => recomputeBoth_anew _ f, fun h => absurd (.inl rfl) h⟩⟩
    rw [decide_eq_false (by simp)]
    exact quiet _
  | cap g =>
    refine ⟨rfl, rfl, fun f => ⟨?_, fun h => ?_, fun h => other _ g f fun e => h (.inr (.inl (by rw [e])))⟩⟩
    · rw [decide_eq_false (by simp)]; exact quiet _
    · rcases h with h | h | ⟨m, h⟩ <;> cases h
      exact recompute_anew _ g
  | trim g m =>
    refine ⟨rfl, rfl, fun f => ⟨?_, fun h => ?_, fun h => other _ g f fun e => h (.inr (.inr ⟨m, by rw [e]⟩))⟩⟩
    · rw [decide_eq_false (by simp)]; exact quiet _
    · rcases h with h | h | ⟨m, h⟩ <;> cases h
      exact recompute_anew _ g
  | rotateDepth | tickerHold =>
    refine ⟨rfl, rfl, fun f => ⟨?_, fun h => by simp at h, fun _ => rfl⟩⟩
    rw [decide_eq_true (by simp)]
    exact loud _ f rfl
  | stale p =>
    refine ⟨rfl, rfl, fun f => ⟨?_, fun h => by simp at h, fun _ => rfl⟩⟩
    rw [decide_eq_true (by cases p <;> simp)]
    exact loud _ f rfl
  | _ =>
    refine ⟨rfl, rfl, fun f => ⟨?_, fun h => by simp at h, fun _ => rfl⟩⟩
    rw [decide_eq_false (by simp)]
    exact quiet _

end Sys2Proof.Machine
end

