-- ==== Sys2Proof/Laws/ImageParts.lean ====
section
/-! SUPPORT. The settings image part by part: its layout, that an image is read exactly as the settings it holds, and what an abandoned store leaves. -/

namespace Sys2Proof.Machine
-- one proof at a time: proofs elaborated at once would each take a thread of their own
set_option Elab.async false

theorem bytesAt_eq (b : List Byte) (i n : Nat) : bytesAt b i n = slice b i n := rfl

/-- R174: a zone block is read as a zone exactly where it is that zone's block, its platforms in range. -/
theorem readZone_iff (b : List Byte) (z : Zone) : readZone b = some z ↔ z.low ≤ 31 ∧ z.high ≤ 31 ∧ b = zoneBlock z := by
  constructor
  · intro h
    rw [zoneBlock_eq]
    unfold readZone at h
    split at h
    · rename_i e w l hi r
      split at h
      · rename_i e' w' r' h1 h2 h3
        split at h
        · rename_i hc
          simp only [Bool.and_eq_true, decide_eq_true_eq] at hc
          cases h
          refine ⟨hc.1, hc.2, ?_⟩
          have k1 : ∀ (b : Byte) (x : Bool), readYesNo b = some x → b = yesNo x := by decide
          have k3 : ∀ (b : Byte) (x : ZoneMatch), readMatch b = some x → b = byte x.code := by
            intro b x h; unfold readMatch at h; revert h; revert b
            cases x with
            | global => decide
            | origin p => cases p <;> decide
          have k2 : ∀ (b : Byte) (x : Rights), readRights b = some x → b = byte x.bits := by
            intro b ⟨x1, x2, x3, x4⟩; revert b; cases x1 <;> cases x2 <;> cases x3 <;> cases x4 <;> decide
          unfold Zone.bytes
          rw [← k1 _ _ h1, ← k3 _ _ h2, ← k2 _ _ h3, byte_of_toNat, byte_of_toNat]
        · cases h
      · cases h
    · cases h
  · rintro ⟨h1, h2, rfl⟩
    rw [zoneBlock_eq]; exact readZone_bytes z h1 h2

/-- R94, R174: a face block is read as settings exactly where it is the block of settings that SET FACE accepts. -/
theorem readSettings_iff (b : List Byte) (c : FaceSettings) : readSettings b = some c ↔ c.allowed ∧ b = faceBlock c := by
  constructor
  · intro h
    rw [faceBlock_eq]
    unfold readSettings at h
    split at h
    · rename_i p q r1 r2 r3 r4 m k
      split at h
      · rename_i x1 x2 x3 x4 on mk h1 h2 h3 h4 h5 h6
        dsimp only at h
        split at h
        · rename_i hc
          simp only [Bool.and_eq_true, decide_eq_true_eq, bne_iff_ne, ne_eq] at hc
          cases h
          have kr : ∀ (b : Byte) (x : Role), readRole b = some x → b = byte x.code := by
            intro b x; revert b; cases x <;> decide
          have ky : ∀ (b : Byte) (x : Bool), readYesNo b = some x → b = yesNo x := by decide
          have km : ∀ (b : Byte) (x : WakeMask), readMask b = some x → b = byte x.bits := by
            intro b ⟨x1, x2, x3⟩; revert b; cases x1 <;> cases x2 <;> cases x3 <;> decide
          refine ⟨⟨by dsimp only; omega, by dsimp only; omega, by dsimp only; omega, by dsimp only; omega, ?_⟩, ?_⟩
          · have := hc.2
            unfold rolesFit at this
            simp only [Bool.and_eq_true, decide_eq_true_eq] at this
            intro r hr
            simp only [List.mem_cons, List.not_mem_nil, or_false] at hr
            rcases hr with rfl | rfl | rfl
            · exact this.1.1
            · exact this.1.2
            · exact this.2
          · unfold FaceSettings.bytes
            show _ = [byte p.toNat, byte q.toNat, byte x1.code, byte x2.code, byte x3.code, byte x4.code, yesNo on, byte mk.bits]
            rw [← kr _ _ h1, ← kr _ _ h2, ← kr _ _ h3, ← kr _ _ h4, ← ky _ _ h5, ← km _ _ h6, byte_of_toNat, byte_of_toNat]
        · cases h
      · cases h
    · cases h
  · rintro ⟨h, rfl⟩
    rw [faceBlock_eq]; exact readSettings_bytes h

theorem slice_two (b : List Byte) (h : b.length = 39) (x y : Byte) : slice b 0 2 = [x, y] ↔ b.getD 0 0 = x ∧ b.getD 1 0 = y := by
  match b, h with
  | p :: q :: rest, _ => simp [slice]

theorem slice_one (b : List Byte) (i : Nat) (h : i < b.length) (x : Byte) : slice b i 1 = [x] ↔ b.getD i 0 = x := by
  unfold slice
  rw [List.take_one_drop_eq_of_lt_length h, List.getD_eq_getElem?_getD, List.getElem?_eq_getElem h]
  simp

/-- R181: a place block is read exactly as the entry it holds. -/
theorem readPlaceBlock_iff (b : List Byte) (hb : b.length = 39) (e : Option Place) : readPlaceBlock b = some e ↔ PlaceHeld b e := by
  have bn : ∀ (x : Byte) (n : Nat), n < 256 → (x = byte n ↔ x.toNat = n) := by
    intro x n hn
    constructor
    · rintro rfl; exact byte_toNat hn
    · intro h; rw [← h, byte_of_toNat]
  have len : ∀ i n, i + n ≤ 39 → (slice b i n).length = n := by
    intro i n h; unfold slice; rw [List.length_take, List.length_drop, hb]; omega
  unfold readPlaceBlock PlaceHeld
  simp only [bytesAt_eq]
  generalize h0 : b.getD 0 0 = b0
  generalize h1 : b.getD 1 0 = b1
  generalize h26 : b.getD 26 0 = b26
  have hz : ∀ x : Byte, x.toNat = 0 ↔ x = 0 := by intro x; rw [show (0 : Byte) = byte 0 from rfl, bn x 0 (by omega)]
  cases e with
  | none =>
    simp only [true_implies, reduceCtorEq, false_implies, implies_true, and_true]
    rw [slice_two b hb, slice_one b 26 (by omega), h0, h1, h26]
    split
    · rename_i k
      rw [hz] at k
      split
      · rename_i h; rw [hz, hz] at h; simp [k, h]
      · rename_i h; rw [hz, hz] at h; simp [k]; intro x y; exact h ⟨x, y⟩
    · rename_i k
      have : b0 ≠ 0 := by intro e; rw [e] at k; cases k
      split <;> exact iff_of_false (by simp) fun h => this h.1.1
    · rename_i k _
      have : b0 ≠ 0 := by intro e; exact k (by rw [e]; rfl)
      exact iff_of_false (by simp) fun h => this h.1.1
  | some p =>
    obtain ⟨name, short⟩ := p
    simp only [reduceCtorEq, false_implies, true_and, Option.some.injEq, forall_eq']
    rw [slice_two b hb, slice_one b 26 (by omega), h0, h1, h26]
    split
    · rename_i k
      have : b0 ≠ 1 := by intro e; rw [e] at k; cases k
      split <;> exact iff_of_false (by simp) fun h => this h.2.2.2.2.1.1
    · rename_i k
      have k1 : b0 = 1 := by rw [show (1 : Byte) = byte 1 from rfl, bn b0 1 (by omega)]; exact k
      split
      · rename_i hc
        obtain ⟨c1, c2, c3⟩ := hc
        have ln := len 2 b1.toNat (by omega)
        have ls := len 27 b26.toNat (by omega)
        constructor
        · intro h
          cases h
          refine ⟨by rw [ln]; exact c1, by rw [ln]; exact c2, ?_, ?_, ⟨k1, ?_⟩, by rw [ln], ?_⟩
          · unfold shortName; split <;> simp_all
          · unfold shortName; split <;> simp_all
          · rw [ln, byte_of_toNat]
          · have hs : (shortName (slice b 27 b26.toNat)).getD [] = slice b 27 b26.toNat := by
              unfold shortName; split <;> simp_all
            rw [hs, ls, byte_of_toNat]
            exact ⟨rfl, rfl⟩
        · rintro ⟨g1, g2, g3, g4, ⟨_, g5⟩, g6, g7, g8⟩
          rw [bn b1 _ (by omega)] at g5
          rw [bn b26 _ (by omega)] at g7
          rw [← g5] at g6
          rw [← g7] at g8
          rw [g6, g8]
          congr 3
          unfold shortName
          cases short with
          | none => rfl
          | some t => cases t with
            | nil => exact absurd rfl g4
            | cons => rfl
      · rename_i hc
        simp only [false_iff, reduceCtorEq]
        rintro ⟨g1, g2, g3, g4, ⟨_, g5⟩, g6, g7, g8⟩
        rw [bn b1 _ (by omega)] at g5
        rw [bn b26 _ (by omega)] at g7
        exact hc (by omega)
    · rename_i _ k
      have : b0 ≠ 1 := by intro e; exact k (by rw [e]; rfl)
      exact iff_of_false (by simp) fun h => this h.2.2.2.2.1.1

theorem rising_all (l : List Param) (h1 : l.Pairwise fun p q => p.row.number < q.row.number) (h2 : ∀ q, q ∈ l) : l = Param.all := by
  have nd : l.Nodup := h1.imp fun {a b} h e => by subst e; exact Nat.lt_irrefl _ h
  have h3 : Param.all.Pairwise fun p q => p.row.number < q.row.number := by
    have := numbers_rise
    rw [List.pairwise_map] at this
    exact this.imp fun h => by rw [← number_row, ← number_row]; exact h
  refine List.Perm.eq_of_pairwise (le := fun p q : Param => p.row.number < q.row.number) (fun a b _ _ x y => absurd x (by omega)) h1 h3 ?_
  rw [List.perm_ext_iff_of_nodup nd all_nodup]
  exact fun q => ⟨fun _ => mem_all q, fun _ => h2 q⟩

/-- Values of their lengths, one after the other, are split as they were joined. -/
theorem splitParams_pairs (vs : List (Param × List Byte)) (h : ∀ x ∈ vs, x.2.length = x.1.bytes) :
    splitParams (vs.map fun x => x.1) (vs.flatMap fun x => x.2) = vs := by
  induction vs with
  | nil => rfl
  | cons x rest ih =>
    rw [List.map_cons, List.flatMap_cons, splitParams, ← h x (by simp), List.take_left, List.drop_left, ih fun y hy => h y (by simp [hy])]

theorem splitParams_join : ∀ (l : List Param) (b : List Byte), (l.map Param.bytes).sum = b.length → (splitParams l b).flatMap (fun x => x.2) = b
  | [], b, h => by
    have : b = [] := List.eq_nil_of_length_eq_zero (by simpa using h.symm)
    subst this; rfl
  | q :: rest, b, h => by
    rw [List.map_cons, List.sum_cons] at h
    rw [splitParams, List.flatMap_cons, splitParams_join rest _ (by rw [List.length_drop]; omega), List.take_append_drop]

theorem slice_length (b : List Byte) (i n : Nat) (h : i + n ≤ b.length) : (slice b i n).length = n := by
  unfold slice; rw [List.length_take, List.length_drop]; omega

theorem imageZones_get (b : List Byte) (n : Fin 8) : (imageZones b).getD n none = readZone (slice b (1 + 5 * n.val) 5) := by
  unfold imageZones; rw [List.getD_eq_getElem?_getD, List.getElem?_map, List.getElem?_range n.2]; rfl

theorem imagePlaces_get (b : List Byte) (n : Fin 255) : (imagePlaces b).getD n none = readPlaceBlock (slice b (211 + 39 * n.val) 39) := by
  unfold imagePlaces; rw [List.getD_eq_getElem?_getD, List.getElem?_map, List.getElem?_range n.2]; rfl

theorem ofFn_get {α : Type} {n : Nat} (g : Fin n → α) (i : Fin n) : (Vector.ofFn g)[i] = g i := by
  rw [Fin.getElem_fin, Vector.getElem_ofFn]

theorem ofFn_eq {α : Type} {n : Nat} (g : Fin n → α) (v : Vector α n) (h : ∀ i, g i = v[i]) : Vector.ofFn g = v := by
  apply Vector.ext
  intro i hi
  rw [Vector.getElem_ofFn, h]; rfl

theorem places_held (bytes : List Byte) (hl : bytes.length = 10158)
    (h : ∀ n : Fin 255, (readPlaceBlock (slice bytes (211 + 39 * n.val) 39)).isSome = true) (n : Fin 255) :
    PlaceHeld (bytesAt bytes (211 + 39 * n.val) 39) (Vector.ofFn fun i : Fin 255 => ((imagePlaces bytes).getD i none).getD none)[n] := by
  rw [ofFn_get, imagePlaces_get]
  have hn := h n
  generalize hb : readPlaceBlock (slice bytes (211 + 39 * n.val) 39) = x at hn
  cases x with
  | none => cases hn
  | some e => exact (readPlaceBlock_iff _ (slice_length _ _ _ (by omega)) e).mp hb

theorem zones_held (bytes : List Byte) (h : ∀ n : Fin 8, (readZone (slice bytes (1 + 5 * n.val) 5)).isSome = true) (n : Fin 8) :
    let z := (Vector.ofFn fun i : Fin 8 => ((imageZones bytes).getD i none).getD Zone.defaults[i])[n]
    z.low ≤ 31 ∧ z.high ≤ 31 ∧ bytesAt bytes (1 + 5 * n.val) 5 = zoneBlock z := by
  dsimp only
  rw [ofFn_get, imageZones_get]
  have hn := h n
  generalize hz : readZone (slice bytes (1 + 5 * n.val) 5) = x at hn
  cases x with
  | none => cases hn
  | some z => exact (readZone_iff _ z).mp hz

theorem imageZones_all (bytes : List Byte) : (imageZones bytes).all Option.isSome = true ↔
    ∀ n : Fin 8, (readZone (slice bytes (1 + 5 * n.val) 5)).isSome = true := by
  unfold imageZones; simp only [List.all_map, List.all_eq_true, List.mem_range]
  exact ⟨fun h n => h n n.2, fun h n hn => h ⟨n, hn⟩⟩

theorem imagePlaces_all (bytes : List Byte) : (imagePlaces bytes).all Option.isSome = true ↔
    ∀ n : Fin 255, (readPlaceBlock (slice bytes (211 + 39 * n.val) 39)).isSome = true := by
  unfold imagePlaces; simp only [List.all_map, List.all_eq_true, List.mem_range]
  exact ⟨fun h n => h n n.2, fun h n hn => h ⟨n, hn⟩⟩

theorem imageCrc_iff (bytes : List Byte) : imageCrcPasses bytes = true ↔ bytesAt bytes 10156 2 = checkBytes (bytes.take 10156) := by
  unfold imageCrcPasses; rw [crcBytes_eq, beq_iff_eq]; rfl

theorem imageVersion_iff (bytes : List Byte) (hl : bytes.length = 10158) : bytes.getD 0 0 = 0x01 ↔ bytesAt bytes 0 1 = [0x01] :=
  (slice_one bytes 0 (by omega) _).symm

/-- The conditions that readImage checks, and what it then gives. -/
theorem readImage_some {bytes : List Byte} {st : Settings} (h : readImage bytes = some st) :
    bytes.getD 0 0 = 0x01 ∧ imageCrcPasses bytes = true ∧ ∃ a b, readSettings (slice bytes 41 8) = some a ∧
      readSettings (slice bytes 49 8) = some b ∧ (imageZones bytes).all Option.isSome = true ∧
      (imagePlaces bytes).all Option.isSome = true ∧ st.faces = ⟨a, b⟩ ∧ st.params = imageParams bytes ∧
      st.places = Vector.ofFn fun i : Fin 255 => ((imagePlaces bytes).getD i none).getD none := by
  unfold readImage at h
  split at h
  · cases h
  rename_i v1
  split at h
  · cases h
  rename_i v2
  split at h
  · rename_i a b ha hb
    split at h
    · rename_i hc
      rw [Bool.and_eq_true, Bool.and_eq_true] at hc
      cases h
      exact ⟨by simpa using v1, by simpa using v2, a, b, ha, hb, hc.1.1, hc.2, rfl, rfl, rfl⟩
    · cases h
  · cases h

/-- R181, R182: the settings read from an image are those it holds. -/
theorem readImage_holds {bytes : List Byte} {st : Settings} (hl : bytes.length = 10158) (h : readImage bytes = some st) :
    ImageHolds bytes st := by
  have l154 : (slice bytes 57 154).length = 154 := slice_length _ _ _ (by omega)
  have pp := readImage_params hl h
  have p1 := pp.1
  have p2 := pp.2
  have hz := readImage_zones h
  obtain ⟨v1, v2, a, b, ha, hb, c1, c2, hf, hp, hpl⟩ := readImage_some h
  refine ⟨(imageCrc_iff _).mp v2, (imageVersion_iff _ hl).mp v1, fun n => ?_, fun f => ?_, ⟨?_, ?_, ?_, ?_⟩, fun n => ?_⟩
  · rw [hz]; exact zones_held bytes ((imageZones_all _).mp c1) n
  · rw [hf]
    cases f
    · exact (readSettings_iff _ a).mp ha
    · exact (readSettings_iff _ b).mp hb
  · have := numbers_rise
    rw [← p1, List.pairwise_map, List.pairwise_map] at this
    exact this.imp fun h => by rw [← number_row, ← number_row]; exact h
  · intro q
    have := mem_all q
    rw [← p1, List.mem_map] at this
    obtain ⟨⟨_, v⟩, h1, rfl⟩ := this
    exact ⟨v, h1⟩
  · intro x hx
    obtain ⟨k1, k2⟩ := p2 x hx
    rw [bytes_row] at k1
    exact ⟨k1, (accepts_row x.1 x.2 k1).mp k2⟩
  · rw [hp]
    exact (splitParams_join Param.all (slice bytes 57 154) (by rw [l154]; exact bytes_total)).symm
  · rw [hpl]; exact places_held bytes hl ((imagePlaces_all _).mp c2) n

/-- R181, R182: a valid image gives the settings it holds. -/
theorem holds_readImage {bytes : List Byte} {st : Settings} (hl : bytes.length = 10158) (h : ImageHolds bytes st) :
    readImage bytes = some st := by
  obtain ⟨h1, h2, h3, h4, ⟨h5, h6, h7, h8⟩, h9⟩ := h
  obtain ⟨zs, fs, ps, pl⟩ := st
  dsimp only at h3 h4 h5 h6 h7 h8 h9
  have hfst : ps.map (fun x => x.1) = Param.all := rising_all _ (by rw [List.pairwise_map]; exact h5)
    (fun q => by obtain ⟨v, hv⟩ := h6 q; exact List.mem_map.mpr ⟨_, hv, rfl⟩)
  have hps : imageParams bytes = ps := by
    unfold imageParams
    rw [← hfst, ← bytesAt_eq, h8]
    exact splitParams_pairs ps fun x hx => by rw [bytes_row]; exact (h7 x hx).1
  have hz : ∀ n : Fin 8, readZone (slice bytes (1 + 5 * n.val) 5) = some zs[n] := fun n => (readZone_iff _ _).mpr (h3 n)
  have hp : ∀ n : Fin 255, readPlaceBlock (slice bytes (211 + 39 * n.val) 39) = some pl[n] :=
    fun n => (readPlaceBlock_iff _ (slice_length _ _ _ (by omega)) _).mpr (h9 n)
  have ha : readSettings (slice bytes 41 8) = some fs.a := (readSettings_iff _ _).mpr (h4 .a)
  have hb : readSettings (slice bytes 49 8) = some fs.b := (readSettings_iff _ _).mpr (h4 .b)
  have e1 := ofFn_eq (fun i : Fin 8 => ((imageZones bytes).getD i none).getD Zone.defaults[i]) zs
    fun i => by rw [imageZones_get, hz]; rfl
  have e2 := ofFn_eq (fun i : Fin 255 => ((imagePlaces bytes).getD i none).getD none) pl
    fun i => by rw [imagePlaces_get, hp]; rfl
  have c : ((imageZones bytes).all Option.isSome && (imageParams bytes).all (fun x => x.1.accepts x.2)
      && (imagePlaces bytes).all Option.isSome) = true := by
    rw [Bool.and_eq_true, Bool.and_eq_true, imageZones_all, imagePlaces_all, hps, List.all_eq_true]
    exact ⟨⟨fun n => by rw [hz]; rfl, fun x hx => (accepts_row x.1 x.2 (h7 x hx).1).mpr (h7 x hx).2⟩, fun n => by rw [hp]; rfl⟩
  unfold readImage
  rw [(imageVersion_iff _ hl).mpr h2, (imageCrc_iff _).mpr h1, ha, hb, if_neg (by decide), if_neg (by decide)]
  dsimp only
  rw [if_pos c, e1, e2, hps]

theorem placeImage_eq (e : Option Place) : placeImage e = placeBlock e := by
  cases e with
  | none => rfl
  | some x => unfold placeImage placeBlock padTo; simp

/-- R181: the image part by part. -/
theorem image_layout (s : State) : ImageBody s s.imageBody ∧ s.image = s.imageBody ++ checkBytes s.imageBody := by
  refine ⟨⟨Param.all, ?_, mem_all, ?_⟩, ?_⟩
  · have := numbers_rise
    rw [List.pairwise_map] at this
    exact this.imp fun h => by rw [← number_row, ← number_row]; exact h
  · unfold State.imageBody
    rw [faceBlock_eq, faceBlock_eq, funext zoneBlock_eq, funext placeImage_eq, funext (readParam_held s)]
  · unfold State.image; rw [crcBytes_eq]

/-! ## A store that was abandoned (R184) -/

/-- What a block written from address 0 on reads back as, over its own length. -/
theorem readBlock_writeBlock (m : Memory) (bytes : List Byte) {n : Nat} (h : bytes.length = n) :
    (m.writeBlock 0 bytes).readBlock 0 n = bytes := by
  subst h
  have h : (List.range bytes.length).map (fun i => (m.writeBlock 0 bytes).read (0 + i)) = bytes := by
    refine List.ext_getElem (by simp) fun i _ hi => ?_
    rw [List.getElem_map, List.getElem_range, read_writeBlock, dif_pos (by omega)]
    simp
  exact h

/-- R184: a mixed image fails its check word: the bytes are so drawn, or their last one was changed. -/
theorem mixedImage_fails (draw : Nat) : imageCrcPasses (mixedImage draw) = false := by
  unfold mixedImage
  split
  · rename_i h
    have hl := freeImage_length draw
    generalize freeImage draw = b at h hl
    have hd : b = b.dropLast ++ [b.getLastD 0] := by
      cases b with
      | nil => cases hl
      | cons x rest =>
        rw [List.getLastD_eq_getLast?, List.getLast?_eq_some_getLast (List.cons_ne_nil x rest)]
        exact (List.dropLast_append_getLast (List.cons_ne_nil x rest)).symm
    have hn : b.dropLast.length = 10157 := by rw [List.length_dropLast, hl]
    generalize b.dropLast = body at hd hn
    generalize b.getLastD 0 = last at hd
    subst hd
    have front : ∀ x : Byte, (body ++ [x]).take 10156 = body.take 10156 := fun x => by rw [List.take_append_of_le_length (by omega)]
    have tail : ∀ x : Byte, slice (body ++ [x]) 10156 2 = body.drop 10156 ++ [x] := fun x => by
      unfold slice; rw [List.drop_append_of_le_length (by omega), List.take_of_length_le (by simp; omega)]
    rw [Bool.eq_false_iff]
    intro k
    unfold imageCrcPasses at h k
    unfold spoilLast at k
    rw [List.dropLast_concat, List.getLastD_concat] at k
    simp only [beq_iff_eq, show Config.imageSize - 2 = 10156 from rfl, front, tail] at h k
    rw [← h] at k
    have e := List.append_cancel_left k
    have flip : ∀ x : Byte, x ^^^ 1 ≠ x := by decide
    exact flip last (List.head_eq_of_cons_eq e)
  · rename_i h; exact Bool.eq_false_iff.mpr h

/-- R182: an image that fails its check word gives no settings. -/
theorem readImage_none_of_fails {bytes : List Byte} (h : imageCrcPasses bytes = false) : readImage bytes = none := by
  cases k : readImage bytes with
  | none => rfl
  | some st => rw [(readImage_some k).2.1] at h; cases h

/-- R184: what an abandoned store leaves is one of the three contents. -/
theorem abandonedMemory_spec {s t : State} {job : StoreJob} (hl : s.loader = ⟨.storing, some job⟩)
    (ht : t.mem = s.abandonedMemory) : StoreAbandoned s t job.image := by
  unfold StoreAbandoned
  rw [ht]
  unfold State.abandonedMemory
  rw [hl]
  dsimp only
  cases Config.storeLeft s.free with
  | former => exact .inl rfl
  | new => exact .inr (.inl fun a => by rw [read_writeBlock]; simp)
  | mixed =>
    have hm := mixedImage_length s.free
    have hf := mixedImage_fails s.free
    refine .inr (.inr ⟨fun a ha => by rw [read_writeBlock, dif_neg (by omega)], ?_, ?_⟩)
    · rw [readBlock_writeBlock _ _ hm]
      exact fun k => Bool.eq_false_iff.mp hf ((imageCrc_iff _).mpr k)
    · rw [readBlock_writeBlock _ _ hm]; exact readImage_none_of_fails hf

end Sys2Proof.Machine
end

