-- ==== Sys2Proof/Laws/Minutes.lean ====
section
/-! SUPPORT. Removals of a minute event, its wake check, the clock's advance, notices counted down. -/

namespace Sys2Proof.Machine
-- one proof at a time: proofs elaborated at once would each take a thread of their own
set_option Elab.async false

/-- One removal of a minute event. -/
theorem takeOut_table (s : State) (r : Departure) (o : Origin) : (s.takeOut r o).table = withoutRecord r.code s.table := by
  unfold State.takeOut
  rw [(loseReservations_only _ _ _).table]

theorem takeOut_loses (s : State) (r : Departure) (o : Origin) : LosesReservations s (s.takeOut r o) r.code o := by
  intro x
  have hl := loseReservations_loses { s with
      table := withoutRecord r.code s.table
      freeStops := s.freeStops + r.stops.length
      pinCount := if r.pinned then s.pinCount - 1 else s.pinCount } r.code o x
  exact hl

theorem takeOutAll_cons (s : State) (r : Departure) (gone : List Departure) :
    s.takeOutAll (r :: gone) = ((s.takeOut r .loc).markTouched [r.platform]).takeOutAll gone := rfl

theorem takeOutAll_table (gone : List Departure) (s : State) :
    (s.takeOutAll gone).table = s.table.filter fun r => !(gone.any fun g => g.code == r.code) := by
  induction gone generalizing s with
  | nil => simp [State.takeOutAll]
  | cons r rest ih =>
    rw [takeOutAll_cons, ih, (markTouched_only _ _).table, takeOut_table]
    unfold withoutRecord
    rw [List.filter_filter]
    apply List.filter_congr
    intro x _
    simp only [List.any_cons, Bool.not_or]
    rw [Bool.and_comm]
    congr 1
    rw [show (r.code == x.code) = (x.code == r.code) from Bool.beq_comm]; rfl

/-- The reservations after the removals of a minute event. -/
theorem takeOutAll_reservations (gone : List Departure) (s : State) (p : Port) :
    ((s.takeOutAll gone).reservations.get p = match s.reservations.get p with
      | none => none
      | some code => if gone.any (fun g => g.code == code) then none else some code) ∧
    ((s.takeOutAll gone).events.get p = match s.reservations.get p with
      | none => s.events.get p
      | some code => if gone.any (fun g => g.code == code) then (s.events.get p).add .reservationLost else s.events.get p) := by
  induction gone generalizing s with
  | nil => simp [State.takeOutAll]; cases s.reservations.get p <;> simp
  | cons r rest ih =>
    rw [takeOutAll_cons, (ih _).1, (ih _).2, (markTouched_only _ _).reservations, (markTouched_only _ _).events]
    have h := takeOut_loses s r .loc p
    rw [h.1, h.2]
    cases hr : s.reservations.get p with
    | none => simp
    | some code =>
      by_cases hc : code = r.code
      · subst hc; simp; rfl
      · have : ¬ r.code = code := fun h => hc h.symm
        simp [hc, this]

theorem wakePart_dirt (s : State) : KeepsDirt s s.wakePart := by
  unfold State.wakePart State.countDownWake
  refine KeepsDirt.trans (KeepsDirt.trans (KeepsDirt.eachFace (g :=
      fun f t => t.modFace f fun c => { c with countdown := c.countdown - 1 }) ?_) (KeepsDirt.eachFace fun f t => departureWake_dirt t f)) (KeepsDirt.eachFace fun f t => settle_dirt t f)
  intro f t
  exact KeepsDirt.modFace fun _ => ⟨rfl, id⟩

theorem nodup_code {t : List Departure} (h : (t.map fun r => r.code).Nodup) {a b : Departure} (ha : a ∈ t) (hb : b ∈ t) (hc : a.code = b.code) : a = b := by
  exact List.inj_on_of_nodup_map h ha hb hc

theorem takeOutFilter_table (s : State) (g : Departure → Bool) (h : (s.table.map fun r => r.code).Nodup) :
    (s.takeOutAll (s.table.filter g)).table = s.table.filter fun r => !g r := by
  rw [takeOutAll_table]
  apply List.filter_congr
  intro x hx
  congr 1
  by_cases hg : g x
  · rw [hg, List.any_eq_true]
    exact ⟨x, List.mem_filter.mpr ⟨hx, hg⟩, by simp⟩
  · have : g x = false := by simpa using hg
    rw [this]
    apply Bool.eq_false_iff.mpr
    intro hany
    rw [List.any_eq_true] at hany
    obtain ⟨y, hy, hc⟩ := hany
    obtain ⟨hy1, hy2⟩ := List.mem_filter.mp hy
    have := nodup_code h hy1 hx (by simpa using hc)
    subst this; exact hg hy2

theorem takeOutFilter_res (s : State) (g : Departure → Bool) (hT : (s.table.map fun r => r.code).Nodup)
   (hR : ∀ p code, s.reservations.get p = some code →
       code ∈ s.table.map fun r => r.code) (p : Port) (code : Nat) (h : s.reservations.get p = some code) :
    let t := s.takeOutAll (s.table.filter g)
    (code ∈ t.table.map (fun r => r.code) → t.reservations.get p = some code ∧ t.events.get p = s.events.get p) ∧
    (code ∉ t.table.map (fun r => r.code) → t.reservations.get p = none ∧ t.events.get p = (s.events.get p).add .reservationLost) := by
  dsimp only
  have hr := takeOutAll_reservations (s.table.filter g) s p
  rw [h] at hr
  simp only at hr
  rw [takeOutFilter_table s g hT, hr.1, hr.2]
  constructor
  · intro hm
    rw [List.mem_map] at hm
    obtain ⟨r, hr1, hr2⟩ := hm
    obtain ⟨hr3, hr4⟩ := List.mem_filter.mp hr1
    rw [if_neg, if_neg]
    · exact ⟨rfl, rfl⟩
    all_goals
      intro hany
      rw [List.any_eq_true] at hany
      obtain ⟨y, hy, hc⟩ := hany
      obtain ⟨hy1, hy2⟩ := List.mem_filter.mp hy
      have := nodup_code hT hy1 hr3 (by rw [hr2]; simpa using hc)
      subst this; simp [hy2] at hr4
  · intro hm
    have hin := hR p code h
    rw [List.mem_map] at hin
    obtain ⟨r, hr1, hr2⟩ := hin
    have hg : g r = true := by
      by_contra hg
      exact hm (List.mem_map.mpr ⟨r, List.mem_filter.mpr ⟨hr1, by simpa using hg⟩, hr2⟩)
    have : ((s.table.filter g).any fun g => g.code == code) = true := by
      rw [List.any_eq_true]; exact ⟨r, List.mem_filter.mpr ⟨hr1, hg⟩, by simpa using hr2⟩
    rw [if_pos this, if_pos this]
    exact ⟨rfl, rfl⟩

theorem nodup_filter {t : List Departure} (g : Departure →
    Bool) (h : (t.map fun r => r.code).Nodup) : ((t.filter g).map fun r => r.code).Nodup :=
  h.sublist (List.filter_sublist.map _)

theorem add_twice (e : EventSet) (f : EventFlag) : (e.add f).add f = e.add f := by cases f <;> rfl

/-- What a minute event leaves. -/
theorem minuteEvent_leaves (s : State) (vb : Bool) (hT : (s.table.map fun r => r.code).Nodup)
   (hR : ∀ p code, s.reservations.get p = some code → code ∈ s.table.map fun r => r.code) :
   let t := s.minuteEvent vb
   (∀ r, r ∈ t.table ↔ r ∈ s.table ∧ s.stays vb s.clock.valid s.clock.minute r) ∧ t.table.Sublist s.table ∧
       (∀ f, (t.faces.get f).dirty = true) ∧
   t.clock = { s.clock with prevMinute := some s.clock.minute } ∧
   (∀ p code, s.reservations.get p = some code →
        (code ∈ t.table.map (fun r => r.code) → t.reservations.get p = some code) ∧
        (code ∉ t.table.map (fun r => r.code) →
          t.reservations.get p = none ∧ (t.events.get p).reservationLost = true)) := by
  intro t
  have hclose : s.closeIfDue vb = s.takeOutAll (s.table.filter fun r => s.dayCloses vb && !r.pinned) := by
    unfold State.closeIfDue State.dayClose
    split
    · rename_i h; simp [h]
    · rename_i h
      have : s.dayCloses vb = false := by simpa using h
      simp [this, State.takeOutAll]
  set u := s.closeIfDue vb with hu
  have hu1 : OnlyIn [.table, .freeStops, .pinCount, .reservations, .events, .faces] s u := by rw [hclose]; exact takeOutAll_only _ _
  have hut : u.table = s.table.filter fun r => !(s.dayCloses vb && !r.pinned) := by rw [hclose]; exact takeOutFilter_table _ _ hT
  have hexp : u.expireIfValid = u.takeOutAll (u.table.filter fun r => s.clock.valid && Departure.expires s.params s.nowKey r) := by
    unfold State.expireIfValid State.expiry
    have hn : u.nowKey = s.nowKey := by unfold State.nowKey; rw [hu1.params, hu1.clock]
    rw [hu1.clock, hu1.params, hn]
    split
    · rename_i h; simp [h]
    · rename_i h
      have : s.clock.valid = false := by simpa using h
      simp [this, State.takeOutAll]
  set v := u.expireIfValid with hv
  have huT : (u.table.map fun r => r.code).Nodup := by rw [hut]; exact nodup_filter _ hT
  have huR : ∀ p code, u.reservations.get p = some code → code ∈ u.table.map fun r => r.code := by
    intro p code hc
    cases hs : s.reservations.get p with
    | none =>
      have := (takeOutAll_reservations (s.table.filter fun r => s.dayCloses vb && !r.pinned) s p).1
      rw [← hclose, hs, hc] at this; cases this
    | some c =>
      have := takeOutFilter_res s (fun r => s.dayCloses vb && !r.pinned) hT hR p c hs
      dsimp only at this; rw [← hclose] at this
      by_cases hm : c ∈ u.table.map (fun r => r.code)
      · have := (this.1 hm).1; rw [hc] at this; cases this; exact hm
      · have := (this.2 hm).1; rw [hc] at this; cases this
  have hv1 : OnlyIn [.table, .freeStops, .pinCount, .reservations, .events, .faces] u v := by rw [hexp]; exact takeOutAll_only _ _
  have hvt : v.table = u.table.filter fun r => !(s.clock.valid && Departure.expires s.params s.nowKey r) := by
      rw [hexp]; exact takeOutFilter_table _ _ huT
  have ht : t = v.wakePart.markBoth.notePrevMinute := rfl
  have hw := wakePart_only v
  have htt : t.table = v.table := by rw [ht, State.notePrevMinute_table, State.markBoth_table, hw.table]
  have htr : t.reservations = v.reservations := by rw [ht, State.notePrevMinute_reservations, State.markBoth_reservations, hw.reservations]
  have hte : t.events = v.events := by rw [ht, State.notePrevMinute_events, State.markBoth_events, hw.events]
  refine ⟨?_, ?_, ?_, ?_, ?_⟩
  · intro r
    rw [htt, hvt, hut, List.mem_filter, List.mem_filter, and_assoc]
    apply and_congr_right
    intro _
    have hcl : s.dayCloses vb = true ↔ s.closesDay vb s.clock.minute := by
      unfold State.dayCloses State.closesDay
      cases s.clock.prevMinute with
      | none => simp
      | some m => simp [State.nowKey]; intro _; exact ⟨of_decide_eq_true, decide_eq_true⟩
    have hps : Departure.expires s.params s.nowKey r = true ↔ r.pinned = false ∧ s.passed s.clock.minute r := by
      unfold Departure.expires State.passed
      dsimp only
      rw [Bool.and_eq_true]
      apply and_congr
      · simp
      · show _ ↔ (_ ∧ serviceKey s.params.ro r.scheduled + _ < s.nowKey) ∨ (_ ∧ _ ∧
          serviceKey s.params.ro r.scheduled + _ < s.nowKey) ∨ (_ ∧ ∃ d, _ ∧ serviceKey s.params.ro r.scheduled + d + _ < s.nowKey)
        cases r.status <;> cases r.delay <;> simp [Departure.key] <;> exact ⟨of_decide_eq_true, decide_eq_true⟩
    unfold State.stays
    cases hpn : r.pinned with
    | true =>
      have : Departure.expires s.params s.nowKey r = false := by rw [Bool.eq_false_iff]; intro h; rw [hps] at h; simp [hpn] at h
      simp [this]
    | false =>
      simp only [Bool.not_false, Bool.and_true, Bool.not_eq_eq_eq_not, Bool.not_true, Bool.false_eq_true, false_or]
      rw [← hcl]
      apply and_congr
      · simp
      · rw [Bool.eq_false_iff, Ne, Bool.and_eq_true, hps, hpn]; simp
  · rw [htt, hvt, hut]; exact List.filter_sublist.trans List.filter_sublist
  · intro f
    rw [ht, State.notePrevMinute_faces]; exact markBoth_dirty _ _
  · rw [ht, State.notePrevMinute_clock]
    have : v.wakePart.markBoth.clock = s.clock := by rw [State.markBoth_clock, hw.clock, hv1.clock, hu1.clock]
    rw [this]
  · intro p code hc
    rw [htt, htr, hte]
    have h1 := takeOutFilter_res s (fun r => s.dayCloses vb && !r.pinned) hT hR p code hc
    dsimp only at h1; rw [← hclose] at h1
    have h2 := fun c hc => takeOutFilter_res u (fun r => s.clock.valid && Departure.expires s.params s.nowKey r) huT huR p c hc
    dsimp only at h2; rw [← hexp] at h2
    by_cases hm : code ∈ u.table.map (fun r => r.code)
    · obtain ⟨a, b⟩ := h1.1 hm
      have h2 := h2 code a
      refine ⟨fun h => (h2.1 h).1, fun h => ⟨(h2.2 h).1, ?_⟩⟩
      rw [(h2.2 h).2]; rfl
    · obtain ⟨a, b⟩ := h1.2 hm
      have hnot : code ∉ v.table.map (fun r => r.code) := by
        rw [hvt]; intro h; exact hm ((List.filter_sublist.map _).subset h)
      have hr := takeOutAll_reservations (u.table.filter fun r => s.clock.valid && Departure.expires s.params s.nowKey r) u p
      rw [← hexp, a] at hr
      refine ⟨fun h => absurd h hnot, fun _ => ⟨hr.1, ?_⟩⟩
      rw [hr.2, b]; rfl

theorem clock_advance (c : Clock) (h : c.hh < 24) (m : c.mm < 60) (k : c.ss < 60) :
   c.advance.hh * 3600 + c.advance.mm * 60 + c.advance.ss = (c.hh * 3600 + c.mm * 60 + c.ss + 1) % 86400 ∧
   (c.advance.ss = 0 ↔ c.ss = 59) ∧ (c.ss = 59 → c.advance.minute = (c.minute + 1) % 1440) ∧
   c.advance = { c with hh := c.advance.hh, mm := c.advance.mm, ss := c.advance.ss } := by
  unfold Clock.advance Clock.minute
  split
  · refine ⟨?_, ?_, ?_, rfl⟩ <;> dsimp only <;> omega
  · split
    · refine ⟨?_, ?_, ?_, rfl⟩ <;> dsimp only <;> omega
    · split
      · refine ⟨?_, ?_, ?_, rfl⟩ <;> dsimp only <;> omega
      · refine ⟨?_, ?_, ?_, rfl⟩ <;> dsimp only <;> omega

theorem signalFold (f : EventFlag) (gone : List Notice) (s : State) (o : Port) :
    (gone.foldl (fun t n => t.signal n.origin f) s).events.get o = if gone.any (fun n => n.origin == o) then (s.events.get o).add f else s.events.get o := by
  induction gone generalizing s with
  | nil => rfl
  | cons n rest ih =>
    rw [List.foldl_cons, ih, State.signal_events, PerPort.get_set, List.any_cons]
    by_cases h : o = n.origin
    · subst h; simp [add_twice]
    · have : (n.origin == o) = false := by simpa using fun h' => h h'.symm
      rw [if_neg h, this]; rfl

theorem countNotices_spec (s : State) :
    s.countNotices.notices = (s.notices.filter fun n => n.remaining != 1).map (fun n => { n with remaining := n.remaining - 1 }) ∧
    (∀ o, s.countNotices.events.get o = if (s.notices.filter Notice.expiring).any (fun n => n.origin == o) then (s.events.get o).add .noticeExpired else s.events.get o) ∧
    (∀ n ∈ s.notices, n.remaining = 1 → ∀ f, n.targets.has f = true → (s.countNotices.faces.get f).dirty = true) := by
  have hfold : ∀ (gone : List Notice) (t : State), OnlyIn [.events] t (gone.foldl (fun t n => t.signal n.origin .noticeExpired) t) :=
    fun gone t => OnlyIn.foldl _ (fun t n => signal_only t _ _) gone t
  refine ⟨?_, ?_, ?_⟩
  · unfold State.countNotices
    rw [(markTargets_only _ _).notices, (hfold _ _).notices]
    rfl
  · intro o
    unfold State.countNotices
    rw [(markTargets_only _ _).events, signalFold]
  · intro n hn h1 f hf
    unfold State.countNotices
    apply markTargets_marks
    rw [List.any_map, List.any_eq_true]
    exact ⟨n, List.mem_filter.mpr ⟨hn, by simp [Notice.expiring, h1]⟩, hf⟩

/-- A second event before any minute event. -/
def secondDone (s : State) : State := State.markClockLines
      (State.countNotices { s with clock := { s.clock.advance with divider := 0 } })

theorem secondEvent_eq (s : State) (h : s.clock.secondOver = true) :
    exec .secondEvent s = .next (if (secondDone s).clock.ss = 0 then (secondDone s).minuteEvent (secondDone s).clock.valid else secondDone s) := by
  show execSecondEvent s = _
  unfold execSecondEvent
  rw [if_pos h]
  rfl

theorem markClockLines_dirt (s : State) : KeepsDirt s s.markClockLines :=
  KeepsDirt.eachFace fun f t => KeepsDirt.ite (markDirty_dirt t f) (KeepsDirt.refl t)

theorem minuteEvent_keeps (s : State) (vb : Bool) : (∀ o, (s.events.get o).noticeExpired = true →
    ((s.minuteEvent vb).events.get o).noticeExpired = true) ∧ KeepsDirt s (s.minuteEvent vb) := by
  have hall : ∀ (gone : List Departure) (s : State), (∀ o,
      ((s.takeOutAll gone).events.get o).noticeExpired = (s.events.get o).noticeExpired) ∧ KeepsDirt s (s.takeOutAll gone) := by
    intro gone
    induction gone with
    | nil => intro s; exact ⟨fun _ => rfl, KeepsDirt.refl _⟩
    | cons r rest ih =>
      intro s
      rw [takeOutAll_cons]
      refine ⟨fun o => ?_, ?_⟩
      · rw [(ih _).1, (markTouched_only _ _).events, (takeOut_loses s r .loc o).2]
        split <;> rfl
      · refine KeepsDirt.trans (KeepsDirt.trans (KeepsDirt.of_faces (takeOut_only s r .loc).faces) ?_) (ih _).2
        exact KeepsDirt.eachFace fun f t => KeepsDirt.ite (markDirty_dirt t f) (KeepsDirt.refl t)
  have h1 : ∀ t : State, (∀ o, ((t.closeIfDue vb).events.get o).noticeExpired = (t.events.get o).noticeExpired) ∧
      KeepsDirt t (t.closeIfDue vb) := by
    intro t; unfold State.closeIfDue; split
    · exact hall _ _
    · exact ⟨fun _ => rfl, KeepsDirt.refl _⟩
  have h2 : ∀ t : State, (∀ o, ((t.expireIfValid).events.get o).noticeExpired = (t.events.get o).noticeExpired) ∧
      KeepsDirt t (t.expireIfValid) := by
    intro t; unfold State.expireIfValid; split
    · exact hall _ _
    · exact ⟨fun _ => rfl, KeepsDirt.refl _⟩
  constructor
  · intro o ho
    unfold State.minuteEvent
    rw [State.notePrevMinute_events, State.markBoth_events, (wakePart_only _).events, (h2 _).1, (h1 _).1]; exact ho
  · exact ((((h1 s).2.trans (h2 _).2).trans (wakePart_dirt _)).trans (KeepsDirt.eachFace fun f t => markDirty_dirt t f)).trans (KeepsDirt.of_faces rfl)

/-! ## The removals and the wake check of a minute event at the faces (R22, R68, R99) -/

/-- Removals mark faces dirty and change nothing else of a composer. -/
theorem takeOutAll_faces (gone : List Departure) (s : State) (f : Face) : { (s.takeOutAll gone).faces.get f with dirty := (s.faces.get f).dirty } = s.faces.get f := by
  induction gone generalizing s with
  | nil => rfl
  | cons r rest ih =>
    rw [takeOutAll_cons]
    have h := ih ((s.takeOut r .loc).markTouched [r.platform])
    have h2 : { ((s.takeOut r .loc).markTouched [r.platform]).faces.get f with dirty := (s.faces.get f).dirty } = s.faces.get f := by
      have e : (s.takeOut r .loc).faces = s.faces := (takeOut_only s r .loc).faces
      unfold State.markTouched State.eachFace
      dsimp only
      have hx : ∀ (u : State) (g : Face), { (if u.bound g [r.platform] then u.markDirty g else u).faces.get f with dirty := (u.faces.get f).dirty } = u.faces.get f := by
        intro u g
        split
        · unfold State.markDirty; rw [State.modFace_faces, PerFace.get_set]; split
          · rename_i hh; subst hh; rfl
          · rfl
        · rfl
      have a := hx (s.takeOut r .loc) .a
      have b := hx (if (s.takeOut r .loc).bound .a [r.platform] then (s.takeOut r .loc).markDirty .a else (s.takeOut r .loc)) .b
      rw [e] at a
      generalize (if (s.takeOut r .loc).bound .a [r.platform] then (s.takeOut r .loc).markDirty .a else (s.takeOut r .loc)).faces.get f = x at *
      generalize (State.faces _).get f = y at b ⊢
      rw [← a, ← b]
    generalize ((s.takeOut r .loc).markTouched [r.platform]).faces.get f = x at *
    generalize (State.faces _).get f = y at h ⊢
    rw [← h2, ← h]

/-- Removals take no mark away. -/
theorem takeOutAll_dirty (gone : List Departure) (s : State) (f : Face) (h : (s.faces.get f).dirty = true) : ((s.takeOutAll gone).faces.get f).dirty = true := by
  induction gone generalizing s with
  | nil => exact h
  | cons r rest ih =>
    rw [takeOutAll_cons]
    apply ih
    have e : (s.takeOut r .loc).faces = s.faces := (takeOut_only s r .loc).faces
    have hx : ∀ (u : State) (g : Face), (u.faces.get f).dirty = true → ((if u.bound g [r.platform] then u.markDirty g else u).faces.get f).dirty = true := by
      intro u g hu
      split
      · unfold State.markDirty; rw [State.modFace_faces, PerFace.get_set]; split
        · rfl
        · exact hu
      · exact hu
    exact hx _ .b (hx _ .a (by rw [e]; exact h))

theorem markBoth_face (w : State) (f : Face) : w.markBoth.faces.get f = { w.faces.get f with dirty := true } := by cases f <;> rfl
theorem markBoth_panels (w : State) : w.markBoth.notePrevMinute.panels = w.panels ∧ w.markBoth.notePrevMinute.painter = w.painter := ⟨rfl, rfl⟩

/-- The departure wake check of a minute event, seen from the state before the clock moved. -/
theorem minute_wakes (s0 s : State) (vb : Bool) (f : Face) (hf : ∀ g, { s.faces.get g with dirty := (s0.faces.get g).dirty } = s0.faces.get g)
   (hp : s.panels = s0.panels) (hpar : s.params = s0.params) (ha : s.ambient = s0.ambient) (hpn : s.painter = s0.painter) (hd : ∀ g, (s0.faces.get g).dirty = true → (s.faces.get g).dirty = true) :
   Wakens s0 (s.minuteEvent vb) f ((s.minuteEvent vb).departureWakes f) ((s0.faces.get f).countdown - 1) ∧ ((s.minuteEvent vb).faces.get f).settings = (s0.faces.get f).settings := by
  set v := (s.closeIfDue vb).expireIfValid with hv
  have h1 : ∃ gone, s.closeIfDue vb = s.takeOutAll gone := by
    unfold State.closeIfDue; split
    · exact ⟨_, rfl⟩
    · exact ⟨[], rfl⟩
  have h2 : ∀ u : State, ∃ gone, u.expireIfValid = u.takeOutAll gone := by
    intro u; unfold State.expireIfValid; split
    · exact ⟨_, rfl⟩
    · exact ⟨[], rfl⟩
  obtain ⟨g1, e1⟩ := h1
  obtain ⟨g2, e2⟩ := h2 (s.closeIfDue vb)
  have hvo : OnlyIn [.table, .freeStops, .pinCount, .reservations, .events, .faces] s v := by
    rw [hv, e2, e1]; exact (takeOutAll_only _ _).trans (takeOutAll_only _ _)
  have hvf : { v.faces.get f with dirty := (s0.faces.get f).dirty } = s0.faces.get f := by
    have a := takeOutAll_faces g2 (s.closeIfDue vb) f
    have b := takeOutAll_faces g1 s f
    rw [← e2] at a; rw [← e1] at b
    have c := hf f
    rw [← c, ← b, ← a]
  have hw := wakePart_wakes v f
  set w := v.wakePart with hwd
  have hwo := wakePart_only v
  have he : s.minuteEvent vb = w.markBoth.notePrevMinute := rfl
  set t := s.minuteEvent vb with ht
  have hmf : w.markBoth.faces.get f = { w.faces.get f with dirty := true } := markBoth_face w f
  have htf : t.faces.get f = { w.faces.get f with dirty := true } := by rw [he, State.notePrevMinute_faces, hmf]
  have hsa : SameAfter w t f := by
    refine ⟨by rw [htf], fun _ => by rw [htf], ?_, ?_, BackLeft.of_eq (markBoth_panels w).1 (markBoth_panels w).2 f⟩
    · rw [he, (markBoth_panels w).1]
    · rw [he]; intro j _; unfold State.paints; rw [(markBoth_panels w).2]; exact id
  have hdw : t.departureWakes f ↔ v.departureWakes f := by
    unfold State.departureWakes State.wakes State.nowKey
    have hview : t.view f = v.view f := view_congr
      (by rw [he, State.notePrevMinute_table, State.markBoth_table, hwo.table]) (by rw [htf]; exact hw.2)
      (fun p => by rw [he, State.notePrevMinute_ports, State.markBoth_ports, hwo.ports]; exact ⟨rfl, rfl⟩)
    have hc : t.clock.valid = v.clock.valid ∧ t.clock.minute = v.clock.minute := by
      rw [he, State.notePrevMinute_clock, State.markBoth_clock, hwo.clock]; exact ⟨rfl, rfl⟩
    have hpp : t.params = v.params := by rw [he, State.notePrevMinute_params, State.markBoth_params, hwo.params]
    have hss : (t.faces.get f).settings = (v.faces.get f).settings := by rw [htf]; exact hw.2
    rw [hview, hc.1, hc.2, hpp, hss]
  have a0 := congrArg Composer.settings hvf
  have a1 := congrArg Composer.state hvf
  have a2 := congrArg Composer.calling hvf
  have a3 := congrArg Composer.bottom hvf
  have a4 := congrArg Composer.rebuild hvf
  have a5 := congrArg Composer.inHand hvf
  have a6 := congrArg Composer.countdown hvf
  have a7 := congrArg Composer.restartPending hvf
  have a8 := congrArg Composer.pass hvf
  have a9 := congrArg Composer.lastPlan hvf
  have a10 := congrArg Composer.serial hvf
  dsimp only at a0 a1 a2 a3 a4 a5 a6 a7 a8 a9 a10
  have hvd : (s0.faces.get f).dirty = true → (v.faces.get f).dirty = true := by
    intro h; rw [hv, e2]; apply takeOutAll_dirty; rw [e1]; apply takeOutAll_dirty; exact hd f h
  have h3 := (hw.1.after hdw hsa (by rw [he, State.notePrevMinute_lines, State.markBoth_lines])).before (s := s0)
    ⟨a1, a2, a3, a4, a5, a9, a10, by rw [hvo.panels, hp], by rw [hvo.params, hpar], by rw [hvo.ambient, ha], hvd,
       by rw [a7]; exact id, by rw [a8]; exact id, fun j _ => by unfold State.paints; rw [hvo.painter, hpn]; exact id,
       BackLeft.of_eq (hvo.panels.trans hp) (hvo.painter.trans hpn) f⟩ (by rw [← hvf]) (by rw [hvo.params, hpar])
  rw [a6] at h3
  refine ⟨h3, ?_⟩
  rw [htf]; exact hw.2.trans a0

end Sys2Proof.Machine
end

