-- ==== Sys2Proof/Laws/Painting.lean ====
section
/-! SUPPORT. What taking a plan, a paint completion and a chain check do to composers, painter and panels. -/

namespace Sys2Proof.Machine
-- one proof at a time: proofs elaborated at once would each take a thread of their own
set_option Elab.async false

theorem handToPainter_painter (s : State) (j : Job) : (s.handToPainter j).painter = (match s.painter.current with
   | none => ⟨some j, s.painter.waiting⟩ | some _ => ⟨s.painter.current, some j⟩) := by
  unfold State.handToPainter
  cases h : s.painter.current with
  | none => rfl
  | some c => dsimp only; rw [h]

theorem handPlan_faces (s : State) (f : Face) (plan : Plan) : (s.handPlan f plan).faces = s.faces.set f { s.faces.get f with rebuild := .painting, inHand := some plan, lastPlan := some plan, serial := plan.serial } := by
  unfold State.handPlan
  rw [(handToPainter_only _ _).faces]; rfl

theorem handPlan_painter (s : State) (f : Face) (plan : Plan) : (s.handPlan f plan).painter = (match s.painter.current with
   | none => ⟨some ⟨f, plan.serial⟩, s.painter.waiting⟩ | some _ => ⟨s.painter.current, some ⟨f, plan.serial⟩⟩) := by
  unfold State.handPlan
  rw [handToPainter_painter]; rfl

theorem handPlan_panels (s : State) (f : Face) (plan : Plan) (h : s.painter.current ≠ none) : (s.handPlan f plan).panels = s.panels := by
  unfold State.handPlan State.handToPainter
  cases hc : s.painter.current with
  | none => exact absurd hc h
  | some c => rw [State.modFace_painter, hc]; rfl

/-- What preparing a view plan keeps of a composer. -/
theorem backToView_keeps (l : List BottomEntry) (c : Composer) : (Composer.backToView l c).settings = c.settings ∧
    (Composer.backToView l c).state = c.state ∧
   (Composer.backToView l c).countdown = c.countdown ∧ (Composer.backToView l c).rotate = c.rotate ∧
       (Composer.backToView l c).dirty = c.dirty ∧ (Composer.backToView l c).serial = c.serial ∧
   (Composer.backToView l c).entry = (if l.contains c.entry then c.entry else .clock) ∧ (Composer.backToView l c).rebuild = c.rebuild ∧
   (Composer.backToView l c).page = c.page ∧
   (Composer.backToView l c).pass = (if c.showedFull ∨ l.contains c.entry = false then false else c.pass) := by
  unfold Composer.backToView
  dsimp only
  cases c.showedFull <;> cases h : l.contains c.entry <;> simp <;> simp_all

theorem prepareView_get (s : State) (f g : Face) (h : g ≠ f) : (s.prepareView f).faces.get g = s.faces.get g := by
  unfold State.prepareView State.restartTickers
  dsimp only
  rw [State.modFace_faces, PerFace.get_set_other _ _ h, State.modFace_faces, PerFace.get_set_other _ _ h]

theorem prepareView_keeps (s : State) (f : Face) :
   ((s.prepareView f).faces.get f).settings = (s.faces.get f).settings ∧ ((s.prepareView f).faces.get f).state = (s.faces.get f).state ∧
   ((s.prepareView f).faces.get f).countdown = (s.faces.get f).countdown ∧ ((s.prepareView f).faces.get f).rotate = (s.faces.get f).rotate ∧
   ((s.prepareView f).faces.get f).dirty = (s.faces.get f).dirty ∧ ((s.prepareView f).faces.get f).serial = (s.faces.get f).serial ∧
   ((s.prepareView f).faces.get f).entry = (if (s.bottomList f).contains (s.faces.get f).entry then (s.faces.get f).entry else .clock) ∧
   ((s.prepareView f).faces.get f).rebuild = (s.faces.get f).rebuild ∧
   ((s.prepareView f).faces.get f).page = (s.faces.get f).page ∧
   ((s.prepareView f).faces.get f).pass
     = (if (s.faces.get f).showedFull ∨ (s.bottomList f).contains (s.faces.get f).entry = false then false else (s.faces.get f).pass) := by
  have h := backToView_keeps (s.bottomList f) (s.faces.get f)
  unfold State.prepareView State.restartTickers
  dsimp only
  rw [State.modFace_faces, PerFace.get_set_same, State.modFace_faces, PerFace.get_set_same]
  exact h

theorem beginPaint_panels (t : State) (j : Job) (g : Face) : { (t.beginPaint j).panels.get g with back := (t.panels.get g).back } = t.panels.get g := by
  unfold State.beginPaint
  dsimp only
  rw [State.modPanel_panels, PerFace.get_set]
  split
  · rename_i h; subst h; rfl
  · rfl

/-- R137: handing on a plan leaves every panel but its back bitmap, and the panel of every other face. -/
theorem handPlan_panel (s : State) (f : Face) (plan : Plan) :
    (∀ g, { (s.handPlan f plan).panels.get g with back := (s.panels.get g).back } = s.panels.get g) ∧
      ∀ g, g ≠ f → (s.handPlan f plan).panels.get g = s.panels.get g := by
  by_cases h : s.painter.current = none
  · have e : s.handPlan f plan = (s.modFace f fun c =>
        { c with rebuild := .painting, inHand := some plan, lastPlan := some plan, serial := plan.serial }).beginPaint
          ⟨f, plan.serial⟩ := by
      unfold State.handPlan State.handToPainter
      rw [State.modFace_painter, h]
    rw [e]
    refine ⟨beginPaint_panels _ _, fun g hg => ?_⟩
    unfold State.beginPaint
    dsimp only
    rw [State.modPanel_panels, PerFace.get_set_other _ _ hg]; rfl
  · rw [handPlan_panels s f plan h]
    exact ⟨fun _ => rfl, fun _ _ => rfl⟩

/-- Everything the taking of a plan does. -/
theorem takePlan_spec (s : State) (f : Face) : ∃ plan,
      (s.takePlan f).faces.get f = { (s.takePlan f).faces.get f with dirty := false, rebuild := .painting, inHand := some plan, lastPlan := some plan, serial := plan.serial } ∧
      plan.serial = (s.faces.get f).serial + 1 ∧
      plan.flashOn = s.flashOn ∧ plan.full = (s.chooseFull f).map (fun n => ⟨n.id, n.text⟩) ∧
      ((s.takePlan f).faces.get f).settings = (s.faces.get f).settings ∧ ((s.takePlan f).faces.get f).state = (s.faces.get f).state ∧
      ((s.takePlan f).faces.get f).countdown = (s.faces.get f).countdown ∧ ((s.takePlan f).faces.get f).rotate = (s.faces.get f).rotate ∧
      (∀ g, g ≠ f → (s.takePlan f).faces.get g = s.faces.get g) ∧
      (s.takePlan f).painter = (match s.painter.current with
        | none => ⟨some ⟨f, plan.serial⟩, s.painter.waiting⟩ | some _ => ⟨s.painter.current, some ⟨f, plan.serial⟩⟩) ∧
      (s.painter.current ≠ none → (s.takePlan f).panels = s.panels) ∧
      (∀ g, { (s.takePlan f).panels.get g with back := (s.panels.get g).back } = s.panels.get g) ∧
      (∀ g, g ≠ f → (s.takePlan f).panels.get g = s.panels.get g) ∧
      (∀ n, s.chooseFull f = some n → ((s.takePlan f).faces.get f).calling = none ∧ ((s.takePlan f).faces.get f).bottom = none ∧
          ((s.takePlan f).faces.get f).pass = (s.faces.get f).pass ∧
          ((s.takePlan f).faces.get f).restartPending = (s.faces.get f).restartPending ∧
          OnlyIn faceParts s (s.takePlan f)) ∧
      (s.chooseFull f = none → ((s.takePlan f).faces.get f).page = (s.faces.get f).page ∧
          ((s.takePlan f).faces.get f).pass = (if (s.faces.get f).showedFull ∨ (s.bottomList f).contains (s.faces.get f).entry = false
            then false else (s.faces.get f).pass)) := by
  set s1 := s.modFace f fun c => { c with dirty := false } with hs1
  have e : s.takePlan f = match s1.chooseFull f with
    | some n => s1.planFull f n
    | none => s1.planView f := rfl
  have hcf : s1.chooseFull f = s.chooseFull f := rfl
  have h1f : s1.faces.get f = { s.faces.get f with dirty := false } := by rw [hs1, State.modFace_faces, PerFace.get_set_same]
  have h1g : ∀ g, g ≠ f → s1.faces.get g = s.faces.get g := fun g hg => by rw [hs1, State.modFace_faces, PerFace.get_set_other _ _ hg]
  rw [hcf] at e
  cases hc : s.chooseFull f with
  | some n =>
    rw [hc] at e
    dsimp only at e
    rw [e]
    set s2 := s1.modFace f fun c => { c with calling := none, bottom := none, page := (s1.faces.get f).pageFor n } with hs2
    refine ⟨⟨(s1.faces.get f).serial + 1, Vector.ofFn (fullLine n ((s1.faces.get f).pageFor n)), s1.flashOn, some ⟨n.id, n.text⟩⟩, ?_⟩
    have e2 : s1.planFull f n = s2.handPlan f ⟨(s1.faces.get f).serial + 1, Vector.ofFn (fullLine n ((s1.faces.get f).pageFor n)),
        s1.flashOn, some ⟨n.id, n.text⟩⟩ := rfl
    rw [e2]
    have h2f : s2.faces.get f = { s.faces.get f with dirty := false, calling := none, bottom := none, page := (s1.faces.get f).pageFor n } := by
      rw [hs2, State.modFace_faces, PerFace.get_set_same, h1f]
    rw [handPlan_faces, PerFace.get_set_same, h2f, handPlan_painter]
    have hpan := handPlan_panel s2 f ⟨(s1.faces.get f).serial + 1, Vector.ofFn (fullLine n ((s1.faces.get f).pageFor n)),
        s1.flashOn, some ⟨n.id, n.text⟩⟩
    refine ⟨rfl, ?_, rfl, rfl, rfl, rfl, rfl, rfl, ?_, rfl, ?_, hpan.1, hpan.2, ?_, fun h => nomatch h⟩
    · rw [h1f]
    · intro g hg; rw [PerFace.get_set_other _ _ hg, hs2, State.modFace_faces, PerFace.get_set_other _ _ hg, h1g g hg]
    · intro hp; rw [handPlan_panels s2 f _ hp]; rfl
    · intro m hm
      refine ⟨rfl, rfl, rfl, rfl, ?_⟩
      exact (((modFace_only _ _ _).trans (modFace_only _ _ _)).mono (by decide)).trans (handPlan_only _ _ _)
  | none =>
    rw [hc] at e
    dsimp only at e
    rw [e]
    set t := s1.prepareView f with ht
    set u := t.raiseAll .placeUndefined (t.viewFaults f) with hu
    have e2 : s1.planView f = u.handPlan f (t.viewPlan f) := rfl
    rw [e2]
    have huo : OnlyIn [.capture, .seen, .events] t u := raiseAll_only _ _ _
    have hk := prepareView_keeps s1 f
    rw [← ht, h1f] at hk
    obtain ⟨k1, k2, k3, k4, k5, k6, k7, k8, k9, k10⟩ := hk
    have hto : OnlyIn [.faces] s t := (modFace_only _ _ _).trans (prepareView_only _ _)
    have hufp : u.painter = s.painter := by rw [huo.painter, hto.painter]
    refine ⟨t.viewPlan f, ?_⟩
    rw [handPlan_faces, PerFace.get_set_same, handPlan_painter, hufp, huo.faces]
    have hpp : u.panels = s.panels := by rw [huo.panels, hto.panels]
    have hpan := handPlan_panel u f (t.viewPlan f)
    rw [hpp] at hpan
    refine ⟨?_, ?_, ?_, rfl, k1, k2, k3, k4, ?_, rfl, ?_, hpan.1, hpan.2, ?_, fun _ => ⟨k9, k10⟩⟩
    · dsimp only; rw [k5]
    · show (t.faces.get f).serial + 1 = _; rw [k6]
    · show t.flashOn = _; rw [hto.flashOn]
    · intro g hg; rw [PerFace.get_set_other _ _ hg, ht, prepareView_get _ _ _ hg, h1g g hg]
    · intro hp; rw [handPlan_panels _ _ _ (by rw [hufp]; exact hp), huo.panels, hto.panels]
    · intro n hn; cases hn

theorem chooseFull_eq (s : State) (f : Face) : s.chooseFull f =
    (((s.notices.filter fun n => n.scope == .full && n.targets.has f).find? fun n => n.cls == .high).or ((s.notices.filter fun n => n.scope == .full && n.targets.has f).find? fun n => n.cls == .low)) := by
  unfold State.chooseFull
  dsimp only
  cases (s.notices.filter fun n => n.scope == .full && n.targets.has f).find? fun n => n.cls == .high <;> rfl

theorem planDue_iff (s : State) (f : Face) : s.planDue f = true ↔ ((s.faces.get f).rebuild = .idle ∧ (s.faces.get f).dirty = true ∧
    ((s.faces.get f).state = .lit ∨ (s.faces.get f).state = .woken) ∧ s.loader.phase ≠ .loading) := by
  unfold State.planDue
  simp only [Bool.and_eq_true, showing_iff, beq_iff_eq, bne_iff_ne]
  tauto

theorem planLine_source (s : State) (f : Face) (k : Fin 4) :
   let roles := (s.faces.get f).settings.roles
   (roles[k] = .empty → (s.planLine f k).1.source = .none) ∧
        (roles[k] = .first → (s.planLine f k).1.source
          = if (s.view f).isEmpty then .phrase else shownSource (s.view f).head?) ∧
        (roles[k] = .calling → (s.planLine f k).1.source = shownSource (s.view f).head?) ∧
        (roles[k] = .next → (s.planLine f k).1.source
          = shownSource (s.view f)[(roles.toList.take k).count .next + 1]?) ∧
        (roles[k] = .bottom → (s.planLine f k).1.source = (s.faces.get f).entry.source) := by
  dsimp only
  have hrl : ∀ role r, (s.recordLine f role r).1.source = .record r.code r.revision := by
    intro role r; unfold State.recordLine; dsimp only; split <;> rfl
  unfold State.planLine
  dsimp only
  refine ⟨fun h => ?_, fun h => ?_, fun h => ?_, fun h => ?_, fun h => ?_⟩
  · rw [h]; rfl
  · rw [h]; dsimp only
    cases hv : s.view f with
    | nil => rfl
    | cons r rest => simp [hrl, shownSource]
  · rw [h]; dsimp only
    cases hv : s.view f with
    | nil => rfl
    | cons r rest => simp [shownSource]
  · rw [h]; dsimp only
    unfold State.recordOrDark FaceSettings.linesAbove
    cases (s.view f)[List.count Role.next (List.take k.val (s.faces.get f).settings.roles.toList) + 1]? with
    | none => rfl
    | some r => simp [hrl, shownSource]
  · rw [h]

theorem ofPixels_lit (g : Nat → Nat → Bool) {x y : Nat} (hx : x < 256) (hy : y < 64) : (Bitmap.ofPixels g).lit x y = g x y := by
  unfold Bitmap.lit Bitmap.ofPixels
  simp [hx, hy]

theorem allLit_lit {x y : Nat} (hx : x < 256) (hy : y < 64) : Bitmap.allLit.lit x y = true := by
  unfold Bitmap.lit Bitmap.allLit
  rw [Vector.getElem?_eq_getElem hy, Vector.getElem_replicate]
  show (BitVec.allOnes 256).getLsbD x = true
  rw [BitVec.getLsbD_allOnes]; simpa using hx

theorem painterNext_panels (t : State) (g : Face) : { t.painterNext.panels.get g with back := (t.panels.get g).back } = t.panels.get g := by
  unfold State.painterNext
  split
  · rfl
  · rename_i j _; exact beginPaint_panels { t with painter := ⟨none, none⟩ } j g

theorem painterNext_painter (t : State) : t.painterNext.painter = ⟨t.painter.waiting, none⟩ := by
  unfold State.painterNext
  cases t.painter.waiting <;> rfl

theorem painterNext_faces (t : State) : t.painterNext.faces = t.faces := (painterNext_only t).faces

theorem back_irrelevant {p q : Panel} (h : { p with back := q.back } = q) (b : Bitmap) : { { p with back := b } with back := q.back } = q := h

theorem takeCompletion_taken {s : State} {f : Face} {plan : Plan} (h1 : (s.faces.get f).rebuild = .painting) (h2 : (s.faces.get f).inHand = some plan) :
    s.takeCompletion f plan.serial = ((s.modPanel f fun p => { p with back := plan.paint }).modFace f fun c =>
        { c with rebuild := .swapPending }).raiseAll .glyphSubstituted (plan.substituteLocales f) := by
  unfold State.takeCompletion
  dsimp only
  rw [h1, h2]
  dsimp only
  rw [if_pos rfl]

theorem takeCompletion_not {s : State} {f : Face} {n : Nat} (h : ∀ plan, (s.faces.get f).rebuild = .painting →
    (s.faces.get f).inHand = some plan → plan.serial ≠ n) :
    s.takeCompletion f n = s := by
  unfold State.takeCompletion
  dsimp only
  split
  · rename_i plan h1 h2; rw [if_neg (h plan h1 h2)]
  · rfl

/-- What the check step of a boundary leaves. -/
theorem raise_seen (s : State) (k l) : (s.raise k l).seen = s.seen.set k.index true := rfl

theorem raiseAll_seen (s : State) (k : FaultKind) (ls : List Sys2Proof.Machine.Locale) (i : Fin 9) : (s.raiseAll k ls).seen[i] = (s.seen[i] || (decide (i = k.index) && !ls.isEmpty)) := by
  unfold State.raiseAll
  induction ls generalizing s with
  | nil => simp
  | cons l rest ih =>
    rw [List.foldl_cons, ih, raise_seen]
    simp only [Fin.getElem_fin, Vector.getElem_set]
    by_cases h : i = k.index
    · subst h; simp
    · have h' : ¬ (k.index.val = i.val) := fun e => h (Fin.ext e.symm)
      simp [h, h']

theorem raiseAll_shown (s : State) (k : FaultKind) (ls : List Sys2Proof.Machine.Locale) (o : Port) : ((s.raiseAll k ls).events.get o).shownChanged = (s.events.get o).shownChanged := by
  unfold State.raiseAll
  induction ls generalizing s with
  | nil => rfl
  | cons l rest ih => rw [List.foldl_cons, ih]; cases o <;> rfl

theorem judge_get (s : State) (f : Face) (e : Vector (BitVec 32) 4) : (s.judgeCheck f e).panels = s.panels.set f (match (s.panels.get f).check with
   | .none => s.panels.get f
   | .inFlight sent => { s.panels.get f with check := .none, chains := Vector.ofFn fun c => (s.panels.get f).chains[c].judge (e[c] == sent) }) := by
  unfold State.judgeCheck
  dsimp only
  cases (s.panels.get f).check with
  | none => cases f <;> rfl
  | inFlight sent =>
    dsimp only
    rw [(raiseAll_only _ _ _).panels]; rfl

theorem chainCheck_spec (s : State) (f : Face) (e : Vector (BitVec 32) 4) :
   (∀ g, g ≠ f → (s.chainCheck f e).panels.get g = s.panels.get g) ∧
   (let p := (s.chainCheck f e).panels.get f
    { p with chains := (s.panels.get f).chains, check := (s.panels.get f).check, counter := (s.panels.get f).counter, nextPattern := (s.panels.get f).nextPattern } = s.panels.get f) ∧
   (∀ o, ((s.chainCheck f e).events.get o).shownChanged = (s.events.get o).shownChanged) := by
  unfold State.chainCheck
  cases h : (s.panels.get f).out with
  | off => exact ⟨fun _ _ => rfl, rfl, fun _ => rfl⟩
  | starting => exact ⟨fun _ _ => rfl, rfl, fun _ => rfl⟩
  | driving =>
    dsimp only
    refine ⟨fun g hg => ?_, ?_, fun o => ?_⟩
    · rw [State.modPanel_panels, PerFace.get_set_other _ _ hg, judge_get, PerFace.get_set_other _ _ hg]
    · rw [State.modPanel_panels, PerFace.get_set_same, judge_get, PerFace.get_set_same]
      generalize s.panels.get f = p
      obtain ⟨_, _, _, _, _, _, _, _, check, _, _, _, _, _, _, _⟩ := p
      unfold Panel.countCheck
      cases check <;> dsimp only <;> split <;> rfl
    · rw [State.modPanel_events]
      unfold State.judgeCheck
      dsimp only
      cases (s.panels.get f).check with
      | none => rfl
      | inFlight sent => dsimp only; rw [raiseAll_shown]; rfl

theorem sources_ne (p q : Plan) : p.sources = q.sources ↔ ¬ ∃ k : Fin 4, p.lines[k].source ≠ q.lines[k].source := by
  unfold Plan.sources
  constructor
  · intro h ⟨k, hk⟩
    apply hk
    have := congrArg (fun v : Vector Source 4 => v[k]) h
    simpa using this
  · intro h
    apply Vector.ext
    intro i hi
    simp only [Vector.getElem_map]
    by_contra hne
    exact h ⟨⟨i, hi⟩, hne⟩

end Sys2Proof.Machine
end

