-- ==== Sys2Proof/Laws/Shown.lean ====
section
/-! SUPPORT. The texts, fields, pools and tickers of a plan are those written from the tables in Safety. -/

namespace Sys2Proof.Machine
-- one proof at a time: proofs elaborated at once would each take a thread of their own
set_option Elab.async false

theorem joinItems_eq : ∀ items : List (List Byte), joinItems items = itemsJoined items
  | [] => rfl
  | [_] => rfl
  | [x, y] => by simp [joinItems, itemsJoined, List.intercalate]
  | x :: y :: z :: rest => by
    have ih := joinItems_eq (y :: z :: rest)
    rw [joinItems]
    · rw [ih]
      simp [itemsJoined, List.intercalate, List.dropLast]
    all_goals simp

theorem stopItems_eq (s : State) (r : Departure) :
    s.stopItems r = r.stops.filterMap fun st => (s.place? st.place).map fun e =>
      e.name ++ ((st.time.map fun m => str " (" ++ timeText m ++ str ")").getD []) := by
  unfold State.stopItems
  congr 1
  funext st
  congr 1
  funext e
  unfold stopItem
  cases st.time <;> simp

theorem carriageSuffix_eq (c : Option Nat) : carriageSuffix c = (c.map fun n =>
    str "  Formed of " ++ decimal n ++ (if n = 1 then str " coach." else str " coaches.")).getD [] := by
  unfold carriageSuffix
  cases c <;> simp

theorem callingBody_eq (stops : List (List Byte)) (dest : Option (List Byte)) : callingBody stops dest =
    if stops = [] ∧ dest.toList = [] then str "Calling at:"
      else if stops = [] then str "Calling at: " ++ itemsJoined dest.toList ++ str " only."
      else str "Calling at: " ++ itemsJoined (stops ++ dest.toList) ++ str "." := by
  cases stops with
  | nil => cases dest <;> simp [callingBody, itemsJoined]
  | cons a l =>
    unfold callingBody
    rw [joinItems_eq]
    simp

/-- R107: the calling text. -/
theorem callingText_eq (s : State) (r : Departure) : s.callingText r = s.callingShown r := by
  unfold State.callingText State.callingShown
  cases hs : r.status with
  | cancelled => simp
  | running =>
    dsimp only
    rw [if_neg (by simp), stopItems_eq, carriageSuffix_eq, callingBody_eq]

theorem statusText_eq (onFirst : Bool) (r : Departure) : statusText onFirst r = statusShown onFirst r := by
  unfold statusText statusShown
  cases r.status
  · cases r.approaching <;> cases onFirst <;> cases r.delay with
    | none => simp
    | some d => cases d <;> simp
  · simp

theorem destination_eq (s : State) (w : Nat) (r : Departure) :
    (s.destination w r).1 = (s.destinationShown w r).1 ∧ (s.destination w r).2.1 = (s.destinationShown w r).2 := by
  unfold State.destination State.destinationShown
  cases s.place? r.dest <;> exact ⟨rfl, rfl⟩

/-- R105, R126: a line that shows a record. -/
theorem recordLine_eq (s : State) (f : Face) (role : Role) (r : Departure) :
    (s.recordLine f role r).1 = s.recordShown f role (some r) := by
  unfold State.recordShown State.recordLine
  have h : (role == Role.first) = decide (role = Role.first) := rfl
  dsimp only
  rw [h, statusText_eq]
  by_cases hs : (s.faces.get f).settings.second = 0
  · rw [if_neg (by simp [hs])]
    simp [hs, destination_eq]
  · rw [if_pos (by simp [hs])]
    simp [hs, destination_eq]

theorem recordOrDark_eq (s : State) (f : Face) (role : Role) (r : Option Departure) :
    (s.recordOrDark f role r).1 = s.recordShown f role r := by
  cases r with
  | none => rfl
  | some r => exact recordLine_eq s f role r

/-- R109, R113: the text of a bottom entry. -/
theorem bottomText_eq (s : State) (e : BottomEntry) : s.bottomText e = s.bottomShown e := by
  cases e with
  | clock => unfold State.bottomText State.bottomShown clockText; rfl
  | notice id =>
    unfold State.bottomText State.bottomShown
    dsimp only
    cases s.notice? id <;> rfl

/-- R109: the bottom rotation list. -/
theorem bottomList_eq (s : State) (f : Face) : s.bottomList f = s.bottomEntries f := by
  unfold State.bottomList State.bottomEntries
  simp only [List.filter_filter]
  congr 3 <;> congr 1 <;> funext n <;> rw [Bool.and_comm]

theorem poolEntries_eq (s : State) (f : Face) : s.poolEntries f = s.poolSize f := rfl

theorem rotateRecord_eq (s : State) (f : Face) (r : Nat) : s.rotateRecord f r = s.rotateShown f r := rfl

/-- R108: a ticker at a plan. -/
theorem ticker_eq (held : Option Ticker) (pending : Bool) (restart : Prop) [Decidable restart] (h : pending = true ↔ restart)
    (key : TickerKey) (text : List Byte) (hold : Nat) :
    (if Config.lineWidth < textWidth text then some (Ticker.keepOrBuild held pending key text hold) else none)
      = tickerFor held restart key text hold := by
  unfold tickerFor
  by_cases hw : textWidth text ≤ 256
  · rw [if_neg (by simp only [Config.lineWidth]; omega), if_pos hw]
  · rw [if_pos (by simp only [Config.lineWidth]; omega), if_neg hw]
    unfold Ticker.keepOrBuild
    cases held with
    | none => simp
    | some k =>
      by_cases hr : restart
      · simp [h.mpr hr, hr]
      · have hp : pending = false := by cases hb : pending <;> simp_all
        by_cases hk : k.key = key ∧ k.text = text
        · simp [hp, hr, hk.1, hk.2]
        · have : ¬ ((!pending && k.key == key && k.text == text) = true) := by simp [hp]; tauto
          dsimp only
          rw [if_neg this, if_neg (by simp [hr]; tauto)]

/-- R145: what a frame shows at a pixel. -/
theorem light_eq (fr : ScanFrame) (x : Fin 256) (y : Fin 64) :
    fr.light x y = if fr.pixels.lit x y = true then fr.duties[8 * (y.val / 16) + x.val / 32] else 0 := by
  unfold ScanFrame.light ScanFrame.chainRow Bitmap.lit moduleAt
  have h : 16 * (y.val / 16) + y.val % 16 = y.val := by omega
  have hy : fr.pixels[y.val]? = some fr.pixels[y.val] := Vector.getElem?_eq_getElem y.isLt
  simp only [h, hy]
  rfl

/-! ## Tickers at a plan -/

/-- R108: going back to the departure view asks for a restart of the tickers, and keeps them. -/
theorem backToView_restart (l : List BottomEntry) (c : Composer) :
    ((Composer.backToView l c).restartPending = true ↔ c.restartPending = true ∨ (c.lastPlan.bind fun last => last.full) ≠ none) ∧
    (Composer.backToView l c).calling = c.calling ∧ (Composer.backToView l c).bottom = c.bottom := by
  have hs : c.showedFull = true ↔ (c.lastPlan.bind fun last => last.full) ≠ none := by
    unfold Composer.showedFull; rw [Option.isSome_iff_ne_none]
  unfold Composer.backToView
  dsimp only
  by_cases h : c.showedFull = true
  · rw [if_pos h]; split <;> simp [hs.mp h]
  · have h2 : (c.lastPlan.bind fun last => last.full) = none := by
      by_contra hc; exact h (hs.mpr hc)
    rw [if_neg h]; split <;> simp [h2]

/-- R108, R109, R133: the tickers of a face as a plan of the departure view leaves them. -/
theorem prepareView_tickers (s : State) (f : Face) (restart : Prop) [Decidable restart]
   (hr : restart = ((s.faces.get f).restartPending = true ∨ ((s.faces.get f).lastPlan.bind fun last => last.full) ≠ none)) :
   let c := s.faces.get f
   let entry := if c.entry ∈ s.bottomEntries f then c.entry else .clock
   ((s.prepareView f).faces.get f).restartPending = false ∧
   ((s.prepareView f).faces.get f).calling = (if .calling ∈ c.settings.roles.toList then
        (s.view f).head?.bind fun r => tickerFor c.calling restart (.record r.code) (s.callingShown r) s.params.tickerHold
        else none) ∧
   ((s.prepareView f).faces.get f).bottom = (if .bottom ∈ c.settings.roles.toList then
        tickerFor c.bottom restart (.entry entry) (s.bottomShown entry).1 s.params.tickerHold else none) := by
  dsimp only
  set b := s.modFace f (Composer.backToView (s.bottomList f)) with hb
  have hbf : b.faces.get f = Composer.backToView (s.bottomList f) (s.faces.get f) := by rw [hb, State.modFace_faces, PerFace.get_set_same]
  obtain ⟨k1, _, _, _, _, _, k7, _⟩ := backToView_keeps (s.bottomList f) (s.faces.get f)
  obtain ⟨r1, r2, r3⟩ := backToView_restart (s.bottomList f) (s.faces.get f)
  have hv : b.view f = s.view f := by
    unfold State.view
    rw [hbf, k1]; rfl
  have hp : (s.prepareView f).faces.get f = { b.faces.get f with
      calling := (b.wideCalling f).map fun x => Ticker.keepOrBuild (b.faces.get f).calling (b.faces.get f).restartPending (.record x.1) x.2 s.params.tickerHold
      bottom := (b.wideBottom f).map fun x => Ticker.keepOrBuild (b.faces.get f).bottom (b.faces.get f).restartPending (.entry x.1) x.2 s.params.tickerHold
      restartPending := false } := by
    unfold State.prepareView State.restartTickers
    rw [← hb]
    dsimp only
    rw [State.modFace_faces, PerFace.get_set_same]; rfl
  rw [hp]
  have hcall : ∀ r, b.callingText r = s.callingShown r := by intro r; rw [← callingText_eq]; rfl
  refine ⟨rfl, ?_, ?_⟩
  · dsimp only
    unfold State.wideCalling
    rw [hbf, k1, hv, r2]
    by_cases hc : Role.calling ∈ (s.faces.get f).settings.roles.toList
    · rw [if_pos (by simpa using hc), if_pos hc]
      cases (s.view f).head? with
      | none => rfl
      | some r =>
        simp only [Option.map_some, Option.bind_some, hcall]
        rw [← ticker_eq _ (Composer.backToView (s.bottomList f) (s.faces.get f)).restartPending restart (by rw [hr]; exact r1)]
        by_cases hw : Config.lineWidth < textWidth (s.callingShown r) <;> simp [Option.filter, hw]
    · rw [if_neg (by simpa using hc), if_neg hc]; rfl
  · dsimp only
    unfold State.wideBottom
    rw [hbf]
    dsimp only
    rw [k1, r3, k7]
    have he : (if (s.bottomList f).contains (s.faces.get f).entry = true then (s.faces.get f).entry else .clock) = if (s.faces.get f).entry ∈ s.bottomEntries f then (s.faces.get f).entry else .clock := by
      rw [bottomList_eq]; simp
    rw [he]
    have ht : ∀ e, b.bottomText e = s.bottomShown e := by intro e; rw [← bottomText_eq]; rfl
    by_cases hc : Role.bottom ∈ (s.faces.get f).settings.roles.toList
    · rw [if_pos (by simpa using hc), if_pos hc]
      rw [← ticker_eq _ (Composer.backToView (s.bottomList f) (s.faces.get f)).restartPending restart (by rw [hr]; exact r1)]
      rw [ht]
      generalize (if (s.faces.get f).entry ∈ s.bottomEntries f then (s.faces.get f).entry else BottomEntry.clock) = e
      by_cases hw : Config.lineWidth < textWidth (s.bottomShown e).1 <;> simp [Option.filter, hw]
    · rw [if_neg (by simpa using hc), if_neg hc]; rfl

end Sys2Proof.Machine
end

