-- ==== Sys2Proof/Laws/Paints.lean ====
section
/-! SUPPORT. What a plan paints is what Safety writes from the tables: advances, glyphs, fields, the pixels of a plan and the substitute glyphs painted; what is reported; views and undefined places. -/

namespace Sys2Proof.Machine
-- one proof at a time: proofs elaborated at once would each take a thread of their own
set_option Elab.async false

/-- R122: the advances. -/
theorem advance_eq (b : Byte) : advance b = glyphColumns b := by
  unfold advance glyphColumns narrowTwo narrowThree narrowFour wideSix wideSeven
  simp only [List.contains_iff_mem, List.mem_append, List.mem_cons, List.not_mem_nil, or_false]

theorem isSubstitute_iff (b : Byte) : isSubstitute b = true ↔ b < 0x20 ∨ 0x7E < b := by
  unfold isSubstitute
  simp only [Bool.or_eq_true, decide_eq_true_eq, BitVec.lt_def]
  exact Iff.rfl

/-- R122, R124: the width of a text. -/
theorem textWidth_columns (text : List Byte) : textWidth text = (text.map glyphColumns).sum + (text.length - 1) := by
  unfold textWidth advances
  rw [show advance = glyphColumns from funext advance_eq]

theorem columnsBefore_cons (b : Byte) (rest : List Byte) :
    columnsBefore (b :: rest) = glyphColumns b + 1 + columnsBefore rest := by
  unfold columnsBefore
  rw [List.map_cons, List.sum_cons, List.length_cons]
  omega

theorem glyphPixel_iff {b : Byte} {column row : Nat} (h : column < glyphColumns b) :
    glyphPixel b column row = true ↔ GlyphLit b column row := by
  unfold glyphPixel GlyphLit
  rw [advance_eq]
  by_cases hr : 2 ≤ row ∧ row ≤ 13
  · rw [if_neg (by simp; omega)]
    by_cases hs : b < 0x20 ∨ 0x7E < b
    · rw [if_pos ((isSubstitute_iff b).mpr hs), if_pos hs]
      simp [hr, or_assoc]
    · rw [if_neg fun k => hs ((isSubstitute_iff b).mp k), if_neg hs]
      by_cases hb : b = 0x20
      · rw [if_pos hb]; simp [hb]
      · rw [if_neg hb]; simp [hr]; exact fun _ => hb
  · rw [if_pos (by simp; omega)]
    exact ⟨fun k => absurd k (by decide), fun k => absurd ⟨k.1, k.2.1⟩ hr⟩

/-- R121, R124: the glyph that a text column falls in. -/
theorem textPixel_iff (row : Nat) (text : List Byte) (c : Nat) : textPixel row text c = true ↔
    ∃ before b after column, text = before ++ b :: after ∧ column < glyphColumns b ∧
      c = columnsBefore before + column ∧ GlyphLit b column row := by
  induction text generalizing c with
  | nil =>
    constructor
    · intro h; cases h
    · rintro ⟨_, _, _, _, h, _⟩; simp at h
  | cons x rest ih =>
    unfold textPixel
    rw [advance_eq]
    constructor
    · intro h
      split at h
      · rename_i hx
        exact ⟨[], x, rest, c, rfl, hx, by simp [columnsBefore], (glyphPixel_iff hx).mp h⟩
      · split at h
        · cases h
        · obtain ⟨before, b, after, column, e, h1, h2, h3⟩ := (ih _).mp h
          refine ⟨x :: before, b, after, column, by rw [e]; rfl, h1, ?_, h3⟩
          rw [columnsBefore_cons]; omega
    · rintro ⟨before, b, after, column, e, h1, h2, h3⟩
      cases before with
      | nil =>
        cases e
        have hc : c = column := by simpa [columnsBefore] using h2
        subst hc
        rw [if_pos h1]
        exact (glyphPixel_iff h1).mpr h3
      | cons y before =>
        cases e
        rw [columnsBefore_cons] at h2
        rw [if_neg (by omega), if_neg (by omega)]
        exact (ih _).mpr ⟨before, b, after, column, rfl, h1, by omega, h3⟩

theorem start_eq (fd : PlanField) : fd.align.start fd.width (textWidth fd.text) =
    if fd.align = .left then 0 else if fd.align = .right then fd.width - textWidth fd.text
      else (fd.width - textWidth fd.text) / 2 := by
  unfold Align.start
  cases fd.align <;> rfl

/-- R125, R135: a text column is painted where it lands. -/
theorem landsAt_iff (fd : PlanField) (c x : Nat) : fd.landsAt c = some x ↔
    fd.col ≤ x ∧ x < fd.col + fd.width ∧ fd.textColumn (x - fd.col) = some c := by
  unfold PlanField.landsAt PlanField.textColumn
  rw [← textWidth_columns]
  dsimp only
  cases fd.offset with
  | none =>
    dsimp only
    rw [start_eq]
    generalize (if fd.align = Align.left then 0 else if fd.align = .right then fd.width - textWidth fd.text
      else (fd.width - textWidth fd.text) / 2) = w
    constructor
    · intro h
      split at h
      · cases h
        refine ⟨by omega, by omega, ?_⟩
        rw [if_pos (by omega)]; congr 1; omega
      · cases h
    · rintro ⟨h1, h2, h3⟩
      split at h3
      · cases h3
        rw [if_pos (by omega)]; congr 1; omega
      · cases h3
  | some p =>
    dsimp only
    constructor
    · intro h
      split at h
      · cases h
        refine ⟨by omega, by omega, ?_⟩
        rw [if_pos (by omega)]; congr 1; omega
      · cases h
    · rintro ⟨h1, h2, h3⟩
      split at h3
      · cases h3
        rw [if_pos (by omega)]; congr 1; omega
      · cases h3

theorem shows_eq (fd : PlanField) (c : Nat) : fd.shows c = (fd.landsAt c).isSome := by
  unfold PlanField.shows PlanField.landsAt
  rw [← textWidth_columns]
  dsimp only
  cases fd.offset with
  | none =>
    dsimp only
    rw [start_eq]
    generalize (if fd.align = Align.left then 0 else if fd.align = .right then fd.width - textWidth fd.text
      else (fd.width - textWidth fd.text) / 2) = w
    by_cases h : w + c < fd.width <;> simp [h]
  | some p =>
    dsimp only
    split
    · rename_i h; simp [h.1, h.2]
    · rename_i h
      rw [Option.isSome_none, Bool.and_eq_false_iff]
      simp only [decide_eq_false_iff_not]
      omega

theorem field_pixel_iff (fd : PlanField) (flashOn : Bool) (x row : Nat) : fd.pixel flashOn x row = true ↔
    fd.shown flashOn ∧ ∃ before b after column, fd.text = before ++ b :: after ∧ column < glyphColumns b ∧
      fd.landsAt (columnsBefore before + column) = some x ∧ GlyphLit b column row := by
  unfold PlanField.pixel
  by_cases hd : fd.shown flashOn
  · have hf : (fd.flashing && !flashOn) = false := by
      unfold PlanField.shown at hd
      cases h1 : fd.flashing <;> cases h2 : flashOn <;> simp_all
    rw [hf, Bool.or_false]
    constructor
    · intro h
      split at h
      · cases h
      · rename_i hx
        simp only [Bool.or_eq_true, decide_eq_true_eq, not_or] at hx
        split at h
        · rename_i c hc
          obtain ⟨before, b, after, column, e, h1, h2, h3⟩ := (textPixel_iff _ _ _).mp h
          exact ⟨hd, before, b, after, column, e, h1, by rw [← h2, landsAt_iff]; exact ⟨by omega, by omega, hc⟩, h3⟩
        · cases h
    · rintro ⟨_, before, b, after, column, e, h1, h2, h3⟩
      obtain ⟨k1, k2, k3⟩ := (landsAt_iff _ _ _).mp h2
      rw [if_neg (by simp; omega), k3]
      exact (textPixel_iff _ _ _).mpr ⟨before, b, after, column, e, h1, rfl, h3⟩
  · have hf : (fd.flashing && !flashOn) = true := by
      unfold PlanField.shown at hd
      cases h1 : fd.flashing <;> cases h2 : flashOn <;> simp_all
    rw [hf, Bool.or_true, if_pos rfl]
    exact Iff.intro (fun h => nomatch h) fun h => absurd h.1 hd

/-- R121, R138: what a plan paints. -/
theorem plan_pixel_iff (plan : Plan) (x : Nat) {y : Nat} (hy : y < 64) : plan.pixel x y = true ↔ plan.Lights x y := by
  unfold Plan.pixel Plan.Lights
  have hk : y / 16 < 4 := by omega
  rw [Vector.getElem?_eq_getElem hk]
  dsimp only
  rw [List.any_eq_true]
  constructor
  · rintro ⟨fd, hfd, hp⟩
    exact ⟨⟨y / 16, hk⟩, rfl, fd, hfd, (field_pixel_iff _ _ _ _).mp hp⟩
  · rintro ⟨k, hk', fd, hfd, hp⟩
    have : k = ⟨y / 16, hk⟩ := Fin.ext hk'.symm
    subst this
    exact ⟨fd, hfd, (field_pixel_iff _ _ _ _).mpr hp⟩

/-! ## Substitute glyphs (R139) -/

/-- Glyph i of a text that stands from column c on is a substitute glyph with a column that is shown. -/
abbrev SubstituteShown (shows : Nat → Bool) (c : Nat) (text : List Byte) (i : Nat) : Prop :=
  (text.getD i 0x20 < 0x20 ∨ 0x7E < text.getD i 0x20) ∧
    ∃ column < 5, shows (c + (columnsBefore (text.take i) + column)) = true

theorem substitutesShown_eq (shows : Nat → Bool) (c : Nat) (text : List Byte) : substitutesShown shows c text =
    (List.range text.length).countP fun i => decide (SubstituteShown shows c text i) := by
  induction text generalizing c with
  | nil => rfl
  | cons b rest ih =>
    unfold substitutesShown
    rw [List.length_cons, List.range_succ_eq_map, List.countP_cons, List.countP_map, ih, Nat.add_comm]
    congr 1
    · apply List.countP_congr
      intro i _
      simp only [SubstituteShown, Function.comp, Nat.succ_eq_add_one, List.getD_cons_succ, List.take_succ_cons, columnsBefore_cons, advance_eq,
        decide_eq_true_eq]
      refine and_congr_right fun _ => exists_congr fun column => and_congr_right fun _ => ?_
      rw [show c + (glyphColumns b + 1 + columnsBefore (List.take i rest) + column)
        = c + glyphColumns b + 1 + (columnsBefore (List.take i rest) + column) by omega]
    · have hs : isSubstitute b = true → advance b = 5 := by
        rw [advance_eq]; revert b; decide
      have hc : (isSubstitute b && (List.range (advance b)).any fun j => shows (c + j)) = true ↔
          decide (SubstituteShown shows c (b :: rest) 0) = true := by
        simp only [SubstituteShown, List.getD_cons_zero, List.take_zero, decide_eq_true_eq, Bool.and_eq_true, ← isSubstitute_iff]
        refine and_congr_right fun h => ?_
        rw [hs h, List.any_eq_true]
        simp [columnsBefore]
      by_cases h : decide (SubstituteShown shows c (b :: rest) 0) = true
      · rw [if_pos h, if_pos (hc.mpr h)]
      · rw [if_neg h, if_neg fun k => h (hc.mp k)]

theorem substitutes_eq (fd : PlanField) (flashOn : Bool) : fd.substitutes flashOn = fd.substitutesPainted flashOn := by
  unfold PlanField.substitutes PlanField.substitutesPainted
  rw [substitutesShown_eq]
  have hd : fd.shown flashOn ↔ ¬ (fd.flashing && !flashOn) = true := by
    unfold PlanField.shown
    cases fd.flashing <;> cases flashOn <;> simp
  by_cases hs : fd.shown flashOn
  · rw [if_pos hs, if_neg (hd.mp hs)]
    apply List.countP_congr
    intro i _
    simp only [SubstituteShown, decide_eq_true_eq, shows_eq, Nat.zero_add]
  · rw [if_neg hs, if_pos (by by_contra h; exact hs (hd.mpr h))]

/-- R139, R176: the reports of the substitute glyphs that a plan paints. -/
theorem substituteLocales_eq (f : Face) (plan : Plan) : plan.substituteLocales f = (List.finRange 4).flatMap fun k =>
    List.replicate ((plan.lines[k].fields.map fun fd => fd.substitutesPainted plan.flashOn).sum)
      ⟨.face f, some (k.val + 1), none⟩ := by
  unfold Plan.substituteLocales
  simp only [substitutes_eq]

/-! ## Reports (R176) -/

/-- R176: faults raised one after the other, on a state that differs in what a report does not look at. -/
theorem raiseAll_reports {s u : State} {ps : List Part} (ho : OnlyIn ps s u)
    (hps : ∀ q ∈ [Part.capture, .seen, .events, .clock], q ∉ ps) (kind : FaultKind) (ls : List Sys2Proof.Machine.Locale) :
    ReportsRaised s (u.raiseAll kind ls) kind ls := by
  have h1 : u.capture = s.capture := ho .capture (hps _ (by decide))
  have h2 : u.seen = s.seen := ho .seen (hps _ (by decide))
  have h3 : u.events = s.events := ho .events (hps _ (by decide))
  have h4 : u.clock = s.clock := ho .clock (hps _ (by decide))
  clear ho hps
  unfold ReportsRaised State.raiseAll
  induction ls generalizing s u with
  | nil => exact ⟨h1, h2, h3⟩
  | cons l rest ih =>
    rw [List.foldl_cons, List.foldl_cons]
    refine ih ?_ ?_ ?_ h4
    · unfold State.raise; dsimp only; rw [h1, h4]
    · unfold State.raise; dsimp only; rw [h2]
    · unfold State.raise; dsimp only; rw [h3]

theorem ReportsRaised.after {s u t : State} {kind : FaultKind} {ls : List Sys2Proof.Machine.Locale}
    (h : ReportsRaised s u kind ls) {ps : List Part} (ho : OnlyIn ps u t)
    (hps : ∀ q ∈ [Part.capture, .seen, .events], q ∉ ps) : ReportsRaised s t kind ls := by
  obtain ⟨h1, h2, h3⟩ := h
  exact ⟨(ho .capture (hps _ (by decide))).trans h1, (ho .seen (hps _ (by decide))).trans h2,
    (ho .events (hps _ (by decide))).trans h3⟩

/-- R176: one fault. -/
theorem raise_reports {s u : State} {ps : List Part} (ho : OnlyIn ps s u)
    (hps : ∀ q ∈ [Part.capture, .seen, .events, .clock], q ∉ ps) (kind : FaultKind) (l : Sys2Proof.Machine.Locale) :
    ReportsRaised s (u.raise kind l) kind [l] := raiseAll_reports ho hps kind [l]

/-- R146, R176: what the chain check of a frame boundary reports. -/
theorem chainCheck_reports (s : State) (f : Face) (e : Vector (BitVec 32) 4) :
    ReportsRaised s (s.chainCheck f e) .chainFailed (match (s.panels.get f).out, (s.panels.get f).check with
      | .driving, .inFlight sent => ((List.finRange 4).filter fun k => (s.panels.get f).chains[k] = .suspect2 ∧ e[k] ≠ sent).map
          fun k => ⟨.face f, some k.val, none⟩
      | _, _ => []) := by
  unfold State.chainCheck
  cases (s.panels.get f).out with
  | off => exact ⟨rfl, rfl, rfl⟩
  | starting => exact ⟨rfl, rfl, rfl⟩
  | driving =>
    dsimp only
    refine ReportsRaised.after (u := s.judgeCheck f e) ?_ (modPanel_only _ f _) (by decide)
    unfold State.judgeCheck
    dsimp only
    cases (s.panels.get f).check with
    | none => exact ⟨rfl, rfl, rfl⟩
    | inFlight sent =>
      dsimp only
      have : ((List.finRange 4).filter fun c => (s.panels.get f).chains[c].fails (e[c] == sent))
          = (List.finRange 4).filter fun k => (s.panels.get f).chains[k] = .suspect2 ∧ e[k] ≠ sent := by
        apply List.filter_congr
        intro k _
        unfold ChainState.fails
        rw [Bool.eq_iff_iff]; simp [and_comm]
      rw [this]
      exact raiseAll_reports (modPanel_only s f _) (by decide) _ _

theorem swap_reports (s : State) (f : Face) : (s.swap f).capture = s.capture ∧ (s.swap f).seen = s.seen ∧
    ∀ o, { (s.swap f).events.get o with shownChanged := (s.events.get o).shownChanged } = s.events.get o := by
  unfold State.swap
  split
  · split
    · exact ⟨rfl, rfl, fun _ => rfl⟩
    · exact ⟨rfl, rfl, fun o => by cases o <;> rfl⟩
  · exact ⟨rfl, rfl, fun _ => rfl⟩

/-! ## The view and the undefined places of a plan (R34, R35, R102) -/

/-- R102: what a view holds. -/
theorem view_eq (s : State) (f : Face) : s.view f = s.table.filter fun r => decide
    ((r.platform = (s.faces.get f).settings.primary ∨
        ((s.faces.get f).settings.second ≠ 0 ∧ r.platform = (s.faces.get f).settings.second)) ∧
      ¬ ∃ p ∈ [Port.lp0, .lp1, .lp2], r.writer = .port p ∧ (s.ports.get p).silent = true ∧
        (s.ports.get p).staleInForce = .hide) := by
  unfold State.view
  apply List.filter_congr
  intro r _
  rw [Bool.eq_iff_iff, Bool.and_eq_true, decide_eq_true_eq]
  refine and_congr ?_ ?_
  · unfold FaceSettings.platforms
    split <;> simp_all
  · unfold State.hidden
    cases r.writer with
    | loc => simp
    | port p => cases p <;> simp [← Bool.not_eq_true, imp_iff_not_or]

theorem destination_undefined (s : State) (w : Nat) (r : Departure) : (s.destination w r).2.2 = s.undefinedInField r := by
  unfold State.destination State.undefinedInField
  cases s.place? r.dest with
  | none => rw [if_pos rfl]
  | some e =>
    rw [if_neg (by simp)]
    dsimp only
    cases r.via with
    | none => rfl
    | some v => cases h : s.place? v <;> simp [h]

theorem recordLine_undefined (s : State) (f : Face) (role : Role) (r : Departure) :
    (s.recordLine f role r).2 = s.undefinedInField r := by
  unfold State.recordLine
  dsimp only
  split <;> exact destination_undefined s _ r

theorem recordOrDark_undefined (s : State) (f : Face) (role : Role) (r : Option Departure) :
    (s.recordOrDark f role r).2 = (r.map s.undefinedInField).getD [] := by
  cases r with
  | none => rfl
  | some r => exact recordLine_undefined s f role r

/-- R34, R35: the undefined places that a line of a plan resolves. -/
theorem planLine_undefined (s : State) (f : Face) (k : Fin 4) : (s.planLine f k).2 = s.undefinedOn f k := by
  have hcall : ∀ r : Departure, s.callingUndefined r = if r.status = .cancelled then []
      else (r.stops.map (fun st => st.place) ++ [r.dest]).filter fun n => s.place? n = none := by
    intro r
    unfold State.callingUndefined
    cases r.status with
    | cancelled => rfl
    | running =>
      rw [if_neg (by decide)]
      apply List.filter_congr
      intro n _
      cases s.place? n <;> rfl
  unfold State.planLine State.undefinedOn
  dsimp only
  cases (s.faces.get f).settings.roles[k] with
  | first =>
    rw [if_pos rfl]
    cases (s.view f).head? with
    | none => rfl
    | some r => exact recordLine_undefined s f .first r
  | next => rw [if_neg (by decide), if_pos rfl]; exact recordOrDark_undefined s f .next _
  | rotate => rw [if_neg (by decide), if_neg (by decide), if_pos rfl]; exact recordOrDark_undefined s f .rotate _
  | calling =>
    rw [if_neg (by decide), if_neg (by decide), if_neg (by decide), if_pos rfl]
    cases (s.view f).head? with
    | none => rfl
    | some r => exact hcall r
  | bottom => rfl
  | empty => rfl

theorem undefinedOn_congr {s t : State} {f : Face} (hp : t.places = s.places) (hpa : t.params = s.params) (hv : t.view f = s.view f)
    (hs : (t.faces.get f).settings = (s.faces.get f).settings) (hr : (t.faces.get f).rotate = (s.faces.get f).rotate) (k : Fin 4) :
    t.undefinedOn f k = s.undefinedOn f k := by
  unfold State.undefinedOn State.rotateShown State.poolSize State.undefinedInField State.place?
  rw [hp, hpa, hv, hs, hr]

end Sys2Proof.Machine
end

