-- ==== Sys2Proof/Laws/Parsing.lean ====
section
/-! SUPPORT. Field bytes that no request accepts, and codes read back. -/

namespace Sys2Proof.Machine
-- one proof at a time: proofs elaborated at once would each take a thread of their own
set_option Elab.async false

/-- R172: an AMEND with a field out of range. -/
theorem parseAmend_bad (c1 c0 da d1 d0 sa pl aa ca cv : Byte) (h : (c1 = 0 ∧ c0 = 0) ∨ 2 < da ∨ 3 < sa ∨ 31 < pl ∨ 2 < aa ∨ 2 < ca) :
    parseAmend [c1, c0, da, d1, d0, sa, pl, aa, ca, cv] = .error .badField := by
  unfold parseAmend
  dsimp only
  split
  · rename_i e1 e2 e3 e4
    unfold inRange
    rw [if_neg]
    intro hc
    simp only [Bool.and_eq_true, bne_iff_ne, decide_eq_true_eq, nat16] at hc
    unfold readAction at e1 e4
    unfold readStatusAction at e2
    unfold readApproachAction at e3
    rcases h with ⟨rfl, rfl⟩ | h | h | h | h | h
    · simp at hc
    · have : 2 < da.toNat := h
      split at e1 <;> first | omega | cases e1
    · have : 3 < sa.toNat := h
      split at e2 <;> first | omega | cases e2
    · have : 31 < pl.toNat := h
      omega
    · have : 2 < aa.toNat := h
      split at e3 <;> first | omega | cases e3
    · have : 2 < ca.toNat := h
      split at e4 <;> first | omega | cases e4
  · rfl

/-- R173: a POST NOTICE with a field out of range. -/
theorem parseNotice_bad (id cls scope targets flash d1 d0 : Byte) (text : List Byte) (ht : text.length < 256)
   (h : id = 0 ∨ 1 < cls ∨ 1 < scope ∨ targets = 0 ∨ 3 < targets ∨ 1 < flash ∨ text.length = 0 ∨ 160 < text.length) :
   parseNotice ([id, cls, scope, targets, flash, d1, d0, byte text.length] ++ text) = .error .badField := by
  simp only [List.cons_append, List.nil_append]
  unfold parseNotice
  have hb : (byte text.length).toNat = text.length := byte_toNat ht
  dsimp only
  rw [hb]
  simp only [bne_self_eq_false, Bool.false_eq_true, if_false]
  split
  · rename_i e1 e2 e3 e4
    unfold inRange
    rw [if_neg]
    intro hc
    simp only [Bool.and_eq_true, bne_iff_ne, decide_eq_true_eq] at hc
    unfold readClass at e1
    unfold readScope at e2
    unfold readFaceSel at e3
    unfold readYesNo at e4
    rcases h with rfl | h | h | rfl | h | h | h | h
    · simp at hc
    · have : 1 < cls.toNat := h
      split at e1 <;> first | omega | cases e1
    · have : 1 < scope.toNat := h
      split at e2 <;> first | omega | cases e2
    · simp at e3
    · have : 3 < targets.toNat := h
      split at e3 <;> first | omega | cases e3
    · have : 1 < flash.toNat := h
      split at e4 <;> first | omega | cases e4
    · omega
    · omega
  · rfl

/-- R174: the role codes. -/
theorem readRole_some {b : Byte} {r : Role} (h : readRole b = some r) :
    b.toNat ≤ 5 ∧ (r = .first ↔ b = 1) ∧ (r = .calling ↔ b = 2) ∧ (r = .bottom ↔ b = 5) := by
  have hb : ∀ n : Nat, b.toNat = n → b = BitVec.ofNat 8 n := by intro n hn; rw [← hn]; simp
  unfold readRole at h
  split at h
  all_goals first
    | (rename_i e; have := hb _ e; subst this; cases h; decide)
    | cases h

/-- R94, R174: a SET FACE with a field out of range. -/
theorem parseSetFace_bad (f first second r1 r2 r3 r4 mode mask : Byte) 
   (h : (f ≠ 1 ∧ f ≠ 2) ∨ first = 0 ∨ 31 < first ∨ 31 < second ∨ second = first ∨ 5 < r1 ∨ 5 < r2 ∨ 5 < r3 ∨ 5 < r4 ∨
        (∃ r ∈ ([1, 2, 5] : List Byte), 1 < [r1, r2, r3, r4].count r) ∨ 1 < mode ∨ 7 < mask) :
   parseSetFace [f, first, second, r1, r2, r3, r4, mode, mask] = .error .badField := by
  unfold parseSetFace
  simp only [List.length_cons, List.length_nil, bne_self_eq_false, Bool.false_eq_true, if_false]
  split
  · rename_i e1 e2
    exfalso
    unfold readSettings at e2
    dsimp only at e2
    split at e2
    · rename_i m1 m2 m3 m4 m5 m6
      split at e2
      · rename_i hc
        simp only [Bool.and_eq_true, bne_iff_ne, decide_eq_true_eq, ne_eq] at hc
        obtain ⟨⟨⟨⟨a1, a2⟩, a3⟩, a4⟩, a5⟩ := hc
        unfold readFace at e1
        have k1 := readRole_some m1
        have k2 := readRole_some m2
        have k3 := readRole_some m3
        have k4 := readRole_some m4
        rcases h with h | rfl | h | h | rfl | h | h | h | h | h | h | h
        · split at e1
          · rename_i e; exact h.1 (by apply BitVec.eq_of_toNat_eq; rw [e]; rfl)
          · rename_i e; exact h.2 (by apply BitVec.eq_of_toNat_eq; rw [e]; rfl)
          · cases e1
        · exact a1 rfl
        · have : 31 < first.toNat := h
          omega
        · have : 31 < second.toNat := h
          omega
        · exact a4 rfl
        · have : 5 < r1.toNat := h
          omega
        · have : 5 < r2.toNat := h
          omega
        · have : 5 < r3.toNat := h
          omega
        · have : 5 < r4.toNat := h
          omega
        · have d1 := k1.2; have d2 := k2.2; have d3 := k3.2; have d4 := k4.2
          unfold rolesFit at a5
          simp only [Bool.and_eq_true, decide_eq_true_eq] at a5
          obtain ⟨⟨b1, b2⟩, b3⟩ := a5
          obtain ⟨r, hr, hcount⟩ := h
          simp only [List.count_cons, List.count_nil, beq_iff_eq] at hcount
          simp only [Vector.toList_mk, List.count_cons, List.count_nil, beq_iff_eq] at b1 b2 b3
          simp only [List.mem_cons, List.not_mem_nil, or_false] at hr
          rcases hr with rfl | rfl | rfl
          · simp only [d1.1, d2.1, d3.1, d4.1] at b1; omega
          · simp only [d1.2.1, d2.2.1, d3.2.1, d4.2.1] at b2; omega
          · simp only [d1.2.2, d2.2.2, d3.2.2, d4.2.2] at b3; omega
        · have : 1 < mode.toNat := h
          unfold readYesNo at m5
          split at m5 <;> first | omega | cases m5
        · have : 7 < mask.toNat := h
          unfold readMask at m6
          split at m6 <;> first | omega | cases m6
      · cases e2
    · cases e2
  · rfl

/-- R172: a PUT DEPARTURE whose length disagrees with its stop count. -/
theorem parsePut_badLength (fields : List Byte) (h : fields.length ≠ 14 + 3 * (fields.getD 13 0).toNat) : parsePut fields = .error .badLength := by
  unfold parsePut
  split
  · simp at h
    rw [if_pos (by simp; omega)]
  · rfl

/-- R172: a PUT PLACE whose length disagrees with its name lengths. -/
theorem parsePlace_badLength (fields : List Byte)
    (h : fields.length ≠ 3 + (fields.getD 1 0).toNat + (fields.getD (2 + (fields.getD 1 0).toNat) 0).toNat) :
    parsePlace fields = .error .badLength := by
  unfold parsePlace
  split
  · rename_i n nl rest
    split
    · rename_i sl short e
      have hl := congrArg List.length e
      have hg : rest[nl.toNat]?.getD 0 = sl := by
        have : (rest.drop nl.toNat)[0]? = some sl := by rw [e]; rfl
        rw [List.getElem?_drop] at this
        simp at this; rw [this]; rfl
      simp only [List.length_drop, List.length_cons] at hl
      have hg2 : (n :: nl :: rest).getD (2 + nl.toNat) 0 = sl := by
        rw [Nat.add_comm 2, List.getD_eq_getElem?_getD, List.getElem?_cons_succ, List.getElem?_cons_succ]; exact hg
      rw [show (n :: nl :: rest).getD 1 0 = nl from rfl, hg2] at h
      simp only [List.length_cons] at h
      rw [if_pos (by simp; omega)]
    · rename_i e
      rfl
  · rfl

/-- R173: a POST NOTICE whose length disagrees with its text length. -/
theorem parseNotice_badLength (fields : List Byte) (h : fields.length ≠ 8 + (fields.getD 7 0).toNat) : parseNotice fields = .error .badLength := by
  unfold parseNotice
  split
  · simp at h
    rw [if_pos (by simp; omega)]
  · rfl

/-- R172: the status code. -/
theorem readStatus_eq (b : Byte) :
    readStatus b = if b ≤ 1 then some (if b = 0 then .running else .cancelled) else none := by revert b; decide

/-- A yes or no code. -/
theorem readYesNo_eq (b : Byte) : readYesNo b = if b ≤ 1 then some (decide (b = 1)) else none := by revert b; decide

/-- R29, R31, R32: the place entries that PUT PLACE refuses. -/
theorem parsePlace_badField (n : Byte) (name short : List Byte) (hn : name.length < 256) (hs : short.length < 256)
    (h : n = 0 ∨ name.length = 0 ∨ 24 < name.length ∨ 12 < short.length) :
    parsePlace (n :: byte name.length :: name ++ byte short.length :: short) = .error .badField := by
  have e1 : (byte name.length).toNat = name.length := byte_toNat hn
  have e2 : (byte short.length).toNat = short.length := byte_toNat hs
  rw [List.cons_append, List.cons_append]
  unfold parsePlace
  dsimp only
  rw [e1, List.drop_left]
  dsimp only
  rw [e2, if_neg (by simp)]
  unfold inRange
  rw [if_neg]
  simp only [Bool.and_eq_true, bne_iff_ne, decide_eq_true_eq]
  rintro ⟨⟨⟨h1, h2⟩, h3⟩, h4⟩
  rcases h with rfl | h | h | h
  · exact h1 rfl
  all_goals omega

/-- R51: the origins that PROBE RIGHTS refuses. -/
theorem parseProbe_badField (origin low high : Byte) (h : 2 < origin) : parseProbe [origin, low, high] = .error .badField := by
  unfold parseProbe
  dsimp only
  rw [show readPort origin.toNat = none from ?_]
  have : 2 < origin.toNat := h
  unfold readPort
  split <;> first | omega | rfl

/-- R70: the times that SET CLOCK refuses. -/
theorem parseClock_badField (hh mm ss : Byte) (h : 23 < hh ∨ 59 < mm ∨ 59 < ss) : parseClock [hh, mm, ss] = .error .badField := by
  unfold parseClock inRange
  dsimp only
  rw [if_neg]
  simp only [Bool.and_eq_true, decide_eq_true_eq]
  have h' : 23 < hh.toNat ∨ 59 < mm.toNat ∨ 59 < ss.toNat := h
  omega

end Sys2Proof.Machine
end

