-- ==== Sys2Proof/Tests/Slice0.lean ====
section
/-! SUPPORT. The model's own tests: the well-formedness checks refuse what they should, small steps of each command with values worked out from spec/, and for every statement with hypotheses a state and operands that meet them. -/

namespace Sys2Proof.Tests
-- one test at a time: a hundred evaluations at once would each take a thread of their own
set_option Elab.async false
open Sys2Proof Sys2Proof.Machine

/-! ## Well-formedness -/

theorem test_wellFormed_longest_fields : (Instr.putDeparture .lp0 1 (List.replicate 248 0)).wellFormed = true := by decide +kernel
theorem test_wellFormed_refuses_249_bytes : (Instr.putDeparture .lp0 1 (List.replicate 249 0)).wellFormed = false := by decide +kernel
theorem test_wellFormed_takes_an_unknown_kind : (Instr.unknownKindFrame .lp2 0x09 1 []).wellFormed = true := by decide +kernel
theorem test_wellFormed_refuses_a_known_kind : (Instr.unknownKindFrame .lp2 0x31 1 []).wellFormed = false := by decide +kernel
theorem test_no_row_gives_bits (nbits w : Nat) : decodeTableWord nbits w = none := rfl

/-! ## Small states -/

/-- The state a command leaves. -/
def run (i : Instr) (s : State) : State :=
  match exec i s with
  | .next t => t
  | .fault _ | .refused _ => s

/-- KIND with the top bit, TAG, reply code, event summary and result fields of the last reply. -/
def said (p : Port) (s : State) : List Byte := ((s.ports.get p).reply.drop 2).dropLast.dropLast

/-- A loader that is READY, everything else as after reset. -/
def open_ : State := { State.reset with loader := ⟨.ready, none⟩ }

/-- Reset, then a board with no settings memory: the end of LOADING. -/
def lit : State := run (.settingsReadComplete false) State.reset

def train : Departure :=
  ⟨815, 400, 4, 14, some 12, some 5, .running, some 8, false, [⟨11, none⟩, ⟨15, some 422⟩], false, .port .lp1, .port .lp1, 6⟩

def pinnedTrain : Departure := { train with code := 900, pinned := true }

def lowNotice : Notice := ⟨10, .low, .bottom, .a, false, 5, 1, str "Mind the gap", .lp1, 3⟩

/-- A board with two records, a reservation, a notice, a place and a running clock. -/
def stocked : State :=
  { open_ with
    table := [train, pinnedTrain], pinCount := 1, freeStops := 636, reservations := ⟨none, some 815, none⟩
    notices := [lowNotice], postCounter := 9, places := open_.places.set 13 (some ⟨str "Brenton Vale", some (str "Brenton")⟩)
    clock := ⟨6, 0, 58, true, some 360, .running, 0, none, .timekeeper, 77⟩ }

/-- Origin 0 holds every right, origin 2 holds STATUS on platforms 3 and 4 alone, origin 1 none. -/
def guarded : State :=
  let mine : Zone := ⟨true, .origin .lp0, 0, 31, ⟨true, true, true, true⟩⟩
  let theirs : Zone := ⟨true, .origin .lp2, 3, 4, ⟨false, true, false, false⟩⟩
  { stocked with zones := ((stocked.zones.set 0 mine).set 1 theirs) }

/-- The board with the divider of TIMEKEEPER at a whole second, port 1's silence count at its limit of 120 s and the
counter of every timer at its reload: what is due by R65, R73 and R169. -/
def due : State :=
  { stocked with
    clock := { stocked.clock with divider := 32768 }
    ports := ⟨stocked.ports.lp0, { stocked.ports.lp1 with count := 120000 }, stocked.ports.lp2⟩
    timers := stocked.timers.map fun t => { t with counter := t.reload } }

def recordBlock (code scheduled platform : Nat) (stops : List (Nat × Nat)) : List Byte :=
  be16 code ++ be16 scheduled ++ [byte platform, 14, 0, 0, 7, 0, 0, 0, 0, byte stops.length]
    ++ stops.flatMap fun x => byte x.1 :: be16 x.2

/-- AMEND's fields: every action leaves but the platform's. -/
def amendBlock (code platform : Nat) : List Byte := be16 code ++ [0, 0, 0, 0, byte platform, 0, 0, 0]

def noticeFields (id cls targets duration : Nat) (text : String) : List Byte :=
  [byte id, byte cls, 0, byte targets, 0] ++ be16 duration ++ [byte (str text).length] ++ str text

/-! ## Link ports -/

theorem test_crc_check_value : crc16 (str "123456789") = 0x29B1 ∧ checkBytes (str "123456789") = [0x29, 0xB1] := by decide +kernel
theorem test_bytes_of_a_frame_are_the_request :
    ((frameOfPayload [0x31, 9]).foldl (fun s b => run (.byteArrival .lp0 b) s) stocked).ports
      = (run (.readClock .lp0 9 []) stocked).ports := by decide +kernel
theorem test_framing_error_drops :
    ((run (.framingError .lp1) (run (.byteArrival .lp1 0xA5) open_)).ports.lp1.state,
      (run (.framingError .lp1) (run (.byteArrival .lp1 0xA5) open_)).capture.held.map fun c => c.locale.unit)
      = (.hunt, some (.port .lp1)) := by decide +kernel
theorem test_gap_drops_without_fault :
    run (.gapTimerExpiry .lp1) (run (.byteArrival .lp1 0xA5) open_) = open_ := by decide +kernel
theorem test_crc_fail_tells_every_port : (run (.frameCrcFail .lp2) open_).events.lp0.fault = true := by decide +kernel
theorem test_unknown_kind : said .lp0 (run (.unknownKindFrame .lp0 0x7F 5 []) open_) = [0xFF, 5, 8, 0] := by decide +kernel
theorem test_reply_sent_hunts :
    (run (.replySent .lp0) (run (.readClock .lp0 9 []) open_)).ports.lp0.state = .hunt := by decide +kernel
theorem test_silence_drops_the_reservation : (run (.portSilent .lp1) due).reservations = ⟨none, none, none⟩ := by decide +kernel
theorem test_a_frame_before_silence_keeps_the_port_live :
    let t := run (.portSilent .lp1) (run (.readClock .lp1 9 []) due)
    ((t.ports.get .lp1).silent, t.reservations.lp1) = (false, some 815) := by decide +kernel

/-! ## Departures and reservations -/

theorem test_put_departure_inserts_in_order :
    let t := run (.putDeparture .lp0 1 (recordBlock 77 400 5 [(3, 0xFFFF), (4, 410)])) stocked
    (said .lp0 t, t.table.map fun r => r.code, t.freeStops) = ([0x81, 1, 0, 0], [77, 815, 900], 634) := by decide +kernel
theorem test_put_departure_replaces :
    let t := run (.putDeparture .lp0 1 (recordBlock 815 400 5 [])) stocked
    (t.record? 815).map (fun r => (r.revision, r.owner, r.writer, r.platform))
      = some (7, .port .lp1, .port .lp0, 5) ∧ t.reservations.lp1 = none ∧ t.events.lp1.reservationLost = true := by decide +kernel
theorem test_amend_moves_the_platform :
    let t := run (.amend .lp0 1 (amendBlock 815 7)) stocked
    (t.record? 815).map (fun r => (r.platform, r.revision)) = some (7, 7) := by decide +kernel
theorem test_amend_names_the_missing_right :
    said .lp2 (run (.amend .lp2 1 (amendBlock 815 7)) guarded) = [0x82, 1, 1, 0, 2, 7] := by decide +kernel
theorem test_amend_if_reserved_lost :
    said .lp0 (run (.amendIfReserved .lp0 1 (amendBlock 815 7)) stocked) = [0x83, 1, 0x0A, 0] := by decide +kernel
theorem test_amend_if_reserved_kept :
    let t := run (.amendIfReserved .lp1 1 (amendBlock 815 7)) stocked
    (said .lp1 t, t.reservations.lp1, (t.record? 815).map fun r => r.platform) = ([0x83, 1, 0, 0], none, some 7) := by decide +kernel
theorem test_withdraw_departure :
    let t := run (.withdrawDeparture .lp0 1 (be16 900)) stocked
    (t.table.map fun r => r.code, t.pinCount, t.freeStops) = ([815], 0, 638) := by decide +kernel
theorem test_pin : (run (.pin .lp0 1 (be16 815)) stocked).pinCount = 2 := by decide +kernel
theorem test_unpin : (run (.unpin .lp0 1 (be16 900)) stocked).pinCount = 0 := by decide +kernel
theorem test_read_departure :
    said .lp0 (run (.readDeparture .lp0 1 (be16 815)) stocked)
      = [0x87, 1, 0, 0] ++ be16 815 ++ be16 400 ++ [4, 14, 12, 0, 5, 0, 8, 0, 6, 2, 11, 0xFF, 0xFF, 15] ++ be16 422 ++ [0, 1, 1] := by
  decide +kernel
theorem test_list_departures :
    said .lp0 (run (.listDepartures .lp0 1 [4]) stocked) = [0x88, 1, 0, 0, 2] ++ be16 815 ++ be16 900 := by decide +kernel
theorem test_reserve : (run (.reserve .lp2 1 (be16 900)) stocked).reservations = ⟨none, some 815, some 900⟩ := by decide +kernel
theorem test_drop_reservation : (run (.dropReservation .lp1 1 []) stocked).reservations.lp1 = none := by decide +kernel

/-! ## Places, zones, notices -/

theorem test_put_place :
    ((run (.putPlace .lp0 1 ([11, 7] ++ str "Aldmoor" ++ [0])) stocked).place? 11) = some ⟨str "Aldmoor", none⟩ := by decide +kernel
theorem test_withdraw_place : (run (.withdrawPlace .lp0 1 [14]) stocked).place? 14 = none := by decide +kernel
theorem test_read_place :
    said .lp0 (run (.readPlace .lp0 1 [14]) stocked)
      = [0x92, 1, 0, 0, 12] ++ str "Brenton Vale" ++ [7] ++ str "Brenton" := by decide +kernel
theorem test_write_zone_lockout :
    said .lp0 (run (.writeZone .lp0 1 [0, 1, 0xFF, 0, 31, 7]) stocked) = [0xA0, 1, 0x0B, 0] := by decide +kernel
theorem test_write_zone :
    (run (.writeZone .lp0 1 [3, 1, 2, 3, 4, 2]) stocked).zones[3] = ⟨true, .origin .lp2, 3, 4, ⟨false, true, false, false⟩⟩ := by
  decide +kernel
theorem test_read_zone : said .lp0 (run (.readZone .lp0 1 [1]) guarded) = [0xA1, 1, 0, 0, 1, 2, 3, 4, 2] := by decide +kernel
theorem test_probe_rights :
    said .lp2 (run (.probeRights .lp2 1 [2, 2, 4]) guarded) = [0xA2, 1, 0, 0, 0, 0, 0, 0, 1, 0, 0, 0, 0] := by decide +kernel
theorem test_post_notice :
    let t := run (.postNotice .lp0 1 (noticeFields 11 1 3 0 "Late")) stocked
    (said .lp0 t, t.notices.map fun n => n.id, t.postCounter) = ([0xA8, 1, 0, 0, 0, 9, 0], [10, 11], 10) := by decide +kernel
theorem test_withdraw_notice : (run (.withdrawNotice .lp0 1 [10]) stocked).notices = [] := by decide +kernel
theorem test_read_notice :
    said .lp0 (run (.readNotice .lp0 1 [10]) stocked)
      = [0xAA, 1, 0, 0, 10, 0, 0, 1, 0, 0, 5, 12] ++ str "Mind the gap" ++ [0, 1, 1, 0, 3] := by decide +kernel
theorem test_list_notices : said .lp0 (run (.listNotices .lp0 1 []) stocked) = [0xAB, 1, 0, 0, 1, 10] := by decide +kernel

/-! ## Clock and timers -/

theorem test_set_clock :
    (run (.setClock .lp0 1 [5, 7, 9]) open_).clock
      = { open_.clock with hh := 5, mm := 7, ss := 9, valid := true, prevMinute := some 307 } := by decide +kernel
theorem test_read_clock : said .lp0 (run (.readClock .lp0 1 []) stocked) = [0xB1, 1, 0, 0, 6, 0, 58, 1, 1, 1] := by decide +kernel
theorem test_oscillator_running : (run .oscillatorRunning State.reset).clock.source = .timekeeper := by decide +kernel
theorem test_startup_deadline :
    ((run .startupDeadlineExpiry State.reset).clock.source, (run .startupDeadlineExpiry State.reset).capture.held.map fun c => c.kind)
      = (.system, some .timekeeperNotReady) := by decide +kernel
theorem test_second_event_expires_the_notice :
    let t := run .secondEvent due
    (t.clock.ss, t.notices, t.events.lp1.noticeExpired) = (59, [], true) := by decide +kernel
theorem test_minute_event_closes_the_day :
    let late : State := { due with clock := { due.clock with hh := 2, mm := 59, ss := 59, prevMinute := some 179 } }
    (run .secondEvent late).table = [pinnedTrain] := by decide +kernel
theorem test_set_clock_before_the_second_event :
    let t := run (.setClock .lp0 1 [6, 0, 58]) due
    (t.clock.divider, run .secondEvent t) = (0, t) := by decide +kernel
theorem test_timer_expiry_single_stops :
    let s : State := { open_ with timers := open_.timers.set 5 ⟨250, .ms1, .single, 250, 0, true⟩ }
    (run (.timerExpiry 5) s).timers[5] = ⟨250, .ms1, .single, 0, 0, false⟩ ∧ (run (.timerExpiry 5) s).ambient.converting = true := by
  decide +kernel
theorem test_idle_step_queues_the_plans : step lit = .next { lit with pending := [.plan .a, .plan .b] } := rfl

/-! ## Faces, panels and inputs -/

/-- A face that may be woken: configured OFF, DARK. -/
def asleep (s : State) : State :=
  { s with faces := ⟨s.faces.a, { s.faces.b with settings := { s.faces.b.settings with modeOn := false }, state := .dark }⟩ }

theorem test_events_fall_due_at_their_counts :
    ({ Clock.reset with startCount := 32766 }.cycle.cycleDue, { Clock.reset with startCount := 32767 }.cycle.cycleDue)
        = ([], [.oscillatorRunning]) ∧
      ({ stocked.clock with divider := 32766 }.cycle.cycleDue, { stocked.clock with divider := 32767 }.cycle.cycleDue)
        = ([], [.secondEvent]) ∧
      ({ Clock.reset with deadline := some 1998 }.tick.tickDue, { Clock.reset with deadline := some 1999 }.tick.tickDue)
        = ([], [.startupDeadlineExpiry]) ∧
      ({ stocked.clock with source := .system, divider := 998 }.tick.tickDue,
        { stocked.clock with source := .system, divider := 999 }.tick.tickDue) = ([], [.secondEvent]) ∧
      ((Timer.mk 2 .ms10 .auto 1 8 true).tick.over, (Timer.mk 2 .ms10 .auto 1 9 true).tick.over) = (false, true) := by
  decide +kernel
theorem test_port_events_fall_due_at_their_counts :
    let counting (gap count : Nat) : LinkPort := { LinkPort.reset with state := .receive, gap := gap, count := count }
    ((counting 19 119998).tick.tickDue .lp2, (counting 20 119999).tick.tickDue .lp2)
      = ([], [.gapTimerExpiry .lp2, .portSilent .lp2]) := by decide +kernel
theorem test_panel_events_fall_due_at_their_counts :
    let waiting (left elapsed : Nat) : Panel := { Panel.reset with out := .starting, startLeft := left, elapsed := elapsed }
    ((waiting 2 8).tick.tickDue 0 .a).length = 0 ∧ ((waiting 1 8).tick.tickDue 0 .a) = [.panelStartupDelayExpiry .a] ∧
      ((waiting 1 9).tick.tickDue 0 .a).length = 2 ∧
      ((waiting 1 9).tick.tickDue 0 .a).head? = some (.panelStartupDelayExpiry .a) := by decide +kernel

theorem test_set_face :
    ((run (.setFace .lp0 1 [2, 5, 0, 0, 1, 2, 5, 0, 3]) lit).faces.b.state, (run (.setFace .lp0 1 [2, 5, 0, 0, 1, 2, 5, 0, 3]) lit).panels.b.out)
      = (.dark, .off) := by decide +kernel
theorem test_read_face :
    said .lp0 (run (.readFace .lp0 1 [2]) lit) = [0xB9, 1, 0, 8, 2, 0, 1, 2, 3, 5, 1, 7, 0, 0] := by decide +kernel
theorem test_read_shown_length : (said .lp0 (run (.readShown .lp0 1 []) lit)).length = 60 := by decide +kernel
theorem test_read_inputs :
    said .lp0 (run (.readInputs .lp0 1 []) open_) = [0xBB, 1, 0, 0] ++ (List.replicate 4 [0, 3, 0, 20, 0, 0, 0]).flatten := by
  decide +kernel
theorem test_conversion_fills_the_ring :
    (run (.conversionCompletion 300) { open_ with ambient := { open_.ambient with converting := true } }).ambient.level = 300 := by
  decide +kernel
theorem test_curve_between_points : [0, 300, 512, 1000, 1023].map (curveDuty Ambient.reset.curve) = [16, 85, 160, 252, 255] := by
  decide +kernel
theorem witness_CurveTable :
    let curve := Ambient.reset.curve
    (∀ i : Fin 7, curve[i.val].amb < curve[i.val + 1].amb ∧ curve[i.val].duty ≤ curve[i.val + 1].duty) ∧
      (curve[0].amb ≤ curve[0].amb ∧ curve[7].amb ≤ 1023) ∧ (∃ i : Fin 7, curve[i.val].amb ≤ 300 ∧ 300 < curve[i.val + 1].amb) ∧
      moduleDuty 255 129 = 255 := by decide +kernel
theorem test_plan_of_an_empty_table :
    (run (.plan .a) lit).faces.a.inHand.map (fun plan => plan.lines.toList.map fun l => l.source)
      = some [.phrase, .none, .none, .clock] := by decide +kernel
theorem test_paint_and_swap :
    let s := run (.frameBoundary .a 0 0 0 0) (run (.paintCompletion .a 1) (run (.plan .a) lit))
    (s.faces.a.rebuild, s.panels.a.frontPlan.serial, s.events.lp2.shownChanged) = (.idle, 1, true) := by decide +kernel
theorem test_light_of_a_pixel :
    let panel : Panel := { lit.panels.b with out := .driving, duties := lit.panels.b.duties.set 17 99 }
    let s : State := { lit with
      faces := ⟨lit.faces.a, { lit.faces.b with state := .lampTest }⟩, panels := ⟨lit.panels.a, panel⟩ }
    let t := run (.frameBoundary .b 0 0 0 0) s
    (t.light .b 32 47, t.light .b 63 32, t.light .a 32 47) = (99, 99, 0) := by decide +kernel
theorem test_ladder_takes_the_first_that_fits :
    (destinationLadder 100 (str "Aldmoor") (some (str "Upper")) none, destinationLadder 50 (str "Aldmoor") (some (str "Upper")) none,
      destinationLadder 30 (str "Aldmoor") none (some (str "Ald")), destinationLadder 10 (str "Aldmoor") none (some (str "Ald")))
      = ((str "Aldmoor via Upper", 1), (str "Aldmoor", 2), (str "Ald", 3), (str "Al", 4)) := by decide +kernel
theorem test_panel_startup : (run (.panelStartupDelayExpiry .b) lit).panels.b.out = .driving := by decide +kernel
theorem test_chain_check_is_sent :
    let driving : Panel := { Panel.reset with out := .driving, counter := 99 }
    (run (.frameBoundary .b 0 0 0 0) { open_ with panels := ⟨Panel.reset, driving⟩ }).panels.b.check = .inFlight 0x96E15A0F := by
  decide +kernel
theorem test_change_counts_wakes :
    let wake : InputLine := ⟨.wake, .b, 0, 20, .high, 21⟩
    let off : Composer := { lit.faces.b with settings := { lit.faces.b.settings with modeOn := false }, state := .dark }
    (run (.changeCounts 1) { lit with faces := ⟨lit.faces.a, off⟩, lines := (lit.lines.set 1 wake) }).faces.b.countdown = 0 ∧
    (run (.changeCounts 1) { lit with faces := ⟨lit.faces.a, off⟩, lines := (lit.lines.set 1 { wake with settled := .low }) }).faces.b.state
      = .woken := by decide +kernel
theorem test_pin_sample_counts : (run (.pinSample 2 .high) open_).lines[2].pending = 1 := by decide +kernel

/-! ## Faults, parameters, settings -/

theorem test_read_faults :
    said .lp1 (run (.readFaults .lp1 1 []) lit) = [0xC8, 1, 0, 8, 1, 0, 2, 6, 0, 0, 0, 0xFF, 0xFF, 1, 6] := by decide +kernel
theorem test_clear_faults : (run (.clearFaults .lp1 1 []) lit).capture = ⟨none, false⟩ := by decide +kernel
theorem test_read_events :
    (said .lp1 (run (.readEvents .lp1 1 []) lit), (run (.readEvents .lp1 1 []) lit).attn .lp1) = ([0xCA, 1, 0, 0, 8], false) := by
  decide +kernel
theorem test_set_parameter : (run (.setParameter .lp0 1 [0x30, 20]) open_).params.framePeriod = 20 := by decide +kernel
theorem test_set_parameter_range : said .lp0 (run (.setParameter .lp0 1 [0x30, 21]) open_) = [0xC0, 1, 7, 0] := by decide +kernel
theorem test_read_parameter : said .lp0 (run (.readParameter .lp0 1 [0x12]) open_) = [0xC1, 1, 0, 0, 0x0F, 0xA0] := by decide +kernel
theorem test_store_settings :
    let s := run (.storeSettings .lp1 9 []) open_
    (s.loader.phase, s.ports.lp1.state, s.loader.store.map fun j => j.port) = (.storing, .execute, some .lp1) := by decide +kernel
theorem test_store_complete :
    let job : StoreJob := ⟨.lp1, 9, [1, 0, 2]⟩
    let t := run (.storeComplete .verified) { open_ with loader := ⟨.storing, some job⟩ }
    (said .lp1 t, t.mem) = ([0xC2, 9, 0, 0], [(0, 1), (2, 2)]) := by decide +kernel
theorem test_board_restart_keeps_the_clock :
    let t := run (.boardRestart .lp0 1 []) stocked
    (said .lp0 t, t.clock, t.table, t.loader.phase) = ([0xC3, 1, 0, 0], stocked.clock, [], .loading) := by decide +kernel
/-- Port 1 at 300 s of its limit of 600 s: LIVE through a restart's LOADING, and SILENT once the default is in force. -/
theorem test_restart_keeps_the_limit_in_force :
    let quiet : LinkPort := { LinkPort.reset with limit := 600, limitInForce := 600, count := 300000 }
    let t := run (.boardRestart .lp0 1 []) { stocked with ports := ⟨stocked.ports.lp0, quiet, stocked.ports.lp2⟩ }
    let u := run (.settingsReadComplete false) t
    (t.loader.phase = .loading ∧ t.ports.lp1.limit = 120 ∧ t.ports.lp1.limitInForce = 600 ∧
      (run (.portSilent .lp1) t).ports.lp1.silent = false) ∧
    u.ports.lp1.limitInForce = 120 ∧ (run (.portSilent .lp1) u).ports.lp1.silent = true := by decide +kernel
theorem test_set_limit_governs :
    ((run (.setParameter .lp0 1 [0x3D, 0, 7]) open_).ports.lp1.limitInForce,
      (run (.setParameter .lp0 1 [0x41, 1]) open_).ports.lp1.staleInForce) = (7, .hide) := by decide +kernel
theorem test_reset_samples_the_lines :
    let t := run (.reset .low .high .low .low) stocked
    (t.lines.map fun l => l.settled, t.table, t.loader.phase) = (#v[.low, .high, .low, .low], [], .loading) := by decide +kernel
theorem test_loading_without_memory : lit.capture.held.map (fun c => c.kind) = some .settingsAbsent := by decide +kernel

/-! ## Each statement's hypotheses are met -/

/-- A READY board whose port 0 is receiving. -/
def receiving (len : Option Nat) (data : List Byte) : State :=
  { open_ with ports := ⟨{ LinkPort.reset with state := .receive, len := len, data := data }, LinkPort.reset, LinkPort.reset⟩ }

/-- A READY board whose port 0 is in the state given, SILENT if asked. -/
def portIn (state : PortState) (silent : Bool) : State :=
  { open_ with ports := ⟨{ LinkPort.reset with state := state, silent := silent }, LinkPort.reset, LinkPort.reset⟩ }

theorem witness_empty_queue : open_.pending = [] ∧ lit.plansDue ≠ [] ∧ lit.pending = [] ∧ open_.plansDue = [] := by decide +kernel
theorem witness_ByteInHunt : (open_.ports.get .lp0).state = .hunt := by decide +kernel
theorem witness_LenAndPayload :
    ((receiving none []).ports.get .lp0).state = .receive ∧ ((receiving none []).ports.get .lp0).len = none ∧
      ((receiving (some 2) []).ports.get .lp0).len = some 2 ∧ ((receiving (some 2) []).ports.get .lp0).data.length + 1 ≠ 2 + 2 := by
  decide +kernel
theorem witness_LastByteOfAGoodFrame :
    ∃ (b : Byte) (data : List Byte), ((receiving (some 2) data).ports.get .lp0).state = .receive ∧
      ((receiving (some 2) data).ports.get .lp0).len = some (([] : List Byte).length + 2) ∧
      ((receiving (some 2) data).ports.get .lp0).data = data ∧
      data ++ [b] = (0x31 :: 9 :: []) ++ checkBytes (byte (0 + 2) :: 0x31 :: 9 :: []) :=
  ⟨(checkBytes [2, 0x31, 9])[1]!, [0x31, 9, (checkBytes [2, 0x31, 9])[0]!], by decide +kernel⟩
theorem witness_BadFrame :
    let s := receiving (some 2) [0x31, 9, 0]
    (s.ports.get .lp0).len = some 2 ∧ (s.ports.get .lp0).data.length + 1 = 2 + 2 ∧
      ((s.ports.get .lp0).data ++ [0]).drop 2 ≠ checkBytes (byte 2 :: ((s.ports.get .lp0).data ++ [0]).take 2) := by decide +kernel
theorem witness_port_states :
    ((receiving none []).ports.get .lp0).state = .receive ∧ ((portIn .reply false).ports.get .lp0).state = .reply ∧
      ((portIn .execute false).ports.get .lp0).state = .execute ∧ ((portIn .hunt true).ports.get .lp0).silent = true ∧
      (open_.ports.get .lp0).silent = false ∧ (open_.ports.get .lp0).limitInForce ≠ 0 := by decide +kernel
theorem witness_PortBecomesSilent :
    (due.ports.get .lp1).silent = false ∧ (due.ports.get .lp1).limitInForce ≠ 0 ∧
      (due.ports.get .lp1).limitInForce * 1000 ≤ (due.ports.get .lp1).count ∧ (due.ports.get .lp1).count ≤ 120000 ∧
      (due.ports.get .lp0).count < (due.ports.get .lp0).limitInForce * 1000 ∧ (due.ports.get .lp1).listening = true ∧
      ((portIn .hunt true).ports.get .lp0).listening = true ∧
      ({ LinkPort.reset with limitInForce := 0 } : LinkPort).limitInForce = 0 := by decide +kernel
theorem witness_LoadingAnswers : (State.reset.ports.get .lp0).listening = true ∧ State.reset.loader.phase = .loading := by
  decide +kernel
theorem witness_BadKinds :
    open_.ready .lp0 ∧ catalogue.contains (0x00 : Byte).toNat = false ∧ catalogue.contains (0xFF : Byte).toNat = false ∧
      ([1] : List Byte).length ≠ 0 ∧ ([] : List Byte).length ≠ 1 := by
  unfold State.ready; decide +kernel
theorem witness_BadLengthsInFields :
    let short (n at_ : Nat) (v : Byte) : List Byte := (List.replicate n 0).set at_ v
    (short 14 13 1).length ≠ 14 + 3 * ((short 14 13 1).getD 13 0).toNat ∧
      (short 3 1 1).length ≠ 3 + ((short 3 1 1).getD 1 0).toNat + ((short 3 1 1).getD (2 + ((short 3 1 1).getD 1 0).toNat) 0).toNat ∧
      (short 8 7 1).length ≠ 8 + ((short 8 7 1).getD 7 0).toNat ∧ (∀ q ∈ Param.all, q.row.number ≠ (0x08 : Byte).toNat) ∧
      Param.framePeriod.row.number = (0x30 : Byte).toNat ∧ ([] : List Byte).length ≠ Param.framePeriod.row.bytes := by decide +kernel
theorem witness_BadFields :
    let place (name short : Nat) : List Byte := byte name :: List.replicate name 65 ++ byte short :: List.replicate short 65
    ((parsePut (recordBlock 0 400 5 [])).isOk = false ∧ (parsePut (recordBlock 1 400 5 [])).isOk = true) ∧
      ((parseClock [23, 59, 59]).isOk = true ∧ 23 < (24 : Byte) ∧ 59 < (60 : Byte)) ∧
      ((parseProbe [2, 0, 0]).isOk = true ∧ 2 < (3 : Byte)) ∧
      (parsePlace (255 :: place 24 12)).isOk = true ∧ (parsePlace (255 :: place 1 0)).isOk = true ∧
      (∀ bad ∈ [0 :: place 1 0, 1 :: place 0 0, 1 :: place 25 0, 1 :: place 1 13], (parsePlace bad).isOk = false) ∧
      (parseNonZero [0]).isOk = false ∧ (parseCode [0, 0]).isOk = false := by decide +kernel
theorem test_amend_fields_at_their_limits :
    (parseAmend [0, 1, 2, 0, 0, 3, 31, 2, 2, 0]).isOk = true ∧
      (∀ bad ∈ ([[0, 0, 0, 0, 0, 0, 0, 0, 0, 0], [0, 1, 3, 0, 0, 0, 0, 0, 0, 0], [0, 1, 0, 0, 0, 4, 0, 0, 0, 0],
          [0, 1, 0, 0, 0, 0, 32, 0, 0, 0], [0, 1, 0, 0, 0, 0, 0, 3, 0, 0], [0, 1, 0, 0, 0, 0, 0, 0, 3, 0]] : List (List Byte)),
        (parseAmend bad).isOk = false) := by decide +kernel
theorem test_notice_fields_at_their_limits :
    (parseNotice [255, 1, 1, 3, 1, 0xFF, 0xFF, 1, 65]).isOk = true ∧
      (∀ bad ∈ ([[0, 1, 1, 3, 1, 0, 0, 1, 65], [1, 2, 1, 3, 1, 0, 0, 1, 65], [1, 1, 2, 3, 1, 0, 0, 1, 65],
          [1, 1, 1, 0, 1, 0, 0, 1, 65], [1, 1, 1, 4, 1, 0, 0, 1, 65], [1, 1, 1, 3, 2, 0, 0, 1, 65],
          [1, 1, 1, 3, 1, 0, 0, 0], [1, 1, 1, 3, 1, 0, 0, 161] ++ List.replicate 161 65] : List (List Byte)),
        (parseNotice bad).isOk = false) := by decide +kernel
theorem test_face_fields_at_their_limits :
    (parseSetFace [2, 31, 30, 1, 2, 3, 5, 1, 7]).isOk = true ∧
      (∀ bad ∈ ([[0, 1, 0, 1, 2, 3, 5, 1, 7], [3, 1, 0, 1, 2, 3, 5, 1, 7], [1, 0, 0, 1, 2, 3, 5, 1, 7], [1, 32, 0, 1, 2, 3, 5, 1, 7],
          [1, 1, 32, 1, 2, 3, 5, 1, 7], [1, 1, 1, 1, 2, 3, 5, 1, 7], [1, 1, 0, 1, 2, 3, 6, 1, 7], [1, 1, 0, 1, 1, 3, 5, 1, 7],
          [1, 1, 0, 2, 2, 3, 5, 1, 7], [1, 1, 0, 1, 2, 5, 5, 1, 7], [1, 1, 0, 1, 2, 3, 5, 2, 7], [1, 1, 0, 1, 2, 3, 5, 1, 8]]
          : List (List Byte)), (parseSetFace bad).isOk = false) := by decide +kernel
theorem witness_PutDepartureBlock :
    ∀ stops ∈ [[], List.replicate 32 (⟨255, some 1439⟩ : Stop), List.replicate 78 ⟨0, some 65534⟩],
      stops.length ≤ 78 ∧ ∀ st ∈ stops, st.place < 256 ∧ (∀ m ∈ st.time.toList, m < 65535) := by decide +kernel

theorem test_put_block_of_the_longest_frame :
    let block (count : Byte) : List Byte :=
      be16 1 ++ be16 1439 ++ [31, 255, 0, 0xFF, 0xFF, 1, 0, 1, 0, count] ++ (List.replicate 78 [1, 5, 0x9F]).flatten
    (block 78).length = 248 ∧ parsePut (block 78) = .error .badField ∧ parsePut (block 77) = .error .badLength := by decide +kernel
theorem test_put_block_codes :
    let block (status approaching : Byte) : List Byte :=
      be16 1 ++ be16 1439 ++ [31, 255, 0, 0xFF, 0xFF, status, 0, approaching, 9, 0]
    ((parsePut (block 1 1)).isOk, parsePut (block 2 1), parsePut (block 1 2))
      = (true, .error .badField, .error .badField) := by decide +kernel

/-! ### Departures -/

def insertion : PutRequest := ⟨77, 400, 5, 14, none, some 7, .running, none, false, [⟨3, none⟩, ⟨4, some 410⟩]⟩
def insertionFields : List Byte := recordBlock 77 400 5 [(3, 0xFFFF), (4, 410)]
def replacement : PutRequest := { insertion with code := 815, stops := [⟨1, none⟩, ⟨2, none⟩, ⟨3, none⟩] }
def replacementFields : List Byte := recordBlock 815 400 5 [(1, 0xFFFF), (2, 0xFFFF), (3, 0xFFFF)]
def fullTable : State :=
  { stocked with table := ((List.range 48).map fun i => { train with code := 1000 + i }), freeStops := 544 }
def amendment (platform : Nat) : AmendRequest := ⟨815, .leave, .leave, .set platform, .leave, .leave⟩
def departure : AmendRequest := ⟨815, .leave, .departed, .leave, .leave, .leave⟩
def departureFields : List Byte := be16 815 ++ [0, 0, 0, 3, 0, 0, 0, 0]

theorem witness_stocked_ready : stocked.ready .lp0 ∧ stocked.ready .lp1 ∧ guarded.ready .lp1 ∧ guarded.ready .lp2 := by
  unfold State.ready; decide +kernel
/-- A table in order, and a record that goes between two of equal service keys, by its code. -/
theorem witness_InsertOrdered :
    let table := [train, { train with code := 900 }]
    let t := insertRecord 180 { train with code := 850 } table
    (table.Pairwise fun x y => x.before 180 y = true) ∧ (∀ x ∈ table, x.code ≠ 850) ∧ t.map (fun r => r.code) = [815, 850, 900] ∧
      serviceKey 180 179 = 1439 ∧ serviceKey 180 180 = 0 := by decide +kernel
theorem witness_PutDeparture :
    parsePut insertionFields = .ok insertion ∧ stocked.record? 77 = none ∧ stocked.allows .lp0 .depart [5] ∧
      stocked.table.length < 48 ∧ insertion.stops.length ≤ stocked.freeStops ∧
    parsePut replacementFields = .ok replacement ∧ stocked.record? 815 = some train ∧
      stocked.allows .lp0 .depart [4, 5] ∧ replacement.stops.length ≤ stocked.freeStops + train.stops.length := by
  unfold State.allows; decide +kernel
theorem witness_PutDepartureCapacity :
    48 ≤ fullTable.table.length ∧ fullTable.record? 77 = none ∧
      ({ stocked with freeStops := 1 } : State).freeStops < insertion.stops.length ∧
      ({ stocked with freeStops := 0 } : State).freeStops + train.stops.length < replacement.stops.length := by decide +kernel
theorem witness_Amend :
    parseAmend (amendBlock 815 7) = .ok (amendment 7) ∧ (amendment 7).applied train ≠ train ∧
      parseAmend (amendBlock 815 4) = .ok (amendment 4) ∧ (amendment 4).applied train = train ∧
      stocked.allows .lp0 .status [4, 7] ∧ stocked.allows .lp1 .status [4, 4] ∧
      parseAmend departureFields = .ok departure ∧ stocked.allows .lp0 .status [4] ∧
      stocked.reservations.get .lp1 = some 815 ∧ stocked.reservations.get .lp0 ≠ some 815 := by
  unfold State.allows; decide +kernel
theorem witness_AmendIfReserved :
    parseAmend (amendBlock 815 7) = .ok (amendment 7) ∧ (amendment 7).status ≠ .departed ∧ (amendment 7).applied train ≠ train ∧
      stocked.record? 815 = some train ∧ stocked.allows .lp1 .status (train.platform :: (amendment 7).platform.toOption.toList) ∧
      stocked.allows .lp1 .status (train.platform :: (amendment 4).platform.toOption.toList) ∧
      stocked.allows .lp1 .status (train.platform :: departure.platform.toOption.toList) ∧
      departure.status = .departed ∧ stocked.reservations.get .lp1 = some (amendment 7).code ∧
      stocked.reservations.get .lp0 ≠ some (amendment 7).code := by
  unfold State.allows; decide +kernel
theorem witness_Reserve :
    ([0x03, 0x2F] : List Byte) = be16 815 ∧ ([0x03] : List Byte).length ≠ 2 ∧ stocked.record? (3 * 256 + 47) = some train ∧
      stocked.allows .lp2 .status [train.platform] ∧ ¬ guarded.allows .lp1 .status [train.platform] ∧
      guarded.record? 815 = some train ∧ stocked.record? (0xFF * 256 + 0xFF) = none := by
  unfold State.allows; decide +kernel
theorem witness_codes :
    parseCode (be16 815) = .ok 815 ∧ parseCode (be16 900) = .ok 900 ∧ parseCode (be16 1) = .ok 1 ∧
      stocked.record? 900 = some pinnedTrain ∧ stocked.record? 1 = none ∧ train.pinned = false ∧ pinnedTrain.pinned = true ∧
      stocked.pinCount < 4 ∧ 4 ≤ ({ stocked with pinCount := 4 } : State).pinCount ∧
      granted guarded.zones .lp1 .status 4 = false ∧ granted guarded.zones .lp2 .depart 4 = false := by decide +kernel

/-! ### Places, zones, notices -/

theorem witness_Places :
    stocked.place? 14 = some ⟨str "Brenton Vale", some (str "Brenton")⟩ ∧ stocked.place? 1 = none ∧ stocked.place? 255 = none ∧
      stocked.allows .lp0 .depart [0] ∧ (str "Brenton Vale").length ≤ 24 := by
  unfold State.allows; decide +kernel
theorem witness_WriteZone :
    let z : Zone := ⟨true, .origin .lp2, 3, 4, ⟨false, true, false, false⟩⟩
    stocked.allows .lp0 .config [0] ∧ z.low ≤ 31 ∧ z.high ≤ 31 ∧
      (∃ m : Fin 8, (stocked.zones.set 3 z)[m].enabled = true ∧ (stocked.zones.set 3 z)[m].low = 0 ∧
        (stocked.zones.set 3 z)[m].rights.config = true) ∧
      ¬ (∃ m : Fin 8, (stocked.zones.set 0 z)[m].enabled = true ∧ (stocked.zones.set 0 z)[m].low = 0 ∧
        (stocked.zones.set 0 z)[m].rights.config = true) ∧
      (7 : Byte) < 8 ∧ (31 : Byte) < 32 ∧ (15 : Byte) < 16 := by
  unfold State.allows; decide +kernel
theorem witness_ProbeRights :
    stocked.allows .lp0 .config [0] ∧ ¬ guarded.allows .lp2 .config [0] ∧ (Port.lp0 ≠ .lp2) ∧
      (2 : Byte) ≤ 4 ∧ (4 : Byte) ≤ 31 ∧ (5 : Byte) < 9 := by
  unfold State.allows; decide +kernel
theorem witness_StationRequestsRefused :
    granted guarded.zones .lp2 .config 0 = false ∧ granted guarded.zones .lp2 .depart 0 = false ∧
      (parsePlace ([11, 7] ++ str "Aldmoor" ++ [0])).isOk = true ∧ (parseNonZero [14]).isOk = true ∧
      (parseWriteZone [3, 1, 2, 3, 4, 2]).isOk = true ∧ (parseClock [23, 59, 59]).isOk = true ∧
      (parseSetFace [2, 5, 0, 0, 1, 2, 5, 0, 3]).isOk = true ∧ (parseSetParameter [0x30, 20]).isOk = true ∧
      ([] : List Byte).isEmpty = true := by decide +kernel
theorem witness_Reads :
    (7 : Byte).toNat < 8 ∧ 8 ≤ (8 : Byte).toNat ∧ (0 : Byte) ≠ 1 ∧ (0 : Byte) ≠ 2 := by decide +kernel

def post (id : Nat) (cls : NoticeClass) : NoticeRequest := ⟨id, cls, .full, .both, true, 0, str "Late"⟩

/-- The first platform without its right: for a change of platform 4 to 7 on port 2, for a new record on port 1, and
for a notice on both faces. -/
theorem witness_FirstPlatform :
    guarded.allows .lp2 .status [4] ∧ granted guarded.zones .lp2 .status 7 = false ∧
      granted guarded.zones .lp2 .depart 4 = false ∧ granted guarded.zones .lp2 .notice 1 = false ∧
      guarded.allows .lp0 .notice [1] ∧ (guarded.notice? 10).isSome = true ∧ guarded.record? 1 = none ∧
      guarded.allows .lp0 .status [7] ∧ (parseAmend (amendBlock 1 7)).isOk = true ∧
      said .lp2 (run (.putDeparture .lp2 1 replacementFields) guarded) = [0x81, 1, 1, 0, 1, 4] ∧
      said .lp2 (run (.postNotice .lp2 1 (noticeBlock (post 11 .high))) guarded) = [0xA8, 1, 1, 0, 3, 1] ∧
      said .lp2 (run (.withdrawNotice .lp2 1 [10]) guarded) = [0xA9, 1, 1, 0, 3, 1] := by
  unfold State.allows; decide +kernel
/-- Eight notices, all high or with a low one at the end. -/
def fullStore (last : NoticeClass) : State :=
  { stocked with notices := ((List.range 7).map fun i => { lowNotice with id := 20 + i, cls := .high }) ++ [{ lowNotice with cls := last }] }

theorem witness_PostNotice :
    stocked.notice? 10 = some lowNotice ∧ stocked.notice? 11 = none ∧
      stocked.allows .lp0 .notice (stocked.facePlatforms fun f => (post 10 .high).targets.has f || lowNotice.targets.has f) ∧
      stocked.notices.length < 8 ∧ 8 ≤ (fullStore .low).notices.length ∧ (fullStore .low).notice? 11 = none ∧
      (fullStore .low).allows .lp0 .notice ((fullStore .low).facePlatforms (post 11 .high).targets.has) ∧
      (fullStore .low).notices.find? (fun n => n.cls == .low) = some { lowNotice with cls := .low } ∧
      (∀ n ∈ (fullStore .high).notices, n.cls = .high) ∧ 1 ≤ (post 11 .low).text.length := by
  unfold State.allows; decide +kernel

theorem witness_NoticeReaches :
    (asleep stocked).wakes .b ((asleep stocked).faces.get .b).settings.mask.notice ∧
      ¬ stocked.wakes .a (stocked.faces.get .a).settings.mask.notice ∧ (post 11 .high).targets.has .b = true ∧
      (run (.postNotice .lp0 1 (noticeBlock (post 11 .high))) (asleep stocked)).faces.b.countdown = 30 ∧
      (run (.postNotice .lp0 1 (noticeBlock (post 11 .high))) (asleep stocked)).faces.b.state = .woken ∧
      (run (.postNotice .lp0 1 (noticeBlock (post 11 .low))) (asleep stocked)).faces.b.state = .dark := by
  unfold State.wakes; decide +kernel

/-- A notice of either class for face A alone: face A is marked, face B left, or marked alone where its port turns LIVE. -/
theorem witness_NoticeLeavesTheOtherFace :
    let quiet : State := { asleep lit with faces := ⟨{ lit.faces.a with dirty := false }, (asleep lit).faces.b⟩ }
    let silent : State := { quiet with ports := ⟨{ LinkPort.reset with silent := true }, LinkPort.reset, LinkPort.reset⟩ }
    ∀ cls ∈ [NoticeClass.high, .low],
      let q : NoticeRequest := { post 11 cls with targets := .a }
      let t := run (.postNotice .lp0 1 (noticeBlock q)) quiet
      let u := run (.postNotice .lp0 1 (noticeBlock q)) { silent with faces := ⟨quiet.faces.a, { quiet.faces.b with dirty := false }⟩ }
      q.targets.has .a = true ∧ q.targets.has .b = false ∧ t.faces.a = { quiet.faces.a with dirty := true } ∧
        t.faces.b = quiet.faces.b ∧ u.faces.b = { quiet.faces.b with dirty := true } := by decide +kernel

/-! ### Soundness of the states used -/

theorem tableSound_stocked : TableSound stocked where
  atMost := by decide +kernel
  codesDistinct := by decide +kernel
  ordered := by decide +kernel
  stopsEach := by decide +kernel
  pool := by decide +kernel
  pins := by decide +kernel
  pinsMost := by decide +kernel
  reserved := by
    intro p code h
    cases p <;> cases h
    decide +kernel

theorem clockSound_stocked : ClockSound stocked := ⟨by decide, by decide, by decide, by decide, by decide⟩
theorem noticesSound_stocked : NoticesSound stocked := ⟨by decide +kernel, by decide +kernel, by decide +kernel, by decide +kernel⟩

theorem places_open (n : Nat) (e : Place) : open_.place? n ≠ some e := by
  intro h
  unfold State.place? at h
  split at h
  · rw [show open_.places = Vector.replicate 255 none from rfl, Vector.getElem_replicate] at h
    cases h
  · cases h

theorem settingsInRange_open : SettingsInRange open_ where
  params := by
    intro q
    cases q with
    | reload i | unit i | mode i => revert i; decide +kernel
    | cap f => cases f <;> decide +kernel
    | baud p | limit p | stale p => cases p <;> decide +kernel
    | line l => revert l; decide +kernel
    | trim f m => cases f <;> (revert m; decide +kernel)
    | _ => decide +kernel
  zones := by decide +kernel
  faces := by intro f; cases f <;> decide +kernel
  names := fun n e h => absurd h (places_open n e)

theorem memorySound_open : MemorySound open_ :=
  ⟨by decide, fun n e h => absurd h (places_open n e), fun j h => by cases h⟩

/-- A state that a fired store left: its image in the memory, the loader LOADING. -/
def loading (mem : Memory) : State := { State.reset with mem := mem }

theorem faceSound_lit (f : Face) : FaceSound lit f where
  dark := by cases f <;> decide +kernel
  driven := by cases f <;> decide +kernel
  settled := by cases f <;> decide +kernel
  loading := by cases f <;> decide +kernel
  off := by cases f <;> decide +kernel
  duty := by cases f <;> decide +kernel
  duties := by cases f <;> decide +kernel

theorem linesSound_lit : LinesSound lit := by
  intro h
  exact absurd h (by decide +kernel)

theorem portSound_open (p : Port) : PortSound open_ p where
  quiet := by cases p <;> decide
  noLen := by cases p <;> decide
  lenFits := by cases p <;> (intro n h; cases h)
  executing := by cases p <;> (intro h; cases h)
  silent := by cases p <;> decide
  inForce := by cases p <;> decide

theorem loaderSound_open : LoaderSound open_ := ⟨by decide, fun j h => by cases h⟩

theorem painterSound_lit : PainterSound lit where
  inHand := by intro f; cases f <;> decide +kernel
  held := by
    intro f plan h
    exact absurd h (by cases f <;> decide +kernel)
  jobs := by
    intro j h
    rw [show lit.painter = ⟨none, none⟩ from by decide +kernel] at h
    cases h <;> contradiction
  waits := by decide +kernel
  apart := by
    intro j k h
    rw [show lit.painter = ⟨none, none⟩ from by decide +kernel] at h
    cases h

theorem witness_a_step : step stocked = .next (stocked.idle) ∧
    step { stocked with pending := [.secondEvent] } = .next (run .secondEvent stocked) := ⟨rfl, rfl⟩

/-! ### Clock, timers, faces -/

theorem witness_SecondSource :
    State.reset.clock.osc = .starting ∧ State.reset.clock.deadline ≠ none ∧
      (run .startupDeadlineExpiry State.reset).clock.osc = .starting ∧
      (run .startupDeadlineExpiry State.reset).clock.deadline = none ∧ stocked.clock.osc = .running ∧
      stocked.clock.source ≠ .none ∧ State.reset.clock.source = .none ∧ stocked.clock.ss ≠ 59 := by decide +kernel
theorem witness_MinuteEvents :
    let late : State := { due with clock := { due.clock with ss := 59 } }
    (late.clock.ss = 59 ∧ (late.clock.source = .timekeeper ∧ 32768 ≤ late.clock.divider)) ∧
      late.clock.valid = true ∧ (∃ m, late.clock.prevMinute = some m ∧ m = 360) ∧
      stocked.allows .lp0 .config [0] ∧ (815 ∈ stocked.table.map fun r => r.code) ∧
      (815 ∉ (run (.setClock .lp0 1 [23, 0, 0]) stocked).table.map fun r => r.code) := by
  unfold State.allows; decide +kernel
theorem witness_SecondEvent :
    ClockSound due ∧ (due.clock.source = .timekeeper ∧ 32768 ≤ due.clock.divider) ∧ ¬ (stocked.clock.source = .system) ∧
      ¬ (32768 ≤ stocked.clock.divider) ∧ due.clock.ss ≠ 59 ∧ (due.faces.get .a).state ≠ .dark ∧
      (due.faces.get .a).standsAtClock ∧ (∀ n ∈ due.notices, n.remaining = 1) ∧
      (run .secondEvent { due with faces := ⟨{ due.faces.a with dirty := false }, due.faces.b⟩ }).faces.a.dirty = true := by
  refine ⟨⟨by decide, by decide, by decide, by decide, by decide⟩, ?_⟩
  unfold Composer.standsAtClock; decide +kernel

/-- A minute before 06:01 with a train of face B's platform within the wake window and face B configured OFF. -/
def dawn : State :=
  asleep { due with
    table := [{ train with platform := 2, scheduled := 376, delay := none }], pinCount := 0, freeStops := 638
    clock := { due.clock with ss := 59 } }

theorem witness_DepartureWakes :
    (run .secondEvent dawn).departureWakes .b ∧ (run .secondEvent dawn).faces.b.countdown = 30 ∧
      (run .secondEvent dawn).faces.b.state = .woken ∧ ¬ (run .secondEvent due).departureWakes .a ∧
      (run .secondEvent { dawn with
        table := [], freeStops := 640, faces := ⟨dawn.faces.a, { dawn.faces.b with countdown := 1 }⟩ }).faces.b.countdown = 0 := by
  unfold State.departureWakes State.wakes; decide +kernel
theorem witness_TimerExpiry :
    (∀ i : Fin 6, due.timers[i].running = true ∧ due.timers[i].reload ≤ due.timers[i].counter) ∧
      (∀ i : Fin 6, open_.timers[i].counter < open_.timers[i].reload) ∧
      ({ open_ with timers := open_.timers.set 3 ⟨0, .ms1, .auto, 0, 0, false⟩ } : State).timers[3].running = false := by decide +kernel

/-- A face that shows an approaching train on page 1, its bottom line on an entry of the clock or a notice. -/
def shown (entry : BottomEntry) : State :=
  let s : State := { lit with timers := due.timers, table := [{ train with approaching := true, platform := 1 }], notices := [lowNotice] }
  run (.plan .a) { s with faces := ⟨{ s.faces.a with entry := entry, dirty := true }, s.faces.b⟩ }

theorem witness_RotationIsDue :
    (shown .clock).timers[2].running = true ∧ (shown .clock).timers[2].reload ≤ (shown .clock).timers[2].counter ∧
      (shown .clock).timers[3].running = true ∧ (shown .clock).timers[3].reload ≤ (shown .clock).timers[3].counter ∧
      ((shown .clock).faces.get .a).state = .lit := by decide +kernel
theorem witness_Rotation :
    (lit.faces.get .a).state = .lit ∧ (lit.faces.get .a).lastPlan = none ∧ .bottom ∈ (lit.faces.get .a).settings.roles.toList ∧
      ((shown (.notice 10)).faces.get .a).entry = .notice 10 ∧ ((shown (.notice 10)).faces.get .a).bottom = none ∧
      (∃ plan, ((shown .clock).faces.get .a).lastPlan = some plan ∧ plan.full = none ∧
        ∃ line ∈ plan.lines.toList, ∃ fd ∈ line.fields, fd.flashing = true) ∧
      (run (.plan .a) { shown .clock with
          notices := [{ lowNotice with scope := .full }]
          faces := ⟨{ (shown .clock).faces.a with rebuild := .idle, dirty := true }, (shown .clock).faces.b⟩ }).faces.a.lastPlan.bind
        (fun plan => plan.full) = some ⟨10, str "Mind the gap"⟩ := by
  refine ⟨by decide +kernel, by decide +kernel, by decide +kernel, by decide +kernel, by decide +kernel, ?_, by decide +kernel⟩
  exact ⟨((shown .clock).faces.get .a).lastPlan.get (by decide +kernel), by simp, by decide +kernel, by decide +kernel⟩

theorem witness_Ticker :
    256 < textWidth (List.replicate 60 0x57) ∧
      (Ticker.build (.record 815) (List.replicate 60 0x57) 40).phase = .hold := by decide +kernel
theorem witness_SetFace :
    FaceSettings.defaults.a.allowed ∧ stocked.allows .lp0 .config [0] ∧
      ({ FaceSettings.defaults.a with primary := 31, second := 30 } : FaceSettings).allowed := by
  unfold State.allows FaceSettings.allowed; decide +kernel
/-- Face A painting and face B waiting: SET FACE turns face A OFF, and its plan gives way to face B's. -/
theorem witness_SetFaceLeavesTheOtherFace :
    let painting := run (.plan .b) (run (.plan .a) lit)
    let t := run (.setFace .lp0 1 [1, 1, 0, 1, 2, 3, 5, 0, 7]) painting
    (painting.painter = ⟨some ⟨.a, 1⟩, some ⟨.b, 1⟩⟩ ∧ t.faces.a.state = .dark ∧ t.painter = ⟨some ⟨.b, 1⟩, none⟩) ∧
      t.faces.b = painting.faces.b ∧ t.panels.b.out = painting.panels.b.out := by decide +kernel
theorem witness_Plan :
    lit.planDue .a = true ∧ (∀ n ∈ lit.notices, n.scope = .full → n.targets.has .a = false) ∧ open_.planDue .a = false ∧
      lit.painter.current = none ∧ (run (.plan .a) lit).painter.current ≠ none ∧ (run (.plan .a) lit).planDue .b = true := by
  decide +kernel
/-- Face A has planned page 1 of a FULL notice of two pages, and T2 has taken it to page 2. -/
def paged : State :=
  let s : State := run (.plan .a) { lit with notices := [{ lowNotice with scope := .full, text := List.replicate 160 0x57 }] }
  { s with faces := ⟨{ s.faces.a with rebuild := .idle, dirty := true, page := 2 }, s.faces.b⟩ }

/-- The page that the next plan of face A shows, by its source identities. -/
def sourcesOf (s : State) : Option (List Source) :=
  (run (.plan .a) s).faces.a.inHand.map fun plan => plan.lines.toList.map fun l => l.source

theorem witness_PlanOfAFullNotice :
    paged.planDue .a = true ∧ (paged.notices.filter fun n => n.scope == .full && n.targets.has .a).length = 1 ∧
      pageCount (List.replicate 160 0x57) = 2 ∧ sourcesOf paged = some [.page 10 2, .none, .none, .none] ∧
      sourcesOf { paged with notices := [{ lowNotice with scope := .full, text := str "Late" }] }
        = some [.page 10 1, .none, .none, .none] := by decide +kernel

/-- A departure plan clears the pass flag after a FULL notice and for an entry no longer in the list, and keeps it
for an entry that is; a FULL plan keeps it. -/
theorem witness_PlanClearsThePass :
    let passed (s : State) : State := { s with faces := ⟨{ s.faces.a with pass := true, dirty := true, rebuild := .idle }, s.faces.b⟩ }
    let after (s : State) : BottomEntry × Bool := ((run (.plan .a) s).faces.a.entry, (run (.plan .a) s).faces.a.pass)
    let full := passed { paged with notices := [] }
    let held := passed (shown (.notice 10))
    (full.planDue .a = true ∧ ((full.faces.get .a).lastPlan.bind fun last => last.full).isSome = true ∧ after full = (.clock, false)) ∧
      (held.planDue .a = true ∧ .notice 10 ∈ held.bottomEntries .a ∧ after held = (.notice 10, true)) ∧
      (.notice 10 ∉ ({ held with notices := [] } : State).bottomEntries .a ∧ after { held with notices := [] } = (.clock, false)) ∧
      after (passed paged) = (.clock, true) := by decide +kernel

/-- Face B's lines are FIRST, NEXT, ROTATE and EMPTY over three records. -/
def rotating : State :=
  { lit with
    table := [{ train with platform := 2 }, { train with code := 816, platform := 2 }, { train with code := 817, platform := 2 }]
    faces := ⟨lit.faces.a, { lit.faces.b with
      settings := { lit.faces.b.settings with roles := #v[.first, .next, .rotate, .empty] } }⟩ }

theorem witness_PlanOfRotate :
    rotating.planDue .b = true ∧ (∀ n ∈ rotating.notices, n.scope = .full → n.targets.has .b = false) ∧
      rotating.poolSize .b = 1 ∧ (run (.plan .b) rotating).faces.b.inHand.map (fun plan => plan.lines.toList.map fun l => l.source)
        = some [.record 815 6, .record 816 6, .record 817 6, .none] := by decide +kernel
theorem witness_Paint :
    let s := run (.plan .a) lit
    s.painter.current = some ⟨.a, 1⟩ ∧ (s.faces.get .a).rebuild = .painting ∧
      (s.faces.get .a).inHand.map (fun plan => plan.serial) = some 1 ∧ s.painter.current ≠ some ⟨.b, 1⟩ := by decide +kernel

/-- A DRIVING output with a check in flight and one chain that has failed it twice. -/
def checking : State :=
  { lit with panels := ⟨Panel.reset, { lit.panels.b with
      out := .driving, check := .inFlight Config.firstPattern, chains := #v[.good, .suspect1, .suspect2, .failed], counter := 99 }⟩ }

theorem witness_FrameBoundary :
    ((run (.paintCompletion .a 1) (run (.plan .a) lit)).faces.get .a).rebuild = .swapPending ∧
      ((run (.paintCompletion .a 1) (run (.plan .a) lit)).faces.get .a).inHand.isSome = true ∧
      (checking.panels.get .b).out = .driving ∧ (checking.panels.get .b).check = .inFlight Config.firstPattern ∧
      checking.params.checkInterval ≤ (checking.panels.get .b).counter + 1 ∧ (lit.panels.get .a).out ≠ .driving ∧
      (lit.panels.get .a).counter + 1 < lit.params.checkInterval := by decide +kernel
theorem witness_ChainFails :
    let t := run (.frameBoundary .b 0 0 0 0) { checking with capture := ⟨none, false⟩ }
    ((checking.panels.get .b).chains[(2 : Fin 4)] = .suspect2 ∧ (0 : BitVec 32) ≠ Config.firstPattern) ∧
      t.capture.held.map (fun c => (c.kind, c.locale)) = some (.chainFailed, ⟨.face .b, some 2, none⟩) ∧
      t.seen[4] = true ∧ t.events.lp0.fault = true := by decide +kernel
theorem witness_Outputs :
    (lit.panels.get .a).out = .starting ∧ (open_.panels.get .a).out ≠ .starting ∧ open_.ambient.converting = false ∧
      ({ open_ with ambient := { open_.ambient with converting := true, level := 1 } } : State).ambient.converting = true := by
  decide +kernel
theorem witness_InputLines :
    open_.lines[(0 : Fin 4)].settled = .low ∧ (Level.high ≠ open_.lines[(0 : Fin 4)].settled) ∧
      open_.lines[(0 : Fin 4)].pending < open_.lines[(0 : Fin 4)].debounce ∧
      ({ open_ with lines := open_.lines.set 0 ⟨.blank, .a, 0, 0, .low, 0⟩ } : State).lines[(0 : Fin 4)].debounce ≤ 0 ∧
      (∀ fn ∈ [LineFunction.none, .approach, .blank, .wake, .lampTest],
        ({ stocked with lines := stocked.lines.set 1 ⟨fn, .both, 2, 20, .low, 20⟩ } : State).lines[(1 : Fin 4)].function = fn) := by
  decide +kernel

/-! ### Effects of states, touches and plans, clause by clause -/

/-- Face A with one line of a function, low and of sense 0, about to count a change; `before` is the level it leaves. -/
def withLine (s : State) (fn : LineFunction) (before : Level) : State :=
  { s with lines := s.lines.set 0 ⟨fn, .a, 0, 0, before, 0⟩ }

theorem witness_StateEffects :
    let painting := run (.plan .a) lit
    let dark := run (.changeCounts 0) (withLine painting .blank .low)
    let back := run (.changeCounts 0) dark
    let lamp := run (.changeCounts 0) (withLine painting .lampTest .low)
    let after := run (.changeCounts 0) lamp
    (painting.painter.current = some ⟨.a, 1⟩ ∧ dark.faces.a.state = .dark ∧ dark.faces.a.inHand = none ∧
      dark.painter.current = none ∧ dark.panels.a.out = .off ∧ dark.faces.b = painting.faces.b) ∧
    (back.faces.a.state = .lit ∧ back.faces.a.restartPending = true ∧ back.faces.a.dirty = true ∧
      back.panels.a.out = .starting ∧ back.panels.a.startLeft = back.params.startDelay) ∧
    (lamp.faces.a.state = .lampTest ∧ lamp.faces.b.state = .lampTest ∧ lamp.faces.a.dirty = false ∧
      lamp.painter.current = some ⟨.a, 1⟩ ∧ after.faces.a.state = .lit ∧ after.faces.a.dirty = true) := by decide +kernel
theorem witness_stateByRule :
    (withLine lit .lampTest .high).heldLamp ∧ (withLine lit .blank .high).heldBlank .a ∧ ¬ (withLine lit .blank .high).heldBlank .b ∧
      (withLine lit .lampTest .high).stateByRule .b = .lampTest ∧ (withLine (asleep lit) .lampTest .high).stateByRule .b = .lampTest ∧
      (withLine lit .blank .high).stateByRule .a = .dark ∧ (asleep lit).stateByRule .b = .dark ∧
      ({ asleep lit with faces := ⟨lit.faces.a, { (asleep lit).faces.b with countdown := 1 }⟩ } : State).stateByRule .b = .woken ∧
      lit.stateByRule .a = .lit := by
  unfold State.stateByRule; decide +kernel

theorem witness_TouchWakes :
    let s := asleep stocked
    let put (platform : Nat) := run (.putDeparture .lp0 1 (recordBlock 77 365 platform [])) s
    let gone := run (.withdrawDeparture .lp0 1 (be16 77)) { put 2 with ports := s.ports }
    (s.bound .b [2] = true ∧ (put 2).departureWakes .b ∧ (put 2).faces.b.countdown = 30 ∧ (put 2).faces.b.state = .woken ∧
      (put 2).faces.b.dirty = true) ∧
    (s.bound .b [5] = false ∧ (put 5).faces.b = s.faces.b) ∧
    (¬ gone.departureWakes .b ∧ gone.faces.b.countdown = 30) := by
  unfold State.departureWakes State.wakes; decide +kernel
theorem witness_ApproachTouches :
    let s : State := { asleep stocked with
      table := [{ train with platform := 2, scheduled := 365 }], pinCount := 0, freeStops := 638
      lines := stocked.lines.set 0 ⟨.approach, .b, 0, 0, .low, 0⟩ }
    let t := run (.changeCounts 0) s
    (s.view .b).head?.map (fun r => (r.platform, r.approaching)) = some (2, false) ∧ t.departureWakes .b ∧
      t.faces.b.state = .woken ∧ (s.reservations.lp1, t.reservations.lp1) = (some 815, none) ∧
      t.events.lp1.reservationLost = true := by
  unfold State.departureWakes State.wakes; decide +kernel
theorem witness_View :
    let held : State := { lit with table := [{ train with platform := 1 }, { train with code := 816 }, { train with code := 817, platform := 1, writer := .loc }] }
    let veiled : State := { held with ports := ⟨held.ports.lp0, { held.ports.lp1 with silent := true, staleInForce := .hide }, held.ports.lp2⟩ }
    let holding : State := { held with ports := ⟨held.ports.lp0, { held.ports.lp1 with silent := true }, held.ports.lp2⟩ }
    ((held.view .a).map fun r => r.code, (veiled.view .a).map fun r => r.code, (holding.view .a).map fun r => r.code)
      = ([815, 817], [817], [815, 817]) := by decide +kernel

/-- Face A is to show a train whose destination and stops are undefined, with a via that is not: FIRST and CALLING. -/
def nowhere : State :=
  { lit with
    table := [{ train with platform := 1 }]
    capture := ⟨none, false⟩
    places := (lit.places.set 14 (some ⟨str "Vale", none⟩))
    faces := ⟨{ lit.faces.a with
      dirty := true
      settings := { lit.faces.a.settings with roles := #v[.first, .calling, .next, .bottom] } }, lit.faces.b⟩ }

theorem witness_UndefinedPlaces :
    nowhere.planDue .a = true ∧ nowhere.undefinedOn .a 0 = [14] ∧ nowhere.undefinedOn .a 1 = [11, 14] ∧
      nowhere.undefinedOn .a 2 = [] ∧
      ({ nowhere with places := nowhere.places.set 13 (some ⟨str "Brenton", none⟩) } : State).undefinedOn .a 0 = [12] ∧
      (run (.plan .a) nowhere).capture = ⟨some ⟨.placeUndefined, ⟨.face .a, some 1, some 14⟩, none⟩, true⟩ := by decide +kernel

/-- A field of one glyph outside the font and an A. -/
def boxed (align : Align) (flashing : Bool) (offset : Option Nat) : PlanField :=
  ⟨10, 20, align, [0x01, 0x41], none, flashing, offset⟩

theorem witness_FieldsPaint :
    ([0, 4, 6, 11, 12].map (boxed .left false none).landsAt = [some 10, some 14, some 16, some 21, some 22]) ∧
      (boxed .right false none).landsAt 0 = some 18 ∧ (boxed .centre false none).landsAt 0 = some 14 ∧
      (boxed .left false (some 7)).landsAt 0 = some 23 ∧ (boxed .left false (some 7)).landsAt 6 = some 29 ∧
      (boxed .left false (some 7)).landsAt 7 = none ∧ (boxed .left false (some 25)).landsAt 4 = none ∧
      (boxed .left false (some 25)).landsAt 5 = some 10 ∧
      ((boxed .left false none).pixel true 10 2, (boxed .left false none).pixel true 10 1, (boxed .left false none).pixel true 11 3,
        (boxed .left true none).pixel false 10 2) = (true, false, false, false) ∧
      ((boxed .left false none).substitutesPainted true, (boxed .left true none).substitutesPainted false,
        (boxed .left false (some 25)).substitutesPainted true, (boxed .left false (some 24)).substitutesPainted true) = (1, 0, 0, 1) := by
  decide +kernel
theorem witness_SubstitutesAreReported :
    let s := run (.plan .a) { lit with capture := ⟨none, false⟩, notices := [{ lowNotice with scope := .full, text := [0x01, 0x41] }] }
    (run (.paintCompletion .a 1) s).capture = ⟨some ⟨.glyphSubstituted, ⟨.face .a, some 1, none⟩, none⟩, false⟩ := by
  decide +kernel

/-! ### Faults, parameters, settings -/

theorem witness_Faults :
    open_.capture.held = none ∧ lit.capture.held.map (fun c => c.kind) = some .settingsAbsent ∧
      FaultKind.settingsAbsent ∉ [FaultKind.glyphSubstituted, .placeUndefined, .linkFrameBad, .zonesDefaulted] := by decide +kernel
/-- With every kind seen READ FAULTS returns the codes 1 to 9, and with none seen no code. -/
theorem witness_SeenCodes :
    (said .lp1 (run (.readFaults .lp1 1 []) { open_ with seen := Vector.replicate 9 true })).drop 13 = [9, 1, 2, 3, 4, 5, 6, 7, 8, 9] ∧
      (said .lp1 (run (.readFaults .lp1 1 []) open_)).drop 13 = [0] := by decide +kernel
/-- A value of its length that the table takes, and one that it refuses. -/
def taken (q : Param) (value : List Byte) : Prop := value.length = q.row.bytes ∧ q.row.takes value
def refused (q : Param) (value : List Byte) : Prop := value.length = q.row.bytes ∧ ¬ q.row.takes value

theorem taken_of {q : Param} {value : List Byte} (h : (value.length == q.row.bytes && q.accepts value) = true) : taken q value := by
  simp only [Bool.and_eq_true, beq_iff_eq] at h
  exact ⟨h.1, (accepts_row q value h.1).mp h.2⟩
theorem refused_of {q : Param} {value : List Byte} (h : (value.length == q.row.bytes && !q.accepts value) = true) : refused q value := by
  simp only [Bool.and_eq_true, beq_iff_eq, Bool.not_eq_true'] at h
  exact ⟨h.1, fun k => by rw [(accepts_row q value h.1).mpr k] at h; exact absurd h.2 (by decide)⟩

theorem witness_Parameters :
    (∀ qv ∈ ([(.ro, [5, 159]), (.linger, [30]), (.unknownHold, [240]), (.wakeWindow, [120]), (.wakeHold, [120]), (.rotateDepth, [1]),
        (.rotateDepth, [6]), (.tickerHold, [255]), (.reload 3, [0, 0]), (.unit 5, [1]), (.mode 0, [1]), (.cap .b, [255]),
        (.framePeriod, [5]), (.framePeriod, [20]), (.checkInterval, [0, 1]), (.checkInterval, [3, 232]), (.startDelay, [64]),
        (.baud .lp1, [3]), (.limit .lp2, [2, 88]), (.stale .lp0, [1]), (.line 3, [2, 1, 1, 0]), (.line 0, [4, 3, 1, 255]),
        (.line 1, [1, 2, 2, 0]), (.trim .a 31, [255])] : List (Param × List Byte)), taken qv.1 qv.2) ∧
    (∀ qv ∈ ([(.ro, [5, 160]), (.linger, [31]), (.unknownHold, [241]), (.wakeWindow, [121]), (.wakeHold, [121]), (.rotateDepth, [0]),
        (.rotateDepth, [7]), (.unit 5, [2]), (.mode 0, [2]), (.framePeriod, [4]), (.framePeriod, [21]), (.checkInterval, [0, 0]),
        (.checkInterval, [3, 233]), (.startDelay, [5]), (.baud .lp1, [4]), (.limit .lp2, [2, 89]), (.stale .lp0, [2]),
        (.line 3, [2, 1, 2, 0]), (.line 0, [4, 3, 2, 0]), (.line 1, [5, 1, 0, 0]), (.line 1, [1, 0, 0, 0]), (.line 1, [1, 4, 0, 0]),
        (.line 1, [1, 1, 3, 0]), (.curve, List.replicate 24 0)] : List (Param × List Byte)), refused qv.1 qv.2) ∧
    taken .curve (open_.readParam .curve) ∧ (∀ q : Param, q.row.number ≠ 0) := by
  refine ⟨fun qv h => taken_of ?_, fun qv h => refused_of ?_, taken_of (by decide +kernel), fun q => ?_⟩
  · revert qv; decide +kernel
  · revert qv; decide +kernel
  · rw [← number_row]; exact (by decide +kernel : ∀ q ∈ Param.all, q.number ≠ 0) q (mem_all q)
theorem witness_LineWriteChangesAHolding :
    let t := run (.setParameter .lp0 1 [0x48, 2, 1, 1, 0]) lit
    t.heldBlank .a ∧ ¬ lit.heldBlank .a ∧ t.faces.a.state = .dark ∧ t.faces.b.state = .lit := by decide +kernel
/-- Of a DRIVING panel: a cap works out the duties of its face alone; RD marks both faces; WH touches neither. -/
theorem witness_WritesAtTheFaces :
    let s : State := { run (.panelStartupDelayExpiry .b) lit with faces := ⟨{ lit.faces.a with dirty := false }, lit.faces.b⟩ }
    let cap := run (.setParameter .lp0 1 [0x2A, 8]) s
    let depth := run (.setParameter .lp0 1 [0x06, 2]) s
    let hold := run (.setParameter .lp0 1 [0x05, 2]) s
    (s.panels.b.faceDuty = 16 ∧ cap.panels.b.faceDuty = 8 ∧ cap.panels.b.duties[(0 : Fin 32)] = 8 ∧ cap.panels.a = s.panels.a ∧
      cap.faces = s.faces) ∧
    depth.faces.a = { s.faces.a with dirty := true } ∧ depth.panels = s.panels ∧ hold.faces = s.faces ∧ hold.panels = s.panels := by
  decide +kernel
/-- A store that RESET, or a BOARD RESTART on another port, abandons. -/
theorem witness_AbandonedStore :
    (∃ job, (run (.storeSettings .lp1 9 []) open_).loader = ⟨.storing, some job⟩) ∧
      (run (.storeSettings .lp1 9 []) open_).ready .lp0 ∧ (run (.storeSettings .lp1 9 []) open_).allows .lp0 .config [0] := by
  unfold State.ready State.allows
  exact ⟨⟨_, rfl⟩, by decide +kernel, by decide +kernel⟩
theorem witness_Stores :
    open_.loader.phase = .ready ∧ (run (.storeSettings .lp1 9 []) open_).loader.phase = .storing ∧
      (run (.storeSettings .lp1 9 []) open_).loader.store.map (fun j => j.port) = some .lp1 ∧
      (run (.storeSettings .lp1 9 []) open_).ready .lp0 := by
  unfold State.ready; decide +kernel
theorem witness_Loading_invalid : readImage (State.reset.mem.readBlock 0 10158) = none := by decide +kernel

/-- The default settings with a zone table that grants CONFIG to nobody. -/
def shut : State := { open_ with zones := open_.zones.set 0 ⟨false, .global, 0, 31, ⟨true, true, true, true⟩⟩ }

theorem settingsInRange_shut : SettingsInRange shut :=
  ⟨settingsInRange_open.params, by decide +kernel, settingsInRange_open.faces, settingsInRange_open.names⟩

/-- A memory that holds the image of settings in their ranges. That an image reads back is the statement
ImageReadsBackAsTheSettings; the check word is too long to evaluate here. -/
theorem readImage_loading (reads : Obligations.ImageReadsBackAsTheSettings) (u : State) (hu : SettingsInRange u) :
    ∃ bytes, bytes.length = 10158 ∧ (loading (Memory.writeBlock [] 0 u.image)).mem.readBlock 0 10158 = bytes ∧
      readImage bytes = some u.settings :=
  have h := reads.2.2.1 u hu
  ⟨u.image, h.1, readBlock_writeBlock _ _ h.1, h.2⟩

/-- Memories that hold a valid image, with zones that pass the lockout test and with zones that fail it. -/
theorem witness_Loading_valid (reads : Obligations.ImageReadsBackAsTheSettings) :
    (∃ s : State, s.loader.phase = .loading ∧ ∃ st, readImage (s.mem.readBlock 0 10158) = some st ∧ lockoutPasses st.zones = true) ∧
    (∃ s : State, s.loader.phase = .loading ∧ ∃ st, readImage (s.mem.readBlock 0 10158) = some st ∧ lockoutPasses st.zones = false) := by
  obtain ⟨b1, _, h1, k1⟩ := readImage_loading reads open_ settingsInRange_open
  obtain ⟨b2, _, h2, k2⟩ := readImage_loading reads shut settingsInRange_shut
  exact ⟨⟨loading _, rfl, _, h1 ▸ k1, by decide +kernel⟩, ⟨loading _, rfl, _, h2 ▸ k2, by decide +kernel⟩⟩

/-- An image that holds settings, and images that hold none: of another version, and all of zeros. -/
theorem witness_ImageHolds (reads : Obligations.ImageReadsBackAsTheSettings) :
    (∃ bytes : List Byte, bytes.length = 10158 ∧ ImageHolds bytes open_.settings) ∧
    (∀ bytes : List Byte, bytes.length = 10158 → ∀ st, bytesAt bytes 0 1 = [0x02] → ¬ ImageHolds bytes st) ∧
    (∀ st, ¬ ImageHolds (List.replicate 10158 0) st) := by
  obtain ⟨bytes, h, _, k⟩ := readImage_loading reads open_ settingsInRange_open
  exact ⟨⟨bytes, h, readImage_holds h k⟩, fun _ _ _ h k => absurd (h.symm.trans k.version) (by decide),
    fun _ k => absurd k.version (by decide)⟩

end Sys2Proof.Tests
end

section
/-! PROOFS. READ DEPARTURE and LIST DEPARTURES (R17, R18): the reply blocks, what each request answers once its frame
is accepted, and the statement on both. -/

namespace Sys2Proof.Machine

/-! ## The record block -/

/-- R164: an absent two-byte field is sent as 0xFFFF. -/
theorem optional16_eq (o : Option Nat) : optional16 o = be16 (o.getD 65535) := by cases o <;> rfl

/-- R164: an absent one-byte field is sent as 0. -/
theorem optional8_eq (o : Option Nat) : optional8 o = byte (o.getD 0) := by cases o <;> rfl

theorem statusByte_eq (x : Status) : byte x.code = if x = .running then 0 else 1 := by cases x <;> rfl

/-- R172: the record block of the tables is the block the model writes. -/
theorem departureBlock_eq (r : Departure) : departureBlock r = r.bytes := by
  unfold departureBlock Departure.bytes
  simp only [optional16_eq, optional8_eq, statusByte_eq, yesNo]

/-! ## READ DEPARTURE (R17) -/

theorem takeReadDeparture_found {fields : List Byte} {code : Nat} {r : Departure} {s : State}
    (hc : parseCode fields = .ok code) (hr : s.record? code = some r) :
    takeReadDeparture fields s = (s, ⟨.ok, departureBlock r⟩) := by
  unfold takeReadDeparture
  rw [withOperands_ok hc, hr, departureBlock_eq]
  rfl

theorem takeReadDeparture_absent {fields : List Byte} {code : Nat} {s : State}
    (hc : parseCode fields = .ok code) (hr : s.record? code = none) :
    takeReadDeparture fields s = (s, .plain .notFound) := by
  unfold takeReadDeparture
  rw [withOperands_ok hc, hr]

/-! ## LIST DEPARTURES (R18) -/

theorem parsePlatform_byte (b : Byte) : parsePlatform [b] = inRange (b.toNat ≤ 31) b.toNat := rfl

theorem parsePlatform_outOfRange {b : Byte} (h : 31 < b.toNat) : parsePlatform [b] = .error .badField := by
  rw [parsePlatform_byte, inRange, if_neg (by simpa using h)]

theorem parsePlatform_inRange {b : Byte} (h : ¬ 31 < b.toNat) : parsePlatform [b] = .ok b.toNat := by
  rw [parsePlatform_byte, inRange, if_pos (by simpa using h)]

/-- R18: the byte 0 lists the whole table, any other its platform. -/
theorem listed_byte (s : State) (b : Byte) :
    s.listed b.toNat = s.table.filter fun r => b = 0 || r.platform = b.toNat := by
  have zero_iff : b.toNat = 0 ↔ b = 0 := (BitVec.toNat_eq (y := 0)).symm
  unfold State.listed
  congr 1
  funext r
  rw [beq_eq_decide, beq_eq_decide, decide_eq_decide.mpr zero_iff]

theorem takeListDepartures_byte (b : Byte) (s : State) :
    takeListDepartures [b] s = (s, if 31 < b.toNat then .plain .badField else
      let listed := s.table.filter fun r => b = 0 || r.platform = b.toNat
      ⟨.ok, byte listed.length :: listed.flatMap fun r => be16 r.code⟩) := by
  unfold takeListDepartures
  by_cases h : 31 < b.toNat
  · rw [withOperands_error (parsePlatform_outOfRange h), if_pos h]
  · rw [withOperands_ok (parsePlatform_inRange h), if_neg h, listed_byte]
    rfl

/-! ## The statement -/

/-- A request whose answer leaves the state that accepted its frame touches nothing beside its port. -/
theorem answers_reading {s : State} {p : Port} (hr : s.ready p) {c : Instr} {kind tag : Byte}
    {take : State → State × Reply} {r : Reply} (hc : exec c s = .next (s.serve p kind tag take))
    (ht : take (s.acceptFrame p) = (s.acceptFrame p, r)) :
    ∃ t, exec c s = .next t ∧ RequestTouches [] s t p ∧ Served s t p kind tag r := by
  obtain ⟨t, hnext, hserved, htouches⟩ := answers_plain hr hc ht
  exact ⟨t, hnext, htouches, hserved⟩

/-- Settles O22: a case for each answer, read off the table that accepting the frame leaves as it was. -/
theorem readAndListDepartures : Obligations.ReadAndListDepartures := by
  intro p tag fields s hready
  refine ⟨fun code r hcode hfound => ?found, fun code hcode habsent => ?absent, fun b hfields => ?list⟩
  case found =>
    have hrecord : (s.acceptFrame p).record? code = some r := by rw [acceptFrame_record?, hfound]
    exact answers_reading hready rfl (takeReadDeparture_found hcode hrecord)
  case absent =>
    have hrecord : (s.acceptFrame p).record? code = none := by rw [acceptFrame_record?, habsent]
    exact answers_reading hready rfl (takeReadDeparture_absent hcode hrecord)
  case list =>
    subst hfields
    have htake := takeListDepartures_byte b (s.acceptFrame p)
    rw [acceptFrame_table] at htake
    exact answers_reading hready rfl htake

end Sys2Proof.Machine
end

section
/-! PROOFS. RESERVE and DROP RESERVATION (R55, R57): the code on the wire, the steps of a request that names one record,
what each of the two answers, and the statement on both. -/

namespace Sys2Proof.Machine

/-! ## The code on the wire (R5, R171) -/

theorem parseCode_badLength {fields : List Byte} (h : fields.length ≠ 2) : parseCode fields = .error .badLength := by
  match fields, h with
  | [], _ => rfl
  | [_], _ => rfl
  | [_, _], h => exact absurd rfl h
  | _ :: _ :: _ :: _, _ => rfl

theorem parseCode_pair (c1 c0 : Byte) : parseCode [c1, c0] = inRange (nat16 c1 c0 != 0) (nat16 c1 c0) := rfl

theorem parseCode_zero : parseCode [0, 0] = .error .badField := by
  rw [parseCode_pair, inRange, if_neg (by decide)]

theorem parseCode_nonZero {c1 c0 : Byte} (h : ¬ (c1 = 0 ∧ c0 = 0)) :
    parseCode [c1, c0] = .ok (c1.toNat * 256 + c0.toNat) := by
  have code_ne_zero : nat16 c1 c0 ≠ 0 := fun hz => by
    unfold nat16 at hz
    exact h ⟨BitVec.eq_of_toNat_eq (show c1.toNat = 0 by omega), BitVec.eq_of_toNat_eq (show c0.toNat = 0 by omega)⟩
  rw [parseCode_pair, inRange, if_pos (bne_iff_ne.mpr code_ne_zero), nat16]

/-! ## A request that names one record (R7, R47, R167) -/

/-- R47: a right missing on the only platform examined is missing on that one. -/
theorem missing_singleton {s : State} {p : Port} {right : Right} {pl : Nat} (h : ¬ s.allows p right [pl]) :
    missing s.zones p right [pl] = some pl := by
  have not_granted : granted s.zones p right pl = false := by simpa [State.allows] using h
  simp [missing, not_granted]

/-- Accepting a frame leaves the rights (R43). -/
theorem acceptFrame_allows_iff (s : State) (p q : Port) (right : Right) (pls : List Nat) :
    (s.acceptFrame p).allows q right pls ↔ s.allows q right pls := by
  unfold State.allows
  rw [acceptFrame_zones]

section
variable {p : Port} {right : Right} {fields : List Byte} {s : State} {code : Nat} {r : Departure}
  {k : Departure → State × Reply}

theorem takeOnRecord_error {c : ReplyCode} (hc : parseCode fields = .error c) :
    takeOnRecord p right fields s k = (s, .plain c) :=
  withOperands_error hc _ _

theorem takeOnRecord_found (hc : parseCode fields = .ok code) (hr : s.record? code = some r)
    (ha : s.allows p right [r.platform]) : takeOnRecord p right fields s k = k r := by
  unfold takeOnRecord
  rw [withOperands_ok hc, hr]
  exact withRights_ok ha _

theorem takeOnRecord_refused (hc : parseCode fields = .ok code) (hr : s.record? code = some r)
    (ha : ¬ s.allows p right [r.platform]) :
    takeOnRecord p right fields s k = (s, .refusal right r.platform) := by
  unfold takeOnRecord
  rw [withOperands_ok hc, hr]
  exact withRights_missing (missing_singleton ha) _

/-- R7: with no record present no platform is examined, so no right is asked for. -/
theorem takeOnRecord_absent (hc : parseCode fields = .ok code) (hr : s.record? code = none) :
    takeOnRecord p right fields s k = (s, .plain .notFound) := by
  unfold takeOnRecord
  rw [withOperands_ok hc, hr]
  rfl

/-! ## RESERVE and DROP RESERVATION (R55, R57) -/

theorem takeReserve_found (hc : parseCode fields = .ok code) (hr : s.record? code = some r)
    (ha : s.allows p .status [r.platform]) :
    takeReserve p fields s = (s.setReservation p (some code), ⟨.ok, departureBlock r⟩) := by
  obtain ⟨hcode, _⟩ := findCode_some hr
  unfold takeReserve
  rw [takeOnRecord_found hc hr ha, hcode, departureBlock_eq]
  rfl

end

theorem takeDropReservation_nil (p : Port) (s : State) :
    takeDropReservation p [] s = (s.setReservation p none, .plain .ok) := rfl

/-- A request that gives its port a reservation, or takes it, touches nothing beside the port but the reservation. -/
theorem answers_reservation {s : State} {p : Port} (hr : s.ready p) {c : Instr} {kind tag : Byte}
    {take : State → State × Reply} {reserved : Option Nat} {r : Reply}
    (hc : exec c s = .next (s.serve p kind tag take))
    (ht : take (s.acceptFrame p) = ((s.acceptFrame p).setReservation p reserved, r)) :
    ∃ t, exec c s = .next t ∧ Served s t p kind tag r ∧ t.reservations = s.reservations.set p reserved ∧
      RequestTouches [.reservations] s t p := by
  have honly := setReservation_only (s.acceptFrame p) p reserved
  obtain ⟨hnext, hserved, _⟩ := serve_answers hr hc ht honly
  refine ⟨_, hnext, hserved, ?_, touches honly _ _ _⟩
  rw [State.sendReply_reservations, State.setReservation_reservations, acceptFrame_reservations]

/-! ## The statement -/

/-- Settles O23: a case for each step of the check order that can end the request, read off the table and the rights
that accepting the frame leaves as they were. -/
theorem reserveAndDrop : Obligations.ReserveAndDrop := by
  intro p tag fields s hready
  refine ⟨fun hlength => ?badLength, fun hfields => ?badField, fun c1 c0 hfields hcode => ?code, fun hfields => ?drop⟩
  case badLength => exact answers_plain hready rfl (takeOnRecord_error (parseCode_badLength hlength))
  case badField =>
    subst hfields
    exact answers_plain hready rfl (takeOnRecord_error parseCode_zero)
  case code =>
    subst hfields
    have hparse := parseCode_nonZero hcode
    refine ⟨fun r hfound hallowed => ?found, fun r hfound hrefused => ?refused, fun habsent => ?absent⟩
    case found =>
      exact answers_reservation hready rfl
        (takeReserve_found hparse ((acceptFrame_record? ..).trans hfound) (acceptFrame_allows hallowed))
    case refused =>
      have hmissing := mt (acceptFrame_allows_iff s p p .status [r.platform]).mp hrefused
      exact answers_plain hready rfl (takeOnRecord_refused hparse ((acceptFrame_record? ..).trans hfound) hmissing)
    case absent =>
      exact answers_plain hready rfl (takeOnRecord_absent hparse ((acceptFrame_record? ..).trans habsent))
  case drop =>
    subst hfields
    exact answers_reservation hready rfl (takeDropReservation_nil p _)

end Sys2Proof.Machine
end

section
/-! PROOFS. The departure table stays sound (R2, R3, R10, R15, R36, R54): what a change in place, a removal and an
insert leave of its order, its pool, its pins and its reservations, and the statement on every step. -/

namespace Sys2Proof.Machine

/-! ## One record beside the others -/

/-- A record of the table beside the records of the other codes. -/
theorem perm_withoutRecord {t : List Departure} (hn : (t.map fun r => r.code).Nodup) {r : Departure} (hr : r ∈ t) :
    t.Perm (r :: withoutRecord r.code t) := by
  induction t with
  | nil => cases hr
  | cons x rest ih =>
    rw [List.map_cons, List.nodup_cons] at hn
    obtain ⟨hx, hrest⟩ := hn
    have absent : ∀ y ∈ rest, y.code ≠ x.code := fun y hy hc => hx (List.mem_map.mpr ⟨y, hy, hc⟩)
    rcases List.mem_cons.mp hr with rfl | hmem
    · have : withoutRecord r.code (r :: rest) = rest := by
        simpa [withoutRecord, List.filter_eq_self] using absent
      rw [this]
    · have hne : x.code ≠ r.code := fun hc => absent r hmem hc.symm
      have : withoutRecord r.code (x :: rest) = x :: withoutRecord r.code rest := by simp [withoutRecord, hne]
      rw [this]
      exact ((ih hrest hmem).cons x).trans (List.Perm.swap r x _)

theorem stopsInUse_perm {t u : List Departure} (h : t.Perm u) : stopsInUse t = stopsInUse u := (h.map _).sum_eq

theorem pinnedIn_perm {t u : List Departure} (h : t.Perm u) : pinnedIn t = pinnedIn u := h.countP_eq _

theorem stopsInUse_cons (r : Departure) (t : List Departure) : stopsInUse (r :: t) = r.stops.length + stopsInUse t := by
  simp [stopsInUse]

theorem pinnedIn_cons (r : Departure) (t : List Departure) :
    pinnedIn (r :: t) = pinnedIn t + (if r.pinned then 1 else 0) := by
  simp [pinnedIn, List.countP_cons]

/-- R12: a record put in the place of the one of its code leaves the others as they were. -/
theorem putIn_perm {t : List Departure} (hn : (t.map fun r => r.code).Nodup) {old new : Departure} (hold : old ∈ t)
    (hc : new.code = old.code) : (putIn new t).Perm (new :: withoutRecord old.code t) := by
  have others : (withoutRecord old.code t).map (fun x => if x.code = new.code then new else x)
      = withoutRecord old.code t := by
    refine (List.map_congr_left fun x hx => ?_).trans (List.map_id _)
    have : x.code ≠ new.code := by simpa [withoutRecord, hc] using (List.mem_filter.mp hx).2
    rw [if_neg this, id]
  have h := (perm_withoutRecord hn hold).map fun x => if x.code = new.code then new else x
  rwa [List.map_cons, if_pos hc.symm, others] at h

theorem before_congr (ro : Nat) {x x' y y' : Departure} (hx : x'.code = x.code ∧ x'.scheduled = x.scheduled)
    (hy : y'.code = y.code ∧ y'.scheduled = y.scheduled) : x'.before ro y' = x.before ro y := by
  unfold Departure.before Departure.key
  rw [hx.1, hx.2, hy.1, hy.2]

/-! ## The changes of a sound table -/

section
variable {s t : State}

/-- R54: a port's reservation in `t` is one it had in `s`, or none. -/
def ReservationsFewer (s t : State) : Prop := ∀ p, t.reservations.get p = none ∨ t.reservations.get p = s.reservations.get p

theorem ReservationsFewer.of_eq (h : t.reservations = s.reservations) : ReservationsFewer s t := fun p => .inr (by rw [h])

theorem LosesReservations.fewer {code : Nat} {o : Origin} (h : LosesReservations s t code o) : ReservationsFewer s t := by
  intro p
  rw [(h p).1]
  split
  · exact .inl rfl
  · exact .inr rfl

/-- Fewer reservations and the same table leave it sound. -/
theorem TableSound.fewer (h : TableSound s) (hp : t.params = s.params) (ht : t.table = s.table)
    (hn : t.pinCount = s.pinCount) (hf : t.freeStops = s.freeStops) (hr : ReservationsFewer s t) : TableSound t := by
  refine ⟨?_, ?_, ?_, ?_, ?_, ?_, ?_, fun p code hc => ?_⟩
  · rw [ht]; exact h.atMost
  · rw [ht]; exact h.codesDistinct
  · rw [ht, hp]; exact h.ordered
  · rw [ht]; exact h.stopsEach
  · rw [ht, hf]; exact h.pool
  · rw [ht, hn]; exact h.pins
  · rw [hn]; exact h.pinsMost
  · rw [ht]
    rcases hr p with hnone | hsame
    · rw [hnone] at hc; cases hc
    · exact h.reserved p code (hsame ▸ hc)

/-- The parts that a sound table is about. -/
def tableSoundParts : List Part := [.params, .table, .pinCount, .freeStops, .reservations]

theorem TableSound.congr (h : TableSound s) (hs : ∀ q ∈ tableSoundParts, q.same s t) : TableSound t :=
  h.fewer (hs .params (by decide)) (hs .table (by decide)) (hs .pinCount (by decide)) (hs .freeStops (by decide))
    (.of_eq (hs .reservations (by decide)))

theorem TableSound.only (h : TableSound s) {ps : List Part} (ho : OnlyIn ps s t)
    (hps : ∀ q ∈ tableSoundParts, q ∉ ps := by decide) : TableSound t :=
  h.congr fun q hq => ho q (hps q hq)

/-- R4, R12, R15: a record changed in place, under the code and the minute and with the stops that it had. -/
theorem TableSound.changed (h : TableSound s) {old new : Departure} (hold : old ∈ s.table) (hc : new.code = old.code)
    (hm : new.scheduled = old.scheduled) (hst : new.stops = old.stops) (hp : t.params = s.params)
    (ht : t.table = putIn new s.table) (hf : t.freeStops = s.freeStops) (hr : ReservationsFewer s t)
    (hpins : t.pinCount + (if old.pinned then 1 else 0) = s.pinCount + (if new.pinned then 1 else 0))
    (hmost : t.pinCount ≤ Config.maxPinned) : TableSound t := by
  have hperm := perm_withoutRecord h.codesDistinct hold
  have hperm' := putIn_perm h.codesDistinct hold hc
  have hkeep : ∀ x ∈ s.table, (if x.code = new.code then new else x).code = x.code ∧
      (if x.code = new.code then new else x).scheduled = x.scheduled := by
    intro x hx
    by_cases he : x.code = new.code
    · have : x = old := nodup_code h.codesDistinct hx hold (he.trans hc)
      rw [if_pos he, this]; exact ⟨hc, hm⟩
    · rw [if_neg he]; exact ⟨rfl, rfl⟩
  refine ⟨?_, ?_, ?_, fun r hr => ?_, ?_, ?_, hmost, fun p code hres => ?_⟩
  · rw [ht, putIn, List.length_map]; exact h.atMost
  · rw [ht, putIn_codes]; exact h.codesDistinct
  · rw [ht, hp, putIn, List.pairwise_map]
    exact h.ordered.imp_of_mem fun hx hy hb => by rw [before_congr _ (hkeep _ hx) (hkeep _ hy)]; exact hb
  · rw [ht, hperm'.mem_iff, List.mem_cons] at hr
    rcases hr with rfl | hr
    · rw [hst]; exact h.stopsEach old hold
    · exact h.stopsEach r (List.mem_filter.mp hr).1
  · have := h.pool
    rw [stopsInUse_perm hperm, stopsInUse_cons] at this
    rw [ht, hf, stopsInUse_perm hperm', stopsInUse_cons, hst]
    exact this
  · have := h.pins
    rw [pinnedIn_perm hperm, pinnedIn_cons] at this
    rw [ht, pinnedIn_perm hperm', pinnedIn_cons]
    omega
  · rw [ht, putIn_codes]
    rcases hr p with hnone | hsame
    · rw [hnone] at hres; cases hres
    · exact h.reserved p code (hsame ▸ hres)

/-- R22: a record removed, with its stops, its pin and the reservations that name it. -/
theorem TableSound.removed (h : TableSound s) {r : Departure} (hr : r ∈ s.table) (hp : t.params = s.params)
    (ht : t.table = withoutRecord r.code s.table) (hf : t.freeStops = s.freeStops + r.stops.length)
    (hn : t.pinCount = if r.pinned then s.pinCount - 1 else s.pinCount)
    (hres : ∀ p, t.reservations.get p
      = if s.reservations.get p = some r.code then none else s.reservations.get p) : TableSound t := by
  have hperm := perm_withoutRecord h.codesDistinct hr
  have hpins := h.pins
  rw [pinnedIn_perm hperm, pinnedIn_cons] at hpins
  have hpins' : t.pinCount = pinnedIn t.table := by
    rw [hn, ht, hpins]
    cases r.pinned <;> simp
  refine ⟨?_, ?_, ?_, fun x hx => ?_, ?_, hpins', ?_, fun p code hc => ?_⟩
  · rw [ht]; exact (List.length_filter_le _ _).trans h.atMost
  · rw [ht]; exact nodup_filter _ h.codesDistinct
  · rw [ht, hp]; exact h.ordered.sublist List.filter_sublist
  · rw [ht] at hx; exact h.stopsEach x (List.mem_filter.mp hx).1
  · have := h.pool
    rw [stopsInUse_perm hperm, stopsInUse_cons] at this
    rw [ht, hf]; omega
  · have := h.pinsMost
    rw [hn]; split <;> omega
  · rw [hres p] at hc
    split at hc
    · cases hc
    · rename_i hne
      obtain ⟨x, hx, rfl⟩ := List.mem_map.mp (h.reserved p code hc)
      have : x.code ≠ r.code := fun he => hne (by rw [hc, he])
      rw [ht]
      exact List.mem_map.mpr ⟨x, List.mem_filter.mpr ⟨hx, by simpa using this⟩, rfl⟩

/-- R8: a record inserted under a code that the table does not hold, its stops drawn from the pool. -/
theorem TableSound.inserted (h : TableSound s) {r : Departure} (hc : ∀ x ∈ s.table, x.code ≠ r.code)
    (hl : s.table.length < Config.maxRecords) (hst : r.stops.length ≤ Config.maxStops) (hp : t.params = s.params)
    (ht : t.table = insertRecord s.params.ro r s.table) (hf : t.freeStops + r.stops.length = s.freeStops)
    (hn : t.pinCount = s.pinCount + (if r.pinned then 1 else 0)) (hmost : t.pinCount ≤ Config.maxPinned)
    (hres : ReservationsFewer s t) : TableSound t := by
  have hperm := insertRecord_perm s.params.ro r s.table
  refine ⟨?_, ?_, ?_, fun x hx => ?_, ?_, ?_, hmost, fun p code hcode => ?_⟩
  · rw [ht, hperm.length_eq]; exact hl
  · rw [ht, (hperm.map _).nodup_iff, List.map_cons, List.nodup_cons]
    refine ⟨fun hm => ?_, h.codesDistinct⟩
    obtain ⟨x, hx, he⟩ := List.mem_map.mp hm
    exact hc x hx he
  · rw [ht, hp]; exact insertRecord_ordered _ _ _ hc h.ordered
  · rw [ht, hperm.mem_iff, List.mem_cons] at hx
    rcases hx with rfl | hx
    · exact hst
    · exact h.stopsEach x hx
  · rw [ht, stopsInUse_perm hperm, stopsInUse_cons]
    have := h.pool
    omega
  · rw [ht, pinnedIn_perm hperm, pinnedIn_cons, hn, h.pins]
  · rw [ht, (hperm.map _).mem_iff, List.map_cons]
    rcases hres p with hnone | hsame
    · rw [hnone] at hcode; cases hcode
    · exact List.mem_cons_of_mem _ (h.reserved p code (hsame ▸ hcode))

/-- R23: a table re-sorted under a new rollover minute. -/
theorem TableSound.resorted (h : TableSound s) (ht : t.table = sortRecords t.params.ro s.table)
    (hn : t.pinCount = s.pinCount) (hf : t.freeStops = s.freeStops) (hr : t.reservations = s.reservations) :
    TableSound t := by
  have hperm := sortRecords_perm t.params.ro s.table
  have hcodes : (t.table.map fun r => r.code).Nodup := by
    rw [ht, (hperm.map _).nodup_iff]; exact h.codesDistinct
  refine ⟨?_, hcodes, ?_, fun x hx => ?_, ?_, ?_, ?_, fun p code hc => ?_⟩
  · rw [ht, hperm.length_eq]; exact h.atMost
  · refine ordered_of_sorted ?_ hcodes
    rw [ht]; exact sortRecords_sorted _ _
  · rw [ht, hperm.mem_iff] at hx; exact h.stopsEach x hx
  · rw [ht, hf, stopsInUse_perm hperm]; exact h.pool
  · rw [ht, hn, pinnedIn_perm hperm]; exact h.pins
  · rw [hn]; exact h.pinsMost
  · rw [ht, (hperm.map _).mem_iff]
    rw [hr] at hc
    exact h.reserved p code hc

/-- An empty table with its whole pool free, no pin and no reservation. -/
theorem TableSound.empty (ht : t.table = []) (hf : t.freeStops = Config.poolSize) (hn : t.pinCount = 0)
    (hr : ∀ p, t.reservations.get p = none) : TableSound t := by
  refine ⟨?_, ?_, ?_, fun x hx => ?_, ?_, ?_, ?_, fun p code hc => ?_⟩
  · rw [ht]; exact Nat.zero_le _
  · rw [ht]; exact List.nodup_nil
  · rw [ht]; exact List.Pairwise.nil
  · rw [ht] at hx; cases hx
  · rw [ht, hf]; rfl
  · rw [ht, hn]; rfl
  · rw [hn]; exact Nat.zero_le _
  · rw [hr p] at hc; cases hc

end

/-! ## The model's operations on a sound table -/

section
variable {s : State}

theorem TableSound.loseReservations (h : TableSound s) (code : Nat) (o : Origin) :
    TableSound (s.loseReservations code o) :=
  have ho := loseReservations_only s code o
  h.fewer ho.params ho.table ho.pinCount ho.freeStops (loseReservations_loses s code o).fewer

theorem TableSound.touch (h : TableSound s) (pls : List Nat) : TableSound (s.touch pls) := h.only (touch_only s pls)

theorem TableSound.changeRecord (h : TableSound s) {old new : Departure} (o : Origin) (hold : old ∈ s.table)
    (hc : new.code = old.code) (hm : new.scheduled = old.scheduled) (hst : new.stops = old.stops)
    (hpin : new.pinned = old.pinned) : TableSound (s.changeRecord old new o) := by
  have hput : TableSound (s.putInPlace (new.changedBy o)) :=
    h.changed (new := new.changedBy o) hold hc hm hst rfl rfl rfl (.of_eq rfl)
      (by show _ + _ = _ + (if new.pinned then 1 else 0); rw [hpin]; rfl) h.pinsMost
  exact (hput.loseReservations _ _).touch _

theorem TableSound.takeOut (h : TableSound s) {r : Departure} (o : Origin) (hr : r ∈ s.table) :
    TableSound (s.takeOut r o) := by
  have ho := loseReservations_only
    { s with
      table := withoutRecord r.code s.table
      freeStops := s.freeStops + r.stops.length
      pinCount := if r.pinned then s.pinCount - 1 else s.pinCount } r.code o
  exact h.removed hr ho.params ho.table ho.freeStops ho.pinCount fun p => (takeOut_loses s r o p).1

theorem TableSound.removeRecord (h : TableSound s) {r : Departure} (o : Origin) (hr : r ∈ s.table) :
    TableSound (s.removeRecord r o) := (h.takeOut o hr).touch _

/-- R20, R21: records of the table, no two of one code, removed one after the other. -/
theorem TableSound.takeOutAll : ∀ {gone : List Departure} {s : State}, TableSound s → (∀ r ∈ gone, r ∈ s.table) →
    (gone.map fun r => r.code).Nodup → TableSound (s.takeOutAll gone)
  | [], _, h, _, _ => h
  | r :: rest, s, h, hmem, hn => by
    rw [List.map_cons, List.nodup_cons] at hn
    obtain ⟨hr, hrest⟩ := hn
    rw [takeOutAll_cons]
    have hout : TableSound ((s.takeOut r .loc).markTouched [r.platform]) :=
      (h.takeOut .loc (hmem r List.mem_cons_self)).only (markTouched_only _ _)
    refine hout.takeOutAll (fun x hx => ?_) hrest
    have : x.code ≠ r.code := fun he => hr (List.mem_map.mpr ⟨x, hx, he⟩)
    rw [(markTouched_only _ _).table, takeOut_table]
    exact List.mem_filter.mpr ⟨hmem x (List.mem_cons_of_mem _ hx), by simpa using this⟩

theorem TableSound.takeOutFilter (h : TableSound s) (g : Departure → Bool) :
    TableSound (s.takeOutAll (s.table.filter g)) :=
  h.takeOutAll (fun _ hr => (List.mem_filter.mp hr).1) (nodup_filter g h.codesDistinct)

theorem TableSound.insertDeparture (h : TableSound s) {r : Departure} (hc : ∀ x ∈ s.table, x.code ≠ r.code)
    (hl : s.table.length < Config.maxRecords) (hst : r.stops.length ≤ Config.maxStops)
    (hf : r.stops.length ≤ s.freeStops) (hpin : r.pinned = false) : TableSound (s.insertDeparture r) := by
  have hrow : TableSound { s with
      table := insertRecord s.params.ro r s.table
      freeStops := s.freeStops - r.stops.length } :=
    h.inserted hc hl hst rfl rfl (Nat.sub_add_cancel hf) (by simp [hpin]) h.pinsMost (.of_eq rfl)
  exact hrow.touch _

theorem TableSound.replaceDeparture (h : TableSound s) {old new : Departure} (o : Origin) (hold : old ∈ s.table)
    (hc : new.code = old.code) (hst : new.stops.length ≤ Config.maxStops)
    (hf : new.stops.length ≤ s.freeStops + old.stops.length) (hpin : new.pinned = old.pinned) :
    TableSound (s.replaceDeparture old new o) := by
  have hperm := perm_withoutRecord h.codesDistinct hold
  have hpins := h.pins
  rw [pinnedIn_perm hperm, pinnedIn_cons] at hpins
  have hout : TableSound (s.takeOut old o) := h.takeOut o hold
  have ho := takeOut_only s old o
  have htab := takeOut_table s old o
  have hlen : (withoutRecord old.code s.table).length < Config.maxRecords := by
    have := h.atMost
    rw [hperm.length_eq, List.length_cons] at this
    omega
  have hlo := loseReservations_only { s with
      table := insertRecord s.params.ro new (withoutRecord old.code s.table)
      freeStops := s.freeStops + old.stops.length - new.stops.length } old.code o
  have hkept : (s.takeOut old o).pinCount = if old.pinned then s.pinCount - 1 else s.pinCount :=
    (loseReservations_only _ _ _).pinCount
  have hfree : (s.takeOut old o).freeStops = s.freeStops + old.stops.length := (loseReservations_only _ _ _).freeStops
  have hrow : TableSound (State.loseReservations { s with
      table := insertRecord s.params.ro new (withoutRecord old.code s.table)
      freeStops := s.freeStops + old.stops.length - new.stops.length } old.code o) := by
    refine hout.inserted (r := new) (fun x hx => ?_) ?_ hst ?_ ?_ ?_ ?_ ?_ fun p => ?_
    · rw [htab] at hx
      rw [hc]
      simpa using (List.mem_filter.mp hx).2
    · rw [htab]; exact hlen
    · rw [hlo.params, ho.params]
    · rw [hlo.table, ho.params, htab]
    · rw [hlo.freeStops, hfree]; exact Nat.sub_add_cancel hf
    · rw [hlo.pinCount, hkept, hpin]
      show s.pinCount = _
      cases hp : old.pinned
      · rfl
      · simp only [hp, if_true] at hpins ⊢
        omega
    · rw [hlo.pinCount]; exact h.pinsMost
    · right
      rw [(loseReservations_loses _ old.code o p).1, (takeOut_loses s old o p).1]
  exact hrow.touch _

theorem TableSound.setReservation (h : TableSound s) (p : Port) {r : Option Nat}
    (hr : ∀ code, r = some code → code ∈ s.table.map fun x => x.code) : TableSound (s.setReservation p r) := by
  refine ⟨h.atMost, h.codesDistinct, h.ordered, h.stopsEach, h.pool, h.pins, h.pinsMost, fun q code hc => ?_⟩
  rw [State.setReservation_reservations, PerPort.get_set] at hc
  split at hc
  · exact hr code hc
  · exact h.reserved q code hc

theorem TableSound.dropReservation (h : TableSound s) (p : Port) : TableSound (s.setReservation p none) :=
  h.setReservation p fun _ hc => by cases hc

theorem TableSound.amendRecord (h : TableSound s) (q : AmendRequest) {r : Departure} (p : Port) (hr : r ∈ s.table) :
    TableSound (s.amendRecord q r p) := by
  have change : TableSound (if q.applied r = r then s else s.changeRecord r (q.applied r) (.port p)) := by
    split
    · exact h
    · exact h.changeRecord _ hr rfl rfl rfl rfl
  unfold State.amendRecord
  split
  · exact h.removeRecord _ hr
  · exact change
  · exact change

theorem TableSound.approach (h : TableSound s) (code : Nat) : TableSound (s.approach code) := by
  unfold State.approach
  split
  · rename_i r hr
    split
    · exact h
    · exact h.changeRecord .loc (findCode_some hr).2 rfl rfl rfl rfl
  · exact h

theorem TableSound.approachEdge (h : TableSound s) (sel : FaceSel) : TableSound (s.approachEdge sel) := by
  unfold State.approachEdge
  split
  · split
    · exact h.approach _
    · exact (h.approach _).approach _
  · exact h.approach _
  · exact h.approach _
  · exact h

theorem TableSound.notePrevMinute (h : TableSound s) : TableSound s.notePrevMinute :=
  h.fewer rfl rfl rfl rfl (.of_eq rfl)

theorem TableSound.minuteEvent (h : TableSound s) (validBefore : Bool) : TableSound (s.minuteEvent validBefore) := by
  have hclose : TableSound (s.closeIfDue validBefore) := by
    unfold State.closeIfDue
    split
    · exact h.takeOutFilter _
    · exact h
  have hexpire : ∀ {u : State}, TableSound u → TableSound u.expireIfValid := by
    intro u hu
    unfold State.expireIfValid
    split
    · exact hu.takeOutFilter _
    · exact hu
  exact (((hexpire hclose).only (wakePart_only _)).only (markBoth_only _)).notePrevMinute

theorem TableSound.second (h : TableSound s) : TableSound s.second := by
  have hcount : TableSound (State.countNotices { s with clock := { s.clock.advance with divider := 0 } }) :=
    TableSound.only (s := { s with clock := { s.clock.advance with divider := 0 } }) ⟨h.1, h.2, h.3, h.4, h.5, h.6, h.7, h.8⟩
      (countNotices_only _)
  have hmark := hcount.only (markClockLines_only _)
  unfold State.second
  dsimp only
  split
  · exact hmark.minuteEvent _
  · exact hmark

theorem TableSound.setClock (h : TableSound s) (hh mm ss : Nat) : TableSound (s.setClock hh mm ss) :=
  TableSound.minuteEvent (s := { s with
    clock := { s.clock with hh := hh, mm := mm, ss := ss, valid := true, divider := 0 } })
    ⟨h.1, h.2, h.3, h.4, h.5, h.6, h.7, h.8⟩ _

theorem TableSound.countChange (h : TableSound s) (l : Fin 4) : TableSound (s.countChange l) := by
  have hline := h.only (modLine_only s l fun x => { x with settled := flipLevel x.settled, pending := 0 })
  unfold State.countChange State.handLineOn
  dsimp only
  split
  · exact hline
  · split
    · exact hline
    · exact hline.only (settleSelected_only _ _)
  · split
    · exact hline
    · exact hline.only (settleSelected_only _ _)
  · split
    · exact hline.approachEdge _
    · exact hline
  · split
    · exact hline.only (wakeEdge_only _ _)
    · exact hline

theorem writeParam_ro (s : State) (q : Param) (value : List Byte) :
    (q = .ro → (s.writeParam q value).params.ro = beValue value) ∧
      (q ≠ .ro → (s.writeParam q value).params.ro = s.params.ro) := by
  refine ⟨fun h => by subst h; rfl, fun h => ?_⟩
  cases q
  case ro => exact absurd rfl h
  case line l =>
    show (match readLine value with
      | some c => s.modLine l (InputLine.write c)
      | none => s).params.ro = _
    split <;> rfl
  all_goals rfl

/-- A sound table looks at RO alone of the parameters. -/
theorem TableSound.of_ro {t : State} (h : TableSound s) (hro : t.params.ro = s.params.ro) (ht : t.table = s.table)
    (hn : t.pinCount = s.pinCount) (hf : t.freeStops = s.freeStops) (hr : t.reservations = s.reservations) :
    TableSound t := by
  refine ⟨?_, ?_, ?_, ?_, ?_, ?_, ?_, ?_⟩
  · rw [ht]; exact h.atMost
  · rw [ht]; exact h.codesDistinct
  · rw [ht, hro]; exact h.ordered
  · rw [ht]; exact h.stopsEach
  · rw [ht, hf]; exact h.pool
  · rw [ht, hn]; exact h.pins
  · rw [hn]; exact h.pinsMost
  · rw [ht, hr]; exact h.reserved

theorem TableSound.writeParam (h : TableSound s) (q : Param) (value : List Byte) :
    TableSound (s.writeParam q value) := by
  have ho := writeParam_only s q value
  have ht := writeParam_table s q value
  by_cases hq : q = .ro
  · rw [if_pos hq, ← (writeParam_ro s q value).1 hq] at ht
    exact h.resorted ht ho.pinCount ho.freeStops ho.reservations
  · rw [if_neg hq] at ht
    exact h.of_ro ((writeParam_ro s q value).2 hq) ht ho.pinCount ho.freeStops ho.reservations

theorem TableSound.writeParams (values : List (Param × List Byte)) (h : TableSound s) :
    TableSound (s.writeParams values) := by
  unfold State.writeParams
  induction values generalizing s with
  | nil => exact h
  | cons x rest ih => exact ih (h.writeParam x.1 x.2)

theorem TableSound.applySettings (h : TableSound s) (st : Settings) : TableSound (s.applySettings st) := by
  have htake := h.only (takeSettings_only s st)
  have hwake := (htake.writeParams st.params).only (OnlyIn.eachFace fun f t => wakeUpFace_only t f)
  exact hwake.only (setLoader_only _ _)

end

/-! ## Every step -/

theorem readStops_length : ∀ bytes : List Byte, (readStops bytes).length = bytes.length / 3
  | [] | [_] | [_, _] => by simp [readStops]
  | _ :: _ :: _ :: rest => by
    rw [readStops, List.length_cons, readStops_length rest, List.length_cons, List.length_cons, List.length_cons]
    omega

/-- R36: a PUT DEPARTURE that is read carries at most 32 stops. -/
theorem parsePut_stops {fields : List Byte} {q : PutRequest} (h : parsePut fields = .ok q) :
    q.stops.length ≤ Config.maxStops := by
  unfold parsePut at h
  split at h
  · split at h
    · cases h
    · rename_i n rest hl
      split at h
      · dsimp only at h
        unfold inRange at h
        split at h
        · rename_i hc
          cases h
          simp only [Bool.and_eq_true, decide_eq_true_eq] at hc
          obtain ⟨⟨_, hn⟩, _⟩ := hc
          have hlen : rest.length = 3 * n.toNat := by simpa using hl
          rw [readStops_length, hlen, Nat.mul_div_cancel_left _ (by decide)]
          exact hn
        · cases h
      · cases h
  · cases h

theorem takePutDeparture_sound (p : Port) (fields : List Byte) {s : State} (h : TableSound s) :
    TableSound (takePutDeparture p fields s).1 := by
  unfold takePutDeparture
  refine withOperands_keeps h fun q hq => withRights_keeps h fun _ => ?_
  have hst := parsePut_stops hq
  split
  · rename_i hnone
    split
    · exact h
    · rename_i hroom
      split
      · exact h
      · rename_i hpool
        dsimp only
        exact h.insertDeparture (findCode_none.mp hnone) (Nat.not_le.mp hroom) hst (Nat.not_lt.mp hpool) rfl
  · rename_i old hold
    obtain ⟨hcode, hmem⟩ := findCode_some hold
    split
    · exact h
    · rename_i hpool
      dsimp only
      exact h.replaceDeparture (new := q.replacing old p) _ hmem hcode.symm hst (Nat.not_lt.mp hpool) rfl

theorem takeAmend_sound (p : Port) (fields : List Byte) {s : State} (h : TableSound s) :
    TableSound (takeAmend p fields s).1 := by
  unfold takeAmend
  refine withOperands_keeps h fun q _ => withRights_keeps h fun _ => ?_
  split
  · exact h
  · rename_i r hr
    exact h.amendRecord q p (findCode_some hr).2

theorem takeAmendIfReserved_sound (p : Port) (fields : List Byte) {s : State} (h : TableSound s) :
    TableSound (takeAmendIfReserved p fields s).1 := by
  unfold takeAmendIfReserved
  refine withOperands_keeps h fun q _ => withRights_keeps h fun _ => ?_
  have hdrop : TableSound (s.setReservation p none) := h.dropReservation p
  split
  · exact h
  · rename_i r hr
    dsimp only
    split
    · exact hdrop.amendRecord q p (findCode_some hr).2
    · exact hdrop

/-- R15, R16: a record that takes or loses its pin, counted. -/
theorem TableSound.pinChanged {s : State} (h : TableSound s) {r : Departure} (hr : r ∈ s.table) (pinned : Bool)
    {count : Nat} (hpins : count + (if r.pinned then 1 else 0) = s.pinCount + (if pinned then 1 else 0))
    (hmost : count ≤ Config.maxPinned) :
    TableSound (State.putInPlace { s with pinCount := count } { r with pinned := pinned }) :=
  h.changed (new := { r with pinned := pinned }) hr rfl rfl rfl rfl rfl rfl (.of_eq rfl) hpins hmost

theorem takePin_sound (p : Port) (fields : List Byte) {s : State} (h : TableSound s) :
    TableSound (takePin p fields s).1 := by
  refine takeOnRecord_keeps h fun code r hr => ?_
  split
  · exact h
  · rename_i hpin
    split
    · exact h
    · rename_i hroom
      exact h.pinChanged (findCode_some hr).2 true (by simp [hpin]) (Nat.not_le.mp hroom)

theorem takeUnpin_sound (p : Port) (fields : List Byte) {s : State} (h : TableSound s) :
    TableSound (takeUnpin p fields s).1 := by
  refine takeOnRecord_keeps h fun code r hr => ?_
  obtain ⟨_, hmem⟩ := findCode_some hr
  split
  · rename_i hpin
    have hone : s.pinCount = pinnedIn (withoutRecord r.code s.table) + 1 := by
      rw [h.pins, pinnedIn_perm (perm_withoutRecord h.codesDistinct hmem), pinnedIn_cons, if_pos hpin]
    have hback : s.pinCount - 1 + 1 = s.pinCount := by rw [hone]; rfl
    have hcount : s.pinCount - 1 + (if r.pinned then 1 else 0) = s.pinCount + (if false then 1 else 0) := by
      rw [if_pos hpin, hback]; rfl
    exact h.pinChanged hmem false hcount ((Nat.sub_le _ _).trans h.pinsMost)
  · exact h

theorem takeReserve_sound (p : Port) (fields : List Byte) {s : State} (h : TableSound s) :
    TableSound (takeReserve p fields s).1 := by
  refine takeOnRecord_keeps h fun code r hr => h.setReservation p fun c hc => ?_
  cases hc
  exact List.mem_map.mpr ⟨r, (findCode_some hr).2, rfl⟩

theorem takeWithdrawDeparture_sound (p : Port) (fields : List Byte) {s : State} (h : TableSound s) :
    TableSound (takeWithdrawDeparture p fields s).1 := by
  refine takeOnRecord_keeps h fun _ _ hr => ?_
  dsimp only
  exact h.removeRecord _ (findCode_some hr).2

theorem takeSetParameter_sound (p : Port) (fields : List Byte) {s : State} (h : TableSound s) :
    TableSound (takeSetParameter p fields s).1 :=
  withOperands_keeps h fun q _ => withRights_keeps h fun _ => (h.writeParam q.1 q.2).only (paramEffects_only _ _ _)

theorem TableSound.silence {s : State} (h : TableSound s) (p : Port) : TableSound (s.silence p) :=
  (((h.only (modPort_only s p _)).dropReservation p).only (markBoth_only _))

/-- Settles O54: a command that may touch the table, its pool, its pins or a reservation changes them by the
operations above, and every other step leaves them. -/
theorem tableStaysSound : Obligations.TableStaysSound := by
  intro s t hsound hstep
  refine step_keeps_on tableSoundParts (fun s t hs h => h.congr hs) (by decide) (fun s h => h.only (idle_only s))
    (fun c s t nb nu htouch acc rep h hnext => ?_) hsound hstep
  have serves : ∀ {p kind tag} {take : State → State × Reply}, (∀ u, TableSound u → TableSound (take u).1) →
      TableSound (s.serve p kind tag take) := fun htake => serve_keeps acc rep htake h
  cases c
  case byteArrival p b => exact absurd rfl (nb p b)
  case unknownKindFrame p kind tag fields => exact absurd rfl (nu p kind tag fields)
  all_goals clear nb nu
  case reset => cases hnext; exact .empty rfl rfl rfl fun p => by cases p <;> rfl
  case boardRestart p tag fields =>
    cases hnext
    exact serveRestart_keeps acc rep (fun _ _ _ _ => .empty rfl rfl rfl fun p => by cases p <;> rfl) h
  case settingsReadComplete acknowledged =>
    revert hnext
    show execSettingsReadComplete acknowledged s = _ → _
    unfold execSettingsReadComplete
    split <;> intro hnext <;> cases hnext
    · exact h
    · exact h
    · exact (h.only (raiseLoad_only _ _)).applySettings _
  case portSilent p => cases hnext; split; exacts [h.silence p, h]
  case putDeparture p tag fields => cases hnext; exact serves fun _ => takePutDeparture_sound p fields
  case amend p tag fields => cases hnext; exact serves fun _ => takeAmend_sound p fields
  case amendIfReserved p tag fields => cases hnext; exact serves fun _ => takeAmendIfReserved_sound p fields
  case withdrawDeparture p tag fields => cases hnext; exact serves fun _ => takeWithdrawDeparture_sound p fields
  case pin p tag fields => cases hnext; exact serves fun _ => takePin_sound p fields
  case unpin p tag fields => cases hnext; exact serves fun _ => takeUnpin_sound p fields
  case reserve p tag fields => cases hnext; exact serves fun _ => takeReserve_sound p fields
  case dropReservation p tag fields =>
    cases hnext
    exact serves fun u hu => withOperands_keeps hu fun _ _ => hu.dropReservation p
  case setClock p tag fields =>
    cases hnext
    exact serves fun u hu => withOperands_keeps hu fun _ _ => withRights_keeps hu fun _ => hu.setClock _ _ _
  case setParameter p tag fields => cases hnext; exact serves fun _ => takeSetParameter_sound p fields
  case secondEvent => cases hnext; split; exacts [h.second, h]
  case changeCounts l => cases hnext; exact h.countChange l
  case pinSample l level =>
    cases hnext
    split
    · exact h.only (modLine_only s l _)
    · split
      · exact h.only (modLine_only s l _)
      · exact h.countChange l
  all_goals exact absurd (by dsimp only [partsOf]; decide) htouch

end Sys2Proof.Machine
end

section
/-! PROOFS. Conditions on the faces that a step keeps: what a command does outside the parts that such a condition is
about leaves it, marks and wakes reach the faces through few operations, and what those keep most commands keep. -/

namespace Sys2Proof.Machine

/-- The parts that a condition on faces, panels and settings does not look at. -/
def awayParts : List Part :=
  [.table, .pinCount, .freeStops, .reservations, .notices, .postCounter, .clock, .flashOn, .capture, .seen, .events,
    .mem, .free, .pending]

/-- A change of a port that leaves its settings. -/
def KeepsPortSettings (g : LinkPort → LinkPort) : Prop :=
  ∀ x, (g x).baud = x.baud ∧ (g x).limit = x.limit ∧ (g x).stale = x.stale

/-- A condition that the shared work on the faces keeps. -/
structure FaceWork (I : State → Prop) : Prop where
  away : ∀ {s t : State}, OnlyIn awayParts s t → I s → I t
  port : ∀ {s : State} (p : Port) {g : LinkPort → LinkPort}, KeepsPortSettings g → I s → I (s.modPort p g)
  dirty : ∀ {s : State} (f : Face), I s → I (s.markDirty f)
  touch : ∀ {s : State} (platforms : List Nat), I s → I (s.touch platforms)
  wakePart : ∀ {s : State}, I s → I s.wakePart
  notice : ∀ {s : State} (cls : NoticeClass) (targets : FaceSel), I s → I (s.wakeForNotice cls targets)

/-- A condition that a mark or a countdown of a face keeps, and the working out of its effective state. -/
structure SettleWork (I : State → Prop) : Prop where
  away : ∀ {s t : State}, OnlyIn awayParts s t → I s → I t
  port : ∀ {s : State} (p : Port) {g : LinkPort → LinkPort}, KeepsPortSettings g → I s → I (s.modPort p g)
  mark : ∀ {s : State} (f : Face) {g : Composer → Composer},
    (∀ c, ∃ n d, g c = { c with countdown := n, dirty := d }) → I s → I (s.modFace f g)
  settle : ∀ {s : State} (f : Face), I s → I (s.settle f)

theorem eachFace_keeps {I : State → Prop} {g : Face → State → State} (hg : ∀ f t, I t → I (g f t)) {s : State} (h : I s) :
    I (s.eachFace g) := hg .b _ (hg .a s h)

theorem ite_keeps {I : State → Prop} {c : Prop} [Decidable c] {s t : State} (h : I s) (k : I t) : I (if c then s else t) := by
  split <;> assumption

/-! ## What marks, countdowns and effective states keep -/

section
variable {I : State → Prop} {s : State}

theorem SettleWork.dirty (w : SettleWork I) (f : Face) (h : I s) : I (s.markDirty f) := w.mark f (fun c => ⟨c.countdown, true, rfl⟩) h

theorem SettleWork.wake (w : SettleWork I) (f : Face) (source : WakeSource) (h : I s) : I (s.wake f source) := by
  refine w.mark f (fun c => ?_) h
  unfold Composer.wake
  split
  · exact ⟨_, c.dirty, rfl⟩
  · exact ⟨c.countdown, c.dirty, rfl⟩

theorem SettleWork.departureWake (w : SettleWork I) (f : Face) (h : I s) : I (s.departureWake f) :=
  ite_keeps (w.wake f _ h) h

theorem SettleWork.touch (w : SettleWork I) (platforms : List Nat) (h : I s) : I (s.touch platforms) := by
  have marked : I (s.eachFace fun f t => if t.bound f platforms then (t.markDirty f).departureWake f else t) :=
    eachFace_keeps (fun f _ ht => ite_keeps (w.departureWake f (w.dirty f ht)) ht) h
  exact eachFace_keeps (g := fun f t => if t.bound f platforms then t.settle f else t)
    (fun f _ ht => ite_keeps (w.settle f ht) ht) marked

theorem SettleWork.wakePart (w : SettleWork I) (h : I s) : I s.wakePart :=
  eachFace_keeps (fun f _ ht => w.settle f ht) (eachFace_keeps (fun f _ ht => w.departureWake f ht)
    (eachFace_keeps (fun f _ ht => w.mark f (fun c => ⟨_, c.dirty, rfl⟩) ht) h))

theorem SettleWork.notice (w : SettleWork I) (cls : NoticeClass) (targets : FaceSel) (h : I s) :
    I (s.wakeForNotice cls targets) := by
  unfold State.wakeForNotice
  split
  · exact h
  · exact eachFace_keeps (fun f _ ht => ite_keeps (w.settle f ht) ht)
      (eachFace_keeps (fun f _ ht => ite_keeps (w.wake f _ ht) ht) h)

theorem SettleWork.settleSelected (w : SettleWork I) (sel : FaceSel) (h : I s) : I (s.settleSelected sel) :=
  eachFace_keeps (fun f _ ht => ite_keeps (w.settle f ht) ht) h

theorem SettleWork.wakeEdge (w : SettleWork I) (sel : FaceSel) (h : I s) : I (s.wakeEdge sel) :=
  w.settleSelected sel (eachFace_keeps (fun f _ ht => ite_keeps (w.wake f _ ht) ht) h)

theorem SettleWork.faceWork (w : SettleWork I) : FaceWork I :=
  ⟨w.away, w.port, w.dirty, w.touch, w.wakePart, w.notice⟩

/-! ## What the shared operations keep -/

theorem FaceWork.markBoth (w : FaceWork I) (h : I s) : I s.markBoth := w.dirty .b (w.dirty .a h)

theorem FaceWork.markTouched (w : FaceWork I) (platforms : List Nat) (h : I s) : I (s.markTouched platforms) :=
  eachFace_keeps (fun f _ ht => ite_keeps (w.dirty f ht) ht) h

theorem FaceWork.markTargets (w : FaceWork I) (targets : List FaceSel) (h : I s) : I (s.markTargets targets) :=
  eachFace_keeps (fun f _ ht => ite_keeps (w.dirty f ht) ht) h

theorem FaceWork.raise (w : FaceWork I) (kind : FaultKind) (l : Locale) (h : I s) : I (s.raise kind l) :=
  w.away ((raise_only s kind l).mono (by decide)) h

theorem FaceWork.crcFail (w : FaceWork I) (p : Port) (h : I s) : I (s.crcFail p) :=
  w.raise _ _ (w.port p (fun _ => ⟨rfl, rfl, rfl⟩) h)

theorem FaceWork.acceptFrame (w : FaceWork I) (p : Port) (h : I s) : I (s.acceptFrame p) :=
  have hp := w.port p (g := fun port =>
    { port with state := .execute, len := none, data := [], gap := 0, count := 0, silent := false }) (fun _ => ⟨rfl, rfl, rfl⟩) h
  ite_keeps (w.markBoth hp) hp

theorem FaceWork.sendReply (w : FaceWork I) (p : Port) (kind tag : Byte) (r : Reply) (h : I s) : I (s.sendReply p kind tag r) :=
  w.port p (g := fun port => { port with state := .reply, reply := s.replyFrame p kind tag r }) (fun _ => ⟨rfl, rfl, rfl⟩) h

theorem FaceWork.silence (w : FaceWork I) (p : Port) (h : I s) : I (s.silence p) :=
  w.markBoth (w.away ((setReservation_only _ p none).mono (by decide)) (w.port p (fun _ => ⟨rfl, rfl, rfl⟩) h))

/-! ### The departure table -/

theorem FaceWork.changeRecord (w : FaceWork I) (old new : Departure) (o : Origin) (h : I s) : I (s.changeRecord old new o) := by
  refine w.touch _ (w.away ((loseReservations_only _ old.code o).mono (by decide)) (w.away ?_ h))
  exact (putInPlace_only s _).mono (by decide)

theorem FaceWork.takeOut (w : FaceWork I) (r : Departure) (o : Origin) (h : I s) : I (s.takeOut r o) :=
  w.away ((takeOut_only s r o).mono (by decide)) h

theorem FaceWork.removeRecord (w : FaceWork I) (r : Departure) (o : Origin) (h : I s) : I (s.removeRecord r o) :=
  w.touch _ (w.takeOut r o h)

theorem FaceWork.takeOutAll (w : FaceWork I) (gone : List Departure) (h : I s) : I (s.takeOutAll gone) := by
  induction gone generalizing s with
  | nil => exact h
  | cons r rest ih => exact ih (w.markTouched _ (w.takeOut r .loc h))

theorem FaceWork.insertDeparture (w : FaceWork I) (r : Departure) (h : I s) : I (s.insertDeparture r) := by
  refine w.touch _ (w.away (s := s) ?_ h)
  intro q hq; cases q <;> first | rfl | exact absurd (by decide) hq

theorem FaceWork.replaceDeparture (w : FaceWork I) (old new : Departure) (o : Origin) (h : I s) :
    I (s.replaceDeparture old new o) := by
  refine w.touch _ (w.away ((loseReservations_only _ old.code o).mono (by decide)) (w.away (s := s) ?_ h))
  intro q hq; cases q <;> first | rfl | exact absurd (by decide) hq

theorem FaceWork.amendRecord (w : FaceWork I) (q : AmendRequest) (r : Departure) (p : Port) (h : I s) :
    I (s.amendRecord q r p) := by
  have change : I (if q.applied r = r then s else s.changeRecord r (q.applied r) (.port p)) :=
    ite_keeps h (w.changeRecord _ _ _ h)
  unfold State.amendRecord
  split
  · exact w.removeRecord _ _ h
  · exact change
  · exact change

theorem FaceWork.approach (w : FaceWork I) (code : Nat) (h : I s) : I (s.approach code) := by
  unfold State.approach
  split
  · exact ite_keeps h (w.changeRecord _ _ _ h)
  · exact h

theorem FaceWork.approachEdge (w : FaceWork I) (sel : FaceSel) (h : I s) : I (s.approachEdge sel) := by
  unfold State.approachEdge
  split
  · exact ite_keeps (w.approach _ h) (w.approach _ (w.approach _ h))
  · exact w.approach _ h
  · exact w.approach _ h
  · exact h

theorem SettleWork.handLineOn (w : SettleWork I) (l : Fin 4) (before : InputLine) (h : I s) : I (s.handLineOn l before) := by
  unfold State.handLineOn
  dsimp only
  split
  · exact h
  · exact ite_keeps h (w.settleSelected _ h)
  · exact ite_keeps h (w.settleSelected _ h)
  · exact ite_keeps (w.faceWork.approachEdge _ h) h
  · exact ite_keeps (w.wakeEdge _ h) h

theorem SettleWork.paramEffects (w : SettleWork I) (duties : ∀ u f, I u → I (u.recomputeDuties f)) (before : State) (q : Param)
    (h : I s) : I (s.paramEffects before q) := by
  unfold State.paramEffects
  split
  case h_1 => exact w.faceWork.markBoth (w.touch _ h)
  case h_2 | h_3 | h_4 => exact w.faceWork.markBoth h
  case h_5 => exact eachFace_keeps (fun f u hu => duties u f hu) h
  case h_6 | h_7 => exact duties _ _ h
  case h_8 => exact eachFace_keeps (fun f _ hu => ite_keeps (w.settle f hu) hu) h
  all_goals exact h

/-! ### Notices and the clock -/

theorem FaceWork.handOnPost (w : FaceWork I) (old : List FaceSel) (n : Notice) (h : I s) : I (s.handOnPost old n) :=
  w.notice _ _ (w.markTargets _ h)

theorem FaceWork.post (w : FaceWork I) (q : NoticeRequest) (p : Port) (h : I s) : I (s.post q p).1 := by
  unfold State.post
  split
  · refine w.handOnPost _ _ (w.away (s := s) ?_ h)
    intro q hq; cases q <;> first | rfl | exact absurd (by decide) hq
  · dsimp only
    split
    · exact w.handOnPost _ _ (w.away ((appendNotice_only s _).mono (by decide)) h)
    · split
      · exact w.handOnPost _ _ (w.away ((appendNotice_only _ _).mono (by decide))
          (w.away ((signal_only _ _ _).mono (by decide)) (w.away ((dropNotice_only s _).mono (by decide)) h)))
      · exact h

theorem FaceWork.countNotices (w : FaceWork I) (h : I s) : I s.countNotices := by
  refine w.markTargets _ (w.away (s := s) (OnlyIn.trans ?_ (OnlyIn.foldl _ (fun t n => ?_) _ _)) h)
  · intro q hq; cases q <;> first | rfl | exact absurd (by decide) hq
  · exact (signal_only t _ _).mono (by decide)

theorem clock_away (s : State) (c : Clock) : OnlyIn awayParts s { s with clock := c } := by
  intro q hq; cases q <;> first | rfl | exact absurd (by decide) hq

theorem FaceWork.minuteEvent (w : FaceWork I) (validBefore : Bool) (h : I s) : I (s.minuteEvent validBefore) := by
  have hclose : I (s.closeIfDue validBefore) := ite_keeps (w.takeOutAll _ h) h
  have hexpire : I (s.closeIfDue validBefore).expireIfValid := ite_keeps (w.takeOutAll _ hclose) hclose
  exact w.away (clock_away _ _) (w.markBoth (w.wakePart hexpire))

theorem FaceWork.second (w : FaceWork I) (h : I s) : I s.second := by
  have hmark : I (State.markClockLines (State.countNotices { s with clock := { s.clock.advance with divider := 0 } })) :=
    eachFace_keeps (fun f _ ht => ite_keeps (w.dirty f ht) ht) (w.countNotices (w.away (clock_away s _) h))
  exact ite_keeps (w.minuteEvent _ hmark) hmark

theorem FaceWork.setClock (w : FaceWork I) (hh mm ss : Nat) (h : I s) : I (s.setClock hh mm ss) :=
  w.minuteEvent _ (w.away (clock_away s _) h)

/-! ## The commands -/

theorem FaceWork.serve (w : FaceWork I) {p : Port} {kind tag : Byte} {take : State → State × Reply}
    (ht : ∀ u, I u → I (take u).1) (h : I s) : I (s.serve p kind tag take) :=
  serve_keeps (fun _ _ hu => w.acceptFrame _ hu) (fun _ _ _ _ _ hu => w.sendReply _ _ _ _ hu) ht h

theorem FaceWork.serveAway (w : FaceWork I) {p : Port} {kind tag : Byte} {take : State → State × Reply} {ps : List Part}
    (ht : ∀ u, OnlyIn ps u (take u).1) (hps : ps ⊆ awayParts) (h : I s) : I (s.serve p kind tag take) :=
  w.serve (fun u hu => w.away ((ht u).mono hps) hu) h

theorem FaceWork.putDeparture (w : FaceWork I) (p : Port) (fields : List Byte) (h : I s) : I (takePutDeparture p fields s).1 := by
  unfold takePutDeparture
  refine withOperands_keeps h fun q _ => withRights_keeps h fun _ => ?_
  split
  · split
    · exact h
    · split
      · exact h
      · dsimp only
        exact w.insertDeparture _ h
  · split
    · exact h
    · dsimp only
      exact w.replaceDeparture _ _ _ h

theorem FaceWork.amend (w : FaceWork I) (p : Port) (fields : List Byte) (h : I s) : I (takeAmend p fields s).1 := by
  unfold takeAmend
  refine withOperands_keeps h fun q _ => withRights_keeps h fun _ => ?_
  split
  · exact h
  · exact w.amendRecord _ _ _ h

theorem FaceWork.amendIfReserved (w : FaceWork I) (p : Port) (fields : List Byte) (h : I s) :
    I (takeAmendIfReserved p fields s).1 := by
  unfold takeAmendIfReserved
  refine withOperands_keeps h fun q _ => withRights_keeps h fun _ => ?_
  have hdrop : I (s.setReservation p none) := w.away ((setReservation_only s p none).mono (by decide)) h
  split
  · exact h
  · dsimp only
    split
    · exact w.amendRecord _ _ _ hdrop
    · exact hdrop

theorem FaceWork.withdrawDeparture (w : FaceWork I) (p : Port) (fields : List Byte) (h : I s) :
    I (takeWithdrawDeparture p fields s).1 := by
  refine takeOnRecord_keeps h fun _ r _ => ?_
  dsimp only
  exact w.removeRecord _ _ h

theorem FaceWork.postNotice (w : FaceWork I) (p : Port) (fields : List Byte) (h : I s) : I (takePostNotice p fields s).1 :=
  withOperands_keeps h fun q _ => withRights_keeps h fun _ => w.post q p h

theorem FaceWork.withdrawNotice (w : FaceWork I) (p : Port) (fields : List Byte) (h : I s) :
    I (takeWithdrawNotice p fields s).1 := by
  refine withOperands_keeps h fun id _ => ?_
  split
  · exact h
  · exact withRights_keeps h fun _ => w.markTargets _ (w.away ((dropNotice_only s _).mono (by decide)) h)

end

/-- The commands whose work on faces, panels, settings and loader is their own. -/
def ownWork : Instr → Bool
  | .reset .. | .boardRestart .. | .settingsReadComplete _ | .putPlace .. | .withdrawPlace .. | .writeZone .. | .setFace ..
  | .setParameter .. | .storeSettings .. | .storeComplete _ | .timerExpiry _ | .conversionCompletion _ | .plan _
  | .paintCompletion .. | .frameBoundary .. | .panelStartupDelayExpiry _ | .changeCounts _ | .pinSample .. => true
  | _ => false

section
variable {I : State → Prop} {s t : State}

/-- What the shared work keeps, every command without work of its own keeps, but for the byte by byte work of a port. -/
theorem FaceWork.exec (w : FaceWork I) {c : Instr} (hc : ownWork c = false) (nb : ∀ p b, c ≠ .byteArrival p b)
    (nu : ∀ p k g fs, c ≠ .unknownKindFrame p k g fs) (h : I s) (he : exec c s = .next t) : I t := by
  cases c
  case byteArrival p b => exact absurd rfl (nb p b)
  case unknownKindFrame p kind tag fields => exact absurd rfl (nu p kind tag fields)
  all_goals clear nb nu
  all_goals dsimp only [ownWork] at hc
  case framingError p =>
    revert he
    show execFramingError p s = _ → _
    unfold execFramingError
    split <;> intro he <;> cases he
    · exact w.crcFail p h
    all_goals exact h
  case gapTimerExpiry p => cases he; exact ite_keeps (w.port p (fun _ => ⟨rfl, rfl, rfl⟩) h) h
  case frameCrcFail p => cases he; exact ite_keeps (w.crcFail p h) h
  case replySent p =>
    revert he
    show execReplySent p s = _ → _
    unfold execReplySent
    split <;> intro he <;> cases he
    · exact w.port p (fun _ => ⟨rfl, rfl, rfl⟩) h
    all_goals exact h
  case portSilent p => cases he; exact ite_keeps (w.silence p h) h
  case putDeparture p tag fields => cases he; exact w.serve (fun _ hu => w.putDeparture p fields hu) h
  case amend p tag fields => cases he; exact w.serve (fun _ hu => w.amend p fields hu) h
  case amendIfReserved p tag fields => cases he; exact w.serve (fun _ hu => w.amendIfReserved p fields hu) h
  case withdrawDeparture p tag fields => cases he; exact w.serve (fun _ hu => w.withdrawDeparture p fields hu) h
  case pin p tag fields => cases he; exact w.serveAway (takePin_only p fields) (by decide) h
  case unpin p tag fields => cases he; exact w.serveAway (takeUnpin_only p fields) (by decide) h
  case reserve p tag fields => cases he; exact w.serveAway (takeReserve_only p fields) (by decide) h
  case dropReservation p tag fields => cases he; exact w.serveAway (takeDropReservation_only p fields) (by decide) h
  case postNotice p tag fields => cases he; exact w.serve (fun _ hu => w.postNotice p fields hu) h
  case withdrawNotice p tag fields => cases he; exact w.serve (fun _ hu => w.withdrawNotice p fields hu) h
  case setClock p tag fields =>
    cases he
    exact w.serve (fun u hu => withOperands_keeps hu fun _ _ => withRights_keeps hu fun _ => w.setClock _ _ _ hu) h
  case clearFaults p tag fields => cases he; exact w.serveAway (takeClearFaults_only p fields) (by decide) h
  case readEvents p tag fields => cases he; exact w.serveAway (takeReadEvents_only p fields) (by decide) h
  case oscillatorRunning => cases he; exact ite_keeps (w.away (clock_away s _) h) h
  case startupDeadlineExpiry => cases he; exact ite_keeps (w.away ((deadlineExpires_only s).mono (by decide)) h) h
  case secondEvent => cases he; exact ite_keeps (w.second h) h
  case probeRights p tag fields =>
    cases he
    exact w.serve (fun u hu => withOperands_keeps hu fun _ _ => withRights_keeps hu fun _ => hu) h
  case readDeparture | readPlace | readNotice | readParameter =>
    cases he
    refine w.serve (fun u hu => withOperands_keeps hu fun x _ => ?_) h
    split <;> exact hu
  case listDepartures | readZone | listNotices | readClock | readFace | readShown | readInputs | readFaults =>
    cases he
    exact w.serve (fun u hu => withOperands_keeps hu fun _ _ => hu) h
  all_goals exact absurd hc (by decide)

/-- What the shared work keeps, a step keeps, if the idle step and the commands with work of their own keep it. -/
theorem FaceWork.step (w : FaceWork I) (idle : ∀ s, I s → I s.idle)
    (own : ∀ c s t, ownWork c = true → I s → Machine.exec c s = .next t → I t) (h : I s) (he : step s = .next t) : I t := by
  refine step_keeps (I := I) (fun u rest hu => w.away ?_ hu) idle (fun c u v nb nu hu hv => ?_)
    (fun u p kind tag hu => w.serve (fun _ hv => hv) hu) (fun u p _ hu => w.port p (fun _ => ⟨rfl, rfl, rfl⟩) hu)
    (fun u p n _ _ _ _ hu => w.port p (fun _ => ⟨rfl, rfl, rfl⟩) hu) (fun u p _ hu => w.crcFail p hu)
    (fun u p b n _ _ _ hu => w.port p (fun _ => ⟨rfl, rfl, rfl⟩) hu) h he
  · intro q hq; cases q <;> first | rfl | exact absurd (by decide) hq
  · cases hc : ownWork c
    · exact w.exec hc nb nu hu hv
    · exact own c u v hc hu hv

end

end Sys2Proof.Machine
end

section
/-! PROOFS. The notice store, the clock, the zones, the settings and the settings memory stay sound (R49, R65, R79, R89,
R181, R183): each is kept by the few commands that change its parts, and by every other step. -/

namespace Sys2Proof.Machine

section
variable {s t : State}

/-! ## Notices (R77, R79, R89) -/

theorem NoticesSound.only (h : NoticesSound s) {ps : List Part} (ho : OnlyIn ps s t) (hps : Part.notices ∉ ps := by decide) :
    NoticesSound t := notices_congr (ho.notices hps) h

theorem NoticesSound.dropNotice (h : NoticesSound s) (id : Nat) : NoticesSound (s.dropNotice id) := by
  have hsub : (s.notices.filter fun n => n.id != id).Sublist s.notices := List.filter_sublist
  exact ⟨hsub.length_le.trans h.atMost, h.idsDistinct.sublist (hsub.map _), fun n hn => h.texts n (hsub.subset hn),
    fun n hn => h.remaining n (hsub.subset hn)⟩

theorem NoticesSound.second (h : NoticesSound s) : NoticesSound s.second := by
  have hclock : OnlyIn [.clock] s { s with clock := { s.clock.advance with divider := 0 } } := by
    intro q hq; cases q <;> first | rfl | exact absurd (by decide) hq
  have hmark := (notices_count _ (h.only hclock)).only (markClockLines_only _)
  exact ite_keeps (hmark.only (minuteEvent_only _ _)) hmark

theorem noticesStaySound (h : NoticesSound s) (hstep : step s = .next t) : NoticesSound t := by
  refine step_keeps_on [.notices] (fun s t hs h => notices_congr (hs .notices (by decide)) h) (by decide)
    (fun s h => h.only (idle_only s)) (fun c s t nb nu htouch acc rep h hnext => ?_) h hstep
  cases c
  case byteArrival p b => exact absurd rfl (nb p b)
  case unknownKindFrame p kind tag fields => exact absurd rfl (nu p kind tag fields)
  all_goals clear nb nu
  case reset => cases hnext; exact notices_reset _ rfl
  case boardRestart p tag fields => cases hnext; exact serveRestart_keeps acc rep (fun _ _ _ _ => notices_reset _ rfl) h
  case postNotice p tag fields =>
    cases hnext
    exact serve_keeps acc rep (fun u hu => withOperands_keeps hu fun q hq => withRights_keeps hu fun _ =>
      notices_post u q p (parseNotice_fits hq) hu) h
  case withdrawNotice p tag fields =>
    cases hnext
    refine serve_keeps acc rep (fun u hu => withOperands_keeps hu fun id _ => ?_) h
    split
    · exact hu
    · exact withRights_keeps hu fun _ => (hu.dropNotice _).only (markTargets_only _ _)
  case secondEvent => cases hnext; exact ite_keeps h.second h
  all_goals exact absurd (by dsimp only [partsOf]; decide) htouch

/-! ## The clock (R63 to R66) -/

theorem ClockSound.only (h : ClockSound s) {ps : List Part} (ho : OnlyIn ps s t) (hps : Part.clock ∉ ps := by decide) :
    ClockSound t := clock_congr (ho.clock hps) h

theorem ClockSound.second (h : ClockSound s) : ClockSound s.second := by
  obtain ⟨hours, minutes, seconds, deadline, source, osc⟩ := advance_sound h.hours h.minutes h.seconds
  have hclock : ClockSound { s with clock := { s.clock.advance with divider := 0 } } :=
    ⟨hours, minutes, seconds, by dsimp only; rw [deadline, source]; exact h.undecided,
      by dsimp only; rw [deadline, osc]; exact h.starting⟩
  have hmark := (hclock.only (countNotices_only _)).only (markClockLines_only _)
  exact ite_keeps (clock_minute _ _ hmark) hmark

theorem ClockSound.setClock (h : ClockSound s) {hh mm ss : Nat} (hhh : hh < 24) (hmm : mm < 60) (hss : ss < 60) :
    ClockSound (s.setClock hh mm ss) :=
  clock_minute _ _ ⟨hhh, hmm, hss, h.undecided, h.starting⟩

theorem ClockSound.enterRunning (h : ClockSound s) : ClockSound { s with clock := s.clock.enterRunning } := by
  unfold Clock.enterRunning
  split
  · rename_i hd
    exact ⟨h.hours, h.minutes, h.seconds, h.undecided, fun hs => by dsimp only at hs; rw [hd] at hs; cases hs⟩
  · exact ⟨h.hours, h.minutes, h.seconds, by simp, by simp⟩

theorem ClockSound.deadlineExpires (h : ClockSound s) : ClockSound s.deadlineExpires := by
  have hsource : ClockSound { s with clock := { s.clock with deadline := none, source := .system, divider := 0 } } :=
    ⟨h.hours, h.minutes, h.seconds, by simp, by simp⟩
  exact hsource.only (raise_only _ _ _)

/-- R63 to R65: a count of the crystal or of the tick leaves the time, the source and whether the deadline runs. -/
theorem ClockSound.counted (h : ClockSound s) (ht : t.clock.hh = s.clock.hh ∧ t.clock.mm = s.clock.mm ∧ t.clock.ss = s.clock.ss)
    (hd : t.clock.deadline.isSome = s.clock.deadline.isSome) (hs : t.clock.source = s.clock.source)
    (ho : t.clock.osc = s.clock.osc) : ClockSound t := by
  obtain ⟨hhh, hmm, hss⟩ := ht
  refine ⟨?_, ?_, ?_, ?_, ?_⟩
  · rw [hhh]; exact h.hours
  · rw [hmm]; exact h.minutes
  · rw [hss]; exact h.seconds
  · rw [hd, hs]; exact h.undecided
  · rw [hd, ho]; exact h.starting

theorem ClockSound.idle (h : ClockSound s) : ClockSound s.idle := by
  unfold State.idle
  split
  · split
    · exact h.counted ⟨rfl, rfl, rfl⟩ rfl rfl rfl
    · exact h.counted ⟨rfl, rfl, rfl⟩ Option.isSome_map rfl rfl
  · exact h.counted ⟨rfl, rfl, rfl⟩ rfl rfl rfl

theorem ClockSound.ofReset (h : t.clock = State.reset.clock) : ClockSound t :=
  clock_congr h ⟨by decide, by decide, by decide, by decide, by decide⟩

theorem clockStaysSound (h : ClockSound s) (hstep : step s = .next t) : ClockSound t := by
  refine step_keeps_on [.clock] (fun s t hs h => clock_congr (hs .clock (by decide)) h) (by decide)
    (fun s h => h.idle) (fun c s t nb nu htouch acc rep h hnext => ?_) h hstep
  cases c
  case byteArrival p b => exact absurd rfl (nb p b)
  case unknownKindFrame p kind tag fields => exact absurd rfl (nu p kind tag fields)
  all_goals clear nb nu
  case reset => cases hnext; exact .ofReset rfl
  case boardRestart p tag fields =>
    cases hnext
    exact serveRestart_keeps acc rep (fun u _ _ hu => clock_congr (s := u) rfl hu) h
  case setClock p tag fields =>
    cases hnext
    refine serve_keeps acc rep (fun u hu => withOperands_keeps hu fun q hq => withRights_keeps hu fun _ => ?_) h
    obtain ⟨hhh, hmm, hss⟩ := parseClock_range hq
    exact hu.setClock hhh hmm hss
  case oscillatorRunning => cases hnext; exact ite_keeps h.enterRunning h
  case startupDeadlineExpiry => cases hnext; exact ite_keeps h.deadlineExpires h
  case secondEvent => cases hnext; exact ite_keeps h.second h
  all_goals exact absurd (by dsimp only [partsOf]; decide) htouch

/-! ## The lockout test (R49) -/

theorem lockoutStays (h : lockoutPasses s.zones = true) (hstep : step s = .next t) : lockoutPasses t.zones = true := by
  refine step_keeps_on (I := fun u => lockoutPasses u.zones = true) [.zones]
    (fun s t hs h => by rw [show t.zones = s.zones from hs .zones (by decide)]; exact h) (by decide)
    (fun s h => by rw [(idle_only s).zones]; exact h) (fun c s t nb nu htouch acc rep h hnext => ?_) h hstep
  have defaults : lockoutPasses Zone.defaults = true := by decide
  cases c
  case byteArrival p b => exact absurd rfl (nb p b)
  case unknownKindFrame p kind tag fields => exact absurd rfl (nu p kind tag fields)
  all_goals clear nb nu
  case reset => cases hnext; exact defaults
  case boardRestart p tag fields =>
    cases hnext
    exact serveRestart_keeps (I := fun u => lockoutPasses u.zones = true) acc rep (fun _ _ _ _ => defaults) h
  case settingsReadComplete acknowledged =>
    revert hnext
    show execSettingsReadComplete acknowledged s = _ → _
    unfold execSettingsReadComplete
    split <;> intro hnext <;> cases hnext
    · exact h
    · exact h
    · rw [applySettings_zones]; exact applied_zones _ _
  case writeZone p tag fields =>
    cases hnext
    refine serve_keeps (I := fun u => lockoutPasses u.zones = true) acc rep
      (fun u hu => withOperands_keeps (I := fun u => lockoutPasses u.zones = true) hu fun q _ =>
        withRights_keeps (I := fun u => lockoutPasses u.zones = true) hu fun _ => ?_) h
    dsimp only
    split
    · assumption
    · exact hu
  all_goals exact absurd (by dsimp only [partsOf]; decide) htouch

/-! ## The settings memory (R181, R184) -/

theorem MemorySound.only (h : MemorySound s) {ps : List Part} (ho : OnlyIn ps s t)
    (hps : ∀ q ∈ [Part.mem, .places, .loader], q ∉ ps := by decide) : MemorySound t :=
  memory_congr (ho .mem (hps _ (by decide))) (ho .places (hps _ (by decide))) (ho .loader (hps _ (by decide))) h

theorem MemorySound.setPlace (h : MemorySound s) {n : Nat} {e : Option Place} (h1 : 1 ≤ n) (h2 : n ≤ 255)
    (he : ∀ x, e = some x → x.fits = true) : MemorySound (s.setPlace n e) := by
  have ho := setPlace_only s n e
  refine ⟨by rw [ho.mem]; exact h.canonical, fun m x hx => ?_, fun j hj => h.job j (by rw [← ho.loader]; exact hj)⟩
  rw [setPlace_place? s n e h1 h2] at hx
  split at hx
  · exact he x hx
  · exact h.names m x hx

theorem MemorySound.startStore (h : MemorySound s) (p : Port) (tag : Byte) : MemorySound (s.startStore p tag) := by
  refine ⟨h.canonical, h.names, fun j hj => ?_⟩
  cases hj
  exact image_length s h.names

theorem MemorySound.endStore (h : MemorySound s) {image : List Byte} (hl : image.length = Config.imageSize) :
    MemorySound (s.endStore image) := by
  refine ⟨wf_writeBlock h.canonical 0 image ?_, h.names, fun j hj => by cases hj⟩
  rw [hl]; decide

theorem MemorySound.failStore (h : MemorySound s) : MemorySound s.failStore := by
  have hfree : OnlyIn [.free] s { s with free := s.free + 1 } := by
    intro q hq; cases q <;> first | rfl | exact absurd (by decide) hq
  exact ((h.only hfree).endStore (freeImage_length _)).only (raise_only _ _ _)

/-- R182: every place is undefined, no store runs, and the memory is one that was left by the store given up. -/
theorem MemorySound.ofReset (h : MemorySound s) (hm : t.mem = s.abandonedMemory) (hp : t.places = State.reset.places)
    (hl : t.loader = State.reset.loader) : MemorySound t := by
  refine ⟨by rw [hm]; exact abandonedMemory_wf s h, fun n e hn => ?_, fun j hj => ?_⟩
  · refine absurd ?_ (reset_place?_none n e)
    rw [← hn]; unfold State.place?; rw [hp]
  · rw [hl] at hj; cases hj

theorem MemorySound.applySettings (h : MemorySound s) {st : Settings}
    (hst : st.params.map (fun x => x.1) = Param.all ∧ ∀ x ∈ st.params, x.2.length = x.1.bytes ∧ x.1.accepts x.2 = true)
    (hp : ∀ (i : Nat) (hi : i < 255) (e : Place), st.places[i] = some e → e.fits = true) :
    MemorySound (s.applySettings st) := by
  obtain ⟨hset, hload, _, ho⟩ := apply_spec s st hst.1 hst.2
  refine ⟨by rw [ho.mem]; exact h.canonical, fun n e hn => ?_, fun j hj => ?_⟩
  · have hplaces : (s.applySettings st).places = st.places := congrArg Settings.places hset
    unfold State.place? at hn
    split at hn
    · rename_i hr
      simp only [hplaces] at hn
      exact hp _ (by omega) e hn
    · cases hn
  · rw [hload] at hj; exact h.job j hj

theorem memoryStaysSound (h : MemorySound s) (hstep : step s = .next t) : MemorySound t := by
  refine step_keeps_on [.mem, .places, .loader]
    (fun s t hs h => memory_congr (hs .mem (by decide)) (hs .places (by decide)) (hs .loader (by decide)) h) (by decide)
    (fun s h => h.only (idle_only s)) (fun c s t nb nu htouch acc rep h hnext => ?_) h hstep
  cases c
  case byteArrival p b => exact absurd rfl (nb p b)
  case unknownKindFrame p kind tag fields => exact absurd rfl (nu p kind tag fields)
  all_goals clear nb nu
  case reset => cases hnext; exact h.ofReset rfl rfl rfl
  case boardRestart p tag fields => cases hnext; exact serveRestart_keeps acc rep (fun _ _ _ hu => hu.ofReset rfl rfl rfl) h
  case settingsReadComplete acknowledged =>
    revert hnext
    show execSettingsReadComplete acknowledged s = _ → _
    unfold execSettingsReadComplete
    split <;> intro hnext <;> cases hnext
    · exact h
    · exact h
    · exact (h.only (raiseLoad_only _ _)).applySettings (applied_params _ _)
        fun i hi e he => (applied_places _ _ i hi e he).2.2
  case putPlace p tag fields =>
    cases hnext
    refine serve_keeps acc rep (fun u hu => withOperands_keeps hu fun q hq => withRights_keeps hu fun _ => ?_) h
    obtain ⟨h1, h2, _, _, hfits⟩ := parsePlace_fits hq
    exact (hu.setPlace h1 h2 fun x hx => by cases hx; exact hfits).only (markBoth_only _)
  case withdrawPlace p tag fields =>
    cases hnext
    refine serve_keeps acc rep (fun u hu => withOperands_keeps hu fun n hn => withRights_keeps hu fun _ => ?_) h
    obtain ⟨h1, h2⟩ := parseNonZero_range hn
    split
    · exact hu
    · exact (hu.setPlace h1 h2 fun x hx => by cases hx).only (markBoth_only _)
  case storeSettings p tag fields =>
    cases hnext
    refine serveWith_keeps acc rep (fun u _ hu => ?_) h
    have hstore : MemorySound (takeStoreSettings p tag fields u).1 := by
      unfold takeStoreSettings
      split
      · exact hu
      · split
        · exact hu
        · split
          · exact hu
          · exact hu.startStore p tag
    unfold State.sendReply?
    split
    · exact hstore.only (sendReply_only _ _ _ _ _)
    · exact hstore
  case storeComplete outcome =>
    revert hnext
    show execStoreComplete outcome s = _ → _
    unfold execStoreComplete
    split
    · rename_i job _ hjob
      split <;> intro hnext <;> cases hnext
      · exact (h.endStore (h.job job hjob)).only (sendReply_only _ _ _ _ _)
      · exact h.failStore.only (sendReply_only _ _ _ _ _)
      · exact h.failStore.only (sendReply_only _ _ _ _ _)
    · intro hnext; cases hnext; exact h
  all_goals exact absurd (by dsimp only [partsOf]; decide) htouch

end

end Sys2Proof.Machine
end

section
/-! PROOFS. The settings stay in their ranges (R183): every request that writes one has accepted its value, a load applies
values that their requests would accept, and what else a step does leaves every setting. -/

namespace Sys2Proof.Machine

section
variable {s t : State}

/-! ## What leaves the settings -/

theorem SettingsInRange.kept (h : SettingsInRange s) (hp : ∀ q, t.readParam q = s.readParam q) (hz : t.zones = s.zones)
    (hf : ∀ f, (t.faces.get f).settings = (s.faces.get f).settings) (hn : t.places = s.places) : SettingsInRange t := by
  refine ⟨fun q => ?_, fun n => ?_, fun f => ?_, fun n e he => ?_⟩
  · rw [hp q]; exact h.params q
  · rw [hz]; exact h.zones n
  · rw [hf f]; exact h.faces f
  · refine h.names n e ?_
    rw [← he]; unfold State.place?; simp only [hn]

/-- The parts that hold settings. -/
def settingsParts : List Part := [.params, .places, .zones, .timers, .faces, .panels, .ambient, .lines, .ports]

theorem SettingsInRange.only (h : SettingsInRange s) {ps : List Part} (ho : OnlyIn ps s t)
    (hps : ∀ q ∈ settingsParts, q ∉ ps := by decide) : SettingsInRange t := by
  have timers : t.timers = s.timers := ho .timers (hps _ (by decide))
  have panels : t.panels = s.panels := ho .panels (hps _ (by decide))
  have ambient : t.ambient = s.ambient := ho .ambient (hps _ (by decide))
  have lines : t.lines = s.lines := ho .lines (hps _ (by decide))
  have ports : t.ports = s.ports := ho .ports (hps _ (by decide))
  have faces : t.faces = s.faces := ho .faces (hps _ (by decide))
  refine h.kept (readParam_congr (ho .params (hps _ (by decide))) (fun i => ?_) (by rw [ambient]) (KeepsCaps.of_panels panels)
    (fun l => ?_) fun p => ?_) (ho .zones (hps _ (by decide))) (fun f => by rw [faces]) (ho .places (hps _ (by decide)))
  · rw [timers]; exact ⟨rfl, rfl, rfl⟩
  · rw [lines]; exact ⟨rfl, rfl, rfl, rfl⟩
  · rw [ports]; exact ⟨rfl, rfl, rfl⟩

theorem SettingsInRange.faceWork (h : SettingsInRange s) (ho : OnlyIn faceParts s t) (hc : KeepsCaps s t)
    (hf : ∀ f, (t.faces.get f).settings = (s.faces.get f).settings) : SettingsInRange t :=
  h.kept (readParam_faceWork ho hc) ho.zones hf ho.places

theorem modFace_settings {f : Face} {g : Composer → Composer} (hg : ∀ c, (g c).settings = c.settings) (k : Face) :
    ((s.modFace f g).faces.get k).settings = (s.faces.get k).settings := by
  rw [State.modFace_faces, PerFace.get_set]
  split
  · rename_i hk; rw [hg, hk]
  · rfl

theorem SettingsInRange.modFace (h : SettingsInRange s) {f : Face} {g : Composer → Composer}
    (hg : ∀ c, (g c).settings = c.settings) : SettingsInRange (s.modFace f g) :=
  h.faceWork ((modFace_only s f g).mono (by decide)) (.of_panels rfl) (modFace_settings hg)

theorem SettingsInRange.modPanel (h : SettingsInRange s) {f : Face} {g : Panel → Panel}
    (hg : ∀ p, (g p).cap = p.cap ∧ (g p).trims = p.trims) : SettingsInRange (s.modPanel f g) :=
  h.faceWork ((modPanel_only s f g).mono (by decide)) (.modPanel hg) fun _ => rfl

theorem SettingsInRange.modPort (h : SettingsInRange s) (p : Port) {g : LinkPort → LinkPort} (hg : KeepsPortSettings g) :
    SettingsInRange (s.modPort p g) := by
  refine h.kept (readParam_congr rfl (fun _ => ⟨rfl, rfl, rfl⟩) rfl (KeepsCaps.refl s) (fun _ => ⟨rfl, rfl, rfl, rfl⟩) fun q => ?_)
    rfl (fun _ => rfl) rfl
  show ((s.ports.set p (g (s.ports.get p))).get q).baud = _ ∧ _
  rw [State.modPort_ports, PerPort.get_set]
  split
  · rename_i hq; rw [hq]; exact hg _
  · exact ⟨rfl, rfl, rfl⟩

theorem SettingsInRange.modLine (h : SettingsInRange s) (l : Fin 4) {g : InputLine → InputLine}
    (hg : ∀ x, (g x).function = x.function ∧ (g x).face = x.face ∧ (g x).sense = x.sense ∧ (g x).debounce = x.debounce) :
    SettingsInRange (s.modLine l g) := by
  refine h.kept (readParam_congr rfl (fun _ => ⟨rfl, rfl, rfl⟩) rfl (KeepsCaps.refl s) (fun i => ?_) fun _ => ⟨rfl, rfl, rfl⟩)
    rfl (fun _ => rfl) rfl
  rw [modLine_get]
  split
  · rename_i hi; rw [← hi]; exact hg _
  · exact ⟨rfl, rfl, rfl, rfl⟩

theorem SettingsInRange.modTimer (h : SettingsInRange s) (i : Fin 6) {g : Timer → Timer}
    (hg : ∀ x, (g x).reload = x.reload ∧ (g x).unit = x.unit ∧ (g x).mode = x.mode) : SettingsInRange (s.modTimer i g) := by
  refine h.kept (readParam_congr rfl (fun j => ?_) rfl (KeepsCaps.refl s) (fun _ => ⟨rfl, rfl, rfl, rfl⟩) fun _ => ⟨rfl, rfl, rfl⟩)
    rfl (fun _ => rfl) rfl
  rw [modTimer_get]
  split
  · rename_i hj; rw [← hj]; exact hg _
  · exact ⟨rfl, rfl, rfl⟩

theorem SettingsInRange.setAmbient (h : SettingsInRange s) {m : Ambient} (hm : m.curve = s.ambient.curve) :
    SettingsInRange { s with ambient := m } :=
  h.kept (readParam_congr rfl (fun _ => ⟨rfl, rfl, rfl⟩) hm (KeepsCaps.refl s) (fun _ => ⟨rfl, rfl, rfl, rfl⟩) fun _ => ⟨rfl, rfl, rfl⟩)
    rfl (fun _ => rfl) rfl

theorem SettingsInRange.settle (h : SettingsInRange s) (f : Face) : SettingsInRange (s.settle f) :=
  h.faceWork (settle_only s f) (settle_caps s f) (settle_settings s f)

theorem settingsWork : SettleWork SettingsInRange where
  away ho h := h.only (ho.mono (List.Subset.refl _))
  port p _ hg h := h.modPort p hg
  mark f g hg h := h.modFace fun c => by obtain ⟨n, d, hc⟩ := hg c; rw [hc]
  settle f h := h.settle f

/-! ## The requests that write settings -/

theorem parseWriteZone_range {fields : List Byte} {q : Fin 8 × Zone} (h : parseWriteZone fields = .ok q) :
    q.2.low ≤ 31 ∧ q.2.high ≤ 31 := by
  unfold parseWriteZone at h
  split at h
  · split at h
    · rename_i z hz
      obtain ⟨hlow, hhigh, _⟩ := (readZone_iff _ z).mp hz
      split at h
      · cases h; exact ⟨hlow, hhigh⟩
      · cases h
    · cases h
  · cases h

theorem parseSetFace_allowed {fields : List Byte} {q : Face × FaceSettings} (h : parseSetFace fields = .ok q) : q.2.allowed := by
  unfold parseSetFace at h
  split at h
  · split at h
    · cases h
    · split at h
      · rename_i face c _ hc
        cases h
        exact ((readSettings_iff _ c).mp hc).1
      · cases h
  · cases h

theorem parseSetParameter_accepts {fields : List Byte} {q : Param × List Byte} (h : parseSetParameter fields = .ok q) :
    q.2.length = q.1.bytes ∧ q.1.accepts q.2 = true := by
  unfold parseSetParameter at h
  split at h
  · split at h
    · cases h
    · split at h
      · cases h
      · rename_i hl
        unfold inRange at h
        split at h
        · rename_i ha
          cases h
          exact ⟨by simpa using hl, ha⟩
        · cases h
  · cases h

theorem takeStore_only (p : Port) (tag : Byte) (fields : List Byte) (s : State) :
    OnlyIn [.loader] s (takeStoreSettings p tag fields s).1 := by
  unfold takeStoreSettings
  split
  · exact OnlyIn.refl _ _
  · split
    · exact OnlyIn.refl _ _
    · split
      · exact OnlyIn.refl _ _
      · exact startStore_only s p tag

theorem SettingsInRange.setZone (h : SettingsInRange s) (n : Fin 8) {z : Zone} (hlow : z.low ≤ 31) (hhigh : z.high ≤ 31) :
    SettingsInRange { s with zones := s.zones.set n z } := by
  refine ⟨h.params, fun m => ?_, h.faces, h.names⟩
  dsimp only
  rw [Fin.getElem_fin, Vector.getElem_set]
  split
  · exact readZone_bytes z hlow hhigh
  · exact h.zones m

theorem SettingsInRange.setPlace (h : SettingsInRange s) {n : Nat} {e : Option Place} (h1 : 1 ≤ n) (h2 : n ≤ 255)
    (he : ∀ x, e = some x → x.name ≠ [] ∧ x.short ≠ some [] ∧ x.fits = true) : SettingsInRange (s.setPlace n e) := by
  have ho := setPlace_only s n e
  refine ⟨fun q => ?_, by rw [ho.zones]; exact h.zones, by rw [ho.faces]; exact h.faces, fun m x hx => ?_⟩
  · have hq : (s.setPlace n e).readParam q = s.readParam q := by
      refine readParam_congr ho.params (fun i => ?_) (by rw [ho.ambient]) (KeepsCaps.of_panels ho.panels) (fun l => ?_) (fun p => ?_) q
      · rw [ho.timers]; exact ⟨rfl, rfl, rfl⟩
      · rw [ho.lines]; exact ⟨rfl, rfl, rfl, rfl⟩
      · rw [ho.ports]; exact ⟨rfl, rfl, rfl⟩
    rw [hq]; exact h.params q
  · rw [setPlace_place? s n e h1 h2] at hx
    split at hx
    · exact he x hx
    · exact h.names m x hx

theorem SettingsInRange.setFaceSettings (h : SettingsInRange s) (f : Face) {c : FaceSettings} (hc : c.allowed) :
    SettingsInRange (s.setFaceSettings f c) := by
  have hset : SettingsInRange (s.modFace f (Composer.setSettings c)) := by
    have ho := modFace_only s f (Composer.setSettings c)
    have hq := readParam_faceWork (ho.mono (by decide)) (KeepsCaps.of_panels (s := s) (t := s.modFace f _) rfl)
    refine ⟨fun q => by rw [hq q]; exact h.params q, h.zones, fun g => ?_, h.names⟩
    rw [State.modFace_faces, PerFace.get_set]
    split
    · rw [(setSettings_settings c _).1]; exact readSettings_bytes hc
    · exact h.faces g
  exact settingsWork.dirty f ((settingsWork.departureWake f hset).settle f)

theorem SettingsInRange.recomputeDuties (h : SettingsInRange s) (f : Face) : SettingsInRange (s.recomputeDuties f) := by
  unfold State.recomputeDuties
  refine SettingsInRange.modPanel h ?_
  exact fun _ => ⟨rfl, rfl⟩

theorem SettingsInRange.setParameter (h : SettingsInRange s) (before : State) {q : Param} {value : List Byte}
    (hl : value.length = q.bytes) (ha : q.accepts value = true) :
    SettingsInRange ((s.writeParam q value).paramEffects before q) := by
  have hwrite := writeParam_only s q value
  have written : SettingsInRange (s.writeParam q value) := by
    refine ⟨fun o => ?_, by rw [hwrite.zones]; exact h.zones, by rw [hwrite.faces]; exact h.faces, fun n e he => ?_⟩
    · by_cases ho : o = q
      · rw [ho, readParam_written s q value hl ha]; exact ⟨hl, ha⟩
      · rw [readParam_other s value ho]; exact h.params o
    · refine h.names n e ?_
      rw [← he]; unfold State.place?; simp only [hwrite.places]
  exact settingsWork.paramEffects (fun _ f hu => hu.recomputeDuties f) _ _ written

/-! ## Defaults and loads -/

/-- R183: the settings that an image or the defaults give are ones that their requests would accept. -/
structure Settings.InRange (st : Settings) : Prop where
  all : st.params.map (fun x => x.1) = Param.all
  params : ∀ x ∈ st.params, x.2.length = x.1.bytes ∧ x.1.accepts x.2 = true
  zones : ∀ n : Fin 8, st.zones[n].low ≤ 31 ∧ st.zones[n].high ≤ 31
  faces : ∀ f, (st.faces.get f).allowed
  names : ∀ (i : Nat) (hi : i < 255) (e : Place), st.places[i] = some e → e.name ≠ [] ∧ e.short ≠ some [] ∧ e.fits = true

theorem SettingsInRange.of_settings (h : s.settings.InRange) : SettingsInRange s := by
  refine ⟨fun q => ?_, fun n => ?_, fun f => ?_, fun n e he => ?_⟩
  · exact h.params (q, s.readParam q) (List.mem_map.mpr ⟨q, mem_all q, rfl⟩)
  · obtain ⟨hlow, hhigh⟩ := h.zones n
    exact readZone_bytes _ hlow hhigh
  · refine readSettings_bytes ?_
    cases f
    · exact h.faces .a
    · exact h.faces .b
  · unfold State.place? at he
    split at he
    · exact h.names _ (by omega) e he
    · cases he

theorem zone_defaults_range (n : Fin 8) : Zone.defaults[n].low ≤ 31 ∧ Zone.defaults[n].high ≤ 31 := by revert n; decide

theorem defaults_inRange : Settings.defaults.InRange where
  all := by unfold Settings.defaults State.settings; simp [Function.comp_def]
  params := defaults_params
  zones := zone_defaults_range
  faces f := by
    cases f
    · show FaceSettings.defaults.a.allowed
      unfold FaceSettings.allowed; decide
    · show FaceSettings.defaults.b.allowed
      unfold FaceSettings.allowed; decide
  names i hi e he := absurd (by rw [← place_get State.reset i hi]; exact he) (reset_place?_none (i + 1) e)

theorem readImage_inRange {bytes : List Byte} {st : Settings} (hl : bytes.length = 10158) (h : readImage bytes = some st) :
    st.InRange := by
  obtain ⟨all, params⟩ := readImage_params hl h
  obtain ⟨_, _, a, b, ha, hb, hz, _, hfaces, _, _⟩ := readImage_some h
  refine ⟨all, params, fun n => ?_, fun f => ?_, fun i hi e he => readImage_places hl h i hi e he⟩
  · obtain ⟨hlow, hhigh, _⟩ := zones_held bytes ((imageZones_all bytes).mp hz) n
    rw [readImage_zones h]
    exact ⟨hlow, hhigh⟩
  · rw [hfaces]
    cases f
    · exact ((readSettings_iff _ a).mp ha).1
    · exact ((readSettings_iff _ b).mp hb).1

theorem applied_inRange (ack : Bool) (m : Memory) : (loadOutcome ack m).applied.InRange := by
  rcases applied_spec ack m with h | ⟨st, h, k | k⟩
  · rw [h]; exact defaults_inRange
  · rw [k]; exact readImage_inRange (readBlock_length _ _ _) h
  · have hst := readImage_inRange (readBlock_length _ _ _) h
    rw [k]
    exact ⟨hst.all, hst.params, zone_defaults_range, hst.faces, hst.names⟩

theorem reset_inRange : SettingsInRange State.reset := .of_settings defaults_inRange

theorem reset_line (l : Fin 4) : State.reset.lines[l] = InputLine.reset .low := by revert l; decide

/-- R182, R185: a state whose every setting is the default. -/
theorem SettingsInRange.ofReset (hz : t.zones = State.reset.zones) (hn : t.places = State.reset.places)
    (hf : ∀ f, (t.faces.get f).settings = (State.reset.faces.get f).settings) (hp : t.params = State.reset.params)
    (ht : t.timers = State.reset.timers) (hc : t.ambient.curve = State.reset.ambient.curve)
    (hpan : KeepsCaps State.reset t) (hl : ∀ l : Fin 4, ∃ level, t.lines[l] = InputLine.reset level)
    (hport : ∀ p, (t.ports.get p).baud = .b38400 ∧ (t.ports.get p).limit = 120 ∧ (t.ports.get p).stale = .hold) :
    SettingsInRange t := by
  refine reset_inRange.kept (readParam_congr hp (fun i => by rw [ht]; exact ⟨rfl, rfl, rfl⟩) hc hpan (fun l => ?_) fun p => ?_)
    hz hf hn
  · obtain ⟨level, he⟩ := hl l
    rw [he, reset_line]
    exact ⟨rfl, rfl, rfl, rfl⟩
  · have hr : State.reset.ports.get p = LinkPort.reset := by cases p <;> rfl
    rw [hr]
    exact hport p

theorem SettingsInRange.resetTo (levels : Vector Level 4) : SettingsInRange (s.resetTo levels) := by
  refine .ofReset rfl rfl (fun _ => rfl) rfl rfl rfl (.of_panels rfl) (fun l => ⟨levels[l], ?_⟩) fun p => ?_
  · show (levels.map InputLine.reset)[l] = _
    simp
  · cases p <;> exact ⟨rfl, rfl, rfl⟩

theorem withDefaults_settings (port : LinkPort) :
    port.withDefaults.baud = .b38400 ∧ port.withDefaults.limit = 120 ∧ port.withDefaults.stale = .hold := ⟨rfl, rfl, rfl⟩

theorem SettingsInRange.restart (p : Port) (frame : List Byte) : SettingsInRange (s.restart p frame) := by
  refine .ofReset rfl rfl (fun f => by cases f <;> rfl) rfl rfl rfl (fun f => by cases f <;> exact ⟨rfl, rfl⟩)
    (fun l => ⟨s.lines[l].settled, ?_⟩) fun q => ?_
  · show (s.lines.map fun l => InputLine.reset l.settled)[l] = _
    simp
  · have hq : (s.restart p frame).ports.get q = ((s.ports.get q).cutBy p frame q).withDefaults := PerPort.get_mapWith ..
    rw [hq]
    exact withDefaults_settings _

theorem SettingsInRange.applySettings {st : Settings} (h : st.InRange) : SettingsInRange (s.applySettings st) := by
  obtain ⟨hset, _⟩ := apply_spec s st h.all h.params
  exact .of_settings (hset.symm ▸ h)

/-! ## The faces' own work -/

theorem SettingsInRange.beginPaint (h : SettingsInRange s) (j : Job) : SettingsInRange (s.beginPaint j) := by
  refine (h.modPanel (f := j.face) (g := fun p => { p with back := Bitmap.ofPixels fun x y => Config.halfPainted s.free y x })
    fun _ => ⟨rfl, rfl⟩).only (ps := [.painter, .free]) ?_
  intro q hq; cases q <;> first | rfl | exact absurd (by decide) hq

theorem painter_only (s : State) (p : Painter) : OnlyIn [.painter] s { s with painter := p } := by
  intro q hq; cases q <;> first | rfl | exact absurd (by decide) hq

theorem SettingsInRange.painterNext (h : SettingsInRange s) : SettingsInRange s.painterNext := by
  have hnone := h.only (painter_only s ⟨none, none⟩)
  unfold State.painterNext
  split
  · exact hnone
  · exact hnone.beginPaint _

theorem SettingsInRange.handPlan (h : SettingsInRange s) (f : Face) (plan : Plan) : SettingsInRange (s.handPlan f plan) := by
  have hface := h.modFace (f := f) (g := fun c =>
    { c with rebuild := .painting, inHand := some plan, lastPlan := some plan, serial := plan.serial }) fun _ => rfl
  unfold State.handPlan State.handToPainter
  split
  · exact hface.beginPaint _
  · exact hface.only (painter_only _ _)

theorem SettingsInRange.prepareView (h : SettingsInRange s) (f : Face) : SettingsInRange (s.prepareView f) := by
  unfold State.prepareView State.restartTickers
  refine SettingsInRange.modFace (SettingsInRange.modFace h ?_) ?_
  · exact fun c => (backToView_keeps _ c).1
  · exact fun _ => rfl

theorem SettingsInRange.takePlan (h : SettingsInRange s) (f : Face) : SettingsInRange (s.takePlan f) := by
  have hface : SettingsInRange (s.modFace f fun c => { c with dirty := false }) := h.modFace fun _ => rfl
  unfold State.takePlan
  dsimp only
  split
  · refine SettingsInRange.handPlan (SettingsInRange.modFace hface (g := fun c => { c with calling := none, bottom := none, page := _ }) fun _ => rfl) f _
  · exact ((hface.prepareView f).only (raiseAll_only _ _ _)).handPlan f _

theorem SettingsInRange.takeCompletion (h : SettingsInRange s) (f : Face) (n : Nat) : SettingsInRange (s.takeCompletion f n) := by
  unfold State.takeCompletion
  dsimp only
  split
  · split
    · refine SettingsInRange.only (SettingsInRange.modFace (SettingsInRange.modPanel h ?_) ?_) (raiseAll_only _ _ _)
      · exact fun _ => ⟨rfl, rfl⟩
      · exact fun _ => rfl
    · exact h
  · exact h

theorem countCheck_caps (n : Nat) (p : Panel) : (p.countCheck n).cap = p.cap ∧ (p.countCheck n).trims = p.trims := by
  unfold Panel.countCheck
  split <;> exact ⟨rfl, rfl⟩

theorem SettingsInRange.chainCheck (h : SettingsInRange s) (f : Face) (echo : Vector (BitVec 32) 4) :
    SettingsInRange (s.chainCheck f echo) := by
  have judged : SettingsInRange (s.judgeCheck f echo) := by
    unfold State.judgeCheck
    dsimp only
    split
    · exact h
    · refine SettingsInRange.only (SettingsInRange.modPanel h ?_) (raiseAll_only _ _ _)
      exact fun _ => ⟨rfl, rfl⟩
  unfold State.chainCheck
  split
  · exact h
  · exact h
  · exact judged.modPanel (countCheck_caps _)

theorem SettingsInRange.swap (h : SettingsInRange s) (f : Face) : SettingsInRange (s.swap f) := by
  have swapped : ∀ plan, SettingsInRange (s.swapBuffers f plan) := fun plan =>
    (h.modPanel (g := fun p => { p with front := p.back, back := p.front, frontPlan := plan }) fun _ => ⟨rfl, rfl⟩).modFace
      fun _ => rfl
  unfold State.swap
  split
  · exact ite_keeps (swapped _) ((swapped _).only (signalAll_only _ _))
  · exact h

theorem SettingsInRange.frameBoundary (h : SettingsInRange s) (f : Face) (echo : Vector (BitVec 32) 4) :
    SettingsInRange (s.frameBoundary f echo) := by
  unfold State.frameBoundary
  refine SettingsInRange.modPanel ((h.chainCheck f echo).swap f) ?_
  exact fun _ => ⟨rfl, rfl⟩

theorem stepTickers_settings (hold : Nat) (c : Composer) : (c.stepTickers hold).settings = c.settings := by
  unfold Composer.stepTickers; split <;> rfl

theorem rotateBottom_settings (list : List BottomEntry) (c : Composer) : (c.rotateBottom list).settings = c.settings := by
  unfold Composer.rotateBottom; split <;> rfl

theorem flashToggle_settings (c : Composer) : c.flashToggle.settings = c.settings := by
  unfold Composer.flashToggle; split <;> rfl

theorem SettingsInRange.rotateStep (h : SettingsInRange s) (f : Face) : SettingsInRange (s.rotateStep f) := by
  unfold State.rotateStep
  dsimp only
  split
  · split <;> exact h.modFace fun _ => rfl
  · exact h

theorem SettingsInRange.handExpiry (h : SettingsInRange s) (i : Fin 6) : SettingsInRange (s.handExpiry i) := by
  have flash : OnlyIn [.flashOn] s { s with flashOn := !s.flashOn } := by
    intro q hq; cases q <;> first | rfl | exact absurd (by decide) hq
  unfold State.handExpiry
  split
  · exact h.modFace (stepTickers_settings _)
  · exact h.modFace (stepTickers_settings _)
  · exact eachFace_keeps (fun f _ hu => hu.rotateStep f) h
  · exact eachFace_keeps (fun f u hu => hu.modFace (rotateBottom_settings _)) h
  · exact eachFace_keeps (fun f u hu => hu.modFace flashToggle_settings) (h.only flash)
  · exact h.setAmbient rfl

theorem SettingsInRange.countChange (h : SettingsInRange s) (l : Fin 4) : SettingsInRange (s.countChange l) :=
  settingsWork.handLineOn l _ (h.modLine l fun _ => ⟨rfl, rfl, rfl, rfl⟩)

theorem tick_settings (timer : Timer) : timer.tick.reload = timer.reload ∧ timer.tick.unit = timer.unit ∧
    timer.tick.mode = timer.mode := by
  unfold Timer.tick
  split
  · split
    · exact ⟨rfl, rfl, rfl⟩
    · split <;> exact ⟨rfl, rfl, rfl⟩
  · exact ⟨rfl, rfl, rfl⟩

theorem SettingsInRange.idle (h : SettingsInRange s) : SettingsInRange s.idle := by
  unfold State.idle
  split
  · split
    · refine h.only (ps := [.clock, .free, .pending]) ?_
      intro q hq; cases q <;> first | rfl | exact absurd (by decide) hq
    · refine h.kept (readParam_congr rfl (fun i => ?_) rfl (fun f => ?_) (fun _ => ⟨rfl, rfl, rfl, rfl⟩) fun p => ?_) rfl
        (fun _ => rfl) rfl
      · have hi : s.systemTick.timers[i] = s.timers[i].tick := Vector.getElem_map ..
        rw [hi]
        exact tick_settings _
      · cases f <;> exact ⟨rfl, rfl⟩
      · have hp : s.systemTick.ports.get p = (s.ports.get p).tick := PerPort.get_mapWith ..
        rw [hp]
        exact ⟨rfl, rfl, rfl⟩
  · refine h.only (ps := [.pending]) ?_
    intro q hq; cases q <;> first | rfl | exact absurd (by decide) hq

/-! ## Every step -/

theorem settingsStayInRange (h : SettingsInRange s) (hstep : step s = .next t) : SettingsInRange t := by
  have work := settingsWork.faceWork
  refine work.step (fun s h => h.idle) (fun c s t hc h hnext => ?_) h hstep
  cases c
  all_goals dsimp only [ownWork] at hc
  case reset => cases hnext; exact .resetTo _
  case boardRestart p tag fields =>
    cases hnext
    exact serveRestart_keeps (fun _ _ hu => work.acceptFrame _ hu) (fun _ _ _ _ _ hu => work.sendReply _ _ _ _ hu)
      (fun _ p frame _ => .restart p frame) h
  case settingsReadComplete acknowledged =>
    revert hnext
    show execSettingsReadComplete acknowledged s = _ → _
    unfold execSettingsReadComplete
    split <;> intro hnext <;> cases hnext
    · exact h
    · exact h
    · exact .applySettings (applied_inRange _ _)
  case putPlace p tag fields =>
    cases hnext
    refine work.serve (fun u hu => withOperands_keeps hu fun q hq => withRights_keeps hu fun _ => ?_) h
    obtain ⟨h1, h2, hname, hshort, hfits⟩ := parsePlace_fits hq
    exact work.markBoth (hu.setPlace h1 h2 fun x hx => by cases hx; exact ⟨hname, hshort, hfits⟩)
  case withdrawPlace p tag fields =>
    cases hnext
    refine work.serve (fun u hu => withOperands_keeps hu fun n hn => withRights_keeps hu fun _ => ?_) h
    obtain ⟨h1, h2⟩ := parseNonZero_range hn
    split
    · exact hu
    · exact work.markBoth (hu.setPlace h1 h2 fun x hx => by cases hx)
  case writeZone p tag fields =>
    cases hnext
    refine work.serve (fun u hu => withOperands_keeps hu fun q hq => withRights_keeps hu fun _ => ?_) h
    obtain ⟨hlow, hhigh⟩ := parseWriteZone_range hq
    dsimp only
    split
    · exact hu.setZone q.1 hlow hhigh
    · exact hu
  case setFace p tag fields =>
    cases hnext
    exact work.serve (fun u hu => withOperands_keeps hu fun q hq => withRights_keeps hu fun _ =>
      hu.setFaceSettings q.1 (parseSetFace_allowed hq)) h
  case setParameter p tag fields =>
    cases hnext
    refine work.serve (fun u hu => withOperands_keeps hu fun q hq => withRights_keeps hu fun _ => ?_) h
    obtain ⟨hl, ha⟩ := parseSetParameter_accepts hq
    exact hu.setParameter u hl ha
  case storeSettings p tag fields =>
    cases hnext
    refine serveWith_keeps (fun _ _ hu => work.acceptFrame _ hu) (fun _ _ _ _ _ hu => work.sendReply _ _ _ _ hu)
      (fun u _ hu => ?_) h
    have hstore := hu.only (takeStore_only p tag fields u)
    unfold State.sendReply?
    split
    · exact work.sendReply _ _ _ _ hstore
    · exact hstore
  case storeComplete outcome =>
    revert hnext
    show execStoreComplete outcome s = _ → _
    unfold execStoreComplete
    split
    · split <;> intro hnext <;> cases hnext
      · exact work.sendReply _ _ _ _ (h.only (endStore_only _ _))
      · exact work.sendReply _ _ _ _ (h.only (failStore_only _))
      · exact work.sendReply _ _ _ _ (h.only (failStore_only _))
    · intro hnext; cases hnext; exact h
  case timerExpiry i => cases hnext; exact ite_keeps (SettingsInRange.handExpiry (h.modTimer i fun _ => by exact ⟨rfl, rfl, rfl⟩) i) h
  case conversionCompletion reading =>
    have entered : SettingsInRange { s with ambient := s.ambient.enter reading.toNat } := h.setAmbient rfl
    revert hnext
    show execConversionCompletion reading s = _ → _
    unfold execConversionCompletion
    split <;> intro hnext <;> cases hnext
    · exact ite_keeps entered (eachFace_keeps (fun f _ hu => hu.recomputeDuties f) entered)
    · exact h
  case plan f => cases hnext; exact ite_keeps (h.takePlan f) h
  case paintCompletion f n => cases hnext; exact ite_keeps (h.painterNext.takeCompletion f n) h
  case frameBoundary f e0 e1 e2 e3 => cases hnext; exact h.frameBoundary f _
  case panelStartupDelayExpiry f =>
    cases hnext
    exact ite_keeps (SettingsInRange.recomputeDuties (h.modPanel fun _ => by exact ⟨rfl, rfl⟩) f) h
  case changeCounts l => cases hnext; exact h.countChange l
  case pinSample l level =>
    cases hnext
    exact ite_keeps (h.modLine l fun _ => ⟨rfl, rfl, rfl, rfl⟩) (ite_keeps (h.modLine l fun _ => ⟨rfl, rfl, rfl, rfl⟩) (h.countChange l))
  all_goals exact absurd hc (by decide)

end

/-- Settles O55: the notice store, the clock, the settings, the memory and the lockout test are each kept. -/
theorem collectionsStaySound : Obligations.CollectionsStaySound := fun _ _ hstep =>
  ⟨fun h => noticesStaySound h hstep, fun h => clockStaysSound h hstep, fun h => settingsStayInRange h hstep,
    fun h => memoryStaysSound h hstep, fun h => lockoutStays h hstep⟩

end Sys2Proof.Machine
end

section
/-! PROOFS. The faces stay sound (R97, R100, R144, R153, R155): what a face's output, rebuild and duties must be beside its
effective state, and that the state is the one R97 gives after every change that could move it. -/

namespace Sys2Proof.Machine

/-! ## A face beside the rule of its effective state -/

/-- R100, R144, R146, R153: a face that is sound but for R97. -/
structure FaceFirm (s : State) (f : Face) : Prop where
  dark : (s.faces.get f).state = .dark → (s.faces.get f).rebuild = .idle ∧ (s.panels.get f).out = .off
  driven : s.loader.phase ≠ .loading → (s.faces.get f).state ≠ .dark → (s.panels.get f).out ≠ .off
  loading : s.loader.phase = .loading →
    (s.faces.get f).settings.modeOn = true ∧ (s.faces.get f).state = .lit ∧ (s.faces.get f).rebuild = .idle
      ∧ (s.panels.get f).out = .off
  off : (s.panels.get f).out = .off → (s.panels.get f).check = .none ∧ (s.panels.get f).frame = none
  duties : DutiesAnew s f

/-- R97, R155: both faces are firm, the input lines have no function in LOADING. -/
structure FacesFirm (s : State) : Prop where
  firm : ∀ f, FaceFirm s f
  lines : LinesSound s

/-- R97: both faces are firm and hold the effective state that R97 gives. -/
structure FacesSound (s : State) : Prop extends FacesFirm s where
  settled : ∀ f, (s.faces.get f).state = s.effState f

/-- R97, R155: in LOADING every face is LIT by R97 too. -/
theorem effState_loading {s : State} (h : FacesFirm s) (hl : s.loader.phase = .loading) (f : Face) : s.effState f = .lit := by
  have none : ∀ l : Fin 4, s.lines[l].function = .none := h.lines hl
  have lamp : ¬ s.heldLamp := fun ⟨l, hf, _⟩ => by rw [none l] at hf; cases hf
  have blank : ¬ s.heldBlank f := fun ⟨l, ⟨hf, _⟩, _⟩ => by rw [none l] at hf; cases hf
  have on := ((h.firm f).loading hl).1
  rw [effState_eq, State.stateByRule, if_neg lamp, if_neg (by simp [blank, on]), if_neg (by simp [on])]

theorem facesSound_iff (s : State) : FacesSound s ↔ (∀ f, FaceSound s f) ∧ LinesSound s := by
  constructor
  · intro h
    refine ⟨fun f => ?_, h.lines⟩
    obtain ⟨dark, driven, loading, off, duty, duties⟩ := h.firm f
    exact ⟨dark, driven, fun _ => h.settled f, loading, off, duty, by rw [duty]; exact duties⟩
  · rintro ⟨h, hl⟩
    have firm : FacesFirm s := by
      refine ⟨fun f => ?_, hl⟩
      have hf := h f
      exact ⟨hf.dark, hf.driven, hf.loading, hf.off, hf.duty, by rw [← hf.duty]; exact hf.duties⟩
    refine ⟨firm, fun f => ?_⟩
    by_cases hp : s.loader.phase = .loading
    · rw [effState_loading firm hp, ((firm.firm f).loading hp).2.1]
    · exact (h f).settled hp

/-! ## What leaves a face -/

/-- What a sound face shows of its composer. -/
def ComposerLike (c d : Composer) : Prop :=
  d.settings.modeOn = c.settings.modeOn ∧ d.state = c.state ∧ d.rebuild = c.rebuild

/-- What a sound face shows of its panel. -/
structure PanelLike (p q : Panel) : Prop where
  out : q.out = p.out
  check : q.check = p.check
  frame : q.frame = p.frame
  cap : q.cap = p.cap
  trims : q.trims = p.trims
  faceDuty : q.faceDuty = p.faceDuty
  duties : q.duties = p.duties

theorem PanelLike.refl (p : Panel) : PanelLike p p := ⟨rfl, rfl, rfl, rfl, rfl, rfl, rfl⟩

theorem PanelLike.of_back {p q : Panel} (h : { q with back := p.back } = p) : PanelLike p q := by
  rw [← h]
  exact ⟨rfl, rfl, rfl, rfl, rfl, rfl, rfl⟩

section
variable {s t : State}

theorem DutiesAnew.like {f : Face} (h : DutiesAnew s f) (hs : (t.faces.get f).state = (s.faces.get f).state)
    (hp : PanelLike (s.panels.get f) (t.panels.get f))
    (hm : t.ambient.level = s.ambient.level ∧ t.ambient.curve = s.ambient.curve) : DutiesAnew t f := by
  obtain ⟨hlevel, hcurve⟩ := hm
  have hd : t.faceDutyOf f = s.faceDutyOf f := by
    unfold State.faceDutyOf
    rw [hp.out, hs, hp.cap, hlevel, hcurve]
  unfold DutiesAnew
  rw [hd, hp.faceDuty, hp.duties, hp.trims]
  exact h

theorem FaceFirm.like {f : Face} (h : FaceFirm s f) (hl : t.loader.phase = s.loader.phase)
    (hc : ComposerLike (s.faces.get f) (t.faces.get f)) (hp : PanelLike (s.panels.get f) (t.panels.get f))
    (hm : t.ambient.level = s.ambient.level ∧ t.ambient.curve = s.ambient.curve) : FaceFirm t f := by
  obtain ⟨hmode, hstate, hrebuild⟩ := hc
  refine ⟨?_, ?_, ?_, ?_, h.duties.like hstate hp hm⟩
  · rw [hstate, hrebuild, hp.out]; exact h.dark
  · rw [hl, hstate, hp.out]; exact h.driven
  · rw [hl, hmode, hstate, hrebuild, hp.out]; exact h.loading
  · rw [hp.out, hp.check, hp.frame]; exact h.off

theorem FacesFirm.like (h : FacesFirm s) (hl : t.loader.phase = s.loader.phase) (hlines : t.lines = s.lines)
    (hc : ∀ f, ComposerLike (s.faces.get f) (t.faces.get f)) (hp : ∀ f, PanelLike (s.panels.get f) (t.panels.get f))
    (hm : t.ambient.level = s.ambient.level ∧ t.ambient.curve = s.ambient.curve) : FacesFirm t := by
  refine ⟨fun f => (h.firm f).like hl (hc f) (hp f) hm, fun hload => ?_⟩
  rw [hlines]
  exact h.lines (hl ▸ hload)

theorem FacesSound.like (h : FacesSound s) (hl : t.loader.phase = s.loader.phase) (hlines : t.lines = s.lines)
    (hc : ∀ f, ComposerLike (s.faces.get f) (t.faces.get f))
    (hk : ∀ f, (t.faces.get f).countdown = (s.faces.get f).countdown)
    (hp : ∀ f, PanelLike (s.panels.get f) (t.panels.get f))
    (hm : t.ambient.level = s.ambient.level ∧ t.ambient.curve = s.ambient.curve) : FacesSound t := by
  refine ⟨h.toFacesFirm.like hl hlines hc hp hm, fun f => ?_⟩
  obtain ⟨hmode, hstate, _⟩ := hc f
  rw [effState_congr hlines hmode (hk f), hstate]
  exact h.settled f

/-- The parts that sound faces are about. -/
def displayParts : List Part := [.faces, .panels, .ambient, .lines, .loader]

theorem FacesSound.only (h : FacesSound s) {ps : List Part} (ho : OnlyIn ps s t)
    (hps : ∀ q ∈ displayParts, q ∉ ps := by decide) : FacesSound t := by
  have faces : t.faces = s.faces := ho .faces (hps _ (by decide))
  have panels : t.panels = s.panels := ho .panels (hps _ (by decide))
  have ambient : t.ambient = s.ambient := ho .ambient (hps _ (by decide))
  have loader : t.loader = s.loader := ho .loader (hps _ (by decide))
  refine h.like (by rw [loader]) (ho .lines (hps _ (by decide))) (fun f => ?_) (fun f => by rw [faces]) (fun f => ?_)
    (by rw [ambient]; exact ⟨rfl, rfl⟩)
  · rw [faces]; exact ⟨rfl, rfl, rfl⟩
  · rw [panels]; exact .refl _

theorem FacesSound.setLoader (h : FacesSound s) {l : Loader} (hs : s.loader.phase ≠ .loading) (hl : l.phase ≠ .loading) :
    FacesSound { s with loader := l } := by
  refine ⟨⟨fun f => ?_, fun hload => absurd hload hl⟩, h.settled⟩
  have hf := h.firm f
  exact ⟨hf.dark, fun _ => hf.driven hs, fun hload => absurd hload hl, hf.off, hf.duties⟩

theorem composerLike_modFace {f : Face} {g : Composer → Composer} (hg : ∀ c, ComposerLike c (g c)) (k : Face) :
    ComposerLike (s.faces.get k) ((s.modFace f g).faces.get k) := by
  rw [State.modFace_faces, PerFace.get_set]
  split
  · rename_i hk; rw [hk]; exact hg _
  · exact ⟨rfl, rfl, rfl⟩

theorem FacesFirm.modFace (h : FacesFirm s) {f : Face} {g : Composer → Composer} (hg : ∀ c, ComposerLike c (g c)) :
    FacesFirm (s.modFace f g) :=
  h.like rfl rfl (composerLike_modFace hg) (fun _ => .refl _) ⟨rfl, rfl⟩

theorem FacesSound.modFace (h : FacesSound s) {f : Face} {g : Composer → Composer}
    (hg : ∀ c, ComposerLike c (g c) ∧ (g c).countdown = c.countdown) : FacesSound (s.modFace f g) := by
  refine h.like rfl rfl (composerLike_modFace fun c => (hg c).1) (fun k => ?_) (fun _ => .refl _) ⟨rfl, rfl⟩
  rw [State.modFace_faces, PerFace.get_set]
  split
  · rename_i hk; rw [hk]; exact (hg _).2
  · rfl

theorem panelLike_modPanel {f : Face} {g : Panel → Panel} (hg : ∀ p, PanelLike p (g p)) (k : Face) :
    PanelLike (s.panels.get k) ((s.modPanel f g).panels.get k) := by
  rw [State.modPanel_panels, PerFace.get_set]
  split
  · rename_i hk; rw [hk]; exact hg _
  · exact .refl _

theorem FacesSound.modPanel (h : FacesSound s) {f : Face} {g : Panel → Panel} (hg : ∀ p, PanelLike p (g p)) :
    FacesSound (s.modPanel f g) :=
  h.like rfl rfl (fun _ => ⟨rfl, rfl, rfl⟩) (fun _ => rfl) (panelLike_modPanel hg) ⟨rfl, rfl⟩

/-! ## Working out the effective state -/

/-- R153: the duties after a change of effective state. -/
theorem DutiesAnew.effects {f : Face} (h : DutiesAnew s f) (ha : t.ambient = s.ambient) (he : StateEffects s t f) :
    DutiesAnew t f := by
  obtain ⟨_, _, _, _, panel, _, _, _, _, _, _, _, _, _, stay, same, anew⟩ := he
  have hcap : (t.panels.get f).cap = (s.panels.get f).cap := by rw [← panel]
  have htrims : (t.panels.get f).trims = (s.panels.get f).trims := by rw [← panel]
  by_cases hs : (s.faces.get f).state = (t.faces.get f).state
  · obtain ⟨hout, _⟩ := stay (by rw [hs])
    obtain ⟨hduty, hduties⟩ := same hs
    unfold DutiesAnew
    rw [faceDutyOf_congr hout hs.symm hcap ha, hduty, hduties, htrims]
    exact h
  · obtain ⟨hduty, hduties⟩ := anew hs
    have hface : (t.panels.get f).faceDuty = t.faceDutyOf f := by rw [hduty, faceDutyOf_table, hcap, ha]
    refine ⟨hface, Vector.ext fun i hi => ?_⟩
    rw [Vector.getElem_map, ← hface, htrims]
    exact hduties ⟨i, hi⟩

/-- R100, R101, R144: outside LOADING a change of effective state leaves the face firm. -/
theorem FaceFirm.effects {f : Face} (h : FaceFirm s f) (hl : t.loader.phase = s.loader.phase) (hr : s.loader.phase ≠ .loading)
    (ha : t.ambient = s.ambient) (he : StateEffects s t f) : FaceFirm t f := by
  have hduties := h.duties.effects ha he
  obtain ⟨_, _, _, _, _, _, _, _, _, _, enter, keep, leave, _, stay, _, _⟩ := he
  have outLeft : (s.faces.get f).state = .dark → (t.faces.get f).state ≠ .dark → (t.panels.get f).out ≠ .off := by
    intro hc hd
    obtain ⟨_, _, _, hoff, hon⟩ := leave hc hd
    by_cases hout : (s.panels.get f).out = .off
    · rw [(hoff hout).1]; decide
    · rw [(hon hout).1]; exact hout
  refine ⟨fun hd => ?_, fun _ hd => ?_, fun hload => absurd (hl ▸ hload) hr, fun hoff => ?_, hduties⟩
  · by_cases hc : (s.faces.get f).state = .dark
    · obtain ⟨hrebuild, _⟩ := keep (.inl hc)
      rw [hrebuild, (stay (by simp [hc, hd])).1]
      exact h.dark hc
    · obtain ⟨hrebuild, _, _, hout, _⟩ := enter hc hd
      exact ⟨hrebuild, hout⟩
  · by_cases hc : (s.faces.get f).state = .dark
    · exact outLeft hc hd
    · rw [(stay (by simp [hc, hd])).1]
      exact h.driven hr hc
  · by_cases hc : (s.faces.get f).state = .dark <;> by_cases hd : (t.faces.get f).state = .dark
    · obtain ⟨_, _, hcheck, hframe⟩ := keep (.inl hc)
      rw [(stay (by simp [hc, hd])).1] at hoff
      rw [hcheck, hframe]
      exact h.off hoff
    · exact absurd hoff (outLeft hc hd)
    · obtain ⟨_, _, _, _, _, hcheck, hframe⟩ := enter hc hd
      exact ⟨hcheck, hframe⟩
    · obtain ⟨_, _, hcheck, hframe⟩ := keep (.inr hd)
      rw [(stay (by simp [hc, hd])).1] at hoff
      rw [hcheck, hframe]
      exact h.off hoff

theorem settle_same {f : Face} (h : s.effState f = (s.faces.get f).state) : s.settle f = s := by
  unfold State.settle
  dsimp only
  rw [if_pos h]

theorem FacesFirm.settle (h : FacesFirm s) (f : Face) : FacesFirm (s.settle f) := by
  have ho := settle_only s f
  by_cases hr : s.loader.phase = .loading
  · rw [settle_same (by rw [effState_loading h hr, ((h.firm f).loading hr).2.1])]
    exact h
  · refine ⟨fun g => ?_, fun hload => absurd (ho.loader ▸ hload) hr⟩
    by_cases hg : g = f
    · subst hg
      exact (h.firm g).effects (by rw [ho.loader]) hr ho.ambient (settle_effects s g)
    · refine (h.firm g).like (by rw [ho.loader]) ?_ (.of_back (settle_panel_other s hg)) (by rw [ho.ambient]; exact ⟨rfl, rfl⟩)
      rw [settle_other s hg]
      exact ⟨rfl, rfl, rfl⟩

theorem firmWork : SettleWork FacesFirm where
  away ho h := by
    refine h.like ?_ ho.lines (fun f => ?_) (fun f => ?_) ?_
    · rw [ho.loader]
    · rw [ho.faces]; exact ⟨rfl, rfl, rfl⟩
    · rw [ho.panels]; exact .refl _
    · rw [ho.ambient]; exact ⟨rfl, rfl⟩
  port p _ _ h := h.like rfl rfl (fun _ => ⟨rfl, rfl, rfl⟩) (fun _ => .refl _) ⟨rfl, rfl⟩
  mark f g hg h := h.modFace fun c => by obtain ⟨n, d, hc⟩ := hg c; rw [hc]; exact ⟨rfl, rfl, rfl⟩
  settle f h := h.settle f

/-- R97: a face that a change did not reach stays at its effective state. -/
theorem settled_left {f : Face} {marked : Bool} (h : FaceLeft s t f marked) (hl : t.lines = s.lines)
    (hs : (s.faces.get f).state = s.effState f) : (t.faces.get f).state = t.effState f := by
  obtain ⟨hface, _⟩ := h
  rw [effState_congr hl (by rw [hface]) (by rw [hface]), hface]
  exact hs

/-! ## The shared work -/

theorem FacesSound.touch (h : FacesSound s) (platforms : List Nat) : FacesSound (s.touch platforms) := by
  refine ⟨firmWork.touch platforms h.toFacesFirm, fun f => ?_⟩
  obtain ⟨reached, left⟩ := touch_wakes s platforms f
  cases hb : (s.touch platforms).bound f platforms
  · exact settled_left (left hb) (touch_only s _).lines (h.settled f)
  · obtain ⟨_, _, _, settled, _⟩ := reached hb
    exact settled

theorem FacesSound.wakePart (h : FacesSound s) : FacesSound s.wakePart := by
  refine ⟨firmWork.wakePart h.toFacesFirm, fun f => ?_⟩
  obtain ⟨⟨_, _, settled, _⟩, _⟩ := wakePart_wakes s f
  exact settled

/-- R97, R98: the faces of a choice wake and work out their state. -/
theorem FacesSound.wakeChosen (h : FacesSound s) (w : WakeSource) (sel : Face → Bool) :
    FacesSound ((s.eachFace fun f u => if sel f then u.wake f w else u).eachFace fun f u => if sel f then u.settle f else u) := by
  have woken : OnlyIn [.faces] s (s.eachFace fun f u => if sel f then u.wake f w else u) :=
    OnlyIn.eachFace fun f u => OnlyIn.ite (wake_only u f w) (OnlyIn.refl _ _)
  have settled : ∀ u : State, OnlyIn faceParts u (u.eachFace fun f u => if sel f then u.settle f else u) := fun u =>
    OnlyIn.eachFace fun f u => OnlyIn.ite (settle_only u f) (OnlyIn.refl _ _)
  refine ⟨?_, fun f => ?_⟩
  · exact eachFace_keeps (fun f _ hu => ite_keeps (firmWork.settle f hu) hu)
      (eachFace_keeps (fun f _ hu => ite_keeps (firmWork.wake f w hu) hu) h.toFacesFirm)
  · obtain ⟨_, reached, left⟩ := wakeSel_spec s w sel f
    cases hs : sel f
    · exact settled_left (left hs) (((settled _).lines).trans woken.lines) (h.settled f)
    · obtain ⟨⟨_, _, hstate, _⟩, _⟩ := reached hs
      exact hstate

theorem FacesSound.notice (h : FacesSound s) (cls : NoticeClass) (targets : FaceSel) :
    FacesSound (s.wakeForNotice cls targets) := by
  unfold State.wakeForNotice
  split
  · exact h
  · exact h.wakeChosen .notice targets.has

theorem FacesSound.wakeEdge (h : FacesSound s) (sel : FaceSel) : FacesSound (s.wakeEdge sel) := h.wakeChosen .input sel.has

theorem FacesSound.markDirty (h : FacesSound s) (f : Face) : FacesSound (s.markDirty f) := by
  refine FacesSound.modFace h ?_
  exact fun _ => ⟨⟨rfl, rfl, rfl⟩, rfl⟩

theorem soundWork : FaceWork FacesSound where
  away ho h := h.only (ho.mono (List.Subset.refl _))
  port p _ _ h := h.only (modPort_only _ p _)
  dirty f h := h.markDirty f
  touch pls h := h.touch pls
  wakePart h := h.wakePart
  notice cls targets h := h.notice cls targets

/-! ## Faces that work out their state after a change of the lines or of the settings -/

/-- R97: a change that leaves the faces firm is followed by the faces of a choice working out their state: the others
must be at theirs. -/
theorem FacesFirm.settleChosen (h : FacesFirm s) (sel : Face → Bool)
    (hs : ∀ f, sel f = false → (s.faces.get f).state = s.effState f) :
    FacesSound (s.eachFace fun f u => if sel f then u.settle f else u) := by
  refine ⟨eachFace_keeps (fun f _ hu => ite_keeps (firmWork.settle f hu) hu) h, fun f => ?_⟩
  obtain ⟨_, _, heff, chosen, left⟩ := settleSel_spec s sel f
  cases hf : sel f
  · rw [left hf, heff]; exact hs f hf
  · rw [(chosen hf).1, heff]

theorem FacesSound.setFaceSettings (h : FacesSound s) (hr : s.loader.phase ≠ .loading) (f : Face) (c : FaceSettings) :
    FacesSound (s.setFaceSettings f c) := by
  have own : ∀ c', (Composer.setSettings c c').state = c'.state ∧ (Composer.setSettings c c').rebuild = c'.rebuild := by
    intro c'
    unfold Composer.setSettings
    dsimp only
    split <;> exact ⟨rfl, rfl⟩
  have hset : FacesFirm (s.modFace f (Composer.setSettings c)) := by
    refine ⟨fun g => ?_, fun hload => absurd hload hr⟩
    have hg := h.firm g
    by_cases hgf : g = f
    · subst hgf
      have hface : (s.modFace g (Composer.setSettings c)).faces.get g = Composer.setSettings c (s.faces.get g) := by
        rw [State.modFace_faces, PerFace.get_set_same]
      obtain ⟨hstate, hrebuild⟩ := own (s.faces.get g)
      refine ⟨?_, ?_, fun hload => absurd hload hr, hg.off,
        hg.duties.like (by rw [hface, hstate]) (.refl _) ⟨rfl, rfl⟩⟩
      · rw [hface, hstate, hrebuild]; exact hg.dark
      · rw [hface, hstate]; exact hg.driven
    · have hface : (s.modFace f (Composer.setSettings c)).faces.get g = s.faces.get g := by
        rw [State.modFace_faces, PerFace.get_set_other _ _ hgf]
      exact hg.like rfl (by rw [hface]; exact ⟨rfl, rfl, rfl⟩) (.refl _) ⟨rfl, rfl⟩
  have hwake := firmWork.departureWake f hset
  have hsound : FacesSound (((s.modFace f (Composer.setSettings c)).departureWake f).settle f) := by
    refine ⟨hwake.settle f, fun g => ?_⟩
    by_cases hgf : g = f
    · rw [hgf]; exact settle_settled _ f
    · have hface : ((s.modFace f (Composer.setSettings c)).departureWake f).faces.get g = s.faces.get g := by
        rw [departureWake_other _ hgf, State.modFace_faces, PerFace.get_set_other _ _ hgf]
      have hlines : ((s.modFace f (Composer.setSettings c)).departureWake f).lines = s.lines :=
        (departureWake_only _ f).lines
      rw [settle_other _ hgf, settle_effState, effState_congr hlines (by rw [hface]) (by rw [hface]), hface]
      exact h.settled g
  exact hsound.markDirty f

/-! ## Changes of panels, and the duties worked out again -/

/-- R153, R154: the duties of both faces are worked out again, the outputs, checks and frames left. -/
theorem FacesSound.redone (h : FacesSound s) {ps : List Part} (ho : OnlyIn ps s t)
    (hp : ∀ f, (t.panels.get f).out = (s.panels.get f).out ∧ (t.panels.get f).check = (s.panels.get f).check ∧
      (t.panels.get f).frame = (s.panels.get f).frame)
    (hd : ∀ f, DutiesAnew t f) (hps : ∀ q ∈ [Part.faces, .lines, .loader], q ∉ ps := by decide) : FacesSound t := by
  have faces : t.faces = s.faces := ho .faces (hps _ (by decide))
  have lines : t.lines = s.lines := ho .lines (hps _ (by decide))
  have loader : t.loader = s.loader := ho .loader (hps _ (by decide))
  refine ⟨⟨fun f => ?_, by unfold LinesSound; rw [loader, lines]; exact h.lines⟩, fun f => ?_⟩
  · obtain ⟨out, check, frame⟩ := hp f
    have hf := h.firm f
    refine ⟨?_, ?_, ?_, ?_, hd f⟩
    · rw [faces, out]; exact hf.dark
    · rw [faces, loader, out]; exact hf.driven
    · rw [faces, loader, out]; exact hf.loading
    · rw [out, check, frame]; exact hf.off
  · rw [effState_congr lines (by rw [faces]) (by rw [faces]), faces]
    exact h.settled f

theorem recompute_output (s : State) (f g : Face) :
    ((s.recomputeDuties f).panels.get g).out = (s.panels.get g).out ∧
    ((s.recomputeDuties f).panels.get g).check = (s.panels.get g).check ∧
    ((s.recomputeDuties f).panels.get g).frame = (s.panels.get g).frame := by
  rw [recompute_panels]
  split
  · rename_i hg; rw [hg]; exact ⟨rfl, rfl, rfl⟩
  · exact ⟨rfl, rfl, rfl⟩

/-- R152, R154: a new level or curve, and the duties of both faces worked out for it. -/
theorem FacesSound.setAmbient (h : FacesSound s) (m : Ambient) :
    FacesSound (State.eachFace { s with ambient := m } fun f u => u.recomputeDuties f) := by
  have set : OnlyIn [.panels, .ambient] s { s with ambient := m } := by
    intro q hq; cases q <;> first | rfl | exact absurd (by decide) hq
  refine h.redone (set.trans (OnlyIn.eachFace fun f u => (recomputeDuties_only u f).mono (by decide))) (fun f => ?_)
    (recomputeBoth_anew _)
  obtain ⟨out, check, frame⟩ := recompute_output (State.recomputeDuties { s with ambient := m } .a) .b f
  obtain ⟨out', check', frame'⟩ := recompute_output { s with ambient := m } .a f
  exact ⟨out.trans out', check.trans check', frame.trans frame'⟩

/-- R153, R154: a new cap or trim of a face, and its duties worked out for it. -/
theorem FacesSound.setPanel (h : FacesSound s) (f : Face) {g : Panel → Panel}
    (hg : ∀ p, (g p).out = p.out ∧ (g p).check = p.check ∧ (g p).frame = p.frame) :
    FacesSound ((s.modPanel f g).recomputeDuties f) := by
  refine h.redone ((modPanel_only s f g).trans (recomputeDuties_only _ f)) (fun k => ?_) fun k => ?_
  · obtain ⟨out, check, frame⟩ := recompute_output (s.modPanel f g) f k
    rw [out, check, frame, State.modPanel_panels, PerFace.get_set]
    split
    · rename_i hk; rw [hk]; exact hg _
    · exact ⟨rfl, rfl, rfl⟩
  · by_cases hk : k = f
    · rw [hk]; exact recompute_anew _ f
    · have hpanel : (s.modPanel f g).panels.get k = s.panels.get k := by
        rw [State.modPanel_panels, PerFace.get_set_other _ _ hk]
      exact recompute_anew_other _ hk ((h.firm k).duties.like rfl (by rw [hpanel]; exact .refl _) ⟨rfl, rfl⟩)

theorem FacesSound.startDriving (h : FacesSound s) {f : Face} (hf : (s.panels.get f).out = .starting) :
    FacesSound (s.startDriving f) := by
  have away : (s.panels.get f).out ≠ .off := by rw [hf]; decide
  refine ⟨⟨fun k => ?_, h.lines⟩, h.settled⟩
  have hk := h.firm k
  by_cases hkf : k = f
  · subst hkf
    have hout : ((s.startDriving k).panels.get k).out = .driving := by
      rw [State.startDriving, recompute_panels, if_pos rfl, State.modPanel_panels, PerFace.get_set_same]
    refine ⟨fun hd => absurd (hk.dark hd).2 away, fun _ _ => by rw [hout]; decide,
      fun hl => absurd (hk.loading hl).2.2.2 away, fun ho => (by rw [hout] at ho; cases ho), recompute_anew _ k⟩
  · have hpanel : (s.startDriving f).panels.get k = s.panels.get k := by
      rw [State.startDriving, recompute_panels, if_neg hkf, State.modPanel_panels, PerFace.get_set_other _ _ hkf]
    exact hk.like rfl ⟨rfl, rfl, rfl⟩ (by rw [hpanel]; exact .refl _) ⟨rfl, rfl⟩

/-! ## Input lines -/

/-- R97, R159: a change of one line that leaves what it holds leaves every effective state. -/
theorem effState_modLine {l : Fin 4} {g : InputLine → InputLine} (f : Face)
    (hlamp : (s.modLine l g).lineHolds .lampTest l ↔ s.lineHolds .lampTest l)
    (hblank : ((s.modLine l g).lineHolds .blank l ∧ (g s.lines[l]).face.has f = true) ↔
      (s.lineHolds .blank l ∧ s.lines[l].face.has f = true)) : (s.modLine l g).effState f = s.effState f := by
  have other : ∀ i : Fin 4, i ≠ l → (s.modLine l g).lines[i] = s.lines[i] := fun i hi => by
    rw [modLine_get, if_neg hi.symm]
  have own : (s.modLine l g).lines[l] = g s.lines[l] := by rw [modLine_get, if_pos rfl]
  have lamp : (s.modLine l g).heldLamp ↔ s.heldLamp := by
    refine exists_congr fun i => ?_
    by_cases hi : i = l
    · rw [hi]; exact hlamp
    · unfold State.lineHolds; rw [other i hi]
  have blank : (s.modLine l g).heldBlank f ↔ s.heldBlank f := by
    refine exists_congr fun i => ?_
    by_cases hi : i = l
    · rw [hi]; rw [← own] at hblank; exact hblank
    · unfold State.lineHolds; rw [other i hi]
  rw [effState_eq, effState_eq]
  unfold State.stateByRule
  simp only [lamp, blank]
  rfl

theorem FacesFirm.modLine (h : FacesFirm s) (l : Fin 4) {g : InputLine → InputLine}
    (hg : ∀ x, (g x).function = x.function) : FacesFirm (s.modLine l g) := by
  refine ⟨fun f => (h.firm f).like rfl ⟨rfl, rfl, rfl⟩ (.refl _) ⟨rfl, rfl⟩, fun hl i => ?_⟩
  have hi : s.lines[i].function = .none := h.lines hl i
  rw [modLine_get]
  split
  · rename_i he; rw [hg, he]; exact hi
  · exact hi

/-- R156: a sample that only counts leaves the faces. -/
theorem FacesSound.setPending (h : FacesSound s) (l : Fin 4) (n : InputLine → Nat) :
    FacesSound (s.modLine l fun x => { x with pending := n x }) := by
  refine ⟨h.toFacesFirm.modLine l fun _ => rfl, fun f => ?_⟩
  have own : (s.modLine l fun x => { x with pending := n x }).lines[l] = { s.lines[l] with pending := n s.lines[l] } := by
    rw [modLine_get, if_pos rfl]
  rw [effState_modLine f (by unfold State.lineHolds; rw [own]) (by unfold State.lineHolds; rw [own])]
  exact h.settled f

/-- R155, R156: the line's function tells which faces a counted change can move. -/
theorem FacesSound.countChange (h : FacesSound s) (l : Fin 4) : FacesSound (s.countChange l) := by
  set g : InputLine → InputLine := fun x => { x with settled := flipLevel x.settled, pending := 0 } with hg
  set w := s.modLine l g with hw
  have own : w.lines[l] = g s.lines[l] := by rw [hw, modLine_get, if_pos rfl]
  have firm : FacesFirm w := h.toFacesFirm.modLine l fun _ => rfl
  have function : w.lines[l].function = s.lines[l].function := by rw [own]
  have face : (g s.lines[l]).face = s.lines[l].face := rfl
  -- the lamp test and the blank of this line, where it has another function
  have lamp : w.lines[l].function ≠ .lampTest → (w.lineHolds .lampTest l ↔ s.lineHolds .lampTest l) := fun hn =>
    iff_of_false (fun hh => hn hh.1) fun hh => hn (function ▸ hh.1)
  have blank : ∀ f, w.lines[l].function ≠ .blank → (w.lineHolds .blank l ∧ (g s.lines[l]).face.has f = true ↔
      s.lineHolds .blank l ∧ s.lines[l].face.has f = true) := fun f hn =>
    iff_of_false (fun hh => hn hh.1.1) fun hh => hn (function ▸ hh.1.1)
  have active : ∀ fn, fn = .blank ∨ fn = .lampTest → w.lines[l].active = s.lines[l].active →
      (w.lineHolds fn l ↔ s.lineHolds fn l) := fun fn hfn ha => by
    unfold State.lineHolds
    rw [← active_iff _ _ hfn, ← active_iff _ _ hfn, ha, function]
  have idleLine : w.lines[l].function ≠ .lampTest → w.lines[l].function ≠ .blank → FacesSound w := fun h1 h2 =>
    ⟨firm, fun f => by rw [effState_modLine f (lamp h1) (blank f h2)]; exact h.settled f⟩
  show FacesSound (w.handLineOn l s.lines[l])
  unfold State.handLineOn
  dsimp only
  split
  · rename_i hf
    exact idleLine (by rw [hf]; decide) (by rw [hf]; decide)
  · rename_i hf
    have notLamp := lamp (by rw [hf]; decide)
    split
    · rename_i ha
      refine ⟨firm, fun f => ?_⟩
      rw [effState_modLine f notLamp (by rw [active .blank (.inl rfl) ha, face])]
      exact h.settled f
    · refine firm.settleChosen (fun f => w.lines[l].face.has f) fun f hs => ?_
      rw [own, face] at hs
      rw [effState_modLine f notLamp (by rw [face, hs]; simp)]
      exact h.settled f
  · rename_i hf
    have notBlank := fun f => blank f (by rw [hf]; decide)
    split
    · rename_i ha
      refine ⟨firm, fun f => ?_⟩
      rw [effState_modLine f (active .lampTest (.inr rfl) ha) (notBlank f)]
      exact h.settled f
    · exact firm.settleChosen (fun f => FaceSel.both.has f) fun f hs => by cases f <;> cases hs
  · rename_i hf
    have sound := idleLine (by rw [hf]; decide) (by rw [hf]; decide)
    exact ite_keeps (soundWork.approachEdge _ sound) sound
  · rename_i hf
    have sound := idleLine (by rw [hf]; decide) (by rw [hf]; decide)
    exact ite_keeps (sound.wakeEdge _) sound

/-! ## Parameters -/

theorem writeParam_quiet (s : State) {q : Param} (value : List Byte)
    (hq : q ≠ .ro ∧ q ≠ .curve ∧ (∀ f, q ≠ .cap f) ∧ (∀ f m, q ≠ .trim f m) ∧ ∀ l, q ≠ .line l) :
    OnlyIn [.params, .timers, .ports] s (s.writeParam q value) := by
  obtain ⟨ro, curve, cap, trim, line⟩ := hq
  cases q
  case ro => exact absurd rfl ro
  case curve => exact absurd rfl curve
  case cap f => exact absurd rfl (cap f)
  case trim f m => exact absurd rfl (trim f m)
  case line l => exact absurd rfl (line l)
  all_goals intro part hpart; cases part <;> first | rfl | exact absurd (by decide) hpart

theorem effState_holdings {f : Face} (hd : s.holdingDiffers t f = false) (hf : t.faces = s.faces) :
    t.effState f = s.effState f := by
  unfold State.holdingDiffers at hd
  simp only [Bool.or_eq_false_iff, bne_eq_false_iff_eq] at hd
  unfold State.effState
  rw [hd.1, hd.2, hf]

theorem FacesSound.writeLine (h : FacesSound s) (hr : s.loader.phase ≠ .loading) (l : Fin 4) (value : List Byte) :
    FacesSound ((s.writeParam (.line l) value).paramEffects s (.line l)) := by
  have written : OnlyIn [.lines] s (s.writeParam (.line l) value) := by
    unfold State.writeParam
    dsimp only
    split
    · exact modLine_only _ _ _
    · exact OnlyIn.refl _ _
  have firm : FacesFirm (s.writeParam (.line l) value) := by
    refine ⟨fun f => ?_, fun hl => absurd (written.loader ▸ hl) hr⟩
    refine (h.firm f).like (by rw [written.loader]) ?_ ?_ (by rw [written.ambient]; exact ⟨rfl, rfl⟩)
    · rw [written.faces]; exact ⟨rfl, rfl, rfl⟩
    · rw [written.panels]; exact .refl _
  refine firm.settleChosen (fun f => s.holdingDiffers (s.writeParam (.line l) value) f) fun f hf => ?_
  rw [effState_holdings hf written.faces, written.faces]
  exact h.settled f

theorem FacesSound.setParameter (h : FacesSound s) (hr : s.loader.phase ≠ .loading) (q : Param) (value : List Byte) :
    FacesSound ((s.writeParam q value).paramEffects s q) := by
  have quiet : ∀ q : Param, (q ≠ .ro ∧ q ≠ .curve ∧ (∀ f, q ≠ .cap f) ∧ (∀ f m, q ≠ .trim f m) ∧ ∀ l, q ≠ .line l) →
      FacesSound (s.writeParam q value) := fun q hq => h.only (writeParam_quiet s value hq)
  cases q
  case ro =>
    have sorted : OnlyIn [.params, .table] s (s.writeParam .ro value) := by
      intro part hpart; cases part <;> first | rfl | exact absurd (by decide) hpart
    exact soundWork.markBoth ((h.only sorted).touch _)
  case curve => exact h.setAmbient _
  case cap f =>
    refine FacesSound.setPanel h f ?_
    exact fun _ => ⟨rfl, rfl, rfl⟩
  case trim f m =>
    refine FacesSound.setPanel h f ?_
    exact fun _ => ⟨rfl, rfl, rfl⟩
  case line l => exact h.writeLine hr l value
  case rotateDepth => exact soundWork.markBoth (quiet .rotateDepth (by simp))
  case tickerHold => exact soundWork.markBoth (quiet .tickerHold (by simp))
  case stale p => exact soundWork.markBoth (quiet (.stale p) (by simp))
  case linger => exact quiet .linger (by simp)
  case unknownHold => exact quiet .unknownHold (by simp)
  case wakeWindow => exact quiet .wakeWindow (by simp)
  case wakeHold => exact quiet .wakeHold (by simp)
  case reload i => exact quiet (.reload i) (by simp)
  case unit i => exact quiet (.unit i) (by simp)
  case mode i => exact quiet (.mode i) (by simp)
  case framePeriod => exact quiet .framePeriod (by simp)
  case checkInterval => exact quiet .checkInterval (by simp)
  case startDelay => exact quiet .startDelay (by simp)
  case baud p => exact quiet (.baud p) (by simp)
  case limit p => exact quiet (.limit p) (by simp)

/-! ## Plans, frames, timers -/

theorem FacesSound.takePlan (h : FacesSound s) {f : Face} (hdue : s.planDue f = true) : FacesSound (s.takePlan f) := by
  obtain ⟨_, _, showing, ready⟩ := (planDue_iff s f).mp hdue
  have ho := takePlan_only s f
  obtain ⟨plan, hown, _, _, _, hsettings, hstate, hcount, _, hother, _, _, hpanels, _⟩ := takePlan_spec s f
  have notDark : (s.faces.get f).state ≠ .dark := by
    rcases showing with hs | hs <;> rw [hs] <;> decide
  have like : ∀ g, PanelLike (s.panels.get g) ((s.takePlan f).panels.get g) := fun g => .of_back (hpanels g)
  have ambient : (s.takePlan f).ambient.level = s.ambient.level ∧ (s.takePlan f).ambient.curve = s.ambient.curve := by
    rw [ho.ambient]; exact ⟨rfl, rfl⟩
  have firm : ∀ g, FaceFirm (s.takePlan f) g := by
    intro g
    have hg := h.firm g
    by_cases hgf : g = f
    · subst hgf
      refine ⟨fun hd => absurd (hstate ▸ hd) notDark, ?_, fun hl => absurd (ho.loader ▸ hl) ready, ?_,
        hg.duties.like hstate (like g) ambient⟩
      · rw [ho.loader, hstate, (like g).out]; exact hg.driven
      · rw [(like g).out, (like g).check, (like g).frame]; exact hg.off
    · refine hg.like (by rw [ho.loader]) ?_ (like g) ambient
      rw [hother g hgf]; exact ⟨rfl, rfl, rfl⟩
  refine ⟨⟨firm, fun hl => absurd (ho.loader ▸ hl) ready⟩, fun g => ?_⟩
  by_cases hgf : g = f
  · subst hgf
    rw [effState_congr ho.lines (by rw [hsettings]) hcount, hstate]
    exact h.settled g
  · rw [effState_congr ho.lines (by rw [hother g hgf]) (by rw [hother g hgf]), hother g hgf]
    exact h.settled g

/-- R117, R142: a rebuild in hand goes on, or ends: its face is neither DARK nor in LOADING. -/
theorem FacesSound.rebuildOn (h : FacesSound s) {f : Face} (hr : (s.faces.get f).rebuild ≠ .idle) {g : Composer → Composer}
    (hg : ∀ c, (g c).settings = c.settings ∧ (g c).state = c.state ∧ (g c).countdown = c.countdown) :
    FacesSound (s.modFace f g) := by
  have own : (s.modFace f g).faces.get f = g (s.faces.get f) := by rw [State.modFace_faces, PerFace.get_set_same]
  have other : ∀ k, k ≠ f → (s.modFace f g).faces.get k = s.faces.get k := fun k hk => by
    rw [State.modFace_faces, PerFace.get_set_other _ _ hk]
  obtain ⟨hsettings, hstate, hcount⟩ := hg (s.faces.get f)
  refine ⟨⟨fun k => ?_, h.lines⟩, fun k => ?_⟩
  · have hk := h.firm k
    by_cases hkf : k = f
    · subst hkf
      refine ⟨fun hd => ?_, ?_, fun hl => absurd (hk.loading hl).2.2.1 hr, hk.off,
        hk.duties.like (by rw [own, hstate]) (.refl _) ⟨rfl, rfl⟩⟩
      · rw [own, hstate] at hd
        exact absurd (hk.dark hd).1 hr
      · rw [own, hstate]; exact hk.driven
    · exact hk.like rfl (by rw [other k hkf]; exact ⟨rfl, rfl, rfl⟩) (.refl _) ⟨rfl, rfl⟩
  · by_cases hkf : k = f
    · subst hkf
      rw [effState_congr (s := s) (t := s.modFace k g) rfl (by rw [own, hsettings]) (by rw [own, hcount]), own, hstate]
      exact h.settled k
    · rw [effState_congr (s := s) (t := s.modFace f g) rfl (by rw [other k hkf]) (by rw [other k hkf]), other k hkf]
      exact h.settled k

theorem FacesSound.painterNext (h : FacesSound s) : FacesSound s.painterNext := by
  have ho := painterNext_only s
  refine h.like (by rw [ho.loader]) ho.lines (fun f => ?_) (fun f => by rw [ho.faces]) (fun f => .of_back (painterNext_panels s f))
    (by rw [ho.ambient]; exact ⟨rfl, rfl⟩)
  rw [ho.faces]; exact ⟨rfl, rfl, rfl⟩

theorem FacesSound.takeCompletion (h : FacesSound s) (f : Face) (n : Nat) : FacesSound (s.takeCompletion f n) := by
  unfold State.takeCompletion
  dsimp only
  split
  · rename_i plan hpainting _
    split
    · refine FacesSound.only ?_ (raiseAll_only _ _ _)
      refine FacesSound.rebuildOn (FacesSound.modPanel h ?_) ?_ ?_
      · exact fun p => ⟨rfl, rfl, rfl, rfl, rfl, rfl, rfl⟩
      · rw [State.modPanel_faces, hpainting]; decide
      · exact fun _ => ⟨rfl, rfl, rfl⟩
    · exact h
  · exact h

theorem FacesSound.chainCheck (h : FacesSound s) (f : Face) (echo : Vector (BitVec 32) 4) :
    FacesSound (s.chainCheck f echo) := by
  by_cases hout : (s.panels.get f).out = .driving
  · have ho := chainCheck_only s f echo
    obtain ⟨hother, hown, _⟩ := chainCheck_spec s f echo
    refine ⟨⟨fun g => ?_, by unfold LinesSound; rw [ho.loader, ho.lines]; exact h.lines⟩, fun g => ?_⟩
    · have hg := h.firm g
      have ambient : (s.chainCheck f echo).ambient.level = s.ambient.level ∧
          (s.chainCheck f echo).ambient.curve = s.ambient.curve := by rw [ho.ambient]; exact ⟨rfl, rfl⟩
      by_cases hgf : g = f
      · subst hgf
        dsimp only at hown
        have out : ((s.chainCheck g echo).panels.get g).out = (s.panels.get g).out := by rw [← hown]
        have duties : DutiesAnew (s.chainCheck g echo) g := by
          have hd := hg.duties
          unfold DutiesAnew State.faceDutyOf at hd ⊢
          rw [ho.faces, ho.ambient]
          rw [← hown] at hd
          exact hd
        refine ⟨?_, ?_, ?_, fun hoff => ?_, duties⟩
        · rw [ho.faces, out]; exact hg.dark
        · rw [ho.faces, ho.loader, out]; exact hg.driven
        · rw [ho.faces, ho.loader, out]; exact hg.loading
        · rw [out, hout] at hoff; cases hoff
      · refine hg.like (by rw [ho.loader]) ?_ (by rw [hother g hgf]; exact .refl _) ambient
        rw [ho.faces]; exact ⟨rfl, rfl, rfl⟩
    · rw [effState_congr ho.lines (by rw [ho.faces]) (by rw [ho.faces]), ho.faces]
      exact h.settled g
  · have same : s.chainCheck f echo = s := by
      unfold State.chainCheck
      split
      · rfl
      · rfl
      · exact absurd (by assumption) hout
    rw [same]
    exact h

theorem FacesSound.swap (h : FacesSound s) (f : Face) : FacesSound (s.swap f) := by
  unfold State.swap
  split
  · rename_i plan hpending _
    have swapped : FacesSound (s.swapBuffers f plan) := by
      unfold State.swapBuffers
      refine FacesSound.rebuildOn (FacesSound.modPanel h ?_) ?_ ?_
      · exact fun p => ⟨rfl, rfl, rfl, rfl, rfl, rfl, rfl⟩
      · rw [State.modPanel_faces, hpending]; decide
      · exact fun _ => ⟨rfl, rfl, rfl⟩
    exact ite_keeps swapped (swapped.only (signalAll_only _ _))
  · exact h

/-- R143, R144: the frame that begins, none while the output is OFF. -/
theorem FacesSound.beginFrame (h : FacesSound s) (f : Face) (n : Nat) :
    FacesSound (s.modPanel f fun p => { p with frame := s.frameOf f, elapsed := 0, period := n }) := by
  refine ⟨⟨fun g => ?_, h.lines⟩, h.settled⟩
  have hg := h.firm g
  by_cases hgf : g = f
  · subst hgf
    set t := s.modPanel g fun p => { p with frame := s.frameOf g, elapsed := 0, period := n } with ht
    have own : t.panels.get g = { s.panels.get g with frame := s.frameOf g, elapsed := 0, period := n } := by
      rw [ht, State.modPanel_panels, PerFace.get_set_same]
    have duties : DutiesAnew t g := by
      have hd := hg.duties
      unfold DutiesAnew State.faceDutyOf at hd ⊢
      rw [own]
      exact hd
    refine ⟨?_, ?_, ?_, fun hoff => ?_, duties⟩
    · rw [own]; exact hg.dark
    · rw [own]; exact hg.driven
    · rw [own]; exact hg.loading
    · rw [own] at hoff ⊢
      have hframe : s.frameOf g = none := by
        unfold State.frameOf
        dsimp only
        rw [show (s.panels.get g).out = .off from hoff]
      exact ⟨(hg.off hoff).1, hframe⟩
  · refine hg.like rfl ⟨rfl, rfl, rfl⟩ ?_ ⟨rfl, rfl⟩
    rw [State.modPanel_panels, PerFace.get_set_other _ _ hgf]
    exact .refl _

theorem FacesSound.frameBoundary (h : FacesSound s) (f : Face) (echo : Vector (BitVec 32) 4) :
    FacesSound (s.frameBoundary f echo) := ((h.chainCheck f echo).swap f).beginFrame f _

theorem FacesSound.rotateStep (h : FacesSound s) (f : Face) : FacesSound (s.rotateStep f) := by
  unfold State.rotateStep
  dsimp only
  split
  · split
    all_goals
      refine FacesSound.modFace h ?_
      exact fun _ => ⟨⟨rfl, rfl, rfl⟩, rfl⟩
  · exact h

theorem stepTickers_like (hold : Nat) (c : Composer) :
    ComposerLike c (c.stepTickers hold) ∧ (c.stepTickers hold).countdown = c.countdown := by
  unfold Composer.stepTickers
  split <;> exact ⟨⟨rfl, rfl, rfl⟩, rfl⟩

theorem rotateBottom_like (list : List BottomEntry) (c : Composer) :
    ComposerLike c (c.rotateBottom list) ∧ (c.rotateBottom list).countdown = c.countdown := by
  unfold Composer.rotateBottom
  split <;> exact ⟨⟨rfl, rfl, rfl⟩, rfl⟩

theorem flashToggle_like (c : Composer) : ComposerLike c c.flashToggle ∧ c.flashToggle.countdown = c.countdown := by
  unfold Composer.flashToggle
  split <;> exact ⟨⟨rfl, rfl, rfl⟩, rfl⟩

theorem FacesSound.handExpiry (h : FacesSound s) (i : Fin 6) : FacesSound (s.handExpiry i) := by
  have flash : OnlyIn [.flashOn] s { s with flashOn := !s.flashOn } := by
    intro q hq; cases q <;> first | rfl | exact absurd (by decide) hq
  unfold State.handExpiry
  split
  · exact h.modFace (stepTickers_like _)
  · exact h.modFace (stepTickers_like _)
  · exact eachFace_keeps (fun f _ hu => hu.rotateStep f) h
  · exact eachFace_keeps (fun f u hu => hu.modFace (rotateBottom_like _)) h
  · exact eachFace_keeps (fun f u hu => hu.modFace flashToggle_like) (h.only flash)
  · exact h.like rfl rfl (fun _ => ⟨rfl, rfl, rfl⟩) (fun _ => rfl) (fun _ => .refl _) ⟨rfl, rfl⟩

theorem FacesSound.idle (h : FacesSound s) : FacesSound s.idle := by
  unfold State.idle
  split
  · split
    · refine h.only (ps := [.clock, .free, .pending]) ?_
      intro q hq; cases q <;> first | rfl | exact absurd (by decide) hq
    · refine h.like rfl rfl (fun _ => ⟨rfl, rfl, rfl⟩) (fun _ => rfl) (fun f => ?_) ⟨rfl, rfl⟩
      cases f <;> exact ⟨rfl, rfl, rfl, rfl, rfl, rfl, rfl⟩
  · refine h.only (ps := [.pending]) ?_
    intro q hq; cases q <;> first | rfl | exact absurd (by decide) hq

/-! ## Reset, restart and loading -/

/-- R120, R144, R155, R182, R185: in LOADING, with nothing planned, the outputs OFF and the lines without function. -/
theorem FacesSound.ofReset (hl : t.loader.phase = .loading)
    (hc : ∀ f, (t.faces.get f).settings.modeOn = true ∧ (t.faces.get f).state = .lit ∧ (t.faces.get f).rebuild = .idle)
    (hp : ∀ f, PanelLike Panel.reset (t.panels.get f)) (hlines : ∀ l : Fin 4, ∃ level, t.lines[l] = InputLine.reset level) :
    FacesSound t := by
  have firm : FacesFirm t := by
    refine ⟨fun f => ?_, fun _ l => ?_⟩
    · obtain ⟨mode, state, rebuild⟩ := hc f
      obtain ⟨out, check, frame, cap, trims, faceDuty, duties⟩ := hp f
      have none : t.faceDutyOf f = 0 := by
        rw [faceDutyOf_table, if_pos (.inl (by rw [out]; decide))]
      refine ⟨fun _ => ⟨rebuild, out⟩, fun hr => absurd hl hr, fun _ => ⟨mode, state, rebuild, out⟩, fun _ => ⟨check, frame⟩, ?_⟩
      unfold DutiesAnew
      rw [none, faceDuty, duties, trims]
      exact ⟨rfl, by simp [Panel.reset, moduleDuty]⟩
    · obtain ⟨level, he⟩ := hlines l
      rw [he]; rfl
  exact ⟨firm, fun f => by rw [effState_loading firm hl]; exact (hc f).2.1⟩

theorem FacesSound.resetTo (levels : Vector Level 4) : FacesSound (s.resetTo levels) := by
  refine .ofReset rfl (fun f => ?_) (fun f => ?_) fun l => ⟨levels[l], ?_⟩
  · cases f <;> exact ⟨rfl, rfl, rfl⟩
  · cases f <;> exact .refl _
  · show (levels.map InputLine.reset)[l] = _
    simp

theorem FacesSound.restart (p : Port) (frame : List Byte) : FacesSound (s.restart p frame) := by
  refine .ofReset rfl (fun f => ?_) (fun f => ?_) fun l => ⟨s.lines[l].settled, ?_⟩
  · cases f <;> exact ⟨rfl, rfl, rfl⟩
  · cases f <;> exact ⟨rfl, rfl, rfl, rfl, rfl, rfl, rfl⟩
  · show (s.lines.map fun l => InputLine.reset l.settled)[l] = _
    simp

/-- A face with no rebuild, no check in flight and no frame. -/
def FaceQuiet (s : State) (f : Face) : Prop :=
  (s.faces.get f).rebuild = .idle ∧ (s.panels.get f).check = .none ∧ (s.panels.get f).frame = none

theorem writeParam_panel (s : State) (q : Param) (value : List Byte) (f : Face) :
    ((s.writeParam q value).panels.get f).check = (s.panels.get f).check ∧
      ((s.writeParam q value).panels.get f).frame = (s.panels.get f).frame := by
  have set : ∀ (k : Face) (g : Panel → Panel), (∀ p, (g p).check = p.check ∧ (g p).frame = p.frame) →
      ((s.modPanel k g).panels.get f).check = (s.panels.get f).check ∧
        ((s.modPanel k g).panels.get f).frame = (s.panels.get f).frame := by
    intro k g hg
    rw [State.modPanel_panels, PerFace.get_set]
    split
    · rename_i hf; rw [hf]; exact hg _
    · exact ⟨rfl, rfl⟩
  cases q
  case cap k => exact set k _ fun _ => ⟨rfl, rfl⟩
  case trim k m => exact set k _ fun _ => ⟨rfl, rfl⟩
  case line l =>
    unfold State.writeParam
    dsimp only
    split <;> exact ⟨rfl, rfl⟩
  all_goals exact ⟨rfl, rfl⟩

theorem FaceQuiet.writeParams {f : Face} (values : List (Param × List Byte)) (h : FaceQuiet s f) :
    FaceQuiet (s.writeParams values) f := by
  unfold State.writeParams
  induction values generalizing s with
  | nil => exact h
  | cons x rest ih =>
    refine ih ?_
    obtain ⟨rebuild, check, frame⟩ := h
    obtain ⟨hcheck, hframe⟩ := writeParam_panel s x.1 x.2 f
    exact ⟨by rw [(writeParam_only s x.1 x.2).faces]; exact rebuild, hcheck.trans check, hframe.trans frame⟩

theorem start_quiet (d : Nat) (p : Panel) : (p.start d).check = p.check ∧ (p.start d).frame = p.frame := by
  unfold Panel.start
  split <;> exact ⟨rfl, rfl⟩

theorem FaceQuiet.modFace {f k : Face} {g : Composer → Composer} (h : FaceQuiet s f) (hg : ∀ c, (g c).rebuild = c.rebuild) :
    FaceQuiet (s.modFace k g) f := by
  refine ⟨?_, h.2⟩
  rw [State.modFace_faces, PerFace.get_set]
  split
  · rename_i hf; rw [hg, ← hf]; exact h.1
  · exact h.1

theorem FaceQuiet.modPanel {f k : Face} {g : Panel → Panel} (h : FaceQuiet s f)
    (hg : ∀ p, (g p).check = p.check ∧ (g p).frame = p.frame) : FaceQuiet (s.modPanel k g) f := by
  refine ⟨h.1, ?_⟩
  rw [State.modPanel_panels, PerFace.get_set]
  split
  · rename_i hf
    obtain ⟨check, frame⟩ := hg (s.panels.get k)
    rw [check, frame, ← hf]; exact h.2
  · exact h.2

theorem FaceQuiet.wakeUpFace {f : Face} (h : FaceQuiet s f) (k : Face) : FaceQuiet (s.wakeUpFace k) f := by
  unfold State.wakeUpFace State.recomputeDuties
  dsimp only
  refine FaceQuiet.modPanel ?_ ?_
  · split
    · exact h.modFace fun _ => rfl
    · refine FaceQuiet.modPanel (FaceQuiet.modFace h ?_) (start_quiet _)
      exact fun _ => rfl
  · exact fun _ => ⟨rfl, rfl⟩

theorem wakeUp_anew (s : State) (f : Face) : DutiesAnew (s.wakeUpFace f) f := recompute_anew _ f

/-- R120, R144, R182: a load that ends LOADING works out the states, and starts the outputs of the faces that are not
DARK. -/
theorem FacesSound.applySettings (h : FacesSound s) (hload : s.loader.phase = .loading) {st : Settings} (hst : st.InRange) :
    FacesSound (s.applySettings st) := by
  obtain ⟨_, hready, hfaces, _⟩ := apply_spec s st hst.all hst.params
  have ready : (s.applySettings st).loader.phase ≠ .loading := by rw [hready]; simp
  set u := (s.takeSettings st).writeParams st.params with hu
  have ended : OnlyIn [.loader] ((u.wakeUpFace .a).wakeUpFace .b) (s.applySettings st) := setLoader_only _ _
  have quiet : ∀ f, FaceQuiet (s.applySettings st) f := by
    intro f
    obtain ⟨_, _, rebuild, off⟩ := (h.firm f).loading hload
    obtain ⟨check, frame⟩ := (h.firm f).off off
    have taken : FaceQuiet (s.takeSettings st) f := by
      cases f <;> exact ⟨rebuild, check, frame⟩
    have written : FaceQuiet u f := taken.writeParams st.params
    have last : FaceQuiet ((u.wakeUpFace .a).wakeUpFace .b) f := (written.wakeUpFace .a).wakeUpFace .b
    unfold FaceQuiet
    rw [ended.faces, ended.panels]
    exact last
  have duties : ∀ f, DutiesAnew (s.applySettings st) f := by
    intro f
    have last : DutiesAnew ((u.wakeUpFace .a).wakeUpFace .b) f := by
      cases f
      · obtain ⟨_, hother, _⟩ := wakeUp_spec (u.wakeUpFace .a) .b
        obtain ⟨hface, hpanel⟩ := hother .a (by decide)
        have hamb := (wakeUpFace_only (u.wakeUpFace .a) .b).ambient
        exact (wakeUp_anew u .a).like (by rw [hface]) (by rw [hpanel]; exact .refl _) (by rw [hamb]; exact ⟨rfl, rfl⟩)
      · exact wakeUp_anew _ .b
    exact last.like (by rw [ended.faces]) (by rw [ended.panels]; exact .refl _) (by rw [ended.ambient]; exact ⟨rfl, rfl⟩)
  refine ⟨⟨fun f => ?_, fun hl => absurd hl ready⟩, fun f => (hfaces f).1⟩
  obtain ⟨rebuild, check, frame⟩ := quiet f
  have out := (hfaces f).2.2 ((h.firm f).loading hload).2.2.2
  refine ⟨fun hd => ⟨rebuild, by rw [out, if_pos hd]⟩, fun _ hd => by rw [out, if_neg hd]; decide,
    fun hl => absurd hl ready, fun _ => ⟨check, frame⟩, duties f⟩

/-! ## Every step -/

/-- R167: a request is taken outside LOADING alone. -/
theorem serve_keeps_ready {I : State → Prop} (w : FaceWork I) {p : Port} {kind tag : Byte}
    {take : State → State × Reply} (h : ∀ u, u.loader.phase ≠ .loading → I u → I (take u).1) (hi : I s) :
    I (s.serve p kind tag take) := by
  unfold State.serve State.serveWith
  split
  · dsimp only
    split
    · exact w.sendReply _ _ _ _ (w.acceptFrame p hi)
    · rename_i hr
      exact w.sendReply _ _ _ _ (h _ hr (w.acceptFrame p hi))
  · exact hi

theorem FacesSound.step (h : FacesSound s) (hstep : Machine.step s = .next t) : FacesSound t := by
  refine soundWork.step (fun s h => h.idle) (fun c s t hc h hnext => ?_) h hstep
  cases c
  all_goals dsimp only [ownWork] at hc
  case reset => cases hnext; exact .resetTo _
  case boardRestart p tag fields =>
    cases hnext
    exact serveRestart_keeps (fun _ _ hu => soundWork.acceptFrame _ hu) (fun _ _ _ _ _ hu => soundWork.sendReply _ _ _ _ hu)
      (fun _ p frame _ => .restart p frame) h
  case settingsReadComplete acknowledged =>
    revert hnext
    show execSettingsReadComplete acknowledged s = _ → _
    unfold execSettingsReadComplete
    split <;> intro hnext <;> cases hnext
    · exact h
    · exact h
    · rename_i hload
      have ho := raiseLoad_only s (loadOutcome acknowledged s.mem).fault
      exact (h.only ho).applySettings (by rw [ho.loader]; exact hload) (applied_inRange _ _)
  case putPlace p tag fields =>
    cases hnext
    refine soundWork.serve (fun u hu => withOperands_keeps hu fun q _ => withRights_keeps hu fun _ => ?_) h
    exact soundWork.markBoth (hu.only (setPlace_only _ _ _))
  case withdrawPlace p tag fields =>
    cases hnext
    refine soundWork.serve (fun u hu => withOperands_keeps hu fun n _ => withRights_keeps hu fun _ => ?_) h
    split
    · exact hu
    · exact soundWork.markBoth (hu.only (setPlace_only _ _ _))
  case writeZone p tag fields =>
    cases hnext
    exact soundWork.serve (fun u hu => hu.only (takeWriteZone_only p fields u)) h
  case setFace p tag fields =>
    cases hnext
    exact serve_keeps_ready soundWork (fun u hr hu => withOperands_keeps hu fun q _ => withRights_keeps hu fun _ =>
      hu.setFaceSettings hr q.1 q.2) h
  case setParameter p tag fields =>
    cases hnext
    exact serve_keeps_ready soundWork (fun u hr hu => withOperands_keeps hu fun q _ => withRights_keeps hu fun _ =>
      hu.setParameter hr q.1 q.2) h
  case storeSettings p tag fields =>
    cases hnext
    show FacesSound (s.serveStore p tag fields)
    unfold State.serveStore State.serveWith
    split
    · have accepted := soundWork.acceptFrame p h
      dsimp only
      split
      · exact soundWork.sendReply _ _ _ _ accepted
      · rename_i hr
        have started : FacesSound (takeStoreSettings p tag fields (s.acceptFrame p)).1 := by
          unfold takeStoreSettings
          split
          · exact accepted
          · split
            · exact accepted
            · split
              · exact accepted
              · exact accepted.setLoader hr (by simp)
        unfold State.sendReply?
        split
        · exact soundWork.sendReply _ _ _ _ started
        · exact started
    · exact h
  case storeComplete outcome =>
    revert hnext
    show execStoreComplete outcome s = _ → _
    unfold execStoreComplete
    split
    · rename_i job hstoring _
      have hr : s.loader.phase ≠ .loading := by rw [hstoring]; decide
      have ended : ∀ {u : State} (image : List Byte), FacesSound u → u.loader.phase ≠ .loading →
          FacesSound (u.endStore image) := fun {u} image hu hur => by
        have mem : OnlyIn [.mem] u { u with mem := u.mem.writeBlock 0 image } := by
          intro q hq; cases q <;> first | rfl | exact absurd (by decide) hq
        exact (hu.only mem).setLoader (l := ⟨.ready, none⟩) hur (by decide)
      have free : OnlyIn [.free] s { s with free := s.free + 1 } := by
        intro q hq; cases q <;> first | rfl | exact absurd (by decide) hq
      have failed : FacesSound s.failStore :=
        (ended (freeImage s.free) (h.only free) hr).only (raise_only _ _ _)
      split <;> intro hnext <;> cases hnext
      · exact soundWork.sendReply _ _ _ _ (ended job.image h hr)
      · exact soundWork.sendReply _ _ _ _ failed
      · exact soundWork.sendReply _ _ _ _ failed
    · intro hnext; cases hnext; exact h
  case timerExpiry i => cases hnext; exact ite_keeps ((h.only (modTimer_only s i _)).handExpiry i) h
  case conversionCompletion reading =>
    revert hnext
    show execConversionCompletion reading s = _ → _
    unfold execConversionCompletion
    split <;> intro hnext <;> cases hnext
    · split
      · rename_i hlevel
        exact h.like rfl rfl (fun _ => ⟨rfl, rfl, rfl⟩) (fun _ => rfl) (fun _ => .refl _) ⟨hlevel, rfl⟩
      · exact h.setAmbient _
    · exact h
  case plan f =>
    cases hnext
    split
    · rename_i hdue; exact h.takePlan hdue
    · exact h
  case paintCompletion f n => cases hnext; exact ite_keeps (h.painterNext.takeCompletion f n) h
  case frameBoundary f e0 e1 e2 e3 => cases hnext; exact h.frameBoundary f _
  case panelStartupDelayExpiry f =>
    cases hnext
    split
    · rename_i hout; exact h.startDriving hout
    · exact h
  case changeCounts l => cases hnext; exact h.countChange l
  case pinSample l level =>
    cases hnext
    exact ite_keeps (h.setPending l fun _ => 0) (ite_keeps (h.setPending l fun x => x.pending + 1) (h.countChange l))
  all_goals exact absurd hc (by decide)

end

/-- Settles O57: sound faces are firm faces at the state that R97 gives, and a step keeps those. -/
theorem facesStaySound : Obligations.FacesStaySound := by
  intro s t hfaces hlines hstep
  exact (facesSound_iff t).mp (FacesSound.step ((facesSound_iff s).mpr ⟨hfaces, hlines⟩) hstep)

end Sys2Proof.Machine
end

section
/-! PROOFS. The painter and the rebuilds stay in agreement (R115, R117, R137). -/

namespace Sys2Proof.Machine

/-! ## The painter's own work -/

/-- R137: the plans that the painter holds once those of a face are dropped. -/
def Painter.without (f : Face) (p : Painter) : Painter :=
  let waiting := p.waiting.filter fun j => j.face ≠ f
  match p.current with
  | some j => if j.face = f then ⟨waiting, none⟩ else ⟨some j, waiting⟩
  | none => ⟨none, waiting⟩

theorem dropJobs_painter (s : State) (f : Face) : (s.dropJobs f).painter = s.painter.without f := by
  unfold State.dropJobs Painter.without
  dsimp only
  cases s.painter.current with
  | none => rfl
  | some j =>
    dsimp only
    split
    · rw [painterNext_painter]
    · rfl

/-- R117: the painter when its plan ends, the waiting one begun. -/
def Painter.next (p : Painter) : Painter := ⟨p.waiting, none⟩

/-- R137: the painter once a plan is handed to it. -/
def Painter.handed (j : Job) (p : Painter) : Painter :=
  match p.current with
  | none => ⟨some j, p.waiting⟩
  | some _ => ⟨p.current, some j⟩

/-- R137: the plans that the painter holds: one waits only beside one being painted, of the other face. -/
structure Painter.Sound (p : Painter) : Prop where
  waits : p.current = none → p.waiting = none
  apart : ∀ j k, p.current = some j → p.waiting = some k → j.face ≠ k.face

/-- The painter holds a plan, painted or waiting. -/
def Painter.Holds (p : Painter) (j : Job) : Prop := p.current = some j ∨ p.waiting = some j

theorem Painter.holds_without {p : Painter} (h : p.Sound) (f : Face) (j : Job) :
    (p.without f).Holds j ↔ p.Holds j ∧ j.face ≠ f := by
  obtain ⟨current, waiting⟩ := p
  obtain ⟨waits, apart⟩ := h
  unfold Painter.without Painter.Holds
  dsimp only at waits apart ⊢
  cases current with
  | none => rw [waits rfl]; simp
  | some c =>
    by_cases hc : c.face = f
    · simp only [hc, if_true, Option.filter_eq_some_iff, reduceCtorEq, or_false, Option.some.injEq]
      constructor
      · rintro ⟨hw, hj⟩; exact ⟨.inr hw, by simpa using hj⟩
      · rintro ⟨rfl | hw, hj⟩
        · exact absurd hc hj
        · exact ⟨hw, by simpa using hj⟩
    · simp only [hc, if_false, Option.filter_eq_some_iff, Option.some.injEq]
      constructor
      · rintro (rfl | ⟨hw, hj⟩)
        · exact ⟨.inl rfl, hc⟩
        · exact ⟨.inr hw, by simpa using hj⟩
      · rintro ⟨rfl | hw, hj⟩
        · exact .inl rfl
        · exact .inr ⟨hw, by simpa using hj⟩

theorem Painter.Sound.without {p : Painter} (h : p.Sound) (f : Face) : (p.without f).Sound := by
  obtain ⟨current, waiting⟩ := p
  obtain ⟨waits, apart⟩ := h
  dsimp only at waits apart
  unfold Painter.without
  dsimp only
  cases current with
  | none => rw [waits rfl]; exact ⟨fun _ => rfl, fun j k hj _ => by cases hj⟩
  | some c =>
    by_cases hc : c.face = f
    · simp only [hc, if_true]
      exact ⟨fun _ => rfl, fun j k _ hk => by cases hk⟩
    · simp only [hc, if_false]
      refine ⟨fun hn => (by cases hn), fun j k hj hk => ?_⟩
      exact apart j k hj (Option.filter_eq_some_iff.mp hk).1

theorem Painter.Sound.next {p : Painter} (_h : p.Sound) : p.next.Sound := ⟨fun _ => rfl, fun _ _ _ hk => by cases hk⟩

theorem Painter.holds_next {p : Painter} {j k : Job} (h : p.Sound) (hc : p.current = some j) (hk : p.next.Holds k) :
    p.Holds k ∧ k.face ≠ j.face := by
  rcases hk with hk | hk
  · exact ⟨.inr hk, fun he => h.apart j k hc hk he.symm⟩
  · cases hk

theorem Painter.Sound.handed {p : Painter} (h : p.Sound) {j : Job} (hj : ∀ k, p.Holds k → k.face ≠ j.face) :
    (p.handed j).Sound ∧ ∀ k, (p.handed j).Holds k ↔ k = j ∨ p.Holds k := by
  obtain ⟨current, waiting⟩ := p
  obtain ⟨waits, apart⟩ := h
  dsimp only at waits apart
  unfold Painter.Holds at hj ⊢
  unfold Painter.handed
  dsimp only at hj ⊢
  cases current with
  | none =>
    rw [waits rfl]
    refine ⟨⟨fun hn => (by cases hn), fun _ _ _ hk => by cases hk⟩, fun k => ?_⟩
    simp [eq_comm]
  | some c =>
    have free : waiting = none := by
      cases hw : waiting with
      | none => rfl
      | some w =>
        have hcj := hj c (.inl rfl)
        have hwj := hj w (.inr hw)
        have hcw := apart c w rfl hw
        revert hcj hwj hcw
        cases c.face <;> cases w.face <;> cases j.face <;> simp
    refine ⟨⟨fun hn => (by cases hn), fun a b ha hb => ?_⟩, fun k => ?_⟩
    · cases ha; cases hb; exact hj c (.inl rfl)
    · rw [free]
      simp [eq_comm, or_comm]

/-! ## Agreement with the rebuilds -/

/-- R115, R117, R137: the plan in hand of each face, and the plans that the painter holds. -/
structure Agrees (s : State) : Prop where
  inHand : ∀ f, (s.faces.get f).inHand.isSome = true ↔ (s.faces.get f).rebuild ≠ .idle
  held : ∀ f plan, (s.faces.get f).rebuild = .painting → (s.faces.get f).inHand = some plan →
    s.painter.Holds ⟨f, plan.serial⟩
  jobs : ∀ j, s.painter.Holds j → (s.faces.get j.face).rebuild = .painting ∧
    ∃ plan, (s.faces.get j.face).inHand = some plan ∧ plan.serial = j.serial
  painter : s.painter.Sound

theorem agrees_iff (s : State) : Agrees s ↔ PainterSound s :=
  ⟨fun h => ⟨h.inHand, h.held, h.jobs, h.painter.waits, h.painter.apart⟩,
    fun h => ⟨h.inHand, h.held, h.jobs, h.waits, h.apart⟩⟩

section
variable {s t : State}

/-- What the agreement looks at of a composer. -/
def RebuildLike (c d : Composer) : Prop := d.rebuild = c.rebuild ∧ d.inHand = c.inHand

theorem Agrees.like (h : Agrees s) (hp : t.painter = s.painter) (hc : ∀ f, RebuildLike (s.faces.get f) (t.faces.get f)) :
    Agrees t := by
  refine ⟨fun f => ?_, fun f plan hr hi => ?_, fun j hj => ?_, by rw [hp]; exact h.painter⟩
  · rw [(hc f).1, (hc f).2]; exact h.inHand f
  · rw [(hc f).1] at hr
    rw [(hc f).2] at hi
    rw [hp]; exact h.held f plan hr hi
  · rw [hp] at hj
    rw [(hc j.face).1, (hc j.face).2]; exact h.jobs j hj

theorem Agrees.only (h : Agrees s) {ps : List Part} (ho : OnlyIn ps s t)
    (hps : ∀ q ∈ [Part.faces, .painter], q ∉ ps := by decide) : Agrees t := by
  have faces : t.faces = s.faces := ho .faces (hps _ (by decide))
  exact h.like (ho .painter (hps _ (by decide))) fun f => by rw [faces]; exact ⟨rfl, rfl⟩

theorem Agrees.modFace (h : Agrees s) {f : Face} {g : Composer → Composer} (hg : ∀ c, RebuildLike c (g c)) :
    Agrees (s.modFace f g) := by
  refine h.like rfl fun k => ?_
  rw [State.modFace_faces, PerFace.get_set]
  split
  · rename_i hk; rw [hk]; exact hg _
  · exact ⟨rfl, rfl⟩

theorem Agrees.modPanel (h : Agrees s) (f : Face) (g : Panel → Panel) : Agrees (s.modPanel f g) := h.only (modPanel_only s f g)

theorem Agrees.recomputeDuties (h : Agrees s) (f : Face) : Agrees (s.recomputeDuties f) := h.only (recomputeDuties_only s f)

/-- R100: a rebuild given up takes its plan from the painter. -/
theorem Agrees.abandonRebuild (h : Agrees s) (f : Face) : Agrees (s.abandonRebuild f) := by
  have own : ((s.abandonRebuild f).faces.get f).rebuild = .idle ∧ ((s.abandonRebuild f).faces.get f).inHand = none := by
    unfold State.abandonRebuild
    rw [(dropJobs_only _ f).faces, State.modFace_faces, PerFace.get_set_same]
    exact ⟨rfl, rfl⟩
  have other : ∀ g, g ≠ f → (s.abandonRebuild f).faces.get g = s.faces.get g := fun g hg => by
    unfold State.abandonRebuild
    rw [(dropJobs_only _ f).faces, State.modFace_faces, PerFace.get_set_other _ _ hg]
  have painter : (s.abandonRebuild f).painter = s.painter.without f := dropJobs_painter _ f
  refine ⟨fun g => ?_, fun g plan hr hi => ?_, fun j hj => ?_, by rw [painter]; exact h.painter.without f⟩
  · by_cases hg : g = f
    · rw [hg, own.1, own.2]; simp
    · rw [other g hg]; exact h.inHand g
  · have hg : g ≠ f := fun he => by rw [he, own.1] at hr; cases hr
    rw [other g hg] at hr hi
    rw [painter, Painter.holds_without h.painter]
    exact ⟨h.held g plan hr hi, hg⟩
  · rw [painter, Painter.holds_without h.painter] at hj
    obtain ⟨hold, hjf⟩ := hj
    rw [other _ hjf]
    exact h.jobs j hold

theorem Agrees.settle (h : Agrees s) (f : Face) : Agrees (s.settle f) := by
  have hstate : Agrees (s.modFace f fun c => { c with state := s.effState f }) := h.modFace fun _ => ⟨rfl, rfl⟩
  unfold State.settle
  dsimp only
  split
  · exact h
  · refine Agrees.recomputeDuties ?_ f
    unfold State.stateEffects
    split
    · exact (hstate.abandonRebuild f).modPanel _ _
    · refine Agrees.modPanel (Agrees.modFace hstate ?_) _ _
      exact fun _ => ⟨rfl, rfl⟩
    · exact hstate.modFace fun _ => ⟨rfl, rfl⟩
    · exact hstate.modFace fun _ => ⟨rfl, rfl⟩
    · exact hstate

theorem agreesWork : SettleWork Agrees where
  away ho h := h.only ho
  port p _ _ h := h.only (modPort_only _ p _)
  mark f g hg h := h.modFace fun c => by obtain ⟨n, d, hc⟩ := hg c; rw [hc]; exact ⟨rfl, rfl⟩
  settle f h := h.settle f

/-! ## Plans -/

/-- R115: a face without a rebuild takes a plan, which goes to the painter. -/
theorem Agrees.takePlan (h : Agrees s) {f : Face} (hdue : s.planDue f = true) : Agrees (s.takePlan f) := by
  obtain ⟨idle, _⟩ := (planDue_iff s f).mp hdue
  obtain ⟨plan, hown, _, _, _, _, _, _, _, hother, hpainter, _⟩ := takePlan_spec s f
  have rebuild : ((s.takePlan f).faces.get f).rebuild = .painting := by rw [hown]
  have inHand : ((s.takePlan f).faces.get f).inHand = some plan := by rw [hown]
  have painter : (s.takePlan f).painter = s.painter.handed ⟨f, plan.serial⟩ := by
    rw [hpainter]; rfl
  have free : ∀ k, s.painter.Holds k → k.face ≠ f := fun k hk he => by
    have := (h.jobs k hk).1
    rw [he, idle] at this
    cases this
  obtain ⟨sound, holds⟩ := h.painter.handed (j := ⟨f, plan.serial⟩) free
  refine ⟨fun g => ?_, fun g p hr hi => ?_, fun j hj => ?_, by rw [painter]; exact sound⟩
  · by_cases hg : g = f
    · rw [hg, rebuild, inHand]; simp
    · rw [hother g hg]; exact h.inHand g
  · rw [painter, holds]
    by_cases hg : g = f
    · rw [hg, inHand] at hi
      cases hi
      exact .inl (by rw [hg])
    · rw [hother g hg] at hr hi
      exact .inr (h.held g p hr hi)
  · rw [painter, holds] at hj
    rcases hj with rfl | hj
    · exact ⟨rebuild, plan, inHand, rfl⟩
    · rw [hother _ (free j hj)]; exact h.jobs j hj

/-- R117: the plan painted is in hand; it waits for its swap, and the painter goes on. -/
theorem Agrees.complete (h : Agrees s) {f : Face} {n : Nat} (hc : s.painter.current = some ⟨f, n⟩) :
    Agrees (s.painterNext.takeCompletion f n) := by
  obtain ⟨hpainting, plan, hplan, hserial⟩ := h.jobs ⟨f, n⟩ (.inl hc)
  dsimp only at hpainting hplan hserial
  have next : s.painterNext.faces = s.faces := painterNext_faces s
  have taken := takeCompletion_taken (s := s.painterNext) (f := f) (plan := plan) (by rw [next]; exact hpainting)
    (by rw [next]; exact hplan)
  rw [hserial] at taken
  have faces : (s.painterNext.takeCompletion f n).faces
      = s.faces.set f { s.faces.get f with rebuild := .swapPending } := by
    rw [taken, (raiseAll_only _ _ _).faces, State.modFace_faces, State.modPanel_faces, next]
  have painter : (s.painterNext.takeCompletion f n).painter = s.painter.next := by
    rw [taken, (raiseAll_only _ _ _).painter, State.modFace_painter, State.modPanel_painter, painterNext_painter]; rfl
  have own : (s.painterNext.takeCompletion f n).faces.get f = { s.faces.get f with rebuild := .swapPending } := by
    rw [faces, PerFace.get_set_same]
  have other : ∀ g, g ≠ f → (s.painterNext.takeCompletion f n).faces.get g = s.faces.get g := fun g hg => by
    rw [faces, PerFace.get_set_other _ _ hg]
  refine ⟨fun g => ?_, fun g p hr hi => ?_, fun j hj => ?_, by rw [painter]; exact h.painter.next⟩
  · by_cases hg : g = f
    · rw [hg, own]; simp [hplan]
    · rw [other g hg]; exact h.inHand g
  · have hg : g ≠ f := fun he => by rw [he, own] at hr; cases hr
    rw [other g hg] at hr hi
    rw [painter]
    rcases h.held g p hr hi with hcur | hwait
    · rw [hc] at hcur; cases hcur; exact absurd rfl hg
    · exact .inl hwait
  · rw [painter] at hj
    obtain ⟨hold, hjf⟩ := Painter.holds_next h.painter hc hj
    rw [other _ hjf]; exact h.jobs j hold

theorem Agrees.swap (h : Agrees s) (f : Face) : Agrees (s.swap f) := by
  unfold State.swap
  split
  · rename_i plan hpending _
    have swapped : Agrees (s.swapBuffers f plan) := by
      have own : ((s.swapBuffers f plan).faces.get f).rebuild = .idle ∧ ((s.swapBuffers f plan).faces.get f).inHand = none := by
        unfold State.swapBuffers
        rw [State.modFace_faces, PerFace.get_set_same]
        exact ⟨rfl, rfl⟩
      have other : ∀ g, g ≠ f → (s.swapBuffers f plan).faces.get g = s.faces.get g := fun g hg => by
        unfold State.swapBuffers
        rw [State.modFace_faces, PerFace.get_set_other _ _ hg, State.modPanel_faces]
      refine ⟨fun g => ?_, fun g p hr hi => ?_, fun j hj => ?_, h.painter⟩
      · by_cases hg : g = f
        · rw [hg, own.1, own.2]; simp
        · rw [other g hg]; exact h.inHand g
      · have hg : g ≠ f := fun he => by rw [he, own.1] at hr; cases hr
        rw [other g hg] at hr hi
        exact h.held g p hr hi
      · have hold := h.jobs j hj
        have hjf : j.face ≠ f := fun he => by rw [he, hpending] at hold; cases hold.1
        rw [other _ hjf]; exact hold
    exact ite_keeps swapped (swapped.only (signalAll_only _ _))
  · exact h

/-! ## The other work on the faces -/

theorem Agrees.rotateStep (h : Agrees s) (f : Face) : Agrees (s.rotateStep f) := by
  unfold State.rotateStep
  dsimp only
  split
  · split
    all_goals
      refine Agrees.modFace h ?_
      exact fun _ => ⟨rfl, rfl⟩
  · exact h

theorem stepTickers_rebuild (hold : Nat) (c : Composer) : RebuildLike c (c.stepTickers hold) := by
  unfold Composer.stepTickers; split <;> exact ⟨rfl, rfl⟩

theorem rotateBottom_rebuild (list : List BottomEntry) (c : Composer) : RebuildLike c (c.rotateBottom list) := by
  unfold Composer.rotateBottom; split <;> exact ⟨rfl, rfl⟩

theorem flashToggle_rebuild (c : Composer) : RebuildLike c c.flashToggle := by
  unfold Composer.flashToggle; split <;> exact ⟨rfl, rfl⟩

theorem setSettings_rebuild (new : FaceSettings) (c : Composer) : RebuildLike c (c.setSettings new) := by
  unfold Composer.setSettings; dsimp only; split <;> exact ⟨rfl, rfl⟩

theorem Agrees.handExpiry (h : Agrees s) (i : Fin 6) : Agrees (s.handExpiry i) := by
  have flash : OnlyIn [.flashOn] s { s with flashOn := !s.flashOn } := by
    intro q hq; cases q <;> first | rfl | exact absurd (by decide) hq
  have ambient : OnlyIn [.ambient] s s.sampleAmbient := by
    intro q hq; cases q <;> first | rfl | exact absurd (by decide) hq
  unfold State.handExpiry
  split
  · exact h.modFace (stepTickers_rebuild _)
  · exact h.modFace (stepTickers_rebuild _)
  · exact eachFace_keeps (fun f _ hu => hu.rotateStep f) h
  · exact eachFace_keeps (fun f u hu => hu.modFace (rotateBottom_rebuild _)) h
  · exact eachFace_keeps (fun f u hu => hu.modFace flashToggle_rebuild) (h.only flash)
  · exact h.only ambient

theorem Agrees.setFaceSettings (h : Agrees s) (f : Face) (c : FaceSettings) : Agrees (s.setFaceSettings f c) :=
  agreesWork.dirty f ((agreesWork.departureWake f (h.modFace (setSettings_rebuild c))).settle f)

theorem Agrees.wakeUpFace (h : Agrees s) (f : Face) : Agrees (s.wakeUpFace f) := by
  unfold State.wakeUpFace
  dsimp only
  refine Agrees.recomputeDuties ?_ f
  split
  · exact h.modFace fun _ => ⟨rfl, rfl⟩
  · refine Agrees.modPanel (Agrees.modFace h ?_) _ _
    exact fun _ => ⟨rfl, rfl⟩

theorem Agrees.applySettings (h : Agrees s) (st : Settings) : Agrees (s.applySettings st) := by
  have held : OnlyIn [.zones, .places] s { s with zones := st.zones, places := st.places } := by
    intro q hq; cases q <;> first | rfl | exact absurd (by decide) hq
  have taken : Agrees (s.takeSettings st) := by
    unfold State.takeSettings
    dsimp only
    refine eachFace_keeps (fun f u hu => ?_) (h.only held)
    exact hu.modFace fun _ => ⟨rfl, rfl⟩
  have written := taken.only (writeParams_only _ st.params)
  have woken : Agrees (((s.takeSettings st).writeParams st.params).eachFace fun f t => t.wakeUpFace f) :=
    eachFace_keeps (fun f _ hu => hu.wakeUpFace f) written
  exact woken.only (ps := [.loader]) (setLoader_only _ _)

/-- R120, R137: nothing in hand and nothing at the painter. -/
theorem Agrees.empty (hp : t.painter = ⟨none, none⟩)
    (hf : ∀ f, (t.faces.get f).rebuild = .idle ∧ (t.faces.get f).inHand = none) : Agrees t := by
  refine ⟨fun f => ?_, fun f plan hr _ => ?_, fun j hj => ?_, ?_⟩
  · rw [(hf f).1, (hf f).2]; simp
  · rw [(hf f).1] at hr; cases hr
  · rw [hp] at hj; rcases hj with hj | hj <;> cases hj
  · rw [hp]; exact ⟨fun _ => rfl, fun _ _ hj _ => by cases hj⟩

/-! ## Every step -/

theorem Agrees.step (h : Agrees s) (hstep : Machine.step s = .next t) : Agrees t := by
  have work := agreesWork.faceWork
  refine work.step (fun s h => h.only (idle_only s)) (fun c s t hc h hnext => ?_) h hstep
  cases c
  all_goals dsimp only [ownWork] at hc
  case reset => cases hnext; exact .empty rfl fun f => by cases f <;> exact ⟨rfl, rfl⟩
  case boardRestart p tag fields =>
    cases hnext
    exact serveRestart_keeps (fun _ _ hu => work.acceptFrame _ hu) (fun _ _ _ _ _ hu => work.sendReply _ _ _ _ hu)
      (fun _ _ _ _ => .empty rfl fun f => by cases f <;> exact ⟨rfl, rfl⟩) h
  case settingsReadComplete acknowledged =>
    revert hnext
    show execSettingsReadComplete acknowledged s = _ → _
    unfold execSettingsReadComplete
    split <;> intro hnext <;> cases hnext
    · exact h
    · exact h
    · exact (h.only (raiseLoad_only _ _)).applySettings _
  case putPlace p tag fields =>
    cases hnext
    refine work.serve (fun u hu => withOperands_keeps hu fun q _ => withRights_keeps hu fun _ => ?_) h
    exact work.markBoth (hu.only (setPlace_only _ _ _))
  case withdrawPlace p tag fields =>
    cases hnext
    refine work.serve (fun u hu => withOperands_keeps hu fun n _ => withRights_keeps hu fun _ => ?_) h
    split
    · exact hu
    · exact work.markBoth (hu.only (setPlace_only _ _ _))
  case writeZone p tag fields => cases hnext; exact work.serve (fun u hu => hu.only (takeWriteZone_only p fields u)) h
  case setFace p tag fields =>
    cases hnext
    exact work.serve (fun u hu => withOperands_keeps hu fun q _ => withRights_keeps hu fun _ => hu.setFaceSettings q.1 q.2) h
  case setParameter p tag fields =>
    cases hnext
    refine work.serve (fun u hu => withOperands_keeps hu fun q _ => withRights_keeps hu fun _ => ?_) h
    exact agreesWork.paramEffects (fun _ f hv => hv.recomputeDuties f) _ _ (hu.only (writeParam_only u q.1 q.2))
  case storeSettings p tag fields =>
    cases hnext
    refine serveWith_keeps (fun _ _ hu => work.acceptFrame _ hu) (fun _ _ _ _ _ hu => work.sendReply _ _ _ _ hu)
      (fun u _ hu => ?_) h
    have started := hu.only (takeStore_only p tag fields u)
    unfold State.sendReply?
    split
    · exact work.sendReply _ _ _ _ started
    · exact started
  case storeComplete outcome => exact h.only (exec_only hnext) (by dsimp only [partsOf]; decide)
  case timerExpiry i => cases hnext; exact ite_keeps ((h.only (modTimer_only s i _)).handExpiry i) h
  case conversionCompletion reading => exact h.only (exec_only hnext) (by dsimp only [partsOf]; decide)
  case plan f =>
    cases hnext
    split
    · rename_i hdue; exact h.takePlan hdue
    · exact h
  case paintCompletion f n =>
    cases hnext
    split
    · rename_i hc; exact h.complete hc
    · exact h
  case frameBoundary f e0 e1 e2 e3 =>
    cases hnext
    have swapped : Agrees ((s.chainCheck f #v[e0, e1, e2, e3]).swap f) := (h.only (chainCheck_only s f _)).swap f
    exact swapped.only (ps := [.panels]) (modPanel_only _ f _)
  case panelStartupDelayExpiry f => exact h.only (exec_only hnext) (by dsimp only [partsOf]; decide)
  case changeCounts l => cases hnext; exact agreesWork.handLineOn l _ (h.only (modLine_only s l _))
  case pinSample l level =>
    cases hnext
    have counted : Agrees (s.countChange l) := agreesWork.handLineOn l _ (h.only (modLine_only s l _))
    exact ite_keeps (h.only (modLine_only s l _)) (ite_keeps (h.only (modLine_only s l _)) counted)
  all_goals exact absurd hc (by decide)

end

/-- Settles O58: the painter holds the plans in hand of the faces that are PAINTING, and every step keeps it so. -/
theorem painterStaysSound : Obligations.PainterStaysSound := fun s t h hstep =>
  (agrees_iff t).mp (Agrees.step ((agrees_iff s).mpr h) hstep)

end Sys2Proof.Machine
end

section
/-! PROOFS. Every step keeps the ports and the loader sound (R165, R166, R169, R170, R184). -/

namespace Sys2Proof.Machine

/-- R165: a port's buffer fits its state. -/
structure BufferFits (port : LinkPort) : Prop where
  quiet : port.state ≠ .receive → port.len = none ∧ port.data = []
  noLen : port.len = none → port.data = []
  lenFits : ∀ n, port.len = some n → 2 ≤ n ∧ n ≤ 250 ∧ port.data.length < n + 2

/-- R169: the limit and the action in force are the parameters' values. -/
def LinkPort.inForce (port : LinkPort) : Prop := port.limitInForce = port.limit ∧ port.staleInForce = port.stale

/-- The ports and the loader are sound, where the port `served`, if any, is in EXECUTE with its request not yet
answered. -/
structure LinkFine (served : Option Port) (s : State) : Prop where
  buffer : ∀ p, BufferFits (s.ports.get p)
  executing : ∀ p, (s.ports.get p).state = .execute → served = some p ∨ ∃ j, s.loader.store = some j ∧ j.port = p
  silent : ∀ p, (s.ports.get p).silent = true → s.reservations.get p = none
  inForce : s.loader.phase ≠ .loading → ∀ p, (s.ports.get p).inForce
  running : s.loader.phase = .storing ↔ s.loader.store.isSome = true
  port : ∀ j, s.loader.store = some j → (s.ports.get j.port).state = .execute
  own : ∀ p, served = some p →
    (s.ports.get p).state = .execute ∧ ∀ j, s.loader.store = some j → j.port ≠ p

theorem linkFine_iff (s : State) : LinkFine none s ↔ (∀ p, PortSound s p) ∧ LoaderSound s := by
  constructor
  · intro h
    exact ⟨fun p => ⟨(h.buffer p).quiet, (h.buffer p).noLen, (h.buffer p).lenFits,
      fun he => (h.executing p he).resolve_left (by simp), h.silent p, fun hl => h.inForce hl p⟩, h.running, h.port⟩
  · rintro ⟨hp, hl⟩
    exact ⟨fun p => ⟨(hp p).quiet, (hp p).noLen, (hp p).lenFits⟩, fun p he => .inr ((hp p).executing he),
      fun p => (hp p).silent, fun h p => (hp p).inForce h, hl.running, hl.port, fun p h => by cases h⟩

section
variable {o : Option Port} {s t : State}

/-! ## Changes that leave the ports -/

theorem LinkFine.congr (h : LinkFine o s) (hp : t.ports = s.ports) (hl : t.loader = s.loader)
    (hr : ReservationsFewer s t) : LinkFine o t := by
  refine ⟨?_, ?_, fun p he => ?_, ?_, ?_, ?_, ?_⟩
  · rw [hp]; exact h.buffer
  · rw [hp, hl]; exact h.executing
  · rw [hp] at he; exact (hr p).elim id fun e => e.trans (h.silent p he)
  · rw [hp, hl]; exact h.inForce
  · rw [hl]; exact h.running
  · rw [hp, hl]; exact h.port
  · rw [hp, hl]; exact h.own

/-- The parts that the condition is about. -/
def linkParts : List Part := [.ports, .reservations, .loader]

theorem LinkFine.only {ps : List Part} (h : LinkFine o s) (ho : OnlyIn ps s t)
    (hps : ∀ q ∈ linkParts, q ∉ ps := by decide) : LinkFine o t :=
  h.congr (ho .ports (hps _ (by decide))) (ho .loader (hps _ (by decide)))
    (.of_eq (ho .reservations (hps _ (by decide))))

theorem LinkFine.loseReservations (h : LinkFine o s) (code : Nat) (origin : Origin) :
    LinkFine o (s.loseReservations code origin) :=
  have only := loseReservations_only s code origin
  h.congr only.ports only.loader (loseReservations_loses s code origin).fewer

theorem LinkFine.setReservation (h : LinkFine o s) (p : Port) (r : Option Nat)
    (hr : r = none ∨ (s.ports.get p).silent = false) : LinkFine o (s.setReservation p r) := by
  refine ⟨h.buffer, h.executing, fun q hq => ?_, h.inForce, h.running, h.port, h.own⟩
  rw [State.setReservation_reservations, PerPort.get_set]
  split
  · rename_i e
    subst e
    rcases hr with hr | hr
    · exact hr
    · rw [State.setReservation_ports, hr] at hq; cases hq
  · exact h.silent q hq

theorem LinkFine.changeRecord (h : LinkFine o s) (old new : Departure) (origin : Origin) :
    LinkFine o (s.changeRecord old new origin) :=
  ((h.only (putInPlace_only s _)).loseReservations _ _).only (touch_only _ _)

theorem LinkFine.takeOut (h : LinkFine o s) (r : Departure) (origin : Origin) : LinkFine o (s.takeOut r origin) :=
  have only := takeOut_only s r origin
  h.congr only.ports only.loader (takeOut_loses s r origin).fewer

theorem LinkFine.removeRecord (h : LinkFine o s) (r : Departure) (origin : Origin) : LinkFine o (s.removeRecord r origin) :=
  (h.takeOut r origin).only (touch_only _ _)

theorem LinkFine.takeOutAll (gone : List Departure) (h : LinkFine o s) : LinkFine o (s.takeOutAll gone) := by
  induction gone generalizing s with
  | nil => exact h
  | cons r rest ih => exact ih ((h.takeOut r .loc).only (markTouched_only _ _))

theorem LinkFine.insertDeparture (h : LinkFine o s) (r : Departure) : LinkFine o (s.insertDeparture r) := by
  refine LinkFine.only (LinkFine.only (ps := [.table, .freeStops]) h ?_) (touch_only _ _)
  intro q hq; cases q <;> first | rfl | exact absurd (by decide) hq

theorem LinkFine.replaceDeparture (h : LinkFine o s) (old new : Departure) (origin : Origin) :
    LinkFine o (s.replaceDeparture old new origin) := by
  refine LinkFine.only (LinkFine.loseReservations (LinkFine.only (ps := [.table, .freeStops]) h ?_) _ _) (touch_only _ _)
  intro q hq; cases q <;> first | rfl | exact absurd (by decide) hq

theorem LinkFine.amendRecord (h : LinkFine o s) (q : AmendRequest) (r : Departure) (p : Port) :
    LinkFine o (s.amendRecord q r p) := by
  have change : LinkFine o (if q.applied r = r then s else s.changeRecord r (q.applied r) (.port p)) :=
    ite_keeps h (h.changeRecord _ _ _)
  unfold State.amendRecord
  split
  · exact h.removeRecord _ _
  · exact change
  · exact change

theorem LinkFine.approach (h : LinkFine o s) (code : Nat) : LinkFine o (s.approach code) := by
  unfold State.approach
  split
  · exact ite_keeps h (h.changeRecord _ _ _)
  · exact h

theorem LinkFine.approachEdge (h : LinkFine o s) (sel : FaceSel) : LinkFine o (s.approachEdge sel) := by
  unfold State.approachEdge
  split
  · exact ite_keeps (h.approach _) ((h.approach _).approach _)
  · exact h.approach _
  · exact h.approach _
  · exact h

theorem LinkFine.handLineOn (h : LinkFine o s) (l : Fin 4) (before : InputLine) : LinkFine o (s.handLineOn l before) := by
  unfold State.handLineOn
  dsimp only
  split
  · exact h
  · exact ite_keeps h (h.only (settleSelected_only _ _))
  · exact ite_keeps h (h.only (settleSelected_only _ _))
  · exact ite_keeps (h.approachEdge _) h
  · exact ite_keeps (h.only (wakeEdge_only _ _)) h

theorem LinkFine.clock (h : LinkFine o s) (c : Clock) : LinkFine o { s with clock := c } := h.congr rfl rfl (.of_eq rfl)

theorem LinkFine.minuteEvent (h : LinkFine o s) (validBefore : Bool) : LinkFine o (s.minuteEvent validBefore) := by
  have hclose : LinkFine o (s.closeIfDue validBefore) := ite_keeps (h.takeOutAll _) h
  have hexpire : LinkFine o (s.closeIfDue validBefore).expireIfValid := ite_keeps (hclose.takeOutAll _) hclose
  exact ((hexpire.only (wakePart_only _)).only (markBoth_only _)).clock _

theorem LinkFine.second (h : LinkFine o s) : LinkFine o s.second := by
  have marked : LinkFine o (State.markClockLines (State.countNotices { s with clock := { s.clock.advance with divider := 0 } })) :=
    ((h.clock _).only (countNotices_only _)).only (markClockLines_only _)
  exact ite_keeps (marked.minuteEvent _) marked

theorem LinkFine.setClock (h : LinkFine o s) (hh mm ss : Nat) : LinkFine o (s.setClock hh mm ss) :=
  (h.clock _).minuteEvent _

/-! ## Changes of one port -/

/-- A change of a port that leaves it executing or not, LIVE or SILENT, and its settings, and whose buffer fits. -/
theorem LinkFine.modPort (h : LinkFine o s) (p : Port) {g : LinkPort → LinkPort}
    (hstate : (g (s.ports.get p)).state = .execute ↔ (s.ports.get p).state = .execute)
    (hbuffer : BufferFits (g (s.ports.get p))) (hsilent : (g (s.ports.get p)).silent = (s.ports.get p).silent)
    (hforce : (s.ports.get p).inForce → (g (s.ports.get p)).inForce) : LinkFine o (s.modPort p g) := by
  have state : ∀ q, ((s.modPort p g).ports.get q).state = .execute ↔ (s.ports.get q).state = .execute := fun q => by
    rw [State.modPort_ports, PerPort.get_set]
    split
    · rename_i e; rw [e]; exact hstate
    · rfl
  have silent : ∀ q, ((s.modPort p g).ports.get q).silent = (s.ports.get q).silent := fun q => by
    rw [State.modPort_ports, PerPort.get_set]
    split
    · rename_i e; rw [e]; exact hsilent
    · rfl
  refine ⟨fun q => ?_, fun q hq => h.executing q ((state q).mp hq), fun q hq => h.silent q (by rw [← silent q]; exact hq),
    fun hl q => ?_, h.running, fun j hj => (state _).mpr (h.port j hj), fun q hq => ?_⟩
  · rw [State.modPort_ports, PerPort.get_set]
    split
    · exact hbuffer
    · exact h.buffer q
  · rw [State.modPort_ports, PerPort.get_set]
    split
    · exact hforce (h.inForce hl p)
    · exact h.inForce hl q
  · obtain ⟨hexec, hother⟩ := h.own q hq
    exact ⟨(state q).mpr hexec, hother⟩

theorem bufferFits_empty {port : LinkPort} (hl : port.len = none) (hd : port.data = []) : BufferFits port :=
  ⟨fun _ => ⟨hl, hd⟩, fun _ => hd, fun n hn => by rw [hl] at hn; cases hn⟩

/-- R165: a frame that is coming in, short of its end. -/
theorem bufferFits_receiving {port : LinkPort} {n : Nat} (hr : port.state = .receive) (hn : port.len = some n) (hlow : 2 ≤ n)
    (hhigh : n ≤ 250) (hdata : port.data.length < n + 2) : BufferFits port := by
  refine ⟨fun hq => absurd hr hq, fun hl => ?_, fun m hm => ?_⟩
  · rw [hn] at hl; cases hl
  · rw [hn] at hm; cases hm; exact ⟨hlow, hhigh, hdata⟩

/-- R165: a port that is not in EXECUTE returns to HUNT. -/
theorem LinkFine.toHunt (h : LinkFine o s) {p : Port} (hp : (s.ports.get p).state ≠ .execute) :
    LinkFine o (s.modPort p LinkPort.toHunt) :=
  h.modPort p (iff_of_false PortState.noConfusion hp) (bufferFits_empty rfl rfl) rfl id

theorem LinkFine.crcFail (h : LinkFine o s) {p : Port} (hp : (s.ports.get p).state ≠ .execute) : LinkFine o (s.crcFail p) :=
  (h.toHunt hp).only (raise_only _ _ _)

theorem not_execute_of_listening {port : LinkPort} (h : port.listening = true) : port.state ≠ .execute := by
  intro he; rw [LinkPort.listening, he] at h; cases h

theorem LinkFine.silence (h : LinkFine o s) (p : Port) : LinkFine o (s.silence p) := by
  refine LinkFine.only (s := (s.modPort p fun port => { port with silent := true }).setReservation p none) ?_ (markBoth_only _)
  have port : ∀ q, (s.silence p).ports.get q = { s.ports.get q with silent := (s.ports.get q).silent || q = p } := fun q => by
    unfold State.silence
    rw [(markBoth_only _).ports, State.setReservation_ports, State.modPort_ports, PerPort.get_set]
    by_cases e : q = p
    · rw [if_pos e, e]; simp
    · rw [if_neg e]; simp [e]
  rw [State.silence, (markBoth_only _).ports] at port
  refine ⟨fun q => ?_, fun q hq => ?_, fun q hq => ?_, fun hl q => ?_, h.running, fun j hj => ?_, fun q hq => ?_⟩
  · rw [port]; exact ⟨(h.buffer q).quiet, (h.buffer q).noLen, (h.buffer q).lenFits⟩
  · rw [port] at hq; exact h.executing q hq
  · rw [State.setReservation_reservations, PerPort.get_set]
    split
    · rfl
    · rename_i e
      rw [port] at hq
      exact h.silent q (by simpa [e] using hq)
  · rw [port]; exact h.inForce hl q
  · rw [port]; exact h.port j hj
  · rw [port]; exact h.own q hq

/-! ## A request served -/

/-- R165, R170: a port that listens takes a good frame. -/
theorem LinkFine.acceptFrame (h : LinkFine none s) {p : Port} (hp : (s.ports.get p).listening = true) :
    LinkFine (some p) (s.acceptFrame p) := by
  have idle := not_execute_of_listening hp
  refine ⟨fun q => ?_, fun q hq => ?_, fun q hq => ?_, fun hl q => ?_, ?_, fun j hj => ?_, fun q hq => ?_⟩
  all_goals simp only [acceptFrame_ports, acceptFrame_loader, acceptFrame_reservations, PerPort.get_set] at *
  · split
    · exact bufferFits_empty rfl rfl
    · exact h.buffer q
  · split at hq
    · rename_i e; exact .inl (by rw [e])
    · exact .inr ((h.executing q hq).resolve_left (by simp))
  · split at hq
    · cases hq
    · exact h.silent q hq
  · split
    · exact h.inForce hl p
    · exact h.inForce hl q
  · exact h.running
  · have e : j.port ≠ p := fun e => idle (by rw [← e]; exact h.port j hj)
    rw [if_neg e]; exact h.port j hj
  · cases hq
    rw [if_pos rfl]
    exact ⟨rfl, fun j hj e => idle (by rw [← e]; exact h.port j hj)⟩

/-- R166: the port served sends its reply. -/
theorem LinkFine.sendReply {p : Port} (h : LinkFine (some p) s) (kind tag : Byte) (r : Reply) :
    LinkFine none (s.sendReply p kind tag r) := by
  obtain ⟨hexec, hother⟩ := h.own p rfl
  obtain ⟨hlen, hdata⟩ := (h.buffer p).quiet (by rw [hexec]; decide)
  unfold State.sendReply
  refine ⟨fun q => ?_, fun q hq => ?_, fun q hq => ?_, fun hl q => ?_, h.running, fun j hj => ?_, fun q hq => by cases hq⟩
  all_goals rw [State.modPort_ports, PerPort.get_set] at *
  · split
    · exact bufferFits_empty hlen hdata
    · exact h.buffer q
  · split at hq
    · cases hq
    · rename_i e
      exact (h.executing q hq).imp_left fun hs => absurd (Option.some.inj hs).symm e
  · split at hq
    · rename_i e; rw [e]; exact h.silent p hq
    · exact h.silent q hq
  · split
    · exact h.inForce hl p
    · exact h.inForce hl q
  · rw [if_neg (hother j hj)]; exact h.port j hj

/-- R165, R167: a good frame on a port is lost, or answered NOT_READY, or does its work. -/
theorem LinkFine.serveWith {p : Port} {kind tag : Byte} {work : State → State}
    (hw : ∀ u, u.loader.phase ≠ .loading → (u.ports.get p).silent = false → LinkFine (some p) u → LinkFine none (work u)) (h : LinkFine none s) :
    LinkFine none (s.serveWith p kind tag work) := by
  unfold State.serveWith
  split
  · rename_i hlisten
    have taken := h.acceptFrame hlisten
    dsimp only
    split
    · exact taken.sendReply _ _ _
    · rename_i hphase; exact hw _ hphase (by rw [acceptFrame_ports, PerPort.get_set_same]; rfl) taken
  · exact h

theorem LinkFine.serve {p : Port} {kind tag : Byte} {take : State → State × Reply}
    (ht : ∀ u, LinkFine (some p) u → LinkFine (some p) (take u).1) (h : LinkFine none s) :
    LinkFine none (s.serve p kind tag take) :=
  h.serveWith fun u _ _ hu => (ht u hu).sendReply _ _ _

theorem LinkFine.serveOnly {p : Port} {kind tag : Byte} {take : State → State × Reply} {ps : List Part}
    (ht : ∀ u, OnlyIn ps u (take u).1) (h : LinkFine none s) (hps : ∀ q ∈ linkParts, q ∉ ps := by decide) :
    LinkFine none (s.serve p kind tag take) :=
  h.serve fun u hu => hu.only (ht u) hps

theorem LinkFine.putDeparture (p : Port) (fields : List Byte) (h : LinkFine o s) : LinkFine o (takePutDeparture p fields s).1 := by
  unfold takePutDeparture
  refine withOperands_keeps h fun q _ => withRights_keeps h fun _ => ?_
  split
  · split
    · exact h
    · split
      · exact h
      · dsimp only
        exact h.insertDeparture _
  · split
    · exact h
    · dsimp only
      exact h.replaceDeparture _ _ _

theorem LinkFine.amend (p : Port) (fields : List Byte) (h : LinkFine o s) : LinkFine o (takeAmend p fields s).1 := by
  unfold takeAmend
  refine withOperands_keeps h fun q _ => withRights_keeps h fun _ => ?_
  split
  · exact h
  · exact h.amendRecord _ _ _

theorem LinkFine.amendIfReserved (p : Port) (fields : List Byte) (h : LinkFine o s) :
    LinkFine o (takeAmendIfReserved p fields s).1 := by
  unfold takeAmendIfReserved
  refine withOperands_keeps h fun q _ => withRights_keeps h fun _ => ?_
  have hdrop : LinkFine o (s.setReservation p none) := h.setReservation p none (.inl rfl)
  split
  · exact h
  · dsimp only
    split
    · exact hdrop.amendRecord _ _ _
    · exact hdrop

theorem LinkFine.withdrawDeparture (p : Port) (fields : List Byte) (h : LinkFine o s) :
    LinkFine o (takeWithdrawDeparture p fields s).1 := by
  refine takeOnRecord_keeps h fun _ r _ => ?_
  dsimp only
  exact h.removeRecord _ _

/-- R55: the port that reserves is the one served, which is LIVE. -/
theorem LinkFine.reserve (p : Port) (tag : Byte) (fields : List Byte) (h : LinkFine none s) :
    LinkFine none (s.serve p 0x18 tag (takeReserve p fields)) := by
  refine h.serveWith fun u _ hlive hu => LinkFine.sendReply ?_ _ _ _
  exact takeOnRecord_keeps hu fun _ _ _ => hu.setReservation p _ (.inr hlive)

/-! ## Parameters -/

theorem writeParam_buffer (s : State) (q : Param) (value : List Byte) (p : Port) :
    ((s.writeParam q value).ports.get p).state = (s.ports.get p).state ∧
      ((s.writeParam q value).ports.get p).len = (s.ports.get p).len ∧
      ((s.writeParam q value).ports.get p).data = (s.ports.get p).data := by
  rw [writeParam_port]
  split
  · exact ⟨rfl, rfl, rfl⟩
  · split
    · exact ⟨rfl, rfl, rfl⟩
    · split <;> exact ⟨rfl, rfl, rfl⟩

theorem LinkFine.writeParam (h : LinkFine o s) (q : Param) (value : List Byte) : LinkFine o (s.writeParam q value) := by
  have loader := (writeParam_only s q value).loader
  have buffer := writeParam_buffer s q value
  have force := fun p => writeParam_inForce s q value p
  have silent : ∀ p, ((s.writeParam q value).ports.get p).silent = (s.ports.get p).silent := fun p => by
    obtain ⟨_, _, _, _, _, hsilent⟩ := force p
    exact hsilent
  refine ⟨fun p => ?_, fun p hp => ?_, fun p hp => ?_, fun hl p => ?_, ?_, fun j hj => ?_, fun p hp => ?_⟩
  · obtain ⟨hstate, hlen, hdata⟩ := buffer p
    refine ⟨?_, ?_, ?_⟩ <;> rw [hlen, hdata]
    · rw [hstate]; exact (h.buffer p).quiet
    · exact (h.buffer p).noLen
    · exact (h.buffer p).lenFits
  · rw [loader]; exact h.executing p (by rw [← (buffer p).1]; exact hp)
  · rw [(writeParam_only s q value).reservations]; exact h.silent p (by rw [← silent p]; exact hp)
  · obtain ⟨hlimit, hstale, hkeepsLimit, hkeepsStale, _, _⟩ := force p
    obtain ⟨limit, stale⟩ := h.inForce (by rw [← loader]; exact hl) p
    refine ⟨hlimit.trans ?_, hstale.trans ?_⟩
    · split
      · rfl
      · rename_i e; rw [hkeepsLimit e, limit]
    · split
      · rfl
      · rename_i e; rw [hkeepsStale e, stale]
  · rw [loader]; exact h.running
  · rw [(buffer _).1]; exact h.port j (by rw [← loader]; exact hj)
  · obtain ⟨hexec, hother⟩ := h.own p hp
    exact ⟨by rw [(buffer p).1]; exact hexec, by rw [loader]; exact hother⟩

theorem LinkFine.writeParams (values : List (Param × List Byte)) (h : LinkFine o s) : LinkFine o (s.writeParams values) := by
  induction values generalizing s with
  | nil => exact h
  | cons x rest ih => exact ih (h.writeParam x.1 x.2)

theorem LinkFine.setParameter (p : Port) (fields : List Byte) (h : LinkFine o s) :
    LinkFine o (takeSetParameter p fields s).1 :=
  withOperands_keeps h fun q _ => withRights_keeps h fun _ => (h.writeParam q.1 q.2).only (paramEffects_only _ _ _)

/-! ## The loader -/

/-- R182: the settings are applied at the end of LOADING. -/
theorem LinkFine.applySettings (h : LinkFine none s) (hphase : s.loader.phase = .loading) (st : Settings)
    (hall : st.params.map (fun x => x.1) = Param.all) : LinkFine none (s.applySettings st) := by
  have taken : OnlyIn [.zones, .places, .faces] s (s.takeSettings st) := by
    intro q hq; cases q <;> first | rfl | exact absurd (by decide) hq
  have woken : OnlyIn faceParts ((s.takeSettings st).writeParams st.params)
      (((s.takeSettings st).writeParams st.params).eachFace fun f t => t.wakeUpFace f) :=
    OnlyIn.eachFace fun f t => wakeUpFace_only t f
  have before := ((h.only taken).writeParams st.params).only woken
  have loader : ∀ {u : State} {l : Loader}, OnlyIn [.loader] u { u with loader := l } := by
    intro u l q hq; cases q <;> first | rfl | exact absurd (by decide) hq
  have kept : (((s.takeSettings st).writeParams st.params).eachFace fun f t => t.wakeUpFace f).loader = s.loader := by
    rw [woken.loader, (writeParams_only _ _).loader, taken.loader]
  have nothing : s.loader.store = none := by
    have := h.running
    rw [hphase] at this
    simpa using this
  have inForce := applySettings_inForce s st hall
  unfold State.applySettings at *
  dsimp only at *
  generalize (((s.takeSettings st).writeParams st.params).eachFace fun f t => t.wakeUpFace f) = u at *
  refine ⟨before.buffer, fun p hp => ?_, before.silent, fun _ p => ⟨(inForce p).1, (inForce p).2.1⟩, ?_, fun j hj => ?_,
    fun p hp => by cases hp⟩
  · have := before.executing p hp; rw [kept] at this; rw [← kept] at this; exact this
  · rw [kept, nothing]; simp
  · rw [kept, nothing] at hj; cases hj

/-- R184: a store begins at the port served. -/
theorem LinkFine.startStore {p : Port} (h : LinkFine (some p) s) (hphase : s.loader.phase ≠ .loading)
    (hidle : s.loader.phase ≠ .storing) (tag : Byte) : LinkFine none (s.startStore p tag) := by
  have nothing : s.loader.store = none := by
    have := h.running
    simpa [hidle] using this
  refine ⟨h.buffer, fun q hq => ?_, h.silent, fun _ => h.inForce hphase, by simp [State.startStore], fun j hj => ?_,
    fun q hq => by cases hq⟩
  · have served : some p = some q := (h.executing q hq).resolve_right (by rw [nothing]; simp)
    exact .inr ⟨_, rfl, Option.some.inj served⟩
  · cases hj
    exact (h.own p rfl).1

theorem LinkFine.storeSettings (p : Port) (tag : Byte) (fields : List Byte) (h : LinkFine none s) :
    LinkFine none (s.serveStore p tag fields) := by
  refine h.serveWith fun u hphase _ hu => ?_
  unfold takeStoreSettings
  split
  · exact hu.sendReply _ _ _
  · split
    · exact hu.sendReply _ _ _
    · by_cases hidle : u.loader.phase = .storing
      · rw [if_pos hidle]; exact hu.sendReply _ _ _
      · rw [if_neg hidle]; exact hu.startStore hphase hidle tag

/-- R184: the store of a port has ended, and the port waits for its reply. -/
theorem LinkFine.endStore (h : LinkFine none s) {job : StoreJob} (hjob : s.loader.store = some job) (image : List Byte) :
    LinkFine (some job.port) (s.endStore image) := by
  have storing : s.loader.phase = .storing := h.running.mpr (by rw [hjob]; rfl)
  have hexec := h.port job hjob
  refine ⟨h.buffer, fun p hp => ?_, h.silent, fun _ => h.inForce (by rw [storing]; decide), ?_, fun j hj => ?_, fun p hp => ?_⟩
  · obtain ⟨j, hj, hport⟩ := (h.executing p hp).resolve_left (by simp)
    rw [hjob] at hj; cases hj
    exact .inl (by rw [hport])
  · exact ⟨fun e => (by cases e), fun e => (by cases e)⟩
  · cases hj
  · cases hp
    exact ⟨hexec, fun j hj => by cases hj⟩

theorem LinkFine.storeComplete (h : LinkFine none s) {outcome : StoreOutcome} (he : exec (.storeComplete outcome) s = .next t) :
    LinkFine none t := by
  have free : OnlyIn [.free] s { s with free := s.free + 1 } := by
    intro q hq; cases q <;> first | rfl | exact absurd (by decide) hq
  revert he
  show execStoreComplete outcome s = _ → _
  unfold execStoreComplete
  split
  · rename_i job _ hjob
    split <;> intro he <;> cases he
    · exact (h.endStore hjob _).sendReply _ _ _
    all_goals
      have failed : LinkFine (some job.port) s.failStore :=
        ((h.only free).endStore (job := job) hjob _).only (raise_only _ _ _)
      exact failed.sendReply _ _ _
  · intro he; cases he; exact h

/-- R182, R185: a part that waits for the settings, no port of it in RECEIVE with a buffer that does not fit. -/
theorem LinkFine.ofLoading (hload : t.loader = ⟨.loading, none⟩) (hres : ∀ p, t.reservations.get p = none)
    (hports : ∀ p, BufferFits (t.ports.get p) ∧ (t.ports.get p).state ≠ .execute) : LinkFine none t := by
  refine ⟨fun p => (hports p).1, fun p hp => absurd hp (hports p).2, fun p _ => hres p, fun hl => ?_, ?_, fun j hj => ?_,
    fun p hp => by cases hp⟩
  · rw [hload] at hl; exact absurd rfl hl
  · rw [hload]; exact ⟨fun e => (by cases e), fun e => (by cases e)⟩
  · rw [hload] at hj; cases hj

theorem LinkFine.ofReset (hload : t.loader = State.reset.loader) (hres : t.reservations = State.reset.reservations)
    (hports : t.ports = State.reset.ports) : LinkFine none t := by
  refine .ofLoading hload (fun p => ?_) fun p => ?_
  · rw [hres]; cases p <;> rfl
  · rw [hports]
    cases p <;> exact ⟨bufferFits_empty rfl rfl, PortState.noConfusion⟩

/-- R166: a restart cuts a port's exchange, and leaves a frame that is coming in. -/
theorem cutBy_fits {port : LinkPort} (h : BufferFits port) (p q : Port) (frame : List Byte) :
    BufferFits (port.cutBy p frame q).withDefaults ∧ (port.cutBy p frame q).withDefaults.state ≠ .execute := by
  have hunts : ∀ x : LinkPort, x.state = .hunt → x.len = none → x.data = [] →
      BufferFits x.withDefaults ∧ x.withDefaults.state ≠ .execute := fun x hx hl hd =>
    ⟨bufferFits_empty hl hd, fun he => by rw [show x.withDefaults.state = x.state from rfl, hx] at he; cases he⟩
  have stays : port.state ≠ .execute → BufferFits port.withDefaults ∧ port.withDefaults.state ≠ .execute := fun hx =>
    ⟨⟨h.quiet, h.noLen, h.lenFits⟩, hx⟩
  unfold LinkPort.cutBy
  split
  · exact hunts _ rfl rfl rfl
  · split
    · rename_i e; exact stays (by rw [e]; decide)
    · rename_i e; exact stays (by rw [e]; decide)
    · exact hunts _ rfl rfl rfl
    · exact hunts _ rfl rfl rfl

theorem LinkFine.restart {o : Option Port} (h : LinkFine o s) (p : Port) (frame : List Byte) : LinkFine none (s.restart p frame) := by
  refine .ofLoading rfl (fun q => by cases q <;> rfl) fun q => ?_
  have port : (s.restart p frame).ports.get q = ((s.ports.get q).cutBy p frame q).withDefaults := PerPort.get_mapWith ..
  rw [port]
  exact cutBy_fits (h.buffer q) p q frame

theorem LinkFine.boardRestart (p : Port) (tag : Byte) (fields : List Byte) (h : LinkFine none s) :
    LinkFine none (s.serveRestart p tag fields) := by
  refine h.serveWith fun u _ _ hu => ?_
  unfold State.takeBoardRestart
  split
  · exact hu.sendReply _ _ _
  · split
    · exact hu.sendReply _ _ _
    · exact hu.restart _ _

/-! ## Every step -/

theorem LinkFine.idle (h : LinkFine none s) : LinkFine none s.idle := by
  unfold State.idle
  split
  · split
    · exact h.congr rfl rfl (.of_eq rfl)
    · have port : ∀ p, (s.systemTick.ports.get p) = (s.ports.get p).tick := fun p => PerPort.get_mapWith ..
      refine ⟨fun p => ?_, fun p hp => ?_, fun p hp => ?_, fun hl p => ?_, h.running, fun j hj => ?_, fun p hp => by cases hp⟩
      · rw [port]; exact ⟨(h.buffer p).quiet, (h.buffer p).noLen, (h.buffer p).lenFits⟩
      · rw [port] at hp; exact h.executing p hp
      · rw [port] at hp; exact h.silent p hp
      · rw [port]; exact h.inForce hl p
      · rw [port]; exact h.port j hj
  · exact h.congr rfl rfl (.of_eq rfl)

/-- A command keeps the ports and the loader sound, byte arrivals apart. -/
theorem LinkFine.exec (h : LinkFine none s) {c : Instr} (nb : ∀ p b, c ≠ .byteArrival p b)
    (nu : ∀ p k g fs, c ≠ .unknownKindFrame p k g fs) (he : Machine.exec c s = .next t) : LinkFine none t := by
  cases c
  case byteArrival p b => exact absurd rfl (nb p b)
  case unknownKindFrame p kind tag fields => exact absurd rfl (nu p kind tag fields)
  all_goals clear nb nu
  case reset => cases he; exact .ofReset rfl rfl rfl
  case settingsReadComplete acknowledged =>
    revert he
    show execSettingsReadComplete acknowledged s = _ → _
    unfold execSettingsReadComplete
    split <;> intro he <;> cases he
    · exact h
    · exact h
    · rename_i hphase
      have raised := raiseLoad_only s (loadOutcome acknowledged s.mem).fault
      exact (h.only raised).applySettings (by rw [raised.loader]; exact hphase) _ (applied_params _ _).1
  case framingError p =>
    revert he
    show execFramingError p s = _ → _
    unfold execFramingError
    split <;> intro he <;> cases he
    · rename_i hp; exact h.crcFail (by rw [hp]; decide)
    all_goals exact h
  case gapTimerExpiry p =>
    cases he
    split
    · rename_i hp; exact h.toHunt (by rw [hp]; decide)
    · exact h
  case frameCrcFail p =>
    cases he
    split
    · rename_i hp; exact h.crcFail (not_execute_of_listening hp)
    · exact h
  case replySent p =>
    revert he
    show execReplySent p s = _ → _
    unfold execReplySent
    split <;> intro he <;> cases he
    · rename_i hp; exact h.toHunt (by rw [hp]; decide)
    all_goals exact h
  case portSilent p => cases he; exact ite_keeps (h.silence p) h
  case putDeparture p tag fields => cases he; exact h.serve fun _ hu => hu.putDeparture p fields
  case amend p tag fields => cases he; exact h.serve fun _ hu => hu.amend p fields
  case amendIfReserved p tag fields => cases he; exact h.serve fun _ hu => hu.amendIfReserved p fields
  case withdrawDeparture p tag fields => cases he; exact h.serve fun _ hu => hu.withdrawDeparture p fields
  case reserve p tag fields => cases he; exact h.reserve p tag fields
  case dropReservation p tag fields =>
    cases he
    exact h.serve fun u hu => withOperands_keeps hu fun _ _ => hu.setReservation p none (.inl rfl)
  case setClock p tag fields =>
    cases he
    exact h.serve fun u hu => withOperands_keeps hu fun _ _ => withRights_keeps hu fun _ => hu.setClock _ _ _
  case setParameter p tag fields => cases he; exact h.serve fun u hu => hu.setParameter p fields
  case storeSettings p tag fields => cases he; exact h.storeSettings p tag fields
  case storeComplete outcome => exact h.storeComplete he
  case boardRestart p tag fields => cases he; exact h.boardRestart p tag fields
  case secondEvent => cases he; exact ite_keeps h.second h
  case changeCounts l => cases he; exact (h.only (modLine_only s l _)).handLineOn l _
  case pinSample l level =>
    cases he
    have counted : LinkFine none (s.countChange l) := (h.only (modLine_only s l _)).handLineOn l _
    exact ite_keeps (h.only (modLine_only s l _)) (ite_keeps (h.only (modLine_only s l _)) counted)
  case pin p tag fields => cases he; exact h.serveOnly (takePin_only p fields)
  case unpin p tag fields => cases he; exact h.serveOnly (takeUnpin_only p fields)
  case putPlace p tag fields => cases he; exact h.serveOnly (takePutPlace_only p fields)
  case withdrawPlace p tag fields => cases he; exact h.serveOnly (takeWithdrawPlace_only p fields)
  case writeZone p tag fields => cases he; exact h.serveOnly (takeWriteZone_only p fields)
  case postNotice p tag fields => cases he; exact h.serveOnly (takePostNotice_only p fields)
  case withdrawNotice p tag fields => cases he; exact h.serveOnly (takeWithdrawNotice_only p fields)
  case setFace p tag fields => cases he; exact h.serveOnly (takeSetFace_only p fields)
  case clearFaults p tag fields => cases he; exact h.serveOnly (takeClearFaults_only p fields)
  case readEvents p tag fields => cases he; exact h.serveOnly (takeReadEvents_only p fields)
  case probeRights p tag fields =>
    cases he
    exact h.serve fun u hu => withOperands_keeps hu fun _ _ => withRights_keeps hu fun _ => hu
  case readDeparture | readPlace | readNotice | readParameter =>
    cases he
    refine h.serve fun u hu => withOperands_keeps hu fun x _ => ?_
    split <;> exact hu
  case listDepartures | readZone | listNotices | readClock | readFace | readShown | readInputs | readFaults =>
    cases he
    exact h.serve fun u hu => withOperands_keeps hu fun _ _ => hu
  all_goals exact h.only (exec_only he) (by dsimp only [partsOf]; decide)

theorem LinkFine.step (h : LinkFine none s) (hstep : Machine.step s = .next t) : LinkFine none t := by
  refine step_keeps (I := LinkFine none) (fun u rest hu => hu.congr rfl rfl (.of_eq rfl)) (fun u hu => hu.idle)
    (fun c u v nb nu hu he => hu.exec nb nu he) (fun u p kind tag hu => hu.serve fun _ hv => hv) (fun u p hp hu => ?_)
    (fun u p n hp hlen hlow hhigh hu => ?_) (fun u p hp hu => hu.crcFail (by rw [hp]; decide))
    (fun u p b n hp hlen hdata hu => ?_) h hstep
  · exact hu.modPort p (iff_of_false PortState.noConfusion (by rw [hp]; decide)) (bufferFits_empty rfl rfl) rfl id
  · exact hu.modPort p Iff.rfl (bufferFits_receiving hp rfl hlow hhigh (by dsimp only; rw [(hu.buffer p).noLen hlen]; exact Nat.succ_pos _)) rfl id
  · obtain ⟨hlow, hhigh, hfits⟩ := (hu.buffer p).lenFits n hlen
    refine hu.modPort p Iff.rfl (bufferFits_receiving hp hlen hlow hhigh ?_) rfl id
    dsimp only
    rw [List.length_append, List.length_singleton]
    omega

end

/-- Settles O56: the buffers fit, only a store's port stays in EXECUTE, a SILENT port reserves nothing, and every step
keeps it so; the commands keep it around the one port that they serve. -/
theorem portsStaySound : Obligations.PortsStaySound := fun s t hports hloader hstep =>
  (linkFine_iff t).mp (((linkFine_iff s).mpr ⟨hports, hloader⟩).step hstep)

end Sys2Proof.Machine
end

section
/-! PROOFS. The queue, the clock edges of an empty queue, and the link ports (chapter 10). -/

namespace Sys2Proof.Machine

/-! ## The queue -/

/-- Settles O1. -/
theorem stepRunsTheFrontCommand : Obligations.StepRunsTheFrontCommand := fun _ _ _ => rfl

theorem serveRestart_pending (p : Port) (tag : Byte) (fields : List Byte) (s : State) :
    (s.serveRestart p tag fields).pending = s.pending := by
  refine serveRestart_keeps (I := fun u => u.pending = s.pending) (fun u q hu => ?_) (fun u q kind tag r hu => ?_)
    (fun u q frame hu => hu) rfl
  · rw [acceptFrame_pending]; exact hu
  · exact hu

/-- A command that is not made of bytes answers a next state and leaves the queue. -/
theorem exec_answers {c : Instr} (nb : ∀ p b, c ≠ .byteArrival p b) (nu : ∀ p k g fs, c ≠ .unknownKindFrame p k g fs)
    (s : State) : ∃ t, exec c s = .next t ∧ t.pending = s.pending := by
  have queue : ∀ {t : State}, Part.pending ∉ partsOf c → exec c s = .next t → ∃ t, exec c s = .next t ∧ t.pending = s.pending :=
    fun hp he => ⟨_, he, (exec_only he).pending hp⟩
  cases c
  case byteArrival p b => exact absurd rfl (nb p b)
  case unknownKindFrame p kind tag fields => exact absurd rfl (nu p kind tag fields)
  all_goals clear nb nu
  case reset => exact ⟨_, rfl, rfl⟩
  case boardRestart p tag fields => exact ⟨_, rfl, serveRestart_pending p tag fields s⟩
  case settingsReadComplete acknowledged =>
    have answers : ∃ t, exec (.settingsReadComplete acknowledged) s = .next t := by
      show ∃ t, execSettingsReadComplete acknowledged s = .next t
      unfold execSettingsReadComplete
      split <;> exact ⟨_, rfl⟩
    exact answers.elim fun t ht => queue (by dsimp only [partsOf]; decide) ht
  case framingError p =>
    have answers : ∃ t, exec (.framingError p) s = .next t := by
      show ∃ t, execFramingError p s = .next t
      unfold execFramingError
      split <;> exact ⟨_, rfl⟩
    exact answers.elim fun t ht => queue (by dsimp only [partsOf]; decide) ht
  case replySent p =>
    have answers : ∃ t, exec (.replySent p) s = .next t := by
      show ∃ t, execReplySent p s = .next t
      unfold execReplySent
      split <;> exact ⟨_, rfl⟩
    exact answers.elim fun t ht => queue (by dsimp only [partsOf]; decide) ht
  case storeComplete outcome =>
    have answers : ∃ t, exec (.storeComplete outcome) s = .next t := by
      show ∃ t, execStoreComplete outcome s = .next t
      unfold execStoreComplete
      split
      · split <;> exact ⟨_, rfl⟩
      · exact ⟨_, rfl⟩
    exact answers.elim fun t ht => queue (by dsimp only [partsOf]; decide) ht
  case conversionCompletion reading =>
    have answers : ∃ t, exec (.conversionCompletion reading) s = .next t := by
      show ∃ t, execConversionCompletion reading s = .next t
      unfold execConversionCompletion
      split <;> exact ⟨_, rfl⟩
    exact answers.elim fun t ht => queue (by dsimp only [partsOf]; decide) ht
  all_goals exact queue (by dsimp only [partsOf]; decide) rfl

/-- A good frame of any KIND answers a next state and leaves the queue. -/
theorem requestOf_answers (p : Port) (kind tag : Byte) (fields : List Byte) (s : State) :
    ∃ t, exec (requestOf p kind tag fields) s = .next t ∧ t.pending = s.pending := by
  obtain ⟨nb, nu | bad⟩ := requestOf_cases p kind tag fields
  · exact exec_answers nb nu s
  · exact ⟨_, bad s, (serve_only (ps := []) p kind tag _ (fun u => OnlyIn.refl _ _) s).pending⟩

/-- Settles O3: a byte either changes its port or ends the frame of a request, and every request is served. -/
theorem everyCommandAnswersNext : Obligations.EveryCommandAnswersNext := by
  intro c s
  by_cases hbyte : ∃ p b, c = .byteArrival p b
  · obtain ⟨p, b, rfl⟩ := hbyte
    obtain ⟨t, ht, hcases⟩ := byteArrival_cases p b s
    refine ⟨t, ht, ?_⟩
    rcases hcases with rfl | ⟨_, rfl⟩ | ⟨_, _, _, _, rfl⟩ | ⟨_, rfl⟩ | ⟨_, _, _, _, rfl⟩ | ⟨kind, tag, fields, _, hrequest⟩
    · rfl
    · exact (modPort_only s p _).pending
    · exact (modPort_only s p _).pending
    · exact (crcFail_only s p).pending
    · exact (modPort_only s p _).pending
    · obtain ⟨u, hu, hpending⟩ := requestOf_answers p kind tag fields s
      rw [hrequest] at hu; cases hu; exact hpending
  · by_cases hkind : ∃ p k g fs, c = .unknownKindFrame p k g fs
    · obtain ⟨p, kind, tag, fields, rfl⟩ := hkind
      have same : exec (.unknownKindFrame p kind tag fields) s = exec (requestOf p kind tag fields) s := by
        rw [exec_requestOf]; rfl
      rw [same]; exact requestOf_answers p kind tag fields s
    · exact exec_answers (fun p b e => hbyte ⟨p, b, e⟩) (fun p k g fs e => hkind ⟨p, k, g, fs, e⟩) s

/-! ## Clock edges (log entry 1) -/

section
variable {s : State}

theorem idle_plans (h : s.plansDue ≠ []) : s.idle = { s with pending := s.pending ++ s.plansDue } := by
  unfold State.idle
  split
  · exact absurd ‹_› h
  · rfl

theorem idle_crystal (h : s.plansDue = []) (hedge : Config.crystalTick s.free = true) : s.idle = s.crystalCycle := by
  unfold State.idle; rw [h]; exact if_pos hedge

theorem idle_tick (h : s.plansDue = []) (hedge : Config.crystalTick s.free = false) : s.idle = s.systemTick := by
  unfold State.idle; rw [h]; exact if_neg (by rw [hedge]; decide)

theorem startOver_iff (c : Clock) : c.startOver = true ↔ c.osc = .starting ∧ 32768 ≤ c.startCount := by
  unfold Clock.startOver
  rw [Bool.and_eq_true, beq_iff_eq, decide_eq_true_iff]; rfl

theorem deadlineOver_iff (c : Clock) : c.deadlineOver = true ↔ 2000 ≤ c.deadline.getD 0 := by
  unfold Clock.deadlineOver
  cases c.deadline with
  | none => decide
  | some n => exact decide_eq_true_iff

theorem crystalSecond_iff (c : Clock) :
    (c.source == .timekeeper && c.secondOver) = true ↔ c.source = .timekeeper ∧ 32768 ≤ c.divider := by
  rw [Bool.and_eq_true, beq_iff_eq, secondOver_iff]
  unfold Clock.secondDue
  constructor
  · rintro ⟨hsource, ⟨_, hover⟩ | ⟨hother, _⟩⟩
    · exact ⟨hsource, hover⟩
    · rw [hsource] at hother; cases hother
  · exact fun h => ⟨h.1, .inl h⟩

theorem systemSecond_iff (c : Clock) :
    (c.source == .system && c.secondOver) = true ↔ c.source = .system ∧ 1000 ≤ c.divider := by
  rw [Bool.and_eq_true, beq_iff_eq, secondOver_iff]
  unfold Clock.secondDue
  constructor
  · rintro ⟨hsource, ⟨hother, _⟩ | ⟨_, hover⟩⟩
    · rw [hsource] at hother; cases hother
    · exact ⟨hsource, hover⟩
  · exact fun h => ⟨h.1, .inr h⟩

/-- R63, R65: the events due at a crystal cycle. -/
theorem cycleDue_eq (c : Clock) : c.cycleDue =
    (if c.osc = .starting ∧ 32768 ≤ c.startCount then [Instr.oscillatorRunning] else [])
      ++ (if c.source = .timekeeper ∧ 32768 ≤ c.divider then [Instr.secondEvent] else []) := by
  unfold Clock.cycleDue
  simp only [startOver_iff, crystalSecond_iff]

/-- R64, R65: the clock's events due at a system tick. -/
theorem clock_tickDue_eq (c : Clock) : c.tickDue =
    (if 2000 ≤ c.deadline.getD 0 then [Instr.startupDeadlineExpiry] else [])
      ++ (if c.source = .system ∧ 1000 ≤ c.divider then [Instr.secondEvent] else []) := by
  unfold Clock.tickDue
  simp only [deadlineOver_iff, systemSecond_iff]

/-- R165, R169: a port's events due at a system tick. -/
theorem port_tickDue_eq (p : Port) (port : LinkPort) : port.tickDue p =
    (if port.state = .receive ∧ 21 ≤ port.gap then [Instr.gapTimerExpiry p] else [])
      ++ (if port.silent = false ∧ port.limitInForce ≠ 0 ∧ port.limitInForce * 1000 ≤ port.count
        then [Instr.portSilent p] else []) := by
  unfold LinkPort.tickDue
  simp only [gapOver_iff, silenceOver_iff]

/-- R143, R144: a panel's events due at a system tick. -/
theorem panel_tickDue_eq (draw : Nat) (f : Face) (panel : Panel) : panel.tickDue draw f =
    (if panel.out = .starting ∧ panel.startLeft = 0 then [Instr.panelStartupDelayExpiry f] else [])
      ++ (if panel.period ≤ panel.elapsed then
          let echo := Config.echo draw (if f = .a then 0 else 1)
          [Instr.frameBoundary f (echo 0) (echo 1) (echo 2) (echo 3)] else []) := by
  unfold Panel.tickDue Panel.startOver Panel.frameOver
  cases f <;> simp

theorem timer_tick_eq (t : Timer) : t.tick =
    if t.running = false then t
    else if t.unit = .ms1 then { t with counter := t.counter + 1 }
    else if t.sub + 1 < 10 then { t with sub := t.sub + 1 }
    else { t with sub := 0, counter := t.counter + 1 } := by
  unfold Timer.tick
  cases t.running <;> cases t.unit <;> simp

theorem port_tick_eq (port : LinkPort) : port.tick = { port with
    gap := (if port.state = .receive then port.gap + 1 else port.gap)
    count := (if port.silent = true ∨ port.limitInForce = 0 then port.count else port.count + 1) } := by
  unfold LinkPort.tick; simp

/-- What a system tick counts and queues. -/
theorem systemTick_spec (h : s.pending = []) : 
    (∀ i : Fin 6, s.systemTick.timers[i] = s.timers[i].tick) ∧ (∀ p, s.systemTick.ports.get p = (s.ports.get p).tick) ∧
      (∀ f, s.systemTick.panels.get f = (s.panels.get f).tick) ∧
      s.systemTick.pending = { s.systemTick with free := s.free }.tickDue := by
  refine ⟨fun i => ?_, fun p => PerPort.get_mapWith .., fun f => by cases f <;> rfl, ?_⟩
  · show (s.timers.map Timer.tick)[i] = _
    simp
  · show s.pending ++ _ = _
    rw [h]; rfl

end

/-- Settles O2: the step queues the plans due, or counts a crystal cycle or a system tick. -/
theorem stepOnEmptyQueueIsAClockEdge : Obligations.StepOnEmptyQueueIsAClockEdge := by
  intro s hempty
  dsimp only
  rw [← plansDue_eq]
  have hstep : step s = .next s.idle := by unfold step; rw [hempty]
  refine ⟨s.idle, hstep, fun hp => ?_, fun hp hedge => ?_, fun hp hedge => ?_⟩
  · rw [idle_plans hp, hempty, List.nil_append]
  · rw [idle_crystal hp hedge]
    have hpending : s.crystalCycle.pending = s.clock.cycle.cycleDue := by
      show s.pending ++ _ = _
      rw [hempty]; rfl
    refine ⟨rfl, hpending.trans (cycleDue_eq _), rfl, ?_⟩
    intro q hq; cases q <;> first | rfl | exact absurd (by decide) hq
  · rw [idle_tick hp hedge]
    obtain ⟨htimers, hports, hpanels, hpending⟩ := systemTick_spec hempty
    refine ⟨rfl, fun i => (htimers i).trans (timer_tick_eq _), fun p => (hports p).trans (port_tick_eq _), fun f => ?_, ?_, rfl, ?_⟩
    · rw [hpanels]; rfl
    · rw [hpending]
      unfold State.tickDue
      rw [clock_tickDue_eq, filter_map_commands Instr.timerExpiry _ _
        (fun i => s.systemTick.timers[i].running = true ∧ s.systemTick.timers[i].reload ≤ s.systemTick.timers[i].counter)
        (fun i => by rw [Bool.eq_iff_iff, decide_eq_true_iff]; exact over_iff _)]
      simp only [port_tickDue_eq, panel_tickDue_eq]
      rfl
    · intro q hq; cases q <;> first | rfl | exact absurd (by decide) hq

/-! ## Bytes and frames (R164 to R166) -/

section
variable {p : Port} {b : Byte} {s : State}

theorem byteArrival_hunt (h : (s.ports.get p).state = .hunt) : exec (.byteArrival p b) s = .next (if b = 0xA5 then
    s.modPort p fun port => { port with state := .receive, len := none, data := [], gap := 0 } else s) := by
  show execByteArrival p b s = _
  unfold execByteArrival
  rw [h]
  dsimp only
  split <;> rfl

theorem byteArrival_len (h : (s.ports.get p).state = .receive) (hlen : (s.ports.get p).len = none) :
    exec (.byteArrival p b) s = .next (s.takeLen p b) := by
  show execByteArrival p b s = _
  unfold execByteArrival
  rw [h, hlen]

theorem byteArrival_data {n : Nat} (h : (s.ports.get p).state = .receive) (hlen : (s.ports.get p).len = some n) :
    exec (.byteArrival p b) s = .next (s.holdByte p n b) := by
  show execByteArrival p b s = _
  unfold execByteArrival
  rw [h, hlen]

/-- R165, R166: a port in EXECUTE or REPLY takes no byte. -/
theorem byteArrival_busy (h : (s.ports.get p).state = .execute ∨ (s.ports.get p).state = .reply) :
    exec (.byteArrival p b) s = .next s := by
  show execByteArrival p b s = _
  unfold execByteArrival
  rcases h with h | h <;> rw [h]

theorem listening_iff (port : LinkPort) : port.listening = true ↔ port.state = .hunt ∨ port.state = .receive := by
  unfold LinkPort.listening; simp

/-- R165: a buffer written before the frame is dropped is dropped with it. -/
theorem crcFail_buffer (s : State) (p : Port) (data : List Byte) (gap : Nat) :
    (s.modPort p fun port => { port with data := data, gap := gap }).crcFail p = s.crcFail p := by
  unfold State.crcFail State.dropFrame State.modPort
  cases p <;> rfl

end

/-- Settles O4. -/
theorem byteInHuntOpensAFrame : Obligations.ByteInHuntOpensAFrame := by
  intro p b s hunt
  refine ⟨_, byteArrival_hunt hunt, (modPort_only s p _).ite (OnlyIn.refl _ _), fun hb => ?_, fun hb => ?_⟩
  · rw [if_pos hb]; rfl
  · rw [if_neg hb]

/-- Settles O5. -/
theorem lenAndPayloadBytesAreHeld : Obligations.LenAndPayloadBytesAreHeld := by
  intro p b s receive
  refine ⟨fun hlen hlow hhigh => ?_, fun hlen hout => ?_, fun n hlen hshort => ?_⟩
  · rw [byteArrival_len receive hlen]
    unfold State.takeLen
    rw [if_pos (by simp [hlow, hhigh])]; rfl
  · rw [byteArrival_len receive hlen]
    unfold State.takeLen
    rw [if_neg (by simp; omega)]; rfl
  · rw [byteArrival_data receive hlen]
    unfold State.holdByte
    dsimp only
    rw [if_neg (by rw [List.length_append, List.length_singleton]; exact hshort)]; rfl

/-- Settles O6: the bytes held are KIND, TAG, fields and the check word of R164, and the request does not look at the
buffer. -/
theorem lastByteOfAGoodFrameIsTheRequest : Obligations.LastByteOfAGoodFrameIsTheRequest := by
  intro p kind tag b fields data s receive hlen _ hdata hframe
  rw [byteArrival_data receive hlen, exec_requestOf]
  unfold State.holdByte
  dsimp only
  rw [hdata, hframe, if_pos (by simp [checkBytes, be16_length])]
  unfold State.completeFrame
  have hpayload : ((kind :: tag :: fields) ++ checkBytes (byte (fields.length + 2) :: kind :: tag :: fields)).take
      (fields.length + 2) = kind :: tag :: fields := List.take_left' rfl
  have hcheck : ((kind :: tag :: fields) ++ checkBytes (byte (fields.length + 2) :: kind :: tag :: fields)).drop
      (fields.length + 2) = checkBytes (byte (fields.length + 2) :: kind :: tag :: fields) := List.drop_left' rfl
  rw [hpayload, hcheck, crcBytes_eq, if_pos rfl]
  dsimp only
  rw [takeFrame_buffer _ _ _ _ _ _ _ receive]

/-- R165: FRAME_CRC_FAIL on a port that takes bytes. -/
theorem frameCrcFail_listening {p : Port} {s : State} (h : (s.ports.get p).listening = true) :
    exec (.frameCrcFail p) s = .next (s.crcFail p) := congrArg _ (if_pos h)

/-- Settles O7. -/
theorem badFrameIsDroppedWithAFault : Obligations.BadFrameIsDroppedWithAFault := by
  refine fun p s => ⟨fun h => frameCrcFail_listening ((listening_iff _).mpr h), fun b n receive hlen hlast hcheck => ?_⟩
  rw [frameCrcFail_listening ((listening_iff _).mpr (.inr receive)), byteArrival_data receive hlen]
  unfold State.holdByte
  dsimp only
  rw [if_pos (by rw [List.length_append, List.length_singleton]; exact hlast)]
  unfold State.completeFrame
  rw [crcBytes_eq, if_neg hcheck, crcFail_buffer]

/-- R165, R166: what the commands of a port do in each of its states. -/
theorem framingError_receive {p : Port} {s : State} (h : (s.ports.get p).state = .receive) :
    exec (.framingError p) s = .next (s.crcFail p) := by
  show execFramingError p s = _
  unfold execFramingError; rw [h]; rfl

theorem framingError_other {p : Port} {s : State} (h : (s.ports.get p).state ≠ .receive) :
    exec (.framingError p) s = .next s := by
  show execFramingError p s = _
  unfold execFramingError
  split
  · exact absurd ‹_› h
  all_goals rfl

theorem replySent_reply {p : Port} {s : State} (h : (s.ports.get p).state = .reply) :
    exec (.replySent p) s = .next (s.dropFrame p) := by
  show execReplySent p s = _
  unfold execReplySent; rw [h]; rfl

theorem replySent_other {p : Port} {s : State} (h : (s.ports.get p).state ≠ .reply) : exec (.replySent p) s = .next s := by
  show execReplySent p s = _
  unfold execReplySent
  split
  · exact absurd ‹_› h
  all_goals rfl

/-- Settles O8. -/
theorem portsReturnToHunt : Obligations.PortsReturnToHunt := by
  intro p s
  refine ⟨fun receive => ⟨⟨_, framingError_receive receive, ?_, ?_, rfl, ?_, crcFail_only s p⟩, congrArg _ (if_pos receive)⟩,
    fun reply => replySent_reply reply, fun h => ⟨framingError_other h, congrArg _ (if_neg h)⟩, fun h => replySent_other h⟩
  · rfl
  · intro q; exact PerPort.get_mapWith ..
  · exact raise_reports (modPort_only s p _) (by decide) _ _

/-- Settles O9: a request served leaves its port LIVE with the count at 0, so that no silence can be over. -/
theorem portBecomesSilent : Obligations.PortBecomesSilent := by
  intro p s
  have silenced : ∀ {u : State}, (u.ports.get p).silenceOver = true → exec (.portSilent p) u = .next (u.silence p) :=
    fun h => congrArg _ (if_pos h)
  have left : ∀ {u : State}, ¬ (u.ports.get p).silenceOver = true → exec (.portSilent p) u = .next u :=
    fun h => congrArg _ (if_neg h)
  refine ⟨fun hlive hlimit hcount => ⟨_, silenced ((silenceOver_iff _).mpr ⟨hlive, hlimit, hcount⟩), ?_, ?_, ?_, silence_only s p⟩,
    fun h => left fun hover => ?_, fun kind tag fields hlisten => ?_⟩
  · rfl
  · rfl
  · intro f; cases f <;> rfl
  · obtain ⟨hlive, hlimit, hcount⟩ := (silenceOver_iff _).mp hover
    rcases h with h | h | h
    · rw [hlive] at h; cases h
    · exact hlimit h
    · omega
  · obtain ⟨hlive, hcount⟩ := takeFrame_live p kind tag fields s hlisten
    refine ⟨_, exec_requestOf p kind tag fields s, hlive, hcount, left fun hover => ?_⟩
    obtain ⟨_, hlimit, hover⟩ := (silenceOver_iff _).mp hover
    rw [hcount] at hover
    omega

/-! ## Good frames (R165, R167, R170) -/

/-- R165, R170: a port whose buffer is empty, whose count is 0 and which is LIVE, the faces marked where it was SILENT. -/
def State.madeLive (s : State) (p : Port) : State :=
  { s with
    ports := s.ports.set p { s.ports.get p with len := none, data := [], gap := 0, count := 0, silent := false }
    faces := ⟨{ s.faces.a with dirty := s.faces.a.dirty || (s.ports.get p).silent },
      { s.faces.b with dirty := s.faces.b.dirty || (s.ports.get p).silent }⟩ }

theorem acceptFrame_madeLive (s : State) (p : Port) : (s.madeLive p).acceptFrame p = s.acceptFrame p := by
  have live : ((s.madeLive p).ports.get p).silent = false := by
    unfold State.madeLive; rw [PerPort.get_set_same]
  have port : ((s.madeLive p).ports.get p).accepted = (s.ports.get p).accepted := by
    unfold State.madeLive; rw [PerPort.get_set_same]; rfl
  have accepted : (s.madeLive p).acceptFrame p
      = { s.madeLive p with ports := (s.madeLive p).ports.set p ((s.madeLive p).ports.get p).accepted } := by
    unfold State.acceptFrame
    rw [live, if_neg (by decide)]; rfl
  rw [accepted, port]
  unfold State.acceptFrame
  cases hsilent : (s.ports.get p).silent
  · rw [if_neg (by decide)]
    unfold State.madeLive
    rw [hsilent]
    cases p <;> simp [State.modPort, PerPort.set, LinkPort.accepted]
  · rw [if_pos rfl]
    unfold State.madeLive
    rw [hsilent]
    rw [Bool.or_true, Bool.or_true]
    cases p <;> rfl

/-- Settles O10: a request sees the state only as the accepted frame leaves it. -/
theorem goodFrameMakesThePortLive : Obligations.GoodFrameMakesThePortLive := by
  intro p kind tag fields s hlisten
  show exec (requestOf p kind tag fields) s = exec (requestOf p kind tag fields) (s.madeLive p)
  obtain ⟨work, hwork⟩ := takeFrame_served p kind tag fields
  rw [exec_requestOf, exec_requestOf, hwork, hwork]
  have still : ((s.madeLive p).ports.get p).listening = true := by
    unfold State.madeLive; rw [PerPort.get_set_same]; exact hlisten
  unfold State.serveWith
  rw [if_pos hlisten, if_pos still, acceptFrame_madeLive]

/-- Settles O11. -/
theorem loadingAnswersNotReady : Obligations.LoadingAnswersNotReady := by
  intro p kind tag fields s hlisten hloading
  obtain ⟨work, hwork⟩ := takeFrame_served p kind tag fields
  have hexec : exec (requestOf p kind tag fields) s = .next ((s.acceptFrame p).sendReply p kind tag (.plain .notReady)) := by
    rw [exec_requestOf, hwork, serveWith_loading hlisten hloading]
  have hserved : Served s ((s.acceptFrame p).sendReply p kind tag (.plain .notReady)) p kind tag (.plain .notReady) :=
    served rfl _ _ _
  refine ⟨_, hexec, hserved, touches (OnlyIn.refl [] _) _ _ _, ?_⟩
  dsimp only
  rw [hserved, PerPort.get_set_same]
  rfl

/-- Settles O12. -/
theorem busyPortDiscards : Obligations.BusyPortDiscards := by
  intro p kind tag b fields s hbusy
  have deaf : ¬ (s.ports.get p).listening = true := by
    rw [listening_iff]
    rcases hbusy with h | h <;> rw [h] <;> decide
  obtain ⟨work, hwork⟩ := takeFrame_served p kind tag fields
  refine ⟨?_, byteArrival_busy hbusy, framingError_other ?_, congrArg _ (if_neg deaf)⟩
  · rw [exec_requestOf, hwork, serveWith_busy (Bool.eq_false_iff.mpr deaf)]
  · rcases hbusy with h | h <;> rw [h] <;> decide

end Sys2Proof.Machine
end

section
/-! PROOFS. The requests of the departure table (chapters 1 to 3): PUT DEPARTURE, AMEND, AMEND IF RESERVED, WITHDRAW
DEPARTURE, PIN, UNPIN. -/

namespace Sys2Proof.Machine

section
variable {s : State} {p : Port} {tag : Byte} {fields : List Byte}

/-! ## What a request leaves of the state it found -/

theorem LosesReservations.of_before {m t : State} {code : Nat} {o : Origin} (h : LosesReservations m t code o) {ps : List Part}
    (ho : OnlyIn ps s m) (hps : ∀ q ∈ [Part.reservations, .events], q ∉ ps := by decide) : LosesReservations s t code o := by
  intro x
  have hx := h x
  rw [ho .reservations (hps _ (by decide)), ho .events (hps _ (by decide))] at hx
  exact hx

theorem record?_answered {t : State} {code : Nat} {x : Option Departure} (h : t.record? code = x) (p : Port) (kind tag : Byte)
    (r : Reply) : (t.sendReply p kind tag r).record? code = x := (sendReply_record? ..).trans h

theorem OthersSame.answered {t : State} {code : Nat} (h : OthersSame (s.acceptFrame p) t code) (kind tag : Byte) (r : Reply) :
    OthersSame s (t.sendReply p kind tag r) code := fun c hc => record?_answered ((h c hc).trans (acceptFrame_record? ..)) _ _ _ _

theorem LosesReservations.answered {t : State} {code : Nat} {o : Origin} (h : LosesReservations (s.acceptFrame p) t code o)
    (kind tag : Byte) (r : Reply) : LosesReservations s (t.sendReply p kind tag r) code o := h.of_accept.sendReply _ _ _ _

/-! ## PUT DEPARTURE (R8 to R10) -/

section
variable {q : PutRequest} (hq : parsePut fields = .ok q)
include hq

theorem takePutDeparture_tableFull (hn : s.record? q.code = none) (ha : s.allows p .depart [q.platform]) (hfull : 48 ≤ s.table.length) :
    takePutDeparture p fields s = (s, .plain .tableFull) := by
  unfold takePutDeparture
  rw [withOperands_ok hq, hn, withRights_ok (pls := platformsFor none (some q.platform)) ha]
  exact if_pos hfull

theorem takePutDeparture_poolFull (hn : s.record? q.code = none) (ha : s.allows p .depart [q.platform])
    (hroom : s.table.length < 48) (hpool : s.freeStops < q.stops.length) :
    takePutDeparture p fields s = (s, .plain .poolFull) := by
  unfold takePutDeparture
  rw [withOperands_ok hq, hn, withRights_ok (pls := platformsFor none (some q.platform)) ha]
  exact (if_neg (Nat.not_le.mpr hroom)).trans (if_pos hpool)

theorem takePutDeparture_inserts (hn : s.record? q.code = none) (ha : s.allows p .depart [q.platform])
    (hroom : s.table.length < 48) (hpool : q.stops.length ≤ s.freeStops) :
    takePutDeparture p fields s = (s.insertDeparture (recordOf q p), .plain .ok) := by
  unfold takePutDeparture
  rw [withOperands_ok hq, hn, withRights_ok (pls := platformsFor none (some q.platform)) ha]
  exact (if_neg (Nat.not_le.mpr hroom)).trans (if_neg (Nat.not_lt.mpr hpool))

variable {old : Departure}

theorem takePutDeparture_replaces (hold : s.record? q.code = some old)
    (ha : s.allows p .depart (platformsFor (some old) (some q.platform))) (hpool : q.stops.length ≤ s.freeStops + old.stops.length) :
    takePutDeparture p fields s = (s.replaceDeparture old (q.replacing old p) (.port p), .plain .ok) := by
  unfold takePutDeparture
  rw [withOperands_ok hq, hold, withRights_ok ha]
  exact if_neg (Nat.not_lt.mpr hpool)

theorem takePutDeparture_noStops (hold : s.record? q.code = some old)
    (ha : s.allows p .depart (platformsFor (some old) (some q.platform))) (hpool : s.freeStops + old.stops.length < q.stops.length) :
    takePutDeparture p fields s = (s, .plain .poolFull) := by
  unfold takePutDeparture
  rw [withOperands_ok hq, hold, withRights_ok ha]
  exact if_pos hpool

end

/-- R8: what an insert does. -/
theorem insertDeparture_spec (s : State) {r : Departure} (hn : s.record? r.code = none) (hpool : r.stops.length ≤ s.freeStops) :
    (s.insertDeparture r).table = insertRecord s.params.ro r s.table ∧ (s.insertDeparture r).record? r.code = some r ∧
      OthersSame s (s.insertDeparture r) r.code ∧ (s.insertDeparture r).freeStops + r.stops.length = s.freeStops ∧
      TouchWakes s (s.insertDeparture r) [r.platform] false ∧
      OnlyIn ([.table, .freeStops] ++ faceParts) s (s.insertDeparture r) := by
  obtain ⟨m, hm⟩ : ∃ m, m = { s with table := insertRecord s.params.ro r s.table, freeStops := s.freeStops - r.stops.length } := ⟨_, rfl⟩
  have he : s.insertDeparture r = m.touch [r.platform] := by rw [hm]; rfl
  have only : OnlyIn [.table, .freeStops] s m := by
    rw [hm]; intro q hq; cases q <;> first | rfl | exact absurd (by decide) hq
  have touched := touch_only m [r.platform]
  have table : (s.insertDeparture r).table = insertRecord s.params.ro r s.table := by rw [he, touched.table, hm]
  refine ⟨table, ?_, fun c hc => ?_, ?_, ?_, ?_⟩
  · rw [record?_eq, table]; exact findCode_insert_same _ _ _ hn
  · rw [record?_eq, table, findCode_insert_other _ _ _ hc]; rfl
  · rw [he, touched.freeStops, hm]; exact Nat.sub_add_cancel hpool
  · rw [he]; exact (touch_wakes m _).before only
  · rw [he]; exact (only.mono (by decide)).trans (touched.mono (by decide))

/-- R9: what a replacement does. -/
theorem replaceDeparture_spec (s : State) {old new : Departure} (o : Origin) (hc : new.code = old.code)
    (hpool : new.stops.length ≤ s.freeStops + old.stops.length) :
    (s.replaceDeparture old new o).record? old.code = some new ∧ OthersSame s (s.replaceDeparture old new o) old.code ∧
      (s.replaceDeparture old new o).freeStops + new.stops.length = s.freeStops + old.stops.length ∧
      LosesReservations s (s.replaceDeparture old new o) old.code o ∧
      TouchWakes s (s.replaceDeparture old new o) [old.platform, new.platform] false ∧
      OnlyIn ([.table, .freeStops, .reservations, .events] ++ faceParts) s (s.replaceDeparture old new o) := by
  obtain ⟨m, hm⟩ : ∃ m, m = { s with
      table := insertRecord s.params.ro new (withoutRecord old.code s.table)
      freeStops := s.freeStops + old.stops.length - new.stops.length } := ⟨_, rfl⟩
  have he : s.replaceDeparture old new o = (m.loseReservations old.code o).touch [old.platform, new.platform] := by rw [hm]; rfl
  have only : OnlyIn [.table, .freeStops] s m := by
    rw [hm]; intro q hq; cases q <;> first | rfl | exact absurd (by decide) hq
  have lost := loseReservations_only m old.code o
  have touched := touch_only (m.loseReservations old.code o) [old.platform, new.platform]
  have table : (s.replaceDeparture old new o).table = insertRecord s.params.ro new (withoutRecord old.code s.table) := by
    rw [he, touched.table, lost.table, hm]
  have gone := findCode_without_same old.code s.table
  refine ⟨?_, fun c hne => ?_, ?_, ?_, ?_, ?_⟩
  · rw [record?_eq, table, ← hc]
    exact findCode_insert_same _ _ _ (by rw [hc]; exact gone)
  · rw [record?_eq, table, findCode_insert_other _ _ _ (by rw [hc]; exact hne), findCode_without_other _ hne]; rfl
  · rw [he, touched.freeStops, lost.freeStops, hm]; exact Nat.sub_add_cancel hpool
  · intro x
    rw [he, touched.reservations, touched.events]
    exact LosesReservations.of_before (loseReservations_loses m old.code o) only (by decide) x
  · rw [he]; exact (touch_wakes _ _).before ((only.mono (by decide)).trans (lost.mono (by decide) : OnlyIn
      [.table, .freeStops, .reservations, .events] _ _))
  · rw [he]; exact ((only.mono (by decide)).trans (lost.mono (by decide))).trans (touched.mono (by decide))

end

/-- Settles O15: the order of the keys, then the insert seen through its frame and its reply. -/
theorem putDepartureInserts : Obligations.PutDepartureInserts := by
  refine ⟨fun ro hro => ⟨serviceKey_eq hro, fun x y => ?_, fun r table => ⟨insertRecord_perm ro r table, insertRecord_ordered ro r table⟩⟩,
    fun p tag fields q s hready hq habsent hallowed hroom hpool => ?_⟩
  · rw [before_iff]
    unfold Departure.key
    rw [serviceKey_eq hro, serviceKey_eq hro]
  · have hn : (s.acceptFrame p).record? (recordOf q p).code = none := (acceptFrame_record? ..).trans habsent
    obtain ⟨table, record, others, stops, wakes, only⟩ := insertDeparture_spec (s.acceptFrame p) hn (by rw [acceptFrame_freeStops]; exact hpool)
    have htake := takePutDeparture_inserts hq hn (acceptFrame_allows hallowed) (by rw [acceptFrame_table]; exact hroom)
      (by rw [acceptFrame_freeStops]; exact hpool)
    obtain ⟨hnext, hserved, honly⟩ := serve_answers hready (c := .putDeparture p tag fields) rfl htake only
    refine ⟨_, hnext, hserved, ?_, record?_answered record _ _ _ _, others.answered _ _ _, ?_, wakes.reply _ _ _, honly.mono (by decide)⟩
    · rw [State.sendReply_table, table, acceptFrame_params, acceptFrame_table]
    · rw [State.sendReply_freeStops]; exact stops.trans (acceptFrame_freeStops ..)

/-- Settles O16. -/
theorem putDepartureReplaces : Obligations.PutDepartureReplaces := by
  intro p tag fields q old s hready hq hold hallowed hpool
  obtain ⟨hcode, _⟩ := findCode_some hold
  have hold' : (s.acceptFrame p).record? q.code = some old := (acceptFrame_record? ..).trans hold
  have hpool' : q.stops.length ≤ (s.acceptFrame p).freeStops + old.stops.length := by rw [acceptFrame_freeStops]; exact hpool
  obtain ⟨record, others, stops, lost, wakes, only⟩ :=
    replaceDeparture_spec (s.acceptFrame p) (new := q.replacing old p) (.port p) hcode.symm hpool'
  have htake := takePutDeparture_replaces hq hold' (platforms_allow hallowed) hpool'
  obtain ⟨hnext, hserved, honly⟩ := serve_answers hready (c := .putDeparture p tag fields) rfl htake only
  rw [hcode] at record others lost
  refine ⟨_, hnext, hserved, record?_answered record _ _ _ _, others.answered _ _ _, ?_, lost.answered _ _ _, wakes.reply _ _ _, honly.mono (by decide)⟩
  rw [State.sendReply_freeStops, ← acceptFrame_freeStops s p]
  exact stops

/-- Settles O17: each refusal leaves the state that accepted the frame. -/
theorem putDepartureCapacity : Obligations.PutDepartureCapacity := by
  intro p tag fields q s hready hq
  refine ⟨fun habsent hallowed hfull => ?_, fun habsent hallowed hroom hpool => ?_, fun old hold hallowed hpool => ?_⟩
  · exact answers_plain hready rfl (takePutDeparture_tableFull hq ((acceptFrame_record? ..).trans habsent)
      (acceptFrame_allows hallowed) (by rw [acceptFrame_table]; exact hfull))
  · exact answers_plain hready rfl (takePutDeparture_poolFull hq ((acceptFrame_record? ..).trans habsent)
      (acceptFrame_allows hallowed) (by rw [acceptFrame_table]; exact hroom) (by rw [acceptFrame_freeStops]; exact hpool))
  · exact answers_plain hready rfl (takePutDeparture_noStops hq ((acceptFrame_record? ..).trans hold)
      (platforms_allow hallowed) (by rw [acceptFrame_freeStops]; exact hpool))

/-! ## Changes and removals of one record (R12, R22) -/

section
variable {s : State} {p : Port}

/-- R12: a change by a request on the state that accepted its frame. -/
theorem changesRecord_accepted {r new : Departure} (hr : s.record? r.code = some r) (hc : new.code = r.code) (kind tag : Byte) :
    ChangesRecord s (((s.acceptFrame p).changeRecord r new (.port p)).sendReply p kind tag (.plain .ok)) r
      { new with revision := new.revision + 1, writer := .port p } p := by
  have hr' : (s.acceptFrame p).record? r.code = some r := (acceptFrame_record? ..).trans hr
  obtain ⟨record, others, codes, lost, wakes⟩ := changeRecord_spec (s.acceptFrame p) r new (.port p) hc
    (by rw [← record?_eq, hr']; simp)
  have only := ((acceptFrame_only s p).mono (qs := [.table, .reservations, .events, .ports] ++ faceParts) (by decide)).trans
    ((changeRecord_only _ r new (.port p)).mono (by decide))
  refine ⟨record?_answered record _ _ _ _, others.answered _ _ _, ?_, lost.answered _ _ _, wakes.reply _ _ _,
    only.trans ((sendReply_only _ _ _ _ _).mono (by decide))⟩
  rw [State.sendReply_table, codes, acceptFrame_table]

/-- R22: a removal by a request on the state that accepted its frame. -/
theorem removesRecord_accepted (r : Departure) (kind tag : Byte) :
    RemovesRecord s (((s.acceptFrame p).removeRecord r (.port p)).sendReply p kind tag (.plain .ok)) r p := by
  obtain ⟨record, others, stops, pins, lost, wakes⟩ := removeRecord_spec (s.acceptFrame p) r (.port p)
  have only := ((acceptFrame_only s p).mono (qs := [.table, .freeStops, .pinCount, .reservations, .events, .ports] ++ faceParts)
    (by decide)).trans ((removeRecord_only _ r (.port p)).mono (by decide))
  refine ⟨record?_answered record _ _ _ _, others.answered _ _ _, ?_, ?_, lost.answered _ _ _, wakes.reply _ _ _,
    only.trans ((sendReply_only _ _ _ _ _).mono (by decide))⟩
  · rw [State.sendReply_freeStops, stops, acceptFrame_freeStops]
  · rw [State.sendReply_pinCount, pins, acceptFrame_pinCount]

/-! ## AMEND (R11 to R13) -/

variable {fields : List Byte} {q : AmendRequest} {r : Departure}

theorem takeAmend_found (hq : parseAmend fields = .ok q) (hr : s.record? q.code = some r)
    (ha : s.allows p .status (platformsFor (some r) q.platform.toOption)) :
    takeAmend p fields s = (s.amendRecord q r p, .plain .ok) := by
  unfold takeAmend
  rw [withOperands_ok hq, hr, withRights_ok ha]

theorem amendRecord_departed (h : q.status = .departed) : s.amendRecord q r p = s.removeRecord r (.port p) := by
  unfold State.amendRecord; rw [h]

theorem amendRecord_same (h : q.status ≠ .departed) (hsame : q.applied r = r) : s.amendRecord q r p = s := by
  unfold State.amendRecord
  split
  · exact absurd ‹_› h
  all_goals exact if_pos hsame

theorem amendRecord_changes (h : q.status ≠ .departed) (hchange : q.applied r ≠ r) :
    s.amendRecord q r p = s.changeRecord r (q.applied r) (.port p) := by
  unfold State.amendRecord
  split
  · exact absurd ‹_› h
  all_goals exact if_neg hchange

theorem takeAmendIfReserved_reserved (hq : parseAmend fields = .ok q) (hr : s.record? q.code = some r)
    (ha : s.allows p .status (platformsFor (some r) q.platform.toOption)) (hres : s.reservations.get p = some q.code) :
    takeAmendIfReserved p fields s = ((s.setReservation p none).amendRecord q r p, .plain .ok) := by
  unfold takeAmendIfReserved
  rw [withOperands_ok hq, hr, withRights_ok ha]
  exact if_pos hres

theorem takeAmendIfReserved_lost (hq : parseAmend fields = .ok q) (hr : s.record? q.code = some r)
    (ha : s.allows p .status (platformsFor (some r) q.platform.toOption)) (hres : s.reservations.get p ≠ some q.code) :
    takeAmendIfReserved p fields s = (s.setReservation p none, .plain .lost) := by
  unfold takeAmendIfReserved
  rw [withOperands_ok hq, hr, withRights_ok ha]
  exact if_neg hres

end

/-! ### The action bytes (R172) -/

/-- R11: an action of a field that may be absent. -/
theorem readAction_le {b : Byte} (h : ¬ 2 < b) (value : Option Nat) : ∃ a, readAction b value = some a ∧
    ∀ old, a.apply old = if b = 1 then value else if b = 2 then none else old := by
  have hb : b = 0 ∨ b = 1 ∨ b = 2 := by revert b; decide
  rcases hb with rfl | rfl | rfl
  · exact ⟨.leave, rfl, fun _ => rfl⟩
  · exact ⟨.set value, rfl, fun _ => rfl⟩
  · exact ⟨.set none, rfl, fun _ => rfl⟩

theorem readStatusAction_le {b : Byte} (h : ¬ 3 < b) : ∃ a, readStatusAction b = some a ∧ (a = .departed ↔ b = 3) ∧
    ∀ (q : AmendRequest) (r : Departure), q.status = a →
      (q.applied r).status = if b = 1 then .running else if b = 2 then .cancelled else r.status := by
  have hb : b = 0 ∨ b = 1 ∨ b = 2 ∨ b = 3 := by revert b; decide
  rcases hb with rfl | rfl | rfl | rfl
  · exact ⟨.leave, rfl, by decide, fun q r hq => by unfold AmendRequest.applied; rw [hq]; rfl⟩
  · exact ⟨.set .running, rfl, by decide, fun q r hq => by unfold AmendRequest.applied; rw [hq]; rfl⟩
  · exact ⟨.set .cancelled, rfl, by decide, fun q r hq => by unfold AmendRequest.applied; rw [hq]; rfl⟩
  · exact ⟨.departed, rfl, by decide, fun q r hq => by unfold AmendRequest.applied; rw [hq]; rfl⟩

theorem readApproachAction_le {b : Byte} (h : ¬ 2 < b) : ∃ a, readApproachAction b = some a ∧
    ∀ old, a.apply old = if b = 1 then true else if b = 2 then false else old := by
  have hb : b = 0 ∨ b = 1 ∨ b = 2 := by revert b; decide
  rcases hb with rfl | rfl | rfl
  · exact ⟨.leave, rfl, fun _ => rfl⟩
  · exact ⟨.set true, rfl, fun _ => rfl⟩
  · exact ⟨.set false, rfl, fun _ => rfl⟩

theorem clampDelay_bytes (d1 d0 : Byte) : clampDelay (nat16 d1 d0) =
    if d1 = 0xFF ∧ d0 = 0xFF then none else some (min (d1.toNat * 256 + d0.toNat) 999) := by
  have absent : nat16 d1 d0 = 0xFFFF ↔ d1 = 0xFF ∧ d0 = 0xFF := by
    unfold nat16
    have h1 := d1.isLt
    have h0 := d0.isLt
    constructor
    · intro h
      exact ⟨BitVec.eq_of_toNat_eq (show d1.toNat = 255 by omega), BitVec.eq_of_toNat_eq (show d0.toNat = 255 by omega)⟩
    · rintro ⟨rfl, rfl⟩; rfl
  unfold clampDelay readOptional16
  simp only [absent]
  split
  · rfl
  · rfl

theorem clampCarriages_byte (b : Byte) : clampCarriages b = if b = 0 then none else some (min b.toNat 16) := by
  have absent : b.toNat = 0 ↔ b = 0 := (BitVec.toNat_eq (y := 0)).symm
  unfold clampCarriages readOptional8
  simp only [absent]
  split <;> rfl

/-- Settles O18: what an AMEND finds, and how its ten bytes are read. -/
theorem amendChangesTheRecordInPlace : Obligations.AmendChangesTheRecordInPlace := by
  refine ⟨fun p tag fields q r s hready hq hstatus hr hallowed => ?_, fun c1 c0 da d1 d0 sa pl aa ca cv => ?_⟩
  · obtain ⟨hcode, _⟩ := findCode_some hr
    have htake := takeAmend_found (p := p) hq ((acceptFrame_record? s p _).trans hr) (amend_allow hallowed)
    refine ⟨fun hchange => ?_, fun hsame => ?_⟩
    · rw [amendRecord_changes hstatus hchange] at htake
      obtain ⟨hnext, hserved, _⟩ := serve_answers hready (c := .amend p tag fields) rfl htake (changeRecord_only _ _ _ _)
      have hr0 : s.record? r.code = some r := by rw [hcode]; exact hr
      exact ⟨_, hnext, hserved, changesRecord_accepted (new := q.applied r) hr0 rfl 0x02 tag⟩
    · rw [amendRecord_same hstatus hsame] at htake
      exact answers_plain hready rfl htake
  · refine ⟨parseAmend_bad c1 c0 da d1 d0 sa pl aa ca cv, fun hgood => ?_⟩
    simp only [not_or] at hgood
    obtain ⟨hcode, hda, hsa, hpl, haa, hca⟩ := hgood
    obtain ⟨delay, hdelay, delay_eq⟩ := readAction_le hda (clampDelay (nat16 d1 d0))
    obtain ⟨status, hstatus, departed, status_eq⟩ := readStatusAction_le hsa
    obtain ⟨approaching, happroaching, approaching_eq⟩ := readApproachAction_le haa
    obtain ⟨carriages, hcarriages, carriages_eq⟩ := readAction_le hca (clampCarriages cv)
    have nonZero : nat16 c1 c0 ≠ 0 := fun hz => by
      unfold nat16 at hz
      exact hcode ⟨BitVec.eq_of_toNat_eq (show c1.toNat = 0 by omega), BitVec.eq_of_toNat_eq (show c0.toNat = 0 by omega)⟩
    have platform : pl.toNat ≤ 31 := Nat.not_lt.mp hpl
    have zero : pl.toNat = 0 ↔ pl = 0 := (BitVec.toNat_eq (y := 0)).symm
    obtain ⟨q, hq⟩ : ∃ q : AmendRequest, q = ⟨nat16 c1 c0, delay, status, if pl.toNat = 0 then .leave else .set pl.toNat, approaching, carriages⟩ := ⟨_, rfl⟩
    refine ⟨q, ?_, by rw [hq]; rfl, by rw [hq]; exact departed, ?_, fun r => ?_⟩
    · unfold parseAmend
      dsimp only
      rw [hdelay, hstatus, happroaching, hcarriages]
      exact (if_pos (by simp [nonZero, platform])).trans (congrArg _ hq.symm)
    · rw [hq]
      simp only [zero]
      split <;> rfl
    · have applied : q.applied r = { r with
          delay := q.delay.apply r.delay, status := (q.applied r).status, platform := q.platform.apply r.platform,
          approaching := q.approaching.apply r.approaching, carriages := q.carriages.apply r.carriages } := rfl
      rw [applied, status_eq q r (by rw [hq]), hq]
      dsimp only
      rw [delay_eq, approaching_eq, carriages_eq, clampDelay_bytes, clampCarriages_byte]
      simp only [zero]
      split <;> rfl

/-- Settles O19. -/
theorem departedAndWithdrawRemoveTheRecord : Obligations.DepartedAndWithdrawRemoveTheRecord := by
  intro p tag fields code r s hready hr
  refine ⟨fun q hq hcode hdeparted hallowed => ?_, fun hcode hallowed => ?_⟩
  · subst hcode
    have htake := takeAmend_found (p := p) hq ((acceptFrame_record? s p _).trans hr) (amend_allow hallowed)
    rw [amendRecord_departed hdeparted] at htake
    obtain ⟨hnext, hserved, _⟩ := serve_answers hready (c := .amend p tag fields) rfl htake (removeRecord_only _ _ _)
    exact ⟨_, hnext, hserved, removesRecord_accepted _ _ _⟩
  · have htake : takeWithdrawDeparture p fields (s.acceptFrame p) = ((s.acceptFrame p).removeRecord r (.port p), .plain .ok) :=
      takeOnRecord_found hcode ((acceptFrame_record? s p _).trans hr) (acceptFrame_allows hallowed)
    obtain ⟨hnext, hserved, _⟩ := serve_answers hready (c := .withdrawDeparture p tag fields) rfl htake (removeRecord_only _ _ _)
    exact ⟨_, hnext, hserved, removesRecord_accepted _ _ _⟩

/-- Settles O20: the own reservation goes first, and the amendment is then made where it named the record. -/
theorem amendIfReservedNeedsTheReservation : Obligations.AmendIfReservedNeedsTheReservation := by
  intro p tag fields q r s hready hq hr hallowed
  obtain ⟨hcode, _⟩ := findCode_some hr
  have hr' := (acceptFrame_record? s p _).trans hr
  have only := setReservation_only (s.acceptFrame p) p none
  have reserved : s.reservations.get p = some q.code → takeAmendIfReserved p fields (s.acceptFrame p)
      = (((s.acceptFrame p).setReservation p none).amendRecord q r p, .plain .ok) := fun hres =>
    takeAmendIfReserved_reserved hq hr' (amend_allow hallowed) (by rw [acceptFrame_reservations]; exact hres)
  have dropped : s.reservations.get p = some q.code → ∀ x, ((s.acceptFrame p).setReservation p none).reservations.get x
      = if x = p ∧ s.reservations.get x = some r.code then none else s.reservations.get x := fun hres x => by
    rw [State.setReservation_reservations, acceptFrame_reservations, PerPort.get_set]
    by_cases hx : x = p
    · rw [if_pos hx, if_pos ⟨hx, by rw [hx, hcode]; exact hres⟩]
    · rw [if_neg hx, if_neg fun h => hx h.1]
  have found : ∀ c, ((s.acceptFrame p).setReservation p none).record? c = s.record? c := acceptFrame_record? s p
  have hr0 : s.record? r.code = some r := by rw [hcode]; exact hr
  refine ⟨fun hres hstatus hchange => ?_, fun hres hstatus hsame => ?_, fun hres hdeparted => ?_, fun hres => ?_⟩
  · have htake := reserved hres
    rw [amendRecord_changes hstatus hchange] at htake
    obtain ⟨hnext, hserved, honly⟩ := serve_answers hready (c := .amendIfReserved p tag fields) rfl htake
      ((only.mono (by decide)).trans (changeRecord_only _ _ _ _))
    exact ⟨_, hnext, hserved, changesRecord_request (new := q.applied r) only found (acceptFrame_table ..) (dropped hres)
      (acceptFrame_events ..) hr0 rfl honly⟩
  · have htake := reserved hres
    rw [amendRecord_same hstatus hsame] at htake
    exact answers_reservation hready rfl htake
  · have htake := reserved hres
    rw [amendRecord_departed hdeparted] at htake
    obtain ⟨hnext, hserved, honly⟩ := serve_answers hready (c := .amendIfReserved p tag fields) rfl htake
      ((only.mono (by decide)).trans (removeRecord_only _ _ _))
    exact ⟨_, hnext, hserved, removesRecord_request only found (acceptFrame_freeStops ..) (acceptFrame_pinCount ..)
      (dropped hres) (acceptFrame_events ..) honly⟩
  · exact answers_reservation hready rfl (takeAmendIfReserved_lost hq hr' (amend_allow hallowed)
      (by rw [acceptFrame_reservations]; exact hres))

/-! ## PIN and UNPIN (R15, R16) -/

/-- A request that changes the pin of the record found, and the pin count with it. -/
theorem answers_pin {s : State} {p : Port} (hready : s.ready p) {c : Instr} {kind tag : Byte} {take : State → State × Reply}
    {r : Departure} {pinned : Bool} {count : Nat} (hr : s.record? r.code = some r) (hc : exec c s = .next (s.serve p kind tag take))
    (htake : take (s.acceptFrame p)
      = (State.putInPlace { s.acceptFrame p with pinCount := count } { r with pinned := pinned }, .plain .ok)) :
    ∃ t, exec c s = .next t ∧ Served s t p kind tag (.plain .ok) ∧ t.record? r.code = some { r with pinned := pinned } ∧
      OthersSame s t r.code ∧ t.pinCount = count ∧ RequestTouches [.table, .pinCount] s t p := by
  have only : OnlyIn [.table, .pinCount] (s.acceptFrame p)
      (State.putInPlace { s.acceptFrame p with pinCount := count } { r with pinned := pinned }) := by
    intro q hq; cases q <;> first | rfl | exact absurd (by decide) hq
  obtain ⟨hnext, hserved, _⟩ := serve_answers hready hc htake only
  have table : (State.putInPlace { s.acceptFrame p with pinCount := count } { r with pinned := pinned }).table
      = putIn { r with pinned := pinned } s.table := congrArg _ (acceptFrame_table s p)
  refine ⟨_, hnext, hserved, ?_, fun x hx => ?_, rfl, touches only _ _ _⟩
  · rw [sendReply_record?, record?_eq, table]
    exact findCode_putIn_same (r := { r with pinned := pinned }) (by rw [← record?_eq, hr]; simp)
  · rw [sendReply_record?, record?_eq, table]
    exact findCode_putIn_other (r := { r with pinned := pinned }) _ hx

/-- Settles O21. -/
theorem pinAndUnpin : Obligations.PinAndUnpin := by
  intro p tag fields code r s hready hcode hr hallowed
  obtain ⟨rfl, _⟩ := findCode_some hr
  have onRecord : ∀ k, takeOnRecord p .status fields (s.acceptFrame p) k = k r := fun k =>
    takeOnRecord_found hcode ((acceptFrame_record? s p _).trans hr) (acceptFrame_allows hallowed)
  have count := acceptFrame_pinCount s p
  refine ⟨fun hpin hroom => ?_, fun hpin hfull => ?_, fun hpin => ?_, fun hpin => ?_, fun hpin => ?_⟩
  · refine answers_pin hready hr rfl ((onRecord _).trans ?_)
    rw [if_neg (by rw [hpin]; decide), if_neg (by rw [count]; exact Nat.not_le.mpr hroom), count]
  · refine answers_plain hready rfl ((onRecord _).trans ?_)
    rw [if_neg (by rw [hpin]; decide), if_pos (by rw [count]; exact hfull)]
  · exact answers_plain hready rfl ((onRecord _).trans (if_pos hpin))
  · refine answers_pin hready hr rfl ((onRecord _).trans ?_)
    rw [if_pos hpin, count]
  · exact answers_plain hready rfl ((onRecord _).trans (if_neg (by rw [hpin]; decide)))

end Sys2Proof.Machine
end

section
/-! PROOFS. The first steps of the check order (R167): KINDs outside the catalogue, lengths and fields that do not fit,
codes that are not present and rights that are missing; and the PUT DEPARTURE block (R5). -/

namespace Sys2Proof.Machine

/-! ## Lengths that do not fit (R171) -/

section
variable {fields : List Byte}

theorem parseNone_badLength (h : fields.length ≠ 0) : parseNone fields = .error .badLength := by
  cases fields with
  | nil => exact absurd rfl h
  | cons b rest => rfl

theorem parseByte_badLength (h : fields.length ≠ 1) : parseByte fields = .error .badLength := by
  match fields, h with
  | [], _ => rfl
  | [_], h => exact absurd rfl h
  | _ :: _ :: _, _ => rfl

theorem parseNonZero_badLength (h : fields.length ≠ 1) : parseNonZero fields = .error .badLength := by
  unfold parseNonZero; rw [parseByte_badLength h]; rfl

theorem parsePlatform_badLength (h : fields.length ≠ 1) : parsePlatform fields = .error .badLength := by
  unfold parsePlatform; rw [parseByte_badLength h]; rfl

theorem parseZoneNumber_badLength (h : fields.length ≠ 1) : parseZoneNumber fields = .error .badLength := by
  unfold parseZoneNumber; rw [parseByte_badLength h]; rfl

theorem parseFace_badLength (h : fields.length ≠ 1) : parseFace fields = .error .badLength := by
  unfold parseFace; rw [parseByte_badLength h]; rfl

theorem parseAmend_badLength (h : fields.length ≠ 10) : parseAmend fields = .error .badLength := by
  unfold parseAmend
  split
  · exact absurd rfl h
  · rfl

theorem parseWriteZone_badLength (h : fields.length ≠ 6) : parseWriteZone fields = .error .badLength := by
  unfold parseWriteZone
  split
  · exact absurd rfl h
  · rfl

theorem parseProbe_badLength (h : fields.length ≠ 3) : parseProbe fields = .error .badLength := by
  unfold parseProbe
  split
  · exact absurd rfl h
  · rfl

theorem parseClock_badLength (h : fields.length ≠ 3) : parseClock fields = .error .badLength := by
  unfold parseClock
  split
  · exact absurd rfl h
  · rfl

theorem parseSetFace_badLength (h : fields.length ≠ 9) : parseSetFace fields = .error .badLength := by
  cases fields with
  | nil => rfl
  | cons f block => exact if_pos (bne_iff_ne.mpr fun hb => h (by rw [List.length_cons, hb]))

end

theorem parseNonZero_zero : parseNonZero [0] = .error .badField := rfl

/-! ## SET PARAMETER's operands (R183) -/

theorem ofNumber_row {q : Param} {n : Byte} (h : q.row.number = n.toNat) : Param.ofNumber n.toNat = some q := by
  rw [← h, ← number_row]; exact ofNumber_number q

theorem ofNumber_none {n : Byte} (h : ∀ q : Param, q.row.number ≠ n.toNat) : Param.ofNumber n.toNat = none := by
  cases hq : Param.ofNumber n.toNat with
  | none => rfl
  | some q =>
    have := List.find?_some hq
    exact absurd ((number_row q).symm.trans (by simpa using this)) (h q)

theorem parseSetParameter_number {n : Byte} {value : List Byte} (h : ∀ q : Param, q.row.number ≠ n.toNat) :
    parseSetParameter (n :: value) = .error .badField := by
  unfold parseSetParameter
  dsimp only
  rw [ofNumber_none h]

theorem parseSetParameter_length {n : Byte} {value : List Byte} {q : Param} (hq : q.row.number = n.toNat)
    (hl : value.length ≠ q.row.bytes) : parseSetParameter (n :: value) = .error .badLength := by
  unfold parseSetParameter
  dsimp only
  rw [ofNumber_row hq]
  exact if_pos (by rw [bytes_row]; exact bne_iff_ne.mpr hl)

theorem parseSetParameter_range {n : Byte} {value : List Byte} {q : Param} (hq : q.row.number = n.toNat)
    (hl : value.length = q.row.bytes) (ha : ¬ q.row.takes value) : parseSetParameter (n :: value) = .error .badField := by
  unfold parseSetParameter
  dsimp only
  rw [ofNumber_row hq]
  exact (if_neg (by rw [bytes_row, hl]; simp)).trans (if_neg (by rw [accepts_row q value hl]; exact ha))

/-! ## Requests answered at a first step (R167) -/

section
variable {s : State} {p : Port} {tag : Byte} {fields : List Byte}

/-- R167 steps 1b and 2: operands that do not parse are answered, and nothing else is done. -/
theorem answers_error (hready : s.ready p) {c : Instr} {kind : Byte} {α : Type} {parsed : Parsed α} {code : ReplyCode}
    {k : State → α → State × Reply} (hc : exec c s = .next (s.serve p kind tag fun u => withOperands parsed u (k u)))
    (he : parsed = .error code) :
    ∃ t, exec c s = .next t ∧ Served s t p kind tag (.plain code) ∧ RequestTouches [] s t p :=
  answers_plain hready hc (withOperands_error he _ _)

/-- A request served by other means, when its work only sends a reply. -/
theorem answers_work (hready : s.ready p) {c : Instr} {kind : Byte} {work : State → State} {r : Reply}
    (hc : exec c s = .next (s.serveWith p kind tag work))
    (hw : work (s.acceptFrame p) = (s.acceptFrame p).sendReply p kind tag r) :
    ∃ t, exec c s = .next t ∧ Served s t p kind tag r ∧ RequestTouches [] s t p := by
  refine ⟨_, hc.trans (congrArg _ ((serveWith_ready hready kind tag work).trans hw)), served rfl _ _ _, ?_⟩
  exact touches (OnlyIn.refl [] _) _ _ _

theorem storeSettings_error (hready : s.ready p) {code : ReplyCode} (he : parseNone fields = .error code) :
    ∃ t, exec (.storeSettings p tag fields) s = .next t ∧ Served s t p 0x42 tag (.plain code) ∧ RequestTouches [] s t p := by
  refine answers_work hready rfl ?_
  unfold takeStoreSettings
  rw [he]; rfl

theorem boardRestart_error (hready : s.ready p) {code : ReplyCode} (he : parseNone fields = .error code) :
    ∃ t, exec (.boardRestart p tag fields) s = .next t ∧ Served s t p 0x43 tag (.plain code) ∧ RequestTouches [] s t p := by
  refine answers_work hready rfl ?_
  unfold State.takeBoardRestart
  rw [he]

/-- R171: a KIND outside the catalogue. -/
theorem takeFrame_unknown {kind : Byte} (h : catalogue.contains kind.toNat = false) :
    s.takeFrame p kind tag fields = s.badKind p kind tag := by
  unfold State.takeFrame
  split
  case h_34 => rfl
  all_goals
    rename_i hkind
    rw [hkind] at h
    exact absurd h (by decide)

end

/-- Settles O13: what each parser refuses, and the answer that refusing gives. -/
theorem badKindsAndLengthsAreAnswered : Obligations.BadKindsAndLengthsAreAnswered := by
  intro p tag s hready
  dsimp only
  refine ⟨fun kind fields hkind => ?kind, fun kl hkl fields hlen => ?length, fun fields => ⟨?put, ?place, ?notice⟩,
    ⟨answers_error hready rfl rfl, fun n value => ⟨?number, fun q hq => ⟨?paramLength, ?paramRange⟩⟩⟩,
    fun fields code he => answers_error hready rfl he, fun kf hkf => ?zero, fun n name short hname hshort hbad => ?_,
    fun origin low high hbad => ?_, fun hh mm ss hbad => ?_, fun c1 c0 da d1 d0 sa pl aa ca cv hbad => ?_,
    fun id cls scope targets flash d1 d0 text htext hbad => ?_, fun f first second r1 r2 r3 r4 mode mask hbad => ?_⟩
  case kind =>
    exact answers_plain hready (congrArg _ (takeFrame_unknown hkind)) rfl
  case length =>
    simp only [List.mem_cons, List.not_mem_nil, or_false] at hkl
    rcases hkl with rfl | rfl | rfl | rfl | rfl | rfl | rfl | rfl | rfl | rfl | rfl | rfl | rfl | rfl | rfl | rfl | rfl | rfl
      | rfl | rfl | rfl | rfl | rfl | rfl | rfl | rfl | rfl | rfl | rfl
    · exact answers_error hready rfl (parseAmend_badLength hlen)
    · exact answers_error hready rfl (parseAmend_badLength hlen)
    · exact answers_error hready rfl (parseCode_badLength hlen)
    · exact answers_error hready rfl (parseCode_badLength hlen)
    · exact answers_error hready rfl (parseCode_badLength hlen)
    · exact answers_error hready rfl (parseCode_badLength hlen)
    · exact answers_error hready rfl (parsePlatform_badLength hlen)
    · exact answers_error hready rfl (parseNonZero_badLength hlen)
    · exact answers_error hready rfl (parseNonZero_badLength hlen)
    · exact answers_error hready rfl (parseCode_badLength hlen)
    · exact answers_error hready rfl (parseNone_badLength hlen)
    · exact answers_error hready rfl (parseWriteZone_badLength hlen)
    · exact answers_error hready rfl (parseZoneNumber_badLength hlen)
    · exact answers_error hready rfl (parseProbe_badLength hlen)
    · exact answers_error hready rfl (parseNonZero_badLength hlen)
    · exact answers_error hready rfl (parseNonZero_badLength hlen)
    · exact answers_error hready rfl (parseNone_badLength hlen)
    · exact answers_error hready rfl (parseClock_badLength hlen)
    · exact answers_error hready rfl (parseNone_badLength hlen)
    · exact answers_error hready rfl (parseSetFace_badLength hlen)
    · exact answers_error hready rfl (parseFace_badLength hlen)
    · exact answers_error hready rfl (parseNone_badLength hlen)
    · exact answers_error hready rfl (parseNone_badLength hlen)
    · exact answers_error hready rfl (parseByte_badLength hlen)
    · exact storeSettings_error hready (parseNone_badLength hlen)
    · exact boardRestart_error hready (parseNone_badLength hlen)
    · exact answers_error hready rfl (parseNone_badLength hlen)
    · exact answers_error hready rfl (parseNone_badLength hlen)
    · exact answers_error hready rfl (parseNone_badLength hlen)
  case put => exact fun hlen => answers_error hready rfl (parsePut_badLength fields hlen)
  case place => exact fun hlen => answers_error hready rfl (parsePlace_badLength fields hlen)
  case notice => exact fun hlen => answers_error hready rfl (parseNotice_badLength fields hlen)
  case number => exact fun hn => answers_error hready rfl (parseSetParameter_number hn)
  case paramLength => exact fun hlen => answers_error hready rfl (parseSetParameter_length hq hlen)
  case paramRange => exact fun hlen hbad => answers_error hready rfl (parseSetParameter_range hq hlen hbad)
  case zero =>
    simp only [List.mem_cons, List.not_mem_nil, or_false] at hkf
    have coded : parseCode [0, 0] = .error .badField := parseCode_zero
    have numbered : parseNonZero [0] = .error .badField := parseNonZero_zero
    generalize ([0, 0] : List Byte) = zeros at coded hkf
    generalize ([0] : List Byte) = zero at numbered hkf
    rcases hkf with rfl | rfl | rfl | rfl | rfl | rfl | rfl | rfl | rfl
    · exact answers_error hready rfl coded
    · exact answers_error hready rfl coded
    · exact answers_error hready rfl coded
    · exact answers_error hready rfl coded
    · exact answers_error hready rfl coded
    · exact answers_error hready rfl numbered
    · exact answers_error hready rfl numbered
    · exact answers_error hready rfl numbered
    · exact answers_error hready rfl numbered
  · exact answers_error hready rfl (parsePlace_badField n name short hname hshort hbad)
  · exact answers_error hready rfl (parseProbe_badField origin low high hbad)
  · exact answers_error hready rfl (parseClock_badField hh mm ss hbad)
  · have hparse := parseAmend_bad c1 c0 da d1 d0 sa pl aa ca cv hbad
    exact ⟨answers_error hready rfl hparse, answers_error hready rfl hparse⟩
  · exact answers_error hready rfl (parseNotice_bad id cls scope targets flash d1 d0 text htext hbad)
  · exact answers_error hready rfl (parseSetFace_bad f first second r1 r2 r3 r4 mode mask hbad)

/-! ## The PUT DEPARTURE block (R5, R172) -/

/-- R5: the stops of a block that PUT DEPARTURE accepts. -/
theorem stop_fits_iff (st : Stop) : st.fits = true ↔ 1 ≤ st.place ∧ ∀ m, st.time = some m → m ≤ 1439 := by
  unfold Stop.fits
  cases st.time with
  | none => simp [Nat.one_le_iff_ne_zero]
  | some m => simp [Nat.one_le_iff_ne_zero]; omega

theorem clampDelay_eq {delay : Nat} (h : delay < 65536) :
    clampDelay (nat16 (byte (delay / 256)) (byte delay)) = if delay = 65535 then none else some (min delay 999) := by
  rw [nat16_be16 h]
  unfold clampDelay readOptional16
  split <;> rfl

theorem clampCarriages_eq {n : Nat} (h : n < 256) :
    clampCarriages (byte n) = if n = 0 then none else some (min n 16) := by
  unfold clampCarriages readOptional8
  rw [byte_toNat h]
  split <;> rfl

/-- Settles O14: the fixed fields are matched byte by byte, and the stops that follow are read back. -/
theorem putDepartureBlockIsRead : Obligations.PutDepartureBlockIsRead := by
  intro code scheduled platform dest via delay carriages status approaching revision count stops hcode hscheduled hplatform
    hdest hvia hdelay hcarriages hmany hstops
  have block : stops.flatMap (fun st => byte st.place :: be16 (st.time.getD 65535))
      = stops.flatMap fun st => byte st.place :: optional16 st.time := by simp only [optional16_eq]
  have length := stopBytes_length stops
  have read := readStops_bytes stops hstops
  rw [block]
  generalize stops.flatMap (fun st => byte st.place :: optional16 st.time) = rest at length read
  show parsePut (byte (code / 256) :: byte code :: byte (scheduled / 256) :: byte scheduled :: byte platform :: byte dest
    :: byte via :: byte (delay / 256) :: byte delay :: status :: byte carriages :: approaching :: revision :: count :: rest) = _
  unfold parsePut
  dsimp only
  by_cases hcount : count.toNat = stops.length
  · rw [if_neg (by rw [length, hcount]; simp), if_neg (not_not.mpr hcount), readStatus_eq, readYesNo_eq, read,
      nat16_be16 hcode, nat16_be16 hscheduled, clampDelay_eq hdelay, clampCarriages_eq hcarriages, byte_toNat hplatform,
      byte_toNat hdest]
    unfold readOptional8
    rw [byte_toNat hvia, hcount]
    by_cases hcodes : status ≤ 1 ∧ approaching ≤ 1
    · obtain ⟨hstatus, happroaching⟩ := hcodes
      rw [if_pos hstatus, if_pos happroaching]
      unfold inRange
      refine if_congr ?_ rfl rfl
      simp only [Bool.and_eq_true, bne_iff_ne, decide_eq_true_eq, List.all_eq_true, stop_fits_iff, Config.maxStops]
      constructor
      · rintro ⟨⟨⟨⟨⟨⟨h1, h2⟩, h3⟩, h4⟩, h5⟩, h6⟩, h7⟩
        exact ⟨hstatus, happroaching, Nat.pos_of_ne_zero h1, Nat.le_of_lt_succ h2, Nat.pos_of_ne_zero h3, h4,
          Nat.pos_of_ne_zero h5, of_decide_eq_true h6, h7⟩
      · rintro ⟨_, _, h1, h2, h3, h4, h5, h6, h7⟩
        exact ⟨⟨⟨⟨⟨⟨Nat.ne_of_gt h1, Nat.lt_succ_of_le h2⟩, Nat.ne_of_gt h3⟩, h4⟩, Nat.ne_of_gt h5⟩, decide_eq_true h6⟩, h7⟩
    · rw [if_neg (c := status ≤ 1 ∧ _) fun h => hcodes ⟨h.1, h.2.1⟩]
      by_cases hstatus : status ≤ 1
      · rw [if_pos hstatus, if_neg (c := approaching ≤ 1) fun h => hcodes ⟨hstatus, h⟩]
      · rw [if_neg hstatus]
  · rw [if_pos (by rw [length]; simp; omega), if_pos hcount]

/-! ## Records that are not present and rights that are missing (R7, R47) -/

theorem not_allows_singleton {s : State} {p : Port} {right : Right} {pl : Nat} (h : granted s.zones p right pl = false) :
    ¬ s.allows p right [pl] := fun ha => by
  have := ha pl (List.mem_singleton_self pl)
  rw [h] at this; cases this

/-- R7, R47: a request that names one record, by its kind. -/
theorem answers_onRecord {s : State} {p : Port} (hready : s.ready p) {c : Instr} {kind tag : Byte} {right : Right} {fields : List Byte}
    {k : State → Departure → State × Reply} {code : Nat} (hparse : parseCode fields = .ok code)
    (hc : exec c s = .next (s.serve p kind tag fun u => takeOnRecord p right fields u (k u))) :
    (s.record? code = none →
      ∃ t, exec c s = .next t ∧ Served s t p kind tag (.plain .notFound) ∧ RequestTouches [] s t p) ∧
    (∀ r, s.record? code = some r → granted s.zones p right r.platform = false →
      ∃ t, exec c s = .next t ∧ Served s t p kind tag (.refusal right r.platform) ∧ RequestTouches [] s t p) := by
  refine ⟨fun habsent => ?_, fun r hr hrefused => ?_⟩
  · exact answers_plain hready hc (takeOnRecord_absent hparse ((acceptFrame_record? ..).trans habsent))
  · have hmissing := mt (acceptFrame_allows_iff s p p right [r.platform]).mp (not_allows_singleton hrefused)
    exact answers_plain hready hc (takeOnRecord_refused hparse ((acceptFrame_record? ..).trans hr) hmissing)

/-- Settles O24. -/
theorem recordRequestsRefused : Obligations.RecordRequestsRefused := by
  intro p tag fields code s hready hparse kr hkr
  simp only [List.mem_cons, List.not_mem_nil, or_false] at hkr
  rcases hkr with rfl | rfl | rfl | rfl
  · exact answers_onRecord (right := .depart) hready hparse rfl
  · exact answers_onRecord (right := .status) hready hparse rfl
  · exact answers_onRecord (right := .status) hready hparse rfl
  · exact answers_onRecord (right := .status) hready hparse rfl

end Sys2Proof.Machine
end

section
/-! PROOFS. Places, access zones and notices, and the reads that change nothing (chapters 2, 3, 5). -/

namespace Sys2Proof.Machine

section
variable {s : State} {p : Port} {tag : Byte} {fields : List Byte}

/-- R47: a right missing on platform 0 alone. -/
theorem withRights_refused {right : Right} {pl : Nat} (h : ¬ s.allows p right [pl]) (k : State × Reply) :
    withRights p right [pl] s k = (s, .refusal right pl) := withRights_missing (missing_singleton h) k

/-! ## Places (R29 to R32) -/

theorem parsePlace_block {n : Nat} {name short : List Byte} (hlow : 1 ≤ n) (hhigh : n ≤ 255) (hname : 1 ≤ name.length)
    (hname' : name.length ≤ 24) (hshort : short.length ≤ 12) :
    parsePlace (byte n :: byte name.length :: name ++ byte short.length :: short)
      = .ok ⟨n, ⟨name, if short = [] then none else some short⟩⟩ := by
  have number : (byte n).toNat = n := byte_toNat (by omega)
  have nl : (byte name.length).toNat = name.length := byte_toNat (by omega)
  have sl : (byte short.length).toNat = short.length := byte_toNat (by omega)
  have absent : shortName short = if short = [] then none else some short := by
    unfold shortName; cases short <;> rfl
  rw [List.cons_append, List.cons_append]
  unfold parsePlace
  dsimp only
  rw [nl, List.drop_left, List.take_left]
  dsimp only
  rw [sl, if_neg (by simp), number, absent]
  unfold inRange
  rw [if_pos]
  simp only [Bool.and_eq_true, bne_iff_ne, decide_eq_true_eq]
  exact ⟨⟨⟨Nat.ne_of_gt hlow, Nat.ne_of_gt hname⟩, hname'⟩, hshort⟩

theorem takeWithdrawPlace_defined {n : Nat} {e : Place} (hq : parseNonZero fields = .ok n) (he : s.place? n = some e)
    (ha : s.allows p .depart [0]) : takeWithdrawPlace p fields s = ((s.setPlace n none).markBoth, .plain .ok) := by
  unfold takeWithdrawPlace
  rw [withOperands_ok hq, withRights_ok ha, he]

theorem takeWithdrawPlace_undefined {n : Nat} (hq : parseNonZero fields = .ok n) (he : s.place? n = none)
    (ha : s.allows p .depart [0]) : takeWithdrawPlace p fields s = (s, .plain .notFound) := by
  unfold takeWithdrawPlace
  rw [withOperands_ok hq, withRights_ok ha, he]

theorem takeReadPlace_defined {n : Nat} {e : Place} (hq : parseNonZero fields = .ok n) (he : s.place? n = some e) :
    takeReadPlace fields s = (s, .okWith e.bytes) := by
  unfold takeReadPlace
  rw [withOperands_ok hq, he]

theorem takeReadPlace_undefined {n : Nat} (hq : parseNonZero fields = .ok n) (he : s.place? n = none) :
    takeReadPlace fields s = (s, .plain .notFound) := by
  unfold takeReadPlace
  rw [withOperands_ok hq, he]

/-- A request that writes one entry of the place list, with both faces dirty. -/
theorem answers_place (hready : s.ready p) {c : Instr} {kind : Byte} {take : State → State × Reply} {n : Nat} {e : Option Place}
    (hlow : 1 ≤ n) (hhigh : n ≤ 255) (hc : exec c s = .next (s.serve p kind tag take))
    (htake : take (s.acceptFrame p) = (((s.acceptFrame p).setPlace n e).markBoth, .plain .ok)) :
    ∃ t, exec c s = .next t ∧ Served s t p kind tag (.plain .ok) ∧ t.place? n = e ∧ (∀ m, m ≠ n → t.place? m = s.place? m) ∧
      (∀ f, t.faces.get f = { s.faces.get f with dirty := true }) ∧ OnlyIn [.places, .ports, .faces] s t := by
  have written := setPlace_only (s.acceptFrame p) n e
  have marked := markBoth_only ((s.acceptFrame p).setPlace n e)
  have only : OnlyIn [.places, .faces] (s.acceptFrame p) ((s.acceptFrame p).setPlace n e).markBoth :=
    (written.mono (by decide)).trans (marked.mono (by decide))
  obtain ⟨hnext, hserved, honly⟩ := serve_answers hready hc htake only
  have place : ∀ m, (((s.acceptFrame p).setPlace n e).markBoth.sendReply p kind tag (.plain .ok)).place? m
      = if m = n then e else s.place? m := fun m => by
    rw [sendReply_place?, ← acceptFrame_place? s p m, ← setPlace_place? (s.acceptFrame p) n e hlow hhigh m]
    unfold State.place?
    rw [marked.places]
  refine ⟨_, hnext, hserved, by rw [place, if_pos rfl], fun m hm => by rw [place, if_neg hm], fun f => ?_, honly.mono (by decide)⟩
  rw [State.sendReply_faces, markBoth_face, written.faces, acceptFrame_face]

end

/-- Settles O25. -/
theorem placesAreDefinedWithdrawnAndRead : Obligations.PlacesAreDefinedWithdrawnAndRead := by
  intro p tag n s hready hlow hhigh
  have parsed := parseNonZero_byte hlow hhigh
  refine ⟨fun name short hname hname' hshort hallowed => ?_, fun e he hallowed => ?_, fun he hallowed => ?_, fun e he => ?_,
    fun he => ?_⟩
  · refine answers_place hready hlow hhigh rfl ?_
    unfold takePutPlace
    rw [withOperands_ok (parsePlace_block hlow hhigh hname hname' hshort), withRights_ok (acceptFrame_allows hallowed)]
  · exact answers_place hready hlow hhigh rfl
      (takeWithdrawPlace_defined parsed ((acceptFrame_place? ..).trans he) (acceptFrame_allows hallowed))
  · exact answers_plain hready rfl
      (takeWithdrawPlace_undefined parsed ((acceptFrame_place? ..).trans he) (acceptFrame_allows hallowed))
  · exact answers_reading hready rfl (takeReadPlace_defined parsed ((acceptFrame_place? ..).trans he))
  · exact answers_reading hready rfl (takeReadPlace_undefined parsed ((acceptFrame_place? ..).trans he))

/-! ## Access zones (R48, R49, R51, R52) -/

section
variable {s : State} {p : Port} {tag : Byte} {fields : List Byte}

theorem takeWriteZone_passes {n : Fin 8} {z : Zone} (hq : parseWriteZone fields = .ok (n, z)) (ha : s.allows p .config [0])
    (hl : lockoutPasses (s.zones.set n z) = true) :
    takeWriteZone p fields s = ({ s with zones := s.zones.set n z }, .plain .ok) := by
  unfold takeWriteZone
  rw [withOperands_ok hq, withRights_ok ha]
  exact if_pos hl

theorem takeWriteZone_lockout {n : Fin 8} {z : Zone} (hq : parseWriteZone fields = .ok (n, z)) (ha : s.allows p .config [0])
    (hl : ¬ lockoutPasses (s.zones.set n z) = true) : takeWriteZone p fields s = (s, .plain .lockout) := by
  unfold takeWriteZone
  rw [withOperands_ok hq, withRights_ok ha]
  exact if_neg hl

end

/-- Settles O26. -/
theorem writeZoneUnderTheLockoutTest : Obligations.WriteZoneUnderTheLockoutTest := by
  intro p tag s hready
  refine ⟨fun n z hlow hhigh hallowed => ?_, fun n enabled who low high rights hbad => ?_⟩
  · have parsed : parseWriteZone (byte n :: zoneBlock z) = .ok (n, z) := by
      rw [zoneBlock_eq]; exact parseWriteZone_eq n z hlow hhigh
    have zones := acceptFrame_zones s p
    dsimp only
    rw [← lockout_iff]
    refine ⟨fun hpasses => ?_, fun hlocked => ?_⟩
    · have only : OnlyIn [.zones] (s.acceptFrame p) { s.acceptFrame p with zones := (s.acceptFrame p).zones.set n z } := by
        intro q hq; cases q <;> first | rfl | exact absurd (by decide) hq
      obtain ⟨hnext, hserved, _⟩ := serve_answers hready (c := .writeZone p tag (byte n :: zoneBlock z)) rfl
        (takeWriteZone_passes parsed (acceptFrame_allows hallowed) (by rw [zones]; exact hpasses)) only
      exact ⟨_, hnext, hserved, by rw [State.sendReply_zones, zones], touches only _ _ _⟩
    · exact answers_plain hready rfl
        (takeWriteZone_lockout parsed (acceptFrame_allows hallowed) (by rw [zones]; exact hlocked))
  · exact answers_error hready rfl (parseWriteZone_badField n enabled who low high rights hbad)

theorem yesNo_eq_one (b : Bool) : (yesNo b = 1) ↔ b = true := by cases b <;> decide

/-- R52: the platforms of a range. -/
theorem mem_platformRange {low high pl : Nat} : pl ∈ platformRange low high ↔ low ≤ pl ∧ pl ≤ high := by
  unfold platformRange
  rw [List.mem_filter, List.mem_range, decide_eq_true_iff, Nat.lt_succ_iff]
  exact And.comm

/-- R52: the nine bytes of a probe of a range that is in bounds. -/
theorem probeReply_inBounds {zones : Vector Zone 8} {q : ProbeRequest} (hlow : q.low ≤ q.high) (hhigh : q.high ≤ 31) :
    let all (right : Right) := yesNo ((platformRange q.low q.high).all (granted zones q.origin right))
    let any (right : Right) := yesNo ((platformRange q.low q.high).any (granted zones q.origin right))
    probeReply zones q = [0, all .depart, any .depart, all .status, any .status, all .notice, any .notice, all .config,
      any .config] := by
  unfold probeReply
  rw [if_neg (by simp; omega)]
  rfl

theorem probeReply_outOfBounds {zones : Vector Zone 8} {q : ProbeRequest} (h : q.high < q.low ∨ 31 < q.high) :
    probeReply zones q = 1 :: List.replicate 8 0 := by
  unfold probeReply
  rw [if_pos (by simpa using h)]

theorem parseProbe_port (o : Port) (low high : Byte) :
    parseProbe [byte (Port.number o), low, high] = .ok ⟨o, low.toNat, high.toNat⟩ := by
  cases o <;> rfl

/-- R51: CONFIG on platform 0 for another origin than the requester's. -/
theorem takeProbeRights_granted {s : State} {p o : Port} {low high : Byte} (h : o = p ∨ s.allows p .config [0]) :
    takeProbeRights p [byte (Port.number o), low, high] s = (s, .okWith (probeReply s.zones ⟨o, low.toNat, high.toNat⟩)) := by
  unfold takeProbeRights
  rw [withOperands_ok (parseProbe_port o low high)]
  refine withRights_ok (fun pl hpl => ?_) _
  dsimp only at hpl
  split at hpl
  · cases hpl
  · exact (h.resolve_left ‹_›) pl hpl

theorem takeProbeRights_refused {s : State} {p o : Port} {low high : Byte} (ho : o ≠ p) (h : ¬ s.allows p .config [0]) :
    takeProbeRights p [byte (Port.number o), low, high] s = (s, .refusal .config 0) := by
  unfold takeProbeRights
  rw [withOperands_ok (parseProbe_port o low high)]
  dsimp only
  rw [if_neg ho]
  exact withRights_refused h _

/-- Settles O27: the flags of each right say whether it is granted on all and on some platforms of the range. -/
theorem probeRightsReportsTheGrants : Obligations.ProbeRightsReportsTheGrants := by
  intro p o tag low high s hready
  dsimp only
  have grants : ∀ right pl, granted s.zones o right pl = true ↔ _ := fun right pl => granted_iff s.zones o right pl
  refine ⟨fun right pl => (grants right pl).trans (by cases right <;> rfl), fun hgranted => ?_, fun ho hrefused => ?_⟩
  · have htake := takeProbeRights_granted (p := p) (low := low) (high := high)
      (hgranted.imp_right fun h => acceptFrame_allows (p := p) h)
    rw [acceptFrame_zones] at htake
    obtain ⟨t, hnext, hserved, htouches⟩ := answers_plain hready (c := .probeRights p tag [byte (Port.number o), low, high]) rfl htake
    refine ⟨t, _, hnext, hserved, htouches, fun h => probeReply_outOfBounds h, fun hlow hhigh => ?_⟩
    have flags := probeReply_inBounds (zones := s.zones) (q := ⟨o, low.toNat, high.toNat⟩) hlow hhigh
    dsimp only at flags
    have all : ∀ right, yesNo ((platformRange low.toNat high.toNat).all (granted s.zones o right)) = 1 ↔
        ∀ pl, low.toNat ≤ pl → pl ≤ high.toNat → granted s.zones o right pl = true := fun right => by
      rw [yesNo_eq_one, List.all_eq_true]
      simp only [mem_platformRange, and_imp]
    have any : ∀ right, yesNo ((platformRange low.toNat high.toNat).any (granted s.zones o right)) = 1 ↔
        ∃ pl, low.toNat ≤ pl ∧ pl ≤ high.toNat ∧ granted s.zones o right pl = true := fun right => by
      rw [yesNo_eq_one, List.any_eq_true]
      simp only [mem_platformRange, and_assoc]
    have bit : ∀ b : Bool, yesNo b = 0 ∨ yesNo b = 1 := fun b => by cases b <;> simp [yesNo]
    simp only [grants] at all any
    rw [flags]
    refine ⟨rfl, rfl, fun b hb => ?_, fun ir hir => ?_⟩
    · simp only [List.mem_cons, List.not_mem_nil, or_false] at hb
      rcases hb with rfl | rfl | rfl | rfl | rfl | rfl | rfl | rfl | rfl
      · exact .inl rfl
      all_goals exact bit _
    · simp only [List.mem_cons, List.not_mem_nil, or_false] at hir
      rcases hir with rfl | rfl | rfl | rfl
      all_goals exact ⟨Option.some_inj.trans (all _), Option.some_inj.trans (any _)⟩
  · exact answers_plain hready rfl
      (takeProbeRights_refused ho (mt (acceptFrame_allows_iff s p p .config [0]).mp hrefused))

/-! ## Requests that lack their right on platform 0 (R45, R47) -/

/-- A request whose operands parse, and whose right on platform 0 is missing. -/
theorem answers_refused {s : State} {p : Port} (hready : s.ready p) {c : Instr} {kind tag : Byte} {α : Type} {parsed : Parsed α}
    {right : Right} {k : State → α → State × Reply}
    (hc : exec c s = .next (s.serve p kind tag fun u => withOperands parsed u fun a => withRights p right [0] u (k u a)))
    (hparse : parsed.isOk = true) (hg : granted s.zones p right 0 = false) :
    ∃ t, exec c s = .next t ∧ Served s t p kind tag (.refusal right 0) ∧ RequestTouches [] s t p := by
  obtain ⟨a, ha⟩ := ok_of_isOk hparse
  have hmissing := mt (acceptFrame_allows_iff s p p right [0]).mp (not_allows_singleton hg)
  exact answers_plain hready hc ((withOperands_ok ha _ _).trans (withRights_refused hmissing _))

section
variable {s : State} {p : Port} {tag : Byte}

theorem missing_zero (hg : granted s.zones p .config 0 = false) : missing (s.acceptFrame p).zones p .config [0] = some 0 :=
  missing_singleton (mt (acceptFrame_allows_iff s p p .config [0]).mp (not_allows_singleton hg))

theorem storeSettings_refused (hready : s.ready p) (hg : granted s.zones p .config 0 = false) :
    ∃ t, exec (.storeSettings p tag []) s = .next t ∧ Served s t p 0x42 tag (.refusal .config 0) ∧ RequestTouches [] s t p := by
  refine answers_work hready rfl ?_
  unfold takeStoreSettings
  rw [missing_zero hg]; rfl

theorem boardRestart_refused (hready : s.ready p) (hg : granted s.zones p .config 0 = false) :
    ∃ t, exec (.boardRestart p tag []) s = .next t ∧ Served s t p 0x43 tag (.refusal .config 0) ∧ RequestTouches [] s t p := by
  refine answers_work hready rfl ?_
  unfold State.takeBoardRestart
  rw [missing_zero hg]; rfl

end

/-- Settles O28. -/
theorem stationRequestsRefused : Obligations.StationRequestsRefused := by
  intro p tag fields right s hready hg kf hkf hright
  simp only [List.mem_cons, List.not_mem_nil, or_false] at hkf
  rcases hkf with rfl | rfl | rfl | rfl | rfl | rfl | rfl | rfl | rfl
  all_goals
    obtain ⟨hr, hparse⟩ := Prod.mk.inj hright
    subst hr
  · exact answers_refused (right := .depart) hready rfl hparse hg
  · exact answers_refused (right := .depart) hready rfl hparse hg
  · exact answers_refused (right := .config) hready rfl hparse hg
  · exact answers_refused (right := .config) hready rfl hparse hg
  · exact answers_refused (right := .config) hready rfl hparse hg
  · exact answers_refused (right := .config) hready rfl hparse hg
  · cases List.isEmpty_iff.mp hparse
    exact storeSettings_refused hready hg
  · cases List.isEmpty_iff.mp hparse
    exact boardRestart_refused hready hg
  · cases List.isEmpty_iff.mp hparse
    exact answers_refused (right := .config) (parsed := parseNone []) hready rfl rfl hg

/-! ## Reads that change nothing (R50, R71, R88, R96, R148, R162) -/

theorem parseZoneNumber_lt {n : Byte} (h : n.toNat < 8) : parseZoneNumber [n] = .ok ⟨n.toNat, h⟩ := dif_pos h

theorem parseZoneNumber_ge {n : Byte} (h : 8 ≤ n.toNat) : parseZoneNumber [n] = .error .badField := dif_neg (Nat.not_lt.mpr h)

theorem parseFace_code (f : Face) : parseFace [if f = .a then 1 else 2] = .ok f := by cases f <;> rfl

theorem parseFace_bad {b : Byte} (h1 : b ≠ 1) (h2 : b ≠ 2) : parseFace [b] = .error .badField := by
  have unread : readFace b.toNat = none := by revert b; decide
  unfold parseFace parseByte
  dsimp only [bind, Except.bind]
  rw [unread]

theorem clockBytes_eq (c : Clock) : c.bytes = [byte c.hh, byte c.mm, byte c.ss, if c.valid then 1 else 0,
    if c.osc = .running then 1 else 0, if c.source = .timekeeper then 1 else if c.source = .system then 2 else 0] := by
  unfold Clock.bytes yesNo
  cases c.osc <;> cases c.source <;> rfl

theorem effStateByte_eq (x : EffState) : byte x.code = if x = .dark then 1 else if x = .woken then 2
    else if x = .lampTest then 3 else 0 := by cases x <;> rfl

theorem panelOutByte_eq (x : PanelOut) : byte x.code = if x = .starting then 1 else if x = .driving then 2 else 0 := by
  cases x <;> rfl

theorem chainBytes_eq (x : ChainState) : [byte x.code, yesNo x.confirmed] =
    [if x = .suspect1 then 1 else if x = .suspect2 then 2 else if x = .failed then 3 else 0, if x = .failed then 0 else 1] := by
  cases x <;> rfl

/-- R148: a face's side of READ SHOWN. -/
theorem shownBytes_eq (s : State) (f : Face) : s.shownBytes f =
    [if (s.faces.get f).state = .dark then 1 else if (s.faces.get f).state = .woken then 2
        else if (s.faces.get f).state = .lampTest then 3 else 0,
     if (s.panels.get f).out = .starting then 1 else if (s.panels.get f).out = .driving then 2 else 0,
     byte (s.panels.get f).faceDuty]
      ++ (List.finRange 4).flatMap fun k => sourceBlock (s.panels.get f).frontPlan.lines[k].source
        ++ [if (s.panels.get f).chains[k] = .suspect1 then 1 else if (s.panels.get f).chains[k] = .suspect2 then 2
            else if (s.panels.get f).chains[k] = .failed then 3 else 0,
            if (s.panels.get f).chains[k] = .failed then 0 else 1] := by
  unfold State.shownBytes
  dsimp only
  rw [effStateByte_eq, panelOutByte_eq]
  simp only [chainBytes_eq, sourceBlock_eq]

/-- Settles O29. -/
theorem readsReturnWhatIsHeld : Obligations.ReadsReturnWhatIsHeld := by
  intro p tag s hready
  dsimp only
  refine ⟨fun n => ?zone, ?clock, ?notices, fun f => ?face, fun b h1 h2 => ?badFace, ?shown, ?inputs⟩
  case zone =>
    by_cases h : n.toNat < 8
    · have htake : takeReadZone [n] (s.acceptFrame p) = (s.acceptFrame p, ⟨.ok, zoneBlock s.zones[n.toNat]⟩) := by
        unfold takeReadZone
        rw [withOperands_ok (parseZoneNumber_lt h), acceptFrame_zones, zoneBlock_eq]; rfl
      obtain ⟨t, hnext, htouches, hserved⟩ := answers_reading hready (c := .readZone p tag [n]) rfl htake
      exact ⟨t, hnext, htouches, fun _ => hserved, fun hge => absurd h (Nat.not_lt.mpr hge)⟩
    · have hge := Nat.not_lt.mp h
      obtain ⟨t, hnext, htouches, hserved⟩ := answers_reading hready (c := .readZone p tag [n]) rfl
        (withOperands_error (parseZoneNumber_ge hge) _ _)
      exact ⟨t, hnext, htouches, fun hlt => absurd hlt h, fun _ => hserved⟩
  case clock =>
    refine answers_reading hready rfl ?_
    show (_, Reply.okWith (s.acceptFrame p).clock.bytes) = _
    rw [acceptFrame_clock, clockBytes_eq]; rfl
  case notices =>
    refine answers_reading hready rfl ?_
    show (_, Reply.okWith (byte (s.acceptFrame p).notices.length :: (s.acceptFrame p).notices.map fun n => byte n.id)) = _
    rw [acceptFrame_notices]; rfl
  case face =>
    refine answers_reading hready rfl ?_
    unfold takeReadFace
    rw [withOperands_ok (parseFace_code f)]
    dsimp only
    rw [acceptFrame_face, effStateByte_eq, faceBlock_eq]; rfl
  case badFace => exact answers_reading hready rfl (withOperands_error (parseFace_bad h1 h2) _ _)
  case shown =>
    refine answers_reading hready rfl ?_
    show (_, Reply.okWith (be16 (s.acceptFrame p).ambient.level ++ (s.acceptFrame p).shownBytes .a ++ (s.acceptFrame p).shownBytes .b)) = _
    rw [acceptFrame_ambient, acceptFrame_shownBytes, acceptFrame_shownBytes, shownBytes_eq, shownBytes_eq]; rfl
  case inputs =>
    refine answers_reading hready rfl ?_
    show (_, Reply.okWith ((s.acceptFrame p).lines.toList.flatMap InputLine.bytes)) = _
    rw [acceptFrame_lines, flatMap_finRange4]
    simp only [lineBytes_eq]; rfl

/-! ## Notices (R78 to R87) -/

section
variable {s : State} {p : Port} {tag : Byte} {fields : List Byte} {q : NoticeRequest}

theorem takePostNotice_ok (hq : parseNotice fields = .ok q) (ha : s.allows p .notice (s.facePlatforms (s.postFaces q))) :
    takePostNotice p fields s = s.post q p := by
  unfold takePostNotice
  rw [withOperands_ok hq, withRights_ok ha]

theorem post_replaces {old : Notice} (h : s.notice? q.id = some old) :
    s.post q p = (s.replaceNotice old (q.notice p old.posting), postReply old.posting 0) := by
  unfold State.post; rw [h]

theorem post_new (h : s.notice? q.id = none) (hroom : s.notices.length < 8) :
    s.post q p = (s.postNew (q.notice p s.postCounter), postReply s.postCounter 0) := by
  unfold State.post; rw [h]; exact if_pos hroom

theorem post_displaces (h : s.notice? q.id = none) (hfull : 8 ≤ s.notices.length) (hcls : q.cls = .high) {gone : Notice}
    (hgone : s.oldestLow = some gone) :
    s.post q p = (s.postDisplacing gone (q.notice p s.postCounter), postReply s.postCounter gone.id) := by
  unfold State.post
  rw [h]
  refine (if_neg (Nat.not_lt.mpr hfull)).trans ?_
  rw [hcls, hgone]

theorem post_full (h : s.notice? q.id = none) (hfull : 8 ≤ s.notices.length) (hcls : q.cls = .low ∨ s.oldestLow = none) :
    s.post q p = (s, .plain .noticeFull) := by
  unfold State.post
  rw [h]
  refine (if_neg (Nat.not_lt.mpr hfull)).trans ?_
  split
  · rename_i hhigh hsome
    rcases hcls with hc | hc
    · rw [hhigh] at hc; cases hc
    · rw [hsome] at hc; cases hc
  · rfl

theorem oldestLow_none (h : ∀ n ∈ s.notices, n.cls = .high) : s.oldestLow = none := by
  unfold State.oldestLow
  rw [List.find?_eq_none]
  intro n hn
  rw [h n hn]; decide

theorem notice?_id {id : Nat} {n : Notice} (h : s.notice? id = some n) : n.id = id := by
  have := List.find?_some h
  simpa using this

theorem postFaces_held {old : Notice} (h : s.notice? q.id = some old) : s.postFaces q = fun f => q.targets.has f || old.targets.has f := by
  funext f; unfold State.postFaces; rw [h]; rfl

theorem postFaces_new (h : s.notice? q.id = none) : s.postFaces q = q.targets.has := by
  funext f; unfold State.postFaces; rw [h]; exact Bool.or_false _

/-- Accepting a frame leaves the rights that POST NOTICE asks for. -/
theorem acceptFrame_postAllows {sel : Face → Bool} (h : s.allows p .notice (s.facePlatforms sel)) :
    (s.acceptFrame p).allows p .notice ((s.acceptFrame p).facePlatforms sel) := by
  rw [acceptFrame_facePlatforms]; exact acceptFrame_allows h

theorem noticeBytes_eq (n : Notice) : n.bytes =
    [byte n.id, if n.cls = .high then 1 else 0, if n.scope = .full then 1 else 0,
      if n.targets = .a then 1 else if n.targets = .b then 2 else 3, if n.flash then 1 else 0]
      ++ be16 n.duration ++ byte n.text.length :: n.text ++ be16 n.remaining
      ++ [if n.origin = .lp0 then 0 else if n.origin = .lp1 then 1 else 2] ++ be16 n.posting.toNat := by
  have cls : ∀ c : NoticeClass, byte c.code = if c = .high then 1 else 0 := fun c => by cases c <;> rfl
  have scope : ∀ c : Scope, byte c.code = if c = .full then 1 else 0 := fun c => by cases c <;> rfl
  have targets : ∀ c : FaceSel, byte c.code = if c = .a then 1 else if c = .b then 2 else 3 := fun c => by cases c <;> rfl
  have origin : ∀ o : Port, byte (Port.number o) = if o = .lp0 then 0 else if o = .lp1 then 1 else 2 := fun o => by cases o <;> rfl
  unfold Notice.bytes yesNo
  rw [cls, scope, targets, origin]

end

/-- A request that hands on a post, once the store and the reports are written. -/
theorem answers_post {s u : State} {p : Port} {tag : Byte} {q : NoticeRequest} (hready : s.ready p) (hlow : 1 ≤ q.id) (hhigh : q.id ≤ 255)
    (hd : q.duration ≤ 65535) (ht1 : 1 ≤ q.text.length) (ht2 : q.text.length ≤ 160) {ps : List Part} {old : List FaceSel}
    {posting : HalfWord} {r : Reply} (only : OnlyIn ps (s.acceptFrame p) u)
    (hps : ∀ x ∈ [Part.faces, .panels, .params, .ambient, .painter, .ports], x ∉ ps)
    (ha : (s.acceptFrame p).allows p .notice ((s.acceptFrame p).facePlatforms ((s.acceptFrame p).postFaces q)))
    (hpost : (s.acceptFrame p).post q p = (u.handOnPost old (q.notice p posting), r)) :
    ∃ t, exec (.postNotice p tag (noticeBlock q)) s = .next t ∧ Served s t p 0x28 tag r ∧ t.notices = u.notices ∧
      t.postCounter = u.postCounter ∧ t.events = u.events ∧
      NoticeReaches s t q (fun f => q.targets.has f || old.any fun x => x.has f) (s.ports.get p).silent ∧
      OnlyIn (.ports :: faceParts ++ ps) s t := by
  have handed := handOnPost_only u old (q.notice p posting)
  have htake := (takePostNotice_ok (noticeBlock_parse q hlow hhigh hd ht1 ht2) ha).trans hpost
  have both : OnlyIn (faceParts ++ ps) (s.acceptFrame p) (u.handOnPost old (q.notice p posting)) :=
    (only.mono (by simp)).trans (handed.mono (by simp))
  obtain ⟨hnext, hserved, honly⟩ := serve_answers hready (c := .postNotice p tag (noticeBlock q)) rfl htake both
    (by rw [List.mem_append]; exact fun h => h.elim (by decide) (hps _ (by decide)))
  refine ⟨_, hnext, hserved, ?_, ?_, ?_, noticeReaches_post q _ ⟨rfl, rfl⟩ old only (fun x hx => hps x ?_) _ _ _, honly.mono ?_⟩
  · rw [State.sendReply_notices, handed.notices]
  · rw [State.sendReply_postCounter, handed.postCounter]
  · rw [State.sendReply_events, handed.events]
  · simp only [List.mem_cons, List.not_mem_nil, or_false] at hx ⊢
    rcases hx with h | h | h | h | h <;> simp [h]
  · intro x hx
    simp only [List.mem_cons, List.mem_append] at hx ⊢
    rcases hx with h | h | h | h
    · exact .inl (.inl h)
    · exact .inl (.inr (by rw [h]; decide))
    · exact .inl (.inr h)
    · exact .inr h

/-- Settles O30: in each case the store is written first, and the marks and wakes are handed on after. -/
theorem postNoticePosts : Obligations.PostNoticePosts := by
  intro p tag q s hready hlow hhigh hd ht1 ht2
  have held : ∀ {id x}, s.notice? id = x → (s.acceptFrame p).notice? id = x := fun h => (acceptFrame_notice? ..).trans h
  have notices := acceptFrame_notices s p
  have counter := acceptFrame_postCounter s p
  refine ⟨fun old hold hallowed => ?replace, fun habsent hallowed => ?absent⟩
  case replace =>
    obtain ⟨u, hu⟩ : ∃ u, u = { s.acceptFrame p with
      notices := (s.acceptFrame p).notices.map fun n : Notice => if n.id = old.id then q.notice p old.posting else n } := ⟨_, rfl⟩
    have only : OnlyIn [.notices] (s.acceptFrame p) u := by
      rw [hu]; intro q hq; cases q <;> first | rfl | exact absurd (by decide) hq
    have hpost : (s.acceptFrame p).post q p = (u.handOnPost [old.targets] (q.notice p old.posting), postReply old.posting 0) := by
      rw [post_replaces (held hold), hu]; rfl
    obtain ⟨t, hnext, hserved, hnotices, _, _, hreach, honly⟩ := answers_post (tag := tag) hready hlow hhigh hd ht1 ht2 only (by decide)
      (by rw [postFaces_held (held hold)]; exact acceptFrame_postAllows hallowed) hpost
    refine ⟨t, hnext, hserved, ?_, ?_, honly.mono (by decide)⟩
    · rw [hnotices, hu, ← notice?_id hold, ← notices]; rfl
    · simpa only [List.any_cons, List.any_nil, Bool.or_false] using hreach
  case absent =>
    have ha : (s.acceptFrame p).allows p .notice ((s.acceptFrame p).facePlatforms ((s.acceptFrame p).postFaces q)) := by
      rw [postFaces_new (held habsent)]; exact acceptFrame_postAllows hallowed
    refine ⟨fun hroom => ?room, fun gone hfull hcls hgone => ?displace, fun hfull hcls => ?full⟩
    case room =>
      have hpost : (s.acceptFrame p).post q p
          = (((s.acceptFrame p).appendNotice (q.notice p s.postCounter)).handOnPost [] (q.notice p s.postCounter),
            postReply s.postCounter 0) := by
        rw [post_new (held habsent) (by rw [notices]; exact hroom), counter]; rfl
      obtain ⟨t, hnext, hserved, hnotices, hcounter, _, hreach, honly⟩ := answers_post (tag := tag) hready hlow hhigh hd ht1 ht2
        (appendNotice_only _ _) (by decide) ha hpost
      refine ⟨t, hnext, hserved, ?_, ?_, ?_, honly.mono (by decide)⟩
      · rw [hnotices, ← notices]; rfl
      · rw [hcounter, ← counter]; rfl
      · simpa only [List.any_nil, Bool.or_false] using hreach
    case displace =>
      obtain ⟨u, hu⟩ : ∃ u, u = (((s.acceptFrame p).dropNotice gone.id).signal gone.origin .noticeDisplaced).appendNotice
        (q.notice p s.postCounter) := ⟨_, rfl⟩
      have only : OnlyIn [.notices, .events, .postCounter] (s.acceptFrame p) u := by
        rw [hu]
        exact (((dropNotice_only _ _).mono (by decide)).trans ((signal_only _ _ _).mono (by decide))).trans
          ((appendNotice_only _ _).mono (by decide))
      have hlow' : (s.acceptFrame p).oldestLow = some gone := by
        unfold State.oldestLow; rw [notices]; exact hgone
      have hpost : (s.acceptFrame p).post q p = (u.handOnPost [gone.targets] (q.notice p s.postCounter), postReply s.postCounter gone.id) := by
        rw [post_displaces (held habsent) (by rw [notices]; exact hfull) hcls hlow', counter, hu]; rfl
      obtain ⟨t, hnext, hserved, hnotices, hcounter, hevents, hreach, honly⟩ := answers_post (tag := tag) hready hlow hhigh hd ht1 ht2
        only (by decide) ha hpost
      refine ⟨t, hnext, hserved, ?_, ?_, fun o => ?_, ?_, honly.mono (by decide)⟩
      · rw [hnotices, hu, ← notices]; rfl
      · rw [hcounter, hu, ← counter]; rfl
      · rw [hevents, hu]
        show (((s.acceptFrame p).dropNotice gone.id).events.set gone.origin _).get o = _
        rw [PerPort.get_set, (dropNotice_only _ _).events, acceptFrame_events]
        split
        · rename_i e; rw [e]; rfl
        · rfl
      · simpa only [List.any_cons, List.any_nil, Bool.or_false] using hreach
    case full =>
      have hcls' : q.cls = .low ∨ (s.acceptFrame p).oldestLow = none :=
        hcls.imp_right fun h => oldestLow_none (by rw [notices]; exact h)
      exact answers_plain hready rfl ((takePostNotice_ok (noticeBlock_parse q hlow hhigh hd ht1 ht2) ha).trans
        (post_full (held habsent) (by rw [notices]; exact hfull) hcls'))

/-- Settles O31. -/
theorem withdrawAndReadNotice : Obligations.WithdrawAndReadNotice := by
  intro p tag id s hready hlow hhigh
  have parsed := parseNonZero_byte hlow hhigh
  have held : ∀ {x}, s.notice? id = x → (s.acceptFrame p).notice? id = x := fun h => (acceptFrame_notice? ..).trans h
  refine ⟨fun n hn => ⟨fun hallowed => ?withdraw, ?read⟩, fun habsent => ⟨?_, ?_⟩⟩
  case withdraw =>
    have htake : takeWithdrawNotice p [byte id] (s.acceptFrame p)
        = (((s.acceptFrame p).dropNotice id).markTargets [n.targets], .plain .ok) := by
      unfold takeWithdrawNotice
      rw [withOperands_ok parsed, held hn]
      exact withRights_ok (acceptFrame_postAllows hallowed) _
    have dropped := dropNotice_only (s.acceptFrame p) id
    have marked := markTargets_only ((s.acceptFrame p).dropNotice id) [n.targets]
    have only : OnlyIn [.notices, .faces] (s.acceptFrame p) (((s.acceptFrame p).dropNotice id).markTargets [n.targets]) :=
      (dropped.mono (by decide)).trans (marked.mono (by decide))
    obtain ⟨hnext, hserved, honly⟩ := serve_answers hready (c := .withdrawNotice p tag [byte id]) rfl htake only
    refine ⟨_, hnext, hserved, ?_, fun f => ?_, honly.mono (by decide)⟩
    · rw [State.sendReply_notices, marked.notices, ← acceptFrame_notices s p]; rfl
    · rw [State.sendReply_faces, markTargets_face, dropped.faces, acceptFrame_face]
      simp only [List.any_cons, List.any_nil, Bool.or_false]
  case read =>
    refine answers_reading hready rfl ?_
    unfold takeReadNotice
    rw [withOperands_ok parsed, held hn, ← noticeBytes_eq]; rfl
  · refine answers_plain hready rfl ?_
    unfold takeWithdrawNotice
    rw [withOperands_ok parsed, held habsent]
  · refine answers_plain hready rfl ?_
    unfold takeReadNotice
    rw [withOperands_ok parsed, held habsent]

end Sys2Proof.Machine
end

section
/-! PROOFS. The station clock: the second source, second events and minute events (chapter 4). -/

namespace Sys2Proof.Machine

/-! ## The second source (R63, R64) -/

/-- Settles O32. -/
theorem theSecondSourceIsDecidedOnce : Obligations.TheSecondSourceIsDecidedOnce := by
  intro s
  have runs : ∀ h : s.clock.osc = .starting, exec .oscillatorRunning s = .next { s with clock := s.clock.enterRunning } :=
    fun h => congrArg _ (if_pos h)
  refine ⟨fun hstarting hrunning => ?_, fun hstarting hdone => ?_, fun hrunning => ?_, fun hdeadline => ?_, fun hnone => ?_⟩
  · rw [runs hstarting]
    unfold Clock.enterRunning
    split
    · exact absurd ‹_› hrunning
    · rfl
  · rw [runs hstarting]
    unfold Clock.enterRunning
    split
    · rfl
    · rename_i h; rw [hdone] at h; cases h
  · exact congrArg _ (if_neg (by rw [hrunning]; decide))
  · have only : OnlyIn [.clock] s { s with clock := { s.clock with deadline := none, source := .system, divider := 0 } } := by
      intro q hq; cases q <;> first | rfl | exact absurd (by decide) hq
    refine ⟨s.deadlineExpires, congrArg _ (if_pos (Option.isSome_iff_ne_none.mpr hdeadline)), rfl,
      fun o => PerPort.get_mapWith .., rfl, ?_, deadlineExpires_only s⟩
    refine ⟨?_, rfl, rfl⟩
    show _ = (s.raise .timekeeperNotReady _).capture
    unfold State.deadlineExpires
    rfl
  · exact congrArg _ (if_neg (by rw [hnone]; decide))

/-! ## A second event before any minute event (R67, R89, R90, R109) -/

/-- Work on each face that changes its composer alone. -/
theorem eachFace_face {g : Face → State → State} {h : Face → Composer → Composer}
    (hg : ∀ f t, (g f t).faces = t.faces.set f (h f (t.faces.get f))) (s : State) (f : Face) :
    (s.eachFace g).faces.get f = h f (s.faces.get f) := by
  unfold State.eachFace
  show ((g .b (g .a s)).faces).get f = _
  rw [hg, hg]
  cases f
  · rw [PerFace.get_set_other _ _ (by decide), PerFace.get_set_same]
  · rw [PerFace.get_set_same, PerFace.get_set_other _ _ (by decide)]

theorem set_get_face (v : PerFace Composer) (f : Face) : v.set f (v.get f) = v := by cases f <;> rfl

theorem atClock_iff (c : Composer) : c.atClock = true ↔ c.standsAtClock := by
  unfold Composer.atClock Composer.standsAtClock Composer.showedFull
  simp [and_assoc]

/-- R109: a face that shows the time of day. -/
def Composer.showsTime (c : Composer) : Bool := c.state != .dark && c.atClock

theorem showsTime_iff (c : Composer) : c.showsTime = true ↔ c.state ≠ .dark ∧ c.standsAtClock := by
  unfold Composer.showsTime
  rw [Bool.and_eq_true, bne_iff_ne, atClock_iff]

theorem markClockLines_face (s : State) (f : Face) :
    s.markClockLines.faces.get f = { s.faces.get f with dirty := (s.faces.get f).dirty || (s.faces.get f).showsTime } := by
  unfold State.markClockLines
  rw [eachFace_face (h := fun _ c => { c with dirty := c.dirty || c.showsTime })]
  intro g t
  show (if (t.faces.get g).showsTime = true then t.markDirty g else t).faces = _
  by_cases hc : (t.faces.get g).showsTime = true
  · rw [if_pos hc, hc, Bool.or_true]; rfl
  · rw [if_neg hc, Bool.eq_false_iff.mpr hc, Bool.or_false]
    exact (set_get_face t.faces g).symm

/-- R90: a face that a notice expiring at this second event targets. -/
def State.losesNotice (s : State) (f : Face) : Bool := (s.notices.filter Notice.expiring).any fun n => n.targets.has f

theorem mem_expiring {s : State} {n : Notice} : n ∈ s.notices.filter Notice.expiring ↔ n ∈ s.notices ∧ n.remaining = 1 := by
  unfold Notice.expiring
  rw [List.mem_filter, beq_iff_eq]

theorem countNotices_face (s : State) (f : Face) :
    s.countNotices.faces.get f = { s.faces.get f with dirty := (s.faces.get f).dirty || s.losesNotice f } := by
  have told : ∀ (gone : List Notice) (t : State), OnlyIn [.events] t (gone.foldl (fun t n => t.signal n.origin .noticeExpired) t) :=
    fun gone t => OnlyIn.foldl _ (fun t n => signal_only t _ _) gone t
  unfold State.countNotices
  rw [markTargets_face, (told _ _).faces, List.any_map]
  rfl

/-- What a second event does before any minute event. -/
theorem secondDone_spec (s : State) :
    (secondDone s).clock = { s.clock.advance with divider := 0 } ∧
      (secondDone s).notices = (s.notices.filter fun n => n.remaining != 1).map (fun n => { n with remaining := n.remaining - 1 }) ∧
      (∀ o, (secondDone s).events.get o = if (s.notices.filter Notice.expiring).any (fun n => n.origin == o)
        then (s.events.get o).add .noticeExpired else s.events.get o) ∧
      (∀ f, (secondDone s).faces.get f = { s.faces.get f with
        dirty := (s.faces.get f).dirty || s.losesNotice f || (s.faces.get f).showsTime }) ∧
      OnlyIn [.clock, .notices, .events, .faces] s (secondDone s) := by
  obtain ⟨m, hm⟩ : ∃ m, m = { s with clock := { s.clock.advance with divider := 0 } } := ⟨_, rfl⟩
  have hdone : secondDone s = m.countNotices.markClockLines := by rw [hm]; rfl
  have clock : OnlyIn [.clock] s m := by
    rw [hm]; intro q hq; cases q <;> first | rfl | exact absurd (by decide) hq
  have counted := countNotices_only m
  have marked := markClockLines_only m.countNotices
  obtain ⟨notices, events, _⟩ := countNotices_spec m
  refine ⟨?_, ?_, fun o => ?_, fun f => ?_, ?_⟩
  · rw [hdone, marked.clock, counted.clock, hm]
  · rw [hdone, marked.notices, notices, clock.notices]
  · rw [hdone, marked.events, events, clock.notices, clock.events]
  · have loses : m.losesNotice f = s.losesNotice f := by unfold State.losesNotice; rw [clock.notices]
    rw [hdone, markClockLines_face, countNotices_face, loses, clock.faces]; rfl
  · rw [hdone]
    exact ((clock.mono (by decide)).trans (counted.mono (by decide))).trans (marked.mono (by decide))

/-- Settles O33. -/
theorem secondEventCountsASecond : Obligations.SecondEventCountsASecond := by
  intro s hclock
  refine ⟨fun hnot => congrArg _ (if_neg (mt (secondOver_iff _).mp hnot)), fun hdue => ?_⟩
  obtain ⟨sum, wraps, _, rest⟩ := clock_advance s.clock hclock.hours hclock.minutes hclock.seconds
  obtain ⟨clock, notices, events, faces, only⟩ := secondDone_spec s
  obtain ⟨d, hd⟩ : ∃ d, d = secondDone s := ⟨_, rfl⟩
  rw [← hd] at clock notices events faces only
  have hnext := secondEvent_eq s ((secondOver_iff _).mpr hdue)
  rw [← hd] at hnext
  have wrapped : d.clock.ss = 0 ↔ s.clock.ss = 59 := by rw [clock]; exact wraps
  have told : ∀ o, (∃ n ∈ s.notices, n.remaining = 1 ∧ n.origin = o) → (d.events.get o).noticeExpired = true := by
    rintro o ⟨n, hn, hone, ho⟩
    have hany : (s.notices.filter Notice.expiring).any (fun n => n.origin == o) = true :=
      List.any_eq_true.mpr ⟨n, mem_expiring.mpr ⟨hn, hone⟩, by rw [beq_iff_eq]; exact ho⟩
    rw [events, if_pos hany]; rfl
  have lost : ∀ n ∈ s.notices, n.remaining = 1 → ∀ f, n.targets.has f = true → (d.faces.get f).dirty = true := by
    intro n hn hone f hf
    have hloses : s.losesNotice f = true := List.any_eq_true.mpr ⟨n, mem_expiring.mpr ⟨hn, hone⟩, hf⟩
    rw [faces, hloses, Bool.or_true, Bool.true_or]
  have shown : ∀ f, (s.faces.get f).state ≠ .dark → (s.faces.get f).standsAtClock → (d.faces.get f).dirty = true := by
    intro f hstate hstands
    rw [faces, (showsTime_iff _).mpr ⟨hstate, hstands⟩, Bool.or_true]
  have time : ∀ {c : Clock}, c.hh = d.clock.hh → c.mm = d.clock.mm → c.ss = d.clock.ss →
      c.hh * 3600 + c.mm * 60 + c.ss = (s.clock.hh * 3600 + s.clock.mm * 60 + s.clock.ss + 1) % 86400 := by
    intro c h1 h2 h3; rw [h1, h2, h3, clock]; exact sum
  have restOf : ∀ m, { d.clock with prevMinute := m } = { s.clock with
      hh := d.clock.hh, mm := d.clock.mm, ss := d.clock.ss, divider := 0, prevMinute := m } := by
    intro m; rw [clock, rest]
  have none : ∀ {o}, (∀ n ∈ s.notices, n.remaining = 1 → n.origin ≠ o) → d.events.get o = s.events.get o := by
    intro o ho
    rw [events, if_neg]
    rw [List.any_eq_true]
    rintro ⟨n, hn, he⟩
    obtain ⟨hmem, hone⟩ := mem_expiring.mp hn
    exact ho n hmem hone (beq_iff_eq.mp he)
  have kept : ∀ {f}, (∀ n ∈ s.notices, n.remaining = 1 → n.targets.has f = false) →
      (s.faces.get f).state = .dark ∨ ¬ (s.faces.get f).standsAtClock → d.faces.get f = s.faces.get f := by
    intro f hn hf
    have hloses : s.losesNotice f = false := by
      rw [Bool.eq_false_iff]
      intro h
      obtain ⟨n, hmem, he⟩ := List.any_eq_true.mp h
      obtain ⟨hheld, hone⟩ := mem_expiring.mp hmem
      rw [hn n hheld hone] at he; cases he
    have hshows : (s.faces.get f).showsTime = false := by
      rw [Bool.eq_false_iff, ne_eq, showsTime_iff]
      rintro ⟨h1, h2⟩
      exact hf.elim h1 fun h => h h2
    rw [faces, hloses, hshows, Bool.or_false, Bool.or_false]
  by_cases hss : s.clock.ss = 59
  · rw [if_pos (wrapped.mpr hss)] at hnext
    obtain ⟨keepsEvents, keepsDirt⟩ := minuteEvent_keeps d d.clock.valid
    have minuteClock := minuteEvent_clock d d.clock.valid
    have minute := minuteEvent_only d d.clock.valid
    refine ⟨_, hnext, time (by rw [minuteClock]) (by rw [minuteClock]) (by rw [minuteClock]), ?_, by rw [minute.notices, notices],
      fun o ho => keepsEvents o (told o ho), fun n hn hone f hf => (keepsDirt f).2 (lost n hn hone f hf),
      fun f hstate hstands => (keepsDirt f).2 (shown f hstate hstands), fun h => absurd hss h,
      (only.mono (by decide)).trans (minute.mono (by decide))⟩
    rw [minuteClock]; exact restOf _
  · rw [if_neg (mt wrapped.mp hss)] at hnext
    have prev : d.clock.prevMinute = s.clock.prevMinute := by rw [clock, rest]
    refine ⟨d, hnext, time rfl rfl rfl, restOf _, notices, told, lost, shown, fun _ => ⟨fun o ho => none ho, fun f => ?_,
      fun f hn hf => kept hn hf, prev, only⟩, only.mono (by decide)⟩
    rw [faces]

/-! ## Minute events (R20, R21, R68, R69) -/

theorem stays_congr {s d : State} (hp : d.params = s.params) (hm : d.clock.prevMinute = s.clock.prevMinute) (vb vn : Bool)
    (minute : Nat) (r : Departure) : d.stays vb vn minute r ↔ s.stays vb vn minute r := by
  unfold State.stays State.closesDay State.passed
  rw [hp, hm]

/-- A minute event on a state `d` that has taken the new time, seen from the state before. -/
theorem minuteEvent_left {s d : State} (hs : TableSound s) {validBefore validNow : Bool} {minute : Nat}
    (only : OnlyIn [.clock, .notices, .events, .faces, .ports] s d)
    (hfaces : ∀ f, ∃ dirty, d.faces.get f = { s.faces.get f with dirty := (s.faces.get f).dirty || dirty })
    (hprev : d.clock.prevMinute = s.clock.prevMinute) (hvalid : d.clock.valid = validNow) (hminute : d.clock.minute = minute) :
    let t := d.minuteEvent validBefore
    (∀ r, r ∈ t.table ↔ r ∈ s.table ∧ s.stays validBefore validNow minute r) ∧
      t.table.Sublist s.table ∧ (∀ f, (t.faces.get f).dirty = true) ∧
      (∀ f, Wakens s t f (t.departureWakes f) ((s.faces.get f).countdown - 1)) ∧
      (∀ p code, s.reservations.get p = some code →
        (code ∈ t.table.map (fun r => r.code) → t.reservations.get p = some code) ∧
        (code ∉ t.table.map (fun r => r.code) →
          t.reservations.get p = none ∧ (t.events.get p).reservationLost = true)) := by
  have left := minuteEvent_leaves d validBefore (by rw [only.table]; exact hs.codesDistinct)
    (by rw [only.reservations, only.table]; exact hs.reserved)
  dsimp only at left ⊢
  obtain ⟨stays, sub, dirty, _, reserved⟩ := left
  rw [only.table, hvalid, hminute] at stays
  rw [only.table] at sub
  rw [only.reservations] at reserved
  refine ⟨fun r => (stays r).trans (and_congr_right fun _ => stays_congr only.params hprev _ _ _ r), sub, dirty, fun f => ?_, reserved⟩
  refine (minute_wakes s d validBefore f (fun g => ?_) only.panels only.params only.ambient only.painter fun g hg => ?_).1
  · obtain ⟨b, hb⟩ := hfaces g
    rw [hb]
  · obtain ⟨b, hb⟩ := hfaces g
    rw [hb, hg]; rfl

theorem parseClock_time {hh mm ss : Nat} (h1 : hh ≤ 23) (h2 : mm ≤ 59) (h3 : ss ≤ 59) :
    parseClock [byte hh, byte mm, byte ss] = .ok (hh, mm, ss) := by
  unfold parseClock
  dsimp only
  rw [byte_toNat (by omega), byte_toNat (by omega), byte_toNat (by omega)]
  exact if_pos (by simp [h1, h2, h3])

/-- Settles O34: the minute event of a second event and that of SET CLOCK start from a state that differs from the one
before in the clock, the marks and the reports alone. -/
theorem minuteEventsRemoveWhatHasPassed : Obligations.MinuteEventsRemoveWhatHasPassed := by
  intro s hs
  dsimp only
  refine ⟨fun hclock hdue hss => ?second, fun p tag hh mm ss hready h1 h2 h3 hallowed => ?set⟩
  case second =>
    obtain ⟨_, wraps, minute, rest⟩ := clock_advance s.clock hclock.hours hclock.minutes hclock.seconds
    obtain ⟨clock, _, _, faces, only⟩ := secondDone_spec s
    have hnext := secondEvent_eq s ((secondOver_iff _).mpr hdue)
    rw [if_pos (by rw [clock]; exact wraps.mpr hss)] at hnext
    have hvalid : (secondDone s).clock.valid = s.clock.valid := by rw [clock, rest]
    have hminute : (secondDone s).clock.minute = (s.clock.hh * 60 + s.clock.mm + 1) % 1440 := by
      rw [clock]; exact minute hss
    have left := minuteEvent_left hs (validBefore := (secondDone s).clock.valid) (only.mono (by decide))
      (fun f => ⟨_, by rw [faces, Bool.or_assoc]⟩) (by rw [clock, rest]) hvalid hminute
    have minuteClock := minuteEvent_clock (secondDone s) (secondDone s).clock.valid
    refine ⟨_, hnext, ?_, ?_, ?_⟩
    · rw [minuteClock]; exact hminute
    · rw [minuteClock, hminute]
    · rw [hvalid] at left ⊢; exact left
  case set =>
    obtain ⟨d, hd⟩ : ∃ d, d = { s.acceptFrame p with
      clock := { (s.acceptFrame p).clock with hh := hh, mm := mm, ss := ss, valid := true, divider := 0 } } := ⟨_, rfl⟩
    have htake : takeSetClock p [byte hh, byte mm, byte ss] (s.acceptFrame p) = (d.minuteEvent s.clock.valid, .plain .ok) := by
      unfold takeSetClock
      rw [withOperands_ok (parseClock_time h1 h2 h3), withRights_ok (acceptFrame_allows hallowed), hd, ← acceptFrame_clock s p]
      rfl
    have clock : d.clock = { s.clock with hh := hh, mm := mm, ss := ss, valid := true, divider := 0 } := by
      rw [hd, acceptFrame_clock]
    have set : OnlyIn [.clock] (s.acceptFrame p) d := by
      rw [hd]; intro q hq; cases q <;> first | rfl | exact absurd (by decide) hq
    have minute := minuteEvent_only d s.clock.valid
    obtain ⟨hnext, hserved, honly⟩ := serve_answers hready (c := .setClock p tag [byte hh, byte mm, byte ss]) rfl htake
      ((set.mono (by decide)).trans minute)
    obtain ⟨stays, sub, dirty, wakes, reserved⟩ := minuteEvent_left hs (d := d) (validBefore := s.clock.valid)
      (((acceptFrame_only s p).mono (by decide)).trans (set.mono (by decide)))
      (fun f => ⟨_, by rw [set.faces, acceptFrame_face]⟩) (by rw [clock]) (validNow := true) (by rw [clock])
      (minute := hh * 60 + mm) (by rw [clock]; rfl)
    have replied := sendReply_only (d.minuteEvent s.clock.valid) p 0x30 tag (.plain .ok)
    refine ⟨_, hnext, hserved, ?_, ⟨?_, ?_, ?_, fun f => ?_, ?_⟩, honly.mono (by decide)⟩
    · rw [State.sendReply_clock, minuteEvent_clock, clock]; rfl
    · rw [replied.table]; exact stays
    · rw [replied.table]; exact sub
    · rw [replied.faces]; exact dirty
    · exact (wakes f).after (departureWakes_congr replied.clock replied.params (by rw [replied.faces])
        (view_congr replied.table (by rw [replied.faces]) (sendReply_silent _ _ _ _ _)))
        (SameAfter.of_eq replied.faces replied.panels replied.painter f) replied.lines
    · rw [replied.table, replied.reservations, replied.events]; exact reserved

end Sys2Proof.Machine
end

section
/-! PROOFS. Timer expiries, rotation and pages (O35, O36), fitted texts (O37) and tickers (O38). -/

namespace Sys2Proof.Machine
set_option Elab.async false

/-! ## The blocks that a timer expiry reaches (R73, R75) -/

/-- Work on each face that changes its composer alone and whose work on B does not see what A's work left. -/
theorem eachFace_local {g : Face → State → State} {h : State → Face → Composer}
    (hg : ∀ f t, (g f t).faces = t.faces.set f (h t f)) (hb : ∀ t, h (g .a t) .b = h t .b) (s : State) (f : Face) :
    (s.eachFace g).faces.get f = h s f := by
  unfold State.eachFace
  rw [hg, hb, hg]
  cases f
  · rw [PerFace.get_set_other _ _ (by decide), PerFace.get_set_same]
  · rw [PerFace.get_set_same]

/-- R104, R112: a T2 expiry at a composer whose rotation pool holds `pool` entries. -/
def Composer.turn (pool : Nat) (c : Composer) : Composer :=
  if c.showing then
    ((c.lastPlan.bind fun p => p.full).elim (c.advanceRotate pool) fun shown => c.advancePage (pageCount shown.text))
  else c

theorem turn_of_full {c : Composer} (hc : c.showing = true) {shown : FullShown} (pool : Nat)
    (h : (c.lastPlan.bind fun p => p.full) = some shown) : c.turn pool = c.advancePage (pageCount shown.text) := by
  unfold Composer.turn
  rw [if_pos hc, h]
  rfl

theorem turn_of_none {c : Composer} (hc : c.showing = true) (pool : Nat)
    (h : (c.lastPlan.bind fun p => p.full) = none) : c.turn pool = c.advanceRotate pool := by
  unfold Composer.turn
  rw [if_pos hc, h]
  rfl

theorem rotateStep_faces (s : State) (f : Face) :
    (s.rotateStep f).faces = s.faces.set f ((s.faces.get f).turn (s.poolEntries f)) := by
  unfold State.rotateStep
  dsimp only
  by_cases hc : (s.faces.get f).showing = true
  · rw [if_pos hc]
    cases hfull : (s.faces.get f).lastPlan.bind fun p => p.full with
    | none => rw [turn_of_none hc _ hfull]; rfl
    | some shown => rw [turn_of_full hc _ hfull]; rfl
  · rw [if_neg hc, Composer.turn, if_neg hc, set_get_face]

/-- What a face shows of the table does not hang on the other face. -/
theorem view_of_faces {s t : State} {f : Face} (h : OnlyIn [.faces] s t)
    (hf : t.faces.get f = s.faces.get f) : t.view f = s.view f :=
  view_congr h.table (by rw [hf]) fun p => by rw [h.ports]; exact ⟨rfl, rfl⟩

theorem poolEntries_of_faces {s t : State} {f : Face} (h : OnlyIn [.faces] s t)
    (hf : t.faces.get f = s.faces.get f) : t.poolEntries f = s.poolEntries f := by
  unfold State.poolEntries
  rw [view_of_faces h hf, hf, h.params]

theorem rotateBoth_face (s : State) (f : Face) :
    (s.eachFace fun g t => t.rotateStep g).faces.get f = (s.faces.get f).turn (s.poolEntries f) := by
  refine eachFace_local (h := fun t g => (t.faces.get g).turn (t.poolEntries g)) (fun g t => rotateStep_faces t g) ?_ s f
  intro t
  have hface : (t.rotateStep .a).faces.get .b = t.faces.get .b := by
    rw [rotateStep_faces, PerFace.get_set_other _ _ (by decide)]
  rw [hface, poolEntries_of_faces (rotateStep_only t .a) hface]

theorem bottomBoth_face (s : State) (f : Face) :
    (s.eachFace fun g t => t.bottomStep g).faces.get f = (s.faces.get f).rotateBottom (s.bottomList f) :=
  eachFace_local (h := fun t g => (t.faces.get g).rotateBottom (t.bottomList g)) (fun _ _ => rfl) (fun _ => rfl) s f

theorem turn_of_not_showing {c : Composer} (hc : c.showing = false) (pool : Nat) : c.turn pool = c := by
  unfold Composer.turn
  rw [hc]
  rfl

theorem rotateBottom_of_not_showing {c : Composer} (hc : c.showing = false) (list : List BottomEntry) :
    c.rotateBottom list = c := by
  unfold Composer.rotateBottom
  rw [hc]
  rfl

theorem not_showing {c : Composer} (h : c.state = .dark ∨ c.state = .lampTest) : c.showing = false := by
  rw [Bool.eq_false_iff, Ne, showing_iff]
  rcases h with h | h <;> rw [h] <;> simp

theorem toggleFlash_face (s : State) (f : Face) : s.toggleFlash.faces.get f = (s.faces.get f).flashToggle :=
  eachFace_face (h := fun _ c => c.flashToggle) (fun _ _ => rfl) _ f

/-- R113: a composer whose plan a flash toggle concerns. -/
theorem flashes_iff (c : Composer) : (c.showing && c.lastPlan.any Plan.flashes) = true ↔
    (c.state = .lit ∨ c.state = .woken) ∧
      ∃ plan, c.lastPlan = some plan ∧ ∃ line ∈ plan.lines.toList, ∃ fd ∈ line.fields, fd.flashing = true := by
  rw [Bool.and_eq_true, showing_iff, Option.any_eq_true]
  refine and_congr_right fun _ => exists_congr fun plan => and_congr_right fun _ => ?_
  unfold Plan.flashes
  simp only [List.any_eq_true]

theorem stepTickers_eq (hold : Nat) (c : Composer) :
    c.stepTickers hold = if c.state = .lit ∨ c.state = .woken then
      { c with
        calling := (c.calling.map fun k => k.step hold)
        bottom := (c.bottom.map fun k => k.step hold)
        pass := c.pass || c.bottom.any Ticker.stepCompletes
        dirty := c.dirty || c.calling.isSome || c.bottom.isSome } else c := by
  unfold Composer.stepTickers
  simp only [showing_iff]

theorem handExpiry_timers (s : State) (i : Fin 6) : (s.handExpiry i).timers = s.timers :=
  (handExpiry_only s i).timers

/-- Settles O35: each timer's expiry is handed to its own block, whose faces are given composer by composer. -/
theorem timerExpiryReachesItsBlock : Obligations.TimerExpiryReachesItsBlock := by
  unfold Obligations.TimerExpiryReachesItsBlock
  intro i s
  refine ⟨fun hearly => timer_early i s ?_, fun hrun hdue => ?_⟩
  · rw [Bool.eq_false_iff, Ne, over_iff]
    rintro ⟨hrun, hdue⟩
    rcases hearly with h | h
    · rw [h] at hrun; cases hrun
    · omega
  obtain ⟨m, hm⟩ : ∃ m, m = s.modTimer i Timer.expire := ⟨_, rfl⟩
  have htimers : m.timers = s.timers.set i { s.timers[i] with
      counter := 0, sub := 0, running := decide (s.timers[i].mode = .auto) } := by
    rw [hm, ← expire_eq _ hrun]; rfl
  have honly : OnlyIn [.timers] s m := hm ▸ modTimer_only s i _
  have hfaces : m.faces = s.faces := honly.faces
  refine ⟨m.handExpiry i, hm ▸ timer_eq i s ((over_iff _).mpr ⟨hrun, hdue⟩),
    (handExpiry_timers m i).trans htimers, ?_, ?_, ?_, ?_⟩
  · intro f hf
    have hi : i = if f = .a then 0 else 1 := by
      apply Fin.ext
      rw [hf]
      cases f <;> rfl
    have hgo : m.handExpiry i = m.modFace f (Composer.stepTickers m.params.tickerHold) := by
      rw [hi]
      cases f <;> rfl
    rw [hgo]
    refine ⟨?_, (honly.mono (by decide)).trans ((modFace_only m f _).mono (by decide))⟩
    rw [← stepTickers_eq, ← hfaces, ← honly.params]
    rfl
  · intro hi
    have hgo : m.handExpiry i = (m.eachFace fun g t => t.rotateStep g) ∨
        m.handExpiry i = m.eachFace fun g t => t.bottomStep g := by
      rcases hi with hi | hi
      · exact .inl (by rw [show i = 2 from Fin.ext hi]; rfl)
      · exact .inr (by rw [show i = 3 from Fin.ext hi]; rfl)
    rcases hgo with hgo | hgo
    · rw [hgo]
      refine ⟨(honly.mono (by decide)).trans (OnlyIn.eachFace fun f u => (rotateStep_only u f).mono (by decide)), ?_⟩
      intro f hf
      rw [rotateBoth_face, hfaces]
      exact turn_of_not_showing (not_showing hf) _
    · rw [hgo]
      refine ⟨(honly.mono (by decide)).trans (OnlyIn.eachFace fun f u => (modFace_only u f _).mono (by decide)), ?_⟩
      intro f hf
      rw [bottomBoth_face, hfaces]
      exact rotateBottom_of_not_showing (not_showing hf) _
  · intro hi
    have hgo : m.handExpiry i = m.toggleFlash := by rw [show i = 4 from Fin.ext hi]; rfl
    rw [hgo]
    refine ⟨?_, (honly.mono (by decide)).trans ((toggleFlash_only m).mono (by decide)), ?_⟩
    · show (!m.flashOn) = _
      rw [honly.flashOn]
    · intro f
      dsimp only
      rw [← flashes_iff, toggleFlash_face, hfaces]
      exact ⟨fun h => if_pos h, fun h => if_neg h⟩
  · intro hi
    have hgo : m.handExpiry i = m.sampleAmbient := by rw [show i = 5 from Fin.ext hi]; rfl
    rw [hgo]
    refine ⟨?_, (honly.mono (by decide)).trans ?_⟩
    · show { m.ambient with converting := true } = _
      rw [honly.ambient]
    · intro q hq; cases q <;> first | rfl | exact absurd (by decide) hq

/-! ## Rotation and pages (R104, R110, R112) -/

theorem advancePage_eq (pages : Nat) (c : Composer) :
    c.advancePage pages = { c with
      page := if pages ≤ c.page then 1 else c.page + 1, dirty := c.dirty || decide (2 ≤ pages) } := rfl

theorem advanceRotate_eq (pool : Nat) (c : Composer) :
    c.advanceRotate pool = { c with
      rotate := if pool = 0 then 0 else (c.rotate + 1) % pool
      dirty := c.dirty || decide (.rotate ∈ c.settings.roles.toList ∧ 2 ≤ pool) } := by
  unfold Composer.advanceRotate
  rw [Bool.decide_and, List.contains_eq_mem]

theorem showedFull_false {c : Composer} (h : (c.lastPlan.bind fun p => p.full) = none) : c.showedFull = false := by
  unfold Composer.showedFull
  rw [h]
  rfl

theorem rotateBottom_kept {c : Composer} {list : List BottomEntry} (h : c.nextEntry list = c.entry) :
    c.rotateBottom list = c := by
  unfold Composer.rotateBottom
  rw [h, bne_self_eq_false, Bool.and_false]
  rfl

/-- R110: the bottom entry of a showing face that stands at its BOTTOM line, where another entry is next. -/
theorem rotateBottom_moved {c : Composer} {list : List BottomEntry} (hc : c.showing = true)
    (hrole : .bottom ∈ c.settings.roles.toList) (hfull : c.showedFull = false) (h : c.nextEntry list ≠ c.entry) :
    c.rotateBottom list = { c with entry := c.nextEntry list, pass := false, dirty := true } := by
  unfold Composer.rotateBottom
  rw [hc, List.contains_iff_mem.mpr hrole, hfull, bne_iff_ne.mpr h]
  rfl

/-- R110: nothing moves while a FULL notice is shown, or without a BOTTOM line. -/
theorem rotateBottom_off {c : Composer} {list : List BottomEntry}
    (h : (c.lastPlan.bind fun p => p.full) ≠ none ∨ .bottom ∉ c.settings.roles.toList) : c.rotateBottom list = c := by
  unfold Composer.rotateBottom
  refine if_neg fun hgo => ?_
  rw [Bool.and_eq_true, Bool.and_eq_true, Bool.and_eq_true, List.contains_iff_mem, Bool.not_eq_true'] at hgo
  obtain ⟨⟨⟨_, hrole⟩, hfull⟩, _⟩ := hgo
  rcases h with h | h
  · unfold Composer.showedFull at hfull
    rw [Option.isSome_eq_false_iff, Option.isNone_iff_eq_none] at hfull
    exact h hfull
  · exact h hrole

theorem nextEntry_absent {c : Composer} {list : List BottomEntry} (h : c.entry ∉ list) : c.nextEntry list = .clock := by
  unfold Composer.nextEntry
  exact if_pos (by rw [Bool.not_eq_true', Bool.eq_false_iff, Ne, List.contains_iff_mem]; exact h)

theorem nextEntry_held {c : Composer} {list : List BottomEntry} (h : c.entry ∈ list) (hb : c.bottom ≠ none)
    (hp : c.pass = false) : c.nextEntry list = c.entry := by
  unfold Composer.nextEntry
  rw [List.contains_iff_mem.mpr h, Option.isSome_iff_ne_none.mpr hb, hp]
  rfl

theorem nextEntry_passes {c : Composer} {before after : List BottomEntry} (h : c.entry ∉ before)
    (hb : c.bottom = none ∨ c.pass = true) : c.nextEntry (before ++ c.entry :: after) = after.headD .clock := by
  unfold Composer.nextEntry
  have hmem : c.entry ∈ before ++ c.entry :: after := List.mem_append_right _ List.mem_cons_self
  have hgo : (c.bottom.isSome && !c.pass) = false := by
    rcases hb with hb | hb <;> rw [hb] <;> simp
  rw [List.contains_iff_mem.mpr hmem, hgo, entryAfter_split _ _ _ h]
  rfl

/-- The clock entry heads the list, so an entry off it is another one. -/
theorem clock_mem_bottomEntries (s : State) (f : Face) : .clock ∈ s.bottomEntries f := List.mem_cons_self

/-- Settles O36: the two expiries at one face, through the equations of R104, R112 and R110. -/
theorem rotationAndPagesAdvance : Obligations.RotationAndPagesAdvance := by
  unfold Obligations.RotationAndPagesAdvance
  intro f s hlit
  have hc : (s.faces.get f).showing = true := (showing_iff _).mpr hlit
  have hlist : BottomEntry.clock :: ((s.notices.filter fun n =>
        n.scope == .bottom && n.targets.has f && n.cls == .high) ++ (s.notices.filter fun n =>
        n.scope == .bottom && n.targets.has f && n.cls == .low)).map (fun n => .notice n.id) = s.bottomEntries f := rfl
  dsimp only
  rw [hlist]
  refine ⟨fun hrun hdue => ?_, fun hrun hdue => ?_⟩
  · refine ⟨_, timer_eq 2 s ((over_iff _).mpr ⟨hrun, hdue⟩), ?_⟩
    have hface : ((s.modTimer 2 Timer.expire).handExpiry 2).faces.get f = (s.faces.get f).turn (s.poolEntries f) :=
      rotateBoth_face (s.modTimer 2 Timer.expire) f
    rw [hface]
    exact ⟨fun shown h => by rw [turn_of_full hc _ h, advancePage_eq],
      fun h => by rw [turn_of_none hc _ h, advanceRotate_eq]; rfl⟩
  · refine ⟨_, timer_eq 3 s ((over_iff _).mpr ⟨hrun, hdue⟩), ?_⟩
    have hface : ((s.modTimer 3 Timer.expire).handExpiry 3).faces.get f
        = (s.faces.get f).rotateBottom (s.bottomEntries f) :=
      (bottomBoth_face (s.modTimer 3 Timer.expire) f).trans (by rw [bottomList_eq]; rfl)
    rw [hface]
    refine ⟨fun hfull hrole => ⟨fun habsent => ?_, fun hmem hb hp => ?_, fun before after hsplit hfirst hgo => ?_⟩,
      fun h => rotateBottom_off h⟩
    · have hmoved : (s.faces.get f).nextEntry (s.bottomEntries f) ≠ (s.faces.get f).entry := by
        rw [nextEntry_absent habsent]
        exact fun h => habsent (h ▸ clock_mem_bottomEntries s f)
      rw [rotateBottom_moved hc hrole (showedFull_false hfull) hmoved, nextEntry_absent habsent]
    · exact rotateBottom_kept (nextEntry_held hmem hb hp)
    · have hnext := nextEntry_passes (c := s.faces.get f) (after := after) hfirst hgo
      rw [hsplit]
      split
      next hsame => exact rotateBottom_kept (hnext.trans hsame)
      next hmoves =>
        rw [rotateBottom_moved hc hrole (showedFull_false hfull) (hnext.trans_ne hmoves), hnext]

end Sys2Proof.Machine
end

section
/-! PROOFS. Fitted texts (O37) and tickers (O38). -/

namespace Sys2Proof.Machine
set_option Elab.async false

/-! ## The destination ladder (R127, R128) -/

/-- R127: the rung of the ladder that was taken, with why those above it were not. -/
theorem destinationLadder_rung (width : Nat) (name : List Byte) (via short : Option (List Byte)) :
    (∃ v, via = some v ∧ textWidth (name ++ str " via " ++ v) ≤ width ∧
      destinationLadder width name via short = (name ++ str " via " ++ v, 1)) ∨
    ((∀ v, via = some v → width < textWidth (name ++ str " via " ++ v)) ∧
      ((textWidth name ≤ width ∧ destinationLadder width name via short = (name, 2)) ∨
       (width < textWidth name ∧
        ((∃ t, short = some t ∧ textWidth t ≤ width ∧ destinationLadder width name via short = (t, 3)) ∨
         ((∀ t, short = some t → width < textWidth t) ∧
          destinationLadder width name via short = (cutToFit width name, 4)))))) := by
  unfold destinationLadder
  dsimp only
  split
  next t h =>
    obtain ⟨hvia, hfits⟩ := Option.filter_eq_some_iff.mp h
    obtain ⟨v, hv, rfl⟩ := Option.map_eq_some_iff.mp hvia
    exact .inl ⟨v, hv, of_decide_eq_true hfits, rfl⟩
  next h =>
    refine .inr ⟨fun v hv => ?_, ?_⟩
    · have := Option.filter_eq_none_iff.mp h _ (by rw [hv]; rfl)
      simpa using this
    · split
      next hname => exact .inl ⟨hname, rfl⟩
      next hname =>
        refine .inr ⟨Nat.lt_of_not_le hname, ?_⟩
        split
        next t ht =>
          obtain ⟨hshort, hfits⟩ := Option.filter_eq_some_iff.mp ht
          exact .inl ⟨t, hshort, of_decide_eq_true hfits, rfl⟩
        next ht => exact .inr ⟨fun t hshort => by simpa using Option.filter_eq_none_iff.mp ht t hshort, rfl⟩

theorem cutToFit_fits (width : Nat) (name : List Byte) : textWidth (cutToFit width name) ≤ width := cut_fits width name

/-! ## Wrapped lines (R129, R130, R131) -/

theorem wrapText_fits (text : List Byte) : ∀ line ∈ wrapText text, textWidth line ≤ 256 := by
  unfold wrapText
  split
  · intro line hline
    rw [List.mem_singleton.mp hline]
    decide
  · exact (placeWords_spec Config.lineWidth (by decide) (wordsFrom [] text) [] (by decide)).1

theorem wrapText_solid (text : List Byte) : solid (wrapText text).flatten = solid text := by
  have hplaced := (placeWords_spec Config.lineWidth (by decide) (wordsFrom [] text) [] (by decide)).2
  rw [wordsFrom_solid] at hplaced
  unfold wrapText
  split
  next h => rw [h] at hplaced; exact hplaced
  · exact hplaced

theorem wrapText_ne_nil (text : List Byte) : wrapText text ≠ [] := by
  unfold wrapText
  split
  · simp
  next h => exact h

/-- Settles O37: the ladder by its rungs, the wrapped lines by the rules that place the words. -/
theorem fittedTextsFit : Obligations.FittedTextsFit := by
  unfold Obligations.FittedTextsFit
  refine ⟨advance_eq, textWidth_columns, fun width name via short => ?_, fun text => ?_⟩
  · dsimp only
    rcases destinationLadder_rung width name via short with
      ⟨v, hv, hfits, h⟩ | ⟨hvia, ⟨hname, h⟩ | ⟨hname, ⟨t, ht, hfits, h⟩ | ⟨hshort, h⟩⟩⟩
    · rw [h]
      exact ⟨hfits, by simp, by simp, ⟨fun _ => ⟨v, hv, hfits⟩, fun _ => rfl⟩, fun _ => ⟨v, hv, rfl⟩,
        by simp, by simp, by simp, by simp⟩
    all_goals
      have hnot : ¬ ∃ v, via = some v ∧ textWidth (name ++ str " via " ++ v) ≤ width :=
        fun ⟨v, hv, hfits⟩ => absurd hfits (Nat.not_le.mpr (hvia v hv))
      rw [h]
    · exact ⟨hname, by simp, by simp, ⟨by simp, fun hv => absurd hv hnot⟩, by simp, fun _ => rfl, by simp,
        by simp, by simp⟩
    · exact ⟨hfits, by simp, by simp, ⟨by simp, fun hv => absurd hv hnot⟩, by simp, by simp, fun _ => hname,
        fun _ => ht, by simp⟩
    · obtain ⟨hshorter, hlongest⟩ := cut_longest width name hname
      exact ⟨cutToFit_fits width name, by simp, by simp, ⟨by simp, fun hv => absurd hv hnot⟩, by simp, by simp,
        fun _ => hname, by simp, fun _ => ⟨hshort, _, rfl, hshorter, hlongest⟩⟩
  · have hlines : 0 < (wrapText text).length := List.length_pos_iff.mpr (wrapText_ne_nil text)
    refine ⟨wrapText_wraps text, wrapText_fits text, wrapText_solid text, hlines, ?_, ?_⟩
    all_goals unfold pageCount; omega

/-! ## Tickers (R133, R134) -/

theorem step_hold {t : Ticker} (h : t.phase = .hold) (hold : Nat) : t.step hold = { t with
    holdLeft := t.holdLeft - 1, phase := if t.holdLeft ≤ 1 then .scroll else .hold } := by
  unfold Ticker.step
  rw [h]
  dsimp only
  simp only [Nat.sub_eq_zero_iff_le]

/-- R134: a scrolling ticker arrives at 256. -/
theorem step_arrives {t : Ticker} (h : t.phase = .scroll) (hp : t.pos + 1 = 256) (hw : 0 < t.width) (hold : Nat) :
    t.step hold = { t with pos := 256, phase := if hold = 0 then .scroll else .hold, holdLeft := hold } := by
  have hmoves : (if t.pos + 1 = Config.lineWidth + t.width then 0 else t.pos + 1) = Config.lineWidth := by
    rw [if_neg (by unfold Config.lineWidth; omega)]
    exact hp
  unfold Ticker.step
  rw [h]
  dsimp only
  rw [if_pos hmoves, hmoves]
  rfl

/-- R134: a scrolling ticker moves on elsewhere. -/
theorem step_scrolls {t : Ticker} (h : t.phase = .scroll) (hp : t.pos + 1 ≠ 256 ∨ t.width = 0)
    (hpos : t.pos < 256 + t.width) (hold : Nat) : t.step hold = { t with pos := (t.pos + 1) % (256 + t.width) } := by
  have hmoves : (if t.pos + 1 = Config.lineWidth + t.width then 0 else t.pos + 1) = (t.pos + 1) % (256 + t.width) := by
    unfold Config.lineWidth
    split
    next hend => rw [hend, Nat.mod_self]
    next hend => rw [Nat.mod_eq_of_lt (by omega)]
  have helsewhere : (t.pos + 1) % (256 + t.width) ≠ Config.lineWidth := by
    rw [← hmoves]
    unfold Config.lineWidth
    split <;> omega
  unfold Ticker.step
  rw [h]
  dsimp only
  rw [hmoves, if_neg helsewhere]

theorem stepCompletes_iff (t : Ticker) :
    t.stepCompletes = true ↔ t.phase = .scroll ∧ t.pos + 1 = 256 ∧ t.width ≠ 0 := by
  unfold Ticker.stepCompletes Config.lineWidth
  rw [Bool.and_eq_true, Bool.and_eq_true, beq_iff_eq, beq_iff_eq, bne_iff_ne, and_assoc]
  refine and_congr_right fun _ => and_congr_right fun hp => ?_
  omega

theorem repeat_step (f : Ticker → Ticker) (n : Nat) (t : Ticker) : Nat.repeat f (n + 1) t = f (Nat.repeat f n t) := rfl

/-- The hold of a ticker just built, counted down. -/
theorem repeat_hold (key : TickerKey) (text : List Byte) (W hold : Nat) : ∀ k ≤ hold,
    Nat.repeat (fun t => Ticker.step t hold) k ⟨key, text, W, 256, if hold = 0 then .scroll else .hold, hold⟩
      = ⟨key, text, W, 256, if hold - k = 0 then .scroll else .hold, hold - k⟩
  | 0, _ => rfl
  | k + 1, hk => by
    have hrun : hold - k ≠ 0 := by omega
    rw [repeat_step, repeat_hold key text W hold k (by omega), if_neg hrun, step_hold rfl]
    simp only [Nat.sub_sub, Nat.sub_eq_zero_iff_le, Ticker.mk.injEq, true_and, and_true]
    exact if_congr (by omega) rfl rfl

/-- The scroll of a ticker whose hold is over, up to the column before the one it holds at. -/
theorem repeat_scroll (key : TickerKey) (text : List Byte) (W hold : Nat) : ∀ j ≤ W + 255,
    Nat.repeat (fun t => Ticker.step t hold) (hold + j)
        ⟨key, text, W, 256, if hold = 0 then .scroll else .hold, hold⟩
      = ⟨key, text, W, (256 + j) % (256 + W), .scroll, 0⟩ ∨ W = 0
  | 0, _ => by
    rcases Nat.eq_zero_or_pos W with hW | hW
    · exact .inr hW
    · left
      rw [Nat.add_zero, repeat_hold key text W hold hold (Nat.le_refl _), Nat.sub_self, if_pos rfl,
        Nat.mod_eq_of_lt (by omega)]
  | j + 1, hj => by
    rcases repeat_scroll key text W hold j (by omega) with ih | hW
    · rcases Nat.eq_zero_or_pos W with hW | hW
      · exact .inr hW
      left
      have hbefore : (256 + j) % (256 + W) + 1 ≠ 256 := by
        rcases Nat.lt_or_ge j W with h | h
        · rw [Nat.mod_eq_of_lt (by omega)]; omega
        · rw [Nat.mod_eq_sub_mod (by omega), Nat.mod_eq_of_lt (by omega)]; omega
      rw [← Nat.add_assoc, repeat_step, ih, step_scrolls rfl (.inl hbefore) (Nat.mod_lt _ (by omega))]
      simp only [Ticker.mk.injEq, true_and, and_true]
      rw [Nat.mod_add_mod, Nat.add_assoc]
    · exact .inr hW

/-- Settles O38: the hold first, then the scroll to the column before the hold's, and the step that arrives there. -/
theorem tickerGoesRound : Obligations.TickerGoesRound := by
  unfold Obligations.TickerGoesRound
  refine ⟨fun t hold => ⟨fun h => step_hold h hold, fun h hpos => ?_⟩, fun key text hold hwide => ⟨rfl, ?_⟩⟩
  · by_cases harrives : t.pos + 1 = 256 ∧ 0 < t.width
    · obtain ⟨hp, hw⟩ := harrives
      rw [step_arrives h hp hw]
      refine ⟨?_, ?_, fun _ _ => ⟨(stepCompletes_iff t).mpr ⟨h, hp, hw.ne'⟩, rfl⟩, fun hne => absurd hp hne⟩
      · rw [hp, Nat.mod_eq_of_lt (by omega)]
      · by_cases hh : hold = 0 <;> simp [hh, hp, hw]
    · rw [step_scrolls h (by omega) hpos]
      refine ⟨rfl, ?_, fun hp hw => absurd ⟨hp, hw⟩ harrives, fun hne => ⟨?_, rfl⟩⟩
      · rw [if_neg fun ⟨hp, _, hw⟩ => harrives ⟨hp, hw⟩]
        exact h
      · rw [Bool.eq_false_iff, Ne, stepCompletes_iff]
        exact fun ⟨_, hp, _⟩ => hne hp
  · have hscrolled := repeat_scroll key text (textWidth text) hold (textWidth text + 255) (Nat.le_refl _)
    rw [or_iff_left (by omega), show 256 + (textWidth text + 255) = 255 + (256 + textWidth text) by omega,
      Nat.add_mod_right, Nat.mod_eq_of_lt (by omega)] at hscrolled
    rw [show 256 + textWidth text + hold = hold + (textWidth text + 255) + 1 by omega, repeat_step, hscrolled]
    exact lastStep key text (textWidth text) hold (by omega)

end Sys2Proof.Machine
end

section
/-! PROOFS. SET FACE (O39). -/

namespace Sys2Proof.Machine
set_option Elab.async false

/-! ## SET FACE (R95) -/

theorem modFace_own (s : State) (f : Face) (g : Composer → Composer) :
    (s.modFace f g).faces.get f = g (s.faces.get f) := by
  rw [State.modFace_faces, PerFace.get_set_same]

/-- R95: a face whose settings are replaced and whose wake check has been made, before its state is worked out. -/
def State.faceSet (s : State) (f : Face) (c : FaceSettings) : State :=
  (s.modFace f (Composer.setSettings c)).departureWake f

theorem setFaceSettings_eq (s : State) (f : Face) (c : FaceSettings) :
    s.setFaceSettings f c = ((s.faceSet f c).settle f).markDirty f := rfl

/-- R95: the wake check leaves all but the countdown of the settings taken. -/
theorem faceSet_face (s : State) (f : Face) (c : FaceSettings) :
    { (s.faceSet f c).faces.get f with countdown := ((s.faces.get f).setSettings c).countdown }
      = (s.faces.get f).setSettings c := by
  have h := (departureWake_countdown (s.modFace f (Composer.setSettings c)) f).2.2
  rw [modFace_own] at h
  exact h

/-- R95: the composer of the face named, at the end. -/
theorem setFaceSettings_face (s : State) (f : Face) (c : FaceSettings) :
    (s.setFaceSettings f c).faces.get f = { ((s.faceSet f c).settle f).faces.get f with dirty := true } := by
  rw [setFaceSettings_eq]
  exact modFace_own _ _ _

theorem faceSet_settings (s : State) (f : Face) (c : FaceSettings) : ((s.faceSet f c).faces.get f).settings = c := by
  have h := congrArg Composer.settings (faceSet_face s f c)
  exact h.trans (setSettings_settings c _).1

theorem setFaceSettings_settings (s : State) (f : Face) (c : FaceSettings) :
    ((s.setFaceSettings f c).faces.get f).settings = c := by
  rw [setFaceSettings_face]
  exact (settle_settings _ f f).trans (faceSet_settings s f c)

theorem setFaceSettings_dirty (s : State) (f : Face) (c : FaceSettings) :
    ((s.setFaceSettings f c).faces.get f).dirty = true := by
  rw [setFaceSettings_face]

/-- R97: the state at the end is that of the settings and the countdown at the end. -/
theorem setFaceSettings_state (s : State) (f : Face) (c : FaceSettings) :
    ((s.setFaceSettings f c).faces.get f).state = (s.setFaceSettings f c).effState f := by
  have hstate : ((s.setFaceSettings f c).faces.get f).state = (s.faceSet f c).effState f := by
    rw [setFaceSettings_face]
    exact settle_state _ f
  rw [hstate, ← settle_effState _ f f]
  refine (effState_congr (markDirty_only _ f).lines ?_ ?_).symm
  all_goals rw [← setFaceSettings_eq, setFaceSettings_face]

/-- R95, R98: the countdown after the wake check of a face that takes its settings. -/
theorem setFaceSettings_countdown (s : State) (f : Face) (c : FaceSettings) :
    let old := s.faces.get f
    let d := (s.setFaceSettings f c).faces.get f
    ((s.modFace f (Composer.setSettings c)).departureWakes f → d.countdown = s.params.wakeHold) ∧
    (¬ (s.modFace f (Composer.setSettings c)).departureWakes f →
      d.countdown = if c.modeOn = true ∨ old.settings.modeOn = true then 0 else old.countdown) := by
  dsimp only
  have hkept : ((s.setFaceSettings f c).faces.get f).countdown = ((s.faceSet f c).faces.get f).countdown := by
    rw [setFaceSettings_face]
    exact settle_countdown _ f f
  obtain ⟨hwoken, hnot, -⟩ := departureWake_countdown (s.modFace f (Composer.setSettings c)) f
  rw [hkept]
  refine ⟨hwoken, fun h => (hnot h).trans ?_⟩
  rw [modFace_own, (setSettings_settings c _).2]
  simp only [Bool.or_eq_true]

/-- R95: a layout that stands, and one that starts afresh. -/
theorem setFaceSettings_layout (s : State) (f : Face) (c : FaceSettings) :
    let old := s.faces.get f
    let d := (s.setFaceSettings f c).faces.get f
    (old.settings.layoutDiffers c = false → d.rotate = old.rotate ∧ d.entry = old.entry ∧ d.page = old.page) ∧
    (old.settings.layoutDiffers c = true → d.rotate = 0 ∧ d.entry = .clock ∧ d.page = 1 ∧ d.pass = false ∧
      d.restartPending = true) := by
  dsimp only
  rw [setFaceSettings_face]
  obtain ⟨-, hrotate, hentry, hpage, -⟩ := settle_layout (s.faceSet f c) f
  obtain ⟨-, -, -, -, -, -, -, hpending, hpass, -⟩ := settle_effects (s.faceSet f c) f
  have hset := faceSet_face s f c
  dsimp only at hrotate hentry hpage ⊢
  rw [hrotate, hentry, hpage]
  refine ⟨fun h => ?_, fun h => ?_⟩
  · rw [setSettings_same h] at hset
    exact ⟨(congrArg Composer.rotate hset :), (congrArg Composer.entry hset :), (congrArg Composer.page hset :)⟩
  · rw [setSettings_differs h] at hset
    exact ⟨(congrArg Composer.rotate hset :), (congrArg Composer.entry hset :), (congrArg Composer.page hset :),
      hpass (congrArg Composer.pass hset :), hpending (congrArg Composer.restartPending hset :)⟩

/-- Settles O39: the settings taken on the accepted frame, the wake check on the view at the end. -/
theorem setFaceTakesTheSettings : Obligations.SetFaceTakesTheSettings := by
  unfold Obligations.SetFaceTakesTheSettings
  intro p tag f c s hready hallowed hrights
  obtain ⟨a, ha⟩ : ∃ a, a = s.acceptFrame p := ⟨_, rfl⟩
  have htake : takeSetFace p ((if f = .a then 1 else 2) :: faceBlock c) (s.acceptFrame p)
      = (a.setFaceSettings f c, .plain .ok) := by
    unfold takeSetFace
    rw [withOperands_ok (parseSetFace_block f hallowed), withRights_ok ((acceptFrame_allows_iff ..).mpr hrights), ha]
  have hset : OnlyIn faceParts a (a.setFaceSettings f c) := setFaceSettings_only a f c
  obtain ⟨hnext, hserved, honly⟩ := serve_answers hready
    (c := .setFace p tag ((if f = .a then 1 else 2) :: faceBlock c)) rfl htake (ps := faceParts) (ha ▸ hset)
  obtain ⟨t, ht⟩ : ∃ t, t = (a.setFaceSettings f c).sendReply p 0x38 tag (.plain .ok) := ⟨_, rfl⟩
  have hreplied : OnlyIn [.ports] (a.setFaceSettings f c) t := ht ▸ sendReply_only _ _ _ _ _
  have hface : t.faces.get f = (a.setFaceSettings f c).faces.get f := by rw [hreplied.faces]
  rw [← ht] at hnext hserved honly
  have hold : a.faces.get f = { s.faces.get f with dirty := (s.faces.get f).dirty || (s.ports.get p).silent } :=
    ha ▸ acceptFrame_face s p f
  obtain ⟨hwoken, hnot⟩ := setFaceSettings_countdown a f c
  obtain ⟨hsame, hafresh⟩ := setFaceSettings_layout a f c
  obtain ⟨hsettings, hdirty, hstate⟩ := And.intro (setFaceSettings_settings a f c)
    (And.intro (setFaceSettings_dirty a f c) (setFaceSettings_state a f c))
  rw [← hface] at hwoken hnot hsame hafresh hsettings hdirty hstate
  rw [hold] at hnot hsame hafresh
  have honly : OnlyIn (.ports :: faceParts) s t := honly.mono (by decide)
  have hu : OnlyIn [.faces] a (a.modFace f (Composer.setSettings c)) := modFace_only a f _
  have hviewed : (a.setFaceSettings f c).view f = (a.modFace f (Composer.setSettings c)).view f := by
    refine view_congr (hset.table.trans hu.table.symm) ?_ fun q => ?_
    · rw [setFaceSettings_settings, modFace_own, (setSettings_settings c _).1]
    · rw [hset.ports, hu.ports]; exact ⟨rfl, rfl⟩
  have hview : t.view f = (a.setFaceSettings f c).view f :=
    view_congr hreplied.table (by rw [hface]) fun q => ht ▸ sendReply_silent ..
  have hwakes : (a.modFace f (Composer.setSettings c)).departureWakes f ↔ t.departureWakes f :=
    departureWakes_congr (hu.clock.trans (hreplied.clock.trans hset.clock).symm)
      (hu.params.trans (hreplied.params.trans hset.params).symm)
      (by rw [hsettings, modFace_own, (setSettings_settings c _).1]) (hview.trans hviewed).symm
  have hparams : a.params = s.params := by rw [ha, acceptFrame_params]
  have hwoken_iff : t.departureWakes f ↔ s.clock.valid = true ∧ t.wakes f c.mask.departure ∧
      ∃ r ∈ t.view f, s.nowKey ≤ r.key s.params.ro + r.delay.getD 0 ∧
        r.key s.params.ro + r.delay.getD 0 ≤ s.nowKey + s.params.wakeWindow := by
    unfold State.departureWakes State.nowKey
    rw [hsettings, honly.clock, honly.params]
  have hlayout := layoutDiffers_iff (s.faces.get f).settings c
  refine ⟨t, hnext, hserved, hsettings, hdirty, hstate.trans ?_, ?_, ⟨?_, ?_, ?_, ?_⟩, ?_, honly⟩
  · exact effState_congr hreplied.lines.symm (by rw [hface]) (by rw [hface])
  · rw [ht, ha]; exact setFaceSettings_effects s p f c _ _ _
  · exact fun h => (hwoken (hwakes.mpr (hwoken_iff.mpr h))).trans (by rw [hparams])
  · exact fun h => hnot fun h' => h (hwoken_iff.mp (hwakes.mp h'))
  · exact fun h => hsame (hlayout.mpr h)
  · exact fun h => hafresh (Bool.not_eq_false _ ▸ mt hlayout.mp h)
  · rw [ht, ha]; exact fun g hg => setFaceSettings_other s p hg c _ _ _

end Sys2Proof.Machine
end

section
/-! PROOFS. Plans: what is taken, and what its lines show (O40, O41). -/

namespace Sys2Proof.Machine
set_option Elab.async false

/-! ## Taking a plan (R111, R112, R115) -/

theorem plan_next (f : Face) (s : State) : exec (.plan f) s = .next (if s.planDue f then s.takePlan f else s) := rfl

/-- The face with its mark cleared, from which a plan is taken. -/
def State.unmarked (s : State) (f : Face) : State := s.modFace f fun c => { c with dirty := false }

theorem unmarked_face (s : State) (f : Face) : (s.unmarked f).faces.get f = { s.faces.get f with dirty := false } :=
  modFace_own s f _

theorem unmarked_only (s : State) (f : Face) : OnlyIn [.faces] s (s.unmarked f) := modFace_only s f _

theorem takePlan_full {s : State} {f : Face} {n : Notice} (h : s.chooseFull f = some n) :
    s.takePlan f = (s.unmarked f).planFull f n := by
  unfold State.takePlan
  dsimp only
  rw [show (s.modFace f fun c => { c with dirty := false }).chooseFull f = some n from h]
  rfl

theorem takePlan_view {s : State} {f : Face} (h : s.chooseFull f = none) :
    s.takePlan f = (s.unmarked f).planView f := by
  unfold State.takePlan
  dsimp only
  rw [show (s.modFace f fun c => { c with dirty := false }).chooseFull f = none from h]
  rfl

theorem handPlan_face (s : State) (f : Face) (plan : Plan) : (s.handPlan f plan).faces.get f =
    { s.faces.get f with rebuild := .painting, inHand := some plan, lastPlan := some plan, serial := plan.serial } := by
  rw [handPlan_faces, PerFace.get_set_same]

/-- R111, R112: the plan of a page of a FULL notice. -/
def State.fullPlan (s : State) (f : Face) (n : Notice) : Plan :=
  ⟨(s.faces.get f).serial + 1, Vector.ofFn (fullLine n ((s.faces.get f).pageFor n)), s.flashOn, some ⟨n.id, n.text⟩⟩

theorem planFull_face (s : State) (f : Face) (n : Notice) : (s.planFull f n).faces.get f =
    { s.faces.get f with
      calling := none, bottom := none, page := (s.faces.get f).pageFor n, rebuild := .painting
      inHand := some (s.fullPlan f n), lastPlan := some (s.fullPlan f n), serial := (s.faces.get f).serial + 1 } := by
  unfold State.planFull
  dsimp only
  rw [handPlan_face, modFace_own]
  rfl

theorem pageFor_eq (c : Composer) (n : Notice) : c.pageFor n =
    if (c.lastPlan.bind fun last => last.full) = some ⟨n.id, n.text⟩ ∧ c.page ≤ pageCount n.text then c.page else 1 := by
  unfold Composer.pageFor
  simp only [Bool.and_eq_true, decide_eq_true_eq]

theorem fullLine_eq (n : Notice) (page : Nat) (k : Fin 4) :
    let text := ((wrapText n.text)[4 * (page - 1) + k.val]?).getD []
    fullLine n page k = ⟨.full, if text = [] then .none else .page n.id page,
      [⟨0, 256, .centre, text, none, n.flash, none⟩]⟩ := by
  unfold fullLine lineField Config.lineWidth
  simp only [List.isEmpty_iff, List.getD_eq_getElem?_getD]

theorem fullPlan_lines (s : State) (f : Face) (n : Notice) (k : Fin 4) :
    (s.fullPlan f n).lines[k] = fullLine n ((s.faces.get f).pageFor n) k := by
  unfold State.fullPlan
  exact Vector.getElem_ofFn _

/-- Settles O40: what `takePlan_spec` says of every plan, and the page of a FULL notice written out. -/
theorem planIsTakenAndHandedOn : Obligations.PlanIsTakenAndHandedOn := by
  unfold Obligations.PlanIsTakenAndHandedOn
  intro f s
  dsimp only
  rw [← planDue_iff, ← chooseFull_eq]
  refine ⟨fun h => (plan_next f s).trans (congrArg _ (if_neg h)), fun hdue => ?_⟩
  obtain ⟨plan, hface, hserial, hflash, hfull, hsettings, hstate, hcountdown, hrotate, hother, hpainter, hpanels, hpanel,
    hpanelOther, hchosen, -⟩ := takePlan_spec s f
  have hinHand := congrArg Composer.inHand hface
  refine ⟨s.takePlan f, plan, (plan_next f s).trans (congrArg _ (if_pos hdue)), congrArg Composer.dirty hface,
    congrArg Composer.rebuild hface, hinHand, congrArg Composer.lastPlan hface, hserial, congrArg Composer.serial hface,
    hflash, hfull, hsettings, hstate, hcountdown, hrotate, fun g hg => ⟨hother g hg, hpanelOther g hg⟩, hpanel f,
    fun hidle => ?_, fun hbusy => ⟨?_, hpanels hbusy⟩, fun n hn => ?_, (takePlan_only s f).mono (by decide)⟩
  · rw [hpainter, hidle]
  · rw [hpainter]
    obtain ⟨j, hj⟩ := Option.ne_none_iff_exists'.mp hbusy
    rw [hj]
  · obtain ⟨hcalling, hbottom, hpass, hpending, honly⟩ := hchosen n hn
    have htaken : (s.takePlan f).faces.get f = _ := (congrArg (fun u : State => u.faces.get f) (takePlan_full hn)).trans
      (planFull_face (s.unmarked f) f n)
    have hmine : plan = (s.unmarked f).fullPlan f n :=
      Option.some.inj (hinHand.symm.trans (congrArg Composer.inHand htaken))
    have hpage : ((s.unmarked f).faces.get f).pageFor n
        = if ((s.faces.get f).lastPlan.bind fun last => last.full) = some ⟨n.id, n.text⟩ ∧
            (s.faces.get f).page ≤ pageCount n.text then (s.faces.get f).page else 1 := by
      rw [unmarked_face, pageFor_eq]
    rw [unmarked_face] at htaken
    refine ⟨(congrArg Composer.page htaken).trans ?_, (congrArg Composer.entry htaken :), hpass, hpending, fun k => ?_,
      hcalling, hbottom, honly⟩
    · exact (unmarked_face s f) ▸ hpage
    · rw [hmine, fullPlan_lines, hpage]
      exact fullLine_eq n _ k

/-! ## The lines of a plan of the departure view (R103 to R109) -/

section
variable {v : State} {f : Face} {k : Fin 4}

theorem planLine_empty (h : (v.faces.get f).settings.roles[k] = .empty) :
    (v.planLine f k).1 = ⟨.role .empty, .none, []⟩ := by
  unfold State.planLine
  dsimp only
  rw [h]
  rfl

theorem planLine_first (h : (v.faces.get f).settings.roles[k] = .first) :
    (v.planLine f k).1 = if (v.view f).isEmpty then
        ⟨.role .first, .phrase, [⟨0, 256, .centre, str "No departures", none, false, none⟩]⟩
      else v.recordShown f .first (v.view f).head? := by
  unfold State.planLine
  dsimp only
  rw [h]
  dsimp only
  cases v.view f with
  | nil => rfl
  | cons r rest => exact recordLine_eq v f .first r

theorem planLine_next (h : (v.faces.get f).settings.roles[k] = .next) :
    (v.planLine f k).1 = v.recordShown f .next
      (v.view f)[((v.faces.get f).settings.roles.toList.take k).count .next + 1]? := by
  unfold State.planLine
  dsimp only
  rw [h]
  exact recordOrDark_eq v f .next _

theorem planLine_rotate (h : (v.faces.get f).settings.roles[k] = .rotate) :
    (v.planLine f k).1 = v.recordShown f .rotate
      (v.rotateShown f (((v.faces.get f).settings.roles.toList.take k).count .rotate)) := by
  unfold State.planLine
  dsimp only
  rw [h]
  exact recordOrDark_eq v f .rotate _

theorem planLine_calling (h : (v.faces.get f).settings.roles[k] = .calling) :
    ((v.view f).isEmpty → (v.planLine f k).1 = ⟨.role .calling, .none, []⟩) ∧
    ∀ r, (v.view f).head? = some r → (v.planLine f k).1 = ⟨.role .calling, .record r.code r.revision,
      [⟨0, 256, .left, v.callingShown r, none, false, (v.faces.get f).calling.map fun k => k.pos⟩]⟩ := by
  unfold State.planLine
  dsimp only
  rw [h]
  dsimp only
  refine ⟨fun hempty => ?_, fun r hr => ?_⟩
  · rw [List.isEmpty_iff.mp hempty]
    rfl
  · rw [hr]
    dsimp only
    rw [callingText_eq]
    rfl

theorem planLine_bottom (h : (v.faces.get f).settings.roles[k] = .bottom) :
    (v.planLine f k).1 = ⟨.role .bottom, (v.faces.get f).entry.source,
      [⟨0, 256, .centre, (v.bottomShown (v.faces.get f).entry).1, none, (v.bottomShown (v.faces.get f).entry).2,
        (v.faces.get f).bottom.map fun k => k.pos⟩]⟩ := by
  unfold State.planLine
  dsimp only
  rw [h]
  dsimp only
  rw [bottomText_eq]
  rfl

end

/-! ## What a face shows does not hang on the composers but for its settings and its rotation -/

section
variable {s v : State} (h : OnlyIn [.faces] s v)
include h

theorem callingShown_of_faces (r : Departure) : v.callingShown r = s.callingShown r := by
  unfold State.callingShown State.place?
  rw [h.places]

theorem bottomShown_of_faces (e : BottomEntry) : v.bottomShown e = s.bottomShown e := by
  unfold State.bottomShown State.notice?
  rw [h.clock, h.notices]

theorem recordShown_of_faces {f : Face} (hs : (v.faces.get f).settings = (s.faces.get f).settings) (role : Role)
    (r : Option Departure) : v.recordShown f role r = s.recordShown f role r := by
  unfold State.recordShown State.destinationShown State.place?
  rw [h.places, hs]

theorem view_of_settings {f : Face} (hs : (v.faces.get f).settings = (s.faces.get f).settings) :
    v.view f = s.view f :=
  view_congr h.table hs fun p => by rw [h.ports]; exact ⟨rfl, rfl⟩

theorem rotateShown_of_faces {f : Face} (hs : (v.faces.get f).settings = (s.faces.get f).settings)
    (hr : (v.faces.get f).rotate = (s.faces.get f).rotate) (above : Nat) :
    v.rotateShown f above = s.rotateShown f above := by
  unfold State.rotateShown State.poolSize
  rw [view_of_settings h hs, hs, hr, h.params]

end

/-! ## Taking a plan of the departure view (R110, R112) -/

/-- The face brought up for a plan of the departure view, its mark cleared. -/
def State.prepared (s : State) (f : Face) : State := (s.unmarked f).prepareView f

theorem prepared_only (s : State) (f : Face) : OnlyIn [.faces] s (s.prepared f) :=
  (unmarked_only s f).trans (prepareView_only _ f)

theorem planView_face (s : State) (f : Face) : (s.planView f).faces.get f =
    { (s.prepareView f).faces.get f with
      rebuild := .painting, inHand := some ((s.prepareView f).viewPlan f)
      lastPlan := some ((s.prepareView f).viewPlan f), serial := ((s.prepareView f).viewPlan f).serial } := by
  unfold State.planView
  dsimp only
  rw [handPlan_face, (raiseAll_only _ _ _).faces]

theorem viewPlan_lines (s : State) (f : Face) (k : Fin 4) : (s.viewPlan f).lines[k] = (s.planLine f k).1 :=
  Vector.getElem_ofFn _

/-- R112: without a FULL notice that targets the face, none is chosen. -/
theorem chooseFull_none {s : State} {f : Face} (h : ∀ n ∈ s.notices, n.scope = .full → n.targets.has f = false) :
    s.chooseFull f = none := by
  have hnil : (s.notices.filter fun n => n.scope == .full && n.targets.has f) = [] := by
    rw [List.filter_eq_nil_iff]
    intro n hn hgo
    rw [Bool.and_eq_true, beq_iff_eq] at hgo
    exact absurd (h n hn hgo.1) (by rw [hgo.2]; simp)
  rw [chooseFull_eq, hnil]
  rfl

theorem showedFull_iff {c : Composer} : c.showedFull = true ↔ (c.lastPlan.bind fun last => last.full) ≠ none :=
  Option.isSome_iff_ne_none

theorem planView_reports (s : State) (f : Face) {u : State} (hu : OnlyIn [.faces] u (s.prepareView f)) :
    ReportsRaised u (s.planView f) .placeUndefined ((s.prepareView f).viewFaults f) :=
  (raiseAll_reports hu (by decide) _ _).after (handPlan_only _ f _) (by decide)

/-- Settles O41: the face brought up first, then each line by its role, all seen in the state before. -/
theorem planLinesFollowTheirRoles : Obligations.PlanLinesFollowTheirRoles := by
  unfold Obligations.PlanLinesFollowTheirRoles
  refine ⟨fun f s => view_eq s f, fun f s hdue hnone => ?_⟩
  obtain ⟨v, hv⟩ : ∃ v, v = s.prepared f := ⟨_, rfl⟩
  have honly : OnlyIn [.faces] s v := hv ▸ prepared_only s f
  obtain ⟨hsettings, -, -, hrotate, hdirty, -, hentry, -, hpage, hpass⟩ := prepareView_keeps (s.unmarked f) f
  obtain ⟨hpending, hcalling, hbottom⟩ := prepareView_tickers (s.unmarked f) f _ rfl
  have hentries : (s.unmarked f).bottomList f = s.bottomEntries f := bottomList_eq (s.unmarked f) f
  rw [unmarked_face] at hsettings hrotate hdirty hentry hpage hpass hcalling hbottom
  rw [hentries] at hentry hpass
  rw [show (s.unmarked f).prepareView f = v from hv.symm] at hsettings hrotate hdirty hentry hpage hpass hpending hcalling hbottom
  simp only [List.contains_iff_mem] at hentry
  have hview : v.view f = s.view f := view_of_settings honly hsettings
  have hunmarked : (s.unmarked f).view f = s.view f := view_of_settings (unmarked_only s f) (by rw [unmarked_face])
  have hplanned : s.takePlan f = (s.unmarked f).planView f := takePlan_view (chooseFull_none hnone)
  have hface : (s.takePlan f).faces.get f = { v.faces.get f with
      rebuild := .painting, inHand := some (v.viewPlan f), lastPlan := some (v.viewPlan f)
      serial := (v.viewPlan f).serial } := by
    rw [hplanned, planView_face, hv]; rfl
  have hfaults : v.viewFaults f = (List.finRange 4).flatMap fun k =>
      (s.undefinedOn f k).map fun n => ⟨.face f, some (k.val + 1), some n⟩ := by
    unfold State.viewFaults undefinedLocales
    simp only [planLine_undefined, undefinedOn_congr honly.places honly.params hview hsettings hrotate]
  refine ⟨s.takePlan f, v.viewPlan f, (plan_next f s).trans (congrArg _ (if_pos hdue)), by rw [hface], ?_⟩
  dsimp only
  rw [hface]
  refine ⟨?_, hentry, hpending, hdirty, ?_, hpage, ?_, ?_, fun k => ?_⟩
  · rw [← hfaults, hplanned, hv]
    exact planView_reports (s.unmarked f) f (prepared_only s f)
  · rw [hpass]
    exact if_congr (or_congr showedFull_iff (by rw [← Bool.not_eq_true, List.contains_iff_mem])) rfl rfl
  · rw [hcalling, hunmarked]
    rfl
  · rw [hbottom]
    rfl
  · rw [viewPlan_lines]
    refine ⟨fun h => ?_, fun h => ?_, fun h => ?_, fun h => ?_, fun h => ?_, fun h => ?_⟩
    all_goals rw [← hsettings] at h
    · exact planLine_empty h
    · rw [planLine_first h, hview, recordShown_of_faces honly hsettings]
    · rw [planLine_next h, hview, recordShown_of_faces honly hsettings, hsettings]
    · rw [planLine_rotate h, rotateShown_of_faces honly hsettings hrotate, recordShown_of_faces honly hsettings,
        hsettings]
    · obtain ⟨hempty, hshown⟩ := planLine_calling h
      rw [hview] at hempty hshown
      refine ⟨hempty, fun r hr => (hshown r hr).trans ?_⟩
      rw [callingShown_of_faces honly]
    · rw [planLine_bottom h, bottomShown_of_faces honly, hentry]

end Sys2Proof.Machine
end

section
/-! PROOFS. Painting, frame boundaries and chain checks (O42, O43, O44). -/

namespace Sys2Proof.Machine
set_option Elab.async false

/-! ## Paint completions (R117, R137, R138, R139) -/

theorem paintCompletion_next (f : Face) (serial : Nat) (s : State) : exec (.paintCompletion f serial) s =
    .next (if s.painter.current = some ⟨f, serial⟩ then s.painterNext.takeCompletion f serial else s) := rfl

theorem modPanel_own (s : State) (f : Face) (g : Panel → Panel) :
    (s.modPanel f g).panels.get f = g (s.panels.get f) := by
  rw [State.modPanel_panels, PerFace.get_set_same]

theorem modPanel_other (s : State) {f g : Face} (h : g ≠ f) (k : Panel → Panel) :
    (s.modPanel f k).panels.get g = s.panels.get g := by
  rw [State.modPanel_panels, PerFace.get_set_other _ _ h]

theorem modFace_other (s : State) {f g : Face} (h : g ≠ f) (k : Composer → Composer) :
    (s.modFace f k).faces.get g = s.faces.get g := by
  rw [State.modFace_faces, PerFace.get_set_other _ _ h]

theorem paint_lit (plan : Plan) {x y : Nat} (hx : x < 256) (hy : y < 64) :
    plan.paint.lit x y = true ↔ plan.Lights x y := by
  rw [Plan.paint, ofPixels_lit _ hx hy, plan_pixel_iff plan x hy]

/-- R117: the plan painted on the back bitmap of its face, whose rebuild waits for its swap. -/
def State.painted (s : State) (f : Face) (plan : Plan) : State :=
  (s.modPanel f fun p => { p with back := plan.paint }).modFace f fun c => { c with rebuild := .swapPending }

theorem painted_only (s : State) (f : Face) (plan : Plan) : OnlyIn [.panels, .faces] s (s.painted f plan) :=
  ((modPanel_only s f _).mono (by decide)).trans ((modFace_only _ f _).mono (by decide))

theorem painted_own (s : State) (f : Face) (plan : Plan) :
    (s.painted f plan).panels.get f = { s.panels.get f with back := plan.paint } := by
  unfold State.painted
  rw [(modFace_only _ _ _).panels, modPanel_own]

theorem painted_other (s : State) {f g : Face} (h : g ≠ f) (plan : Plan) :
    (s.painted f plan).panels.get g = s.panels.get g := by
  unfold State.painted
  rw [(modFace_only _ _ _).panels, modPanel_other _ h]

theorem painted_panel (s : State) (f g : Face) (plan : Plan) :
    { (s.painted f plan).panels.get g with back := (s.panels.get g).back } = s.panels.get g := by
  by_cases h : g = f
  · rw [h, painted_own]
  · rw [painted_other _ h]

/-- R117: a completion is taken of a plan in hand that is being painted, and otherwise discarded. -/
theorem takeCompletion_cases (s : State) (f : Face) (serial : Nat) :
    (∃ plan, (s.faces.get f).rebuild = .painting ∧ (s.faces.get f).inHand = some plan ∧ plan.serial = serial ∧
      s.takeCompletion f serial = (s.painted f plan).raiseAll .glyphSubstituted (plan.substituteLocales f)) ∨
    ((∀ plan, (s.faces.get f).rebuild = .painting → (s.faces.get f).inHand = some plan → plan.serial ≠ serial) ∧
      s.takeCompletion f serial = s) := by
  by_cases h : ∃ plan, (s.faces.get f).rebuild = .painting ∧ (s.faces.get f).inHand = some plan ∧ plan.serial = serial
  · obtain ⟨plan, hpainting, hplan, rfl⟩ := h
    exact .inl ⟨plan, hpainting, hplan, rfl, takeCompletion_taken hpainting hplan⟩
  · refine .inr ⟨?_, takeCompletion_not ?_⟩
    all_goals exact fun plan hpainting hplan hserial => h ⟨plan, hpainting, hplan, hserial⟩

theorem painterNext_parts (s : State) : OnlyIn faceParts s s.painterNext := (painterNext_only s).mono (by decide)

/-- Settles O42: the painter's next plan begun, then the completion taken or discarded. -/
theorem paintCompletionTakesThePaintedPlan : Obligations.PaintCompletionTakesThePaintedPlan := by
  unfold Obligations.PaintCompletionTakesThePaintedPlan
  intro f serial s
  refine ⟨fun h => (paintCompletion_next f serial s).trans (congrArg _ (if_neg h)), fun h => ?_⟩
  refine ⟨_, (paintCompletion_next f serial s).trans (congrArg _ (if_pos h)), ?_⟩
  have hfaces : s.painterNext.faces = s.faces := painterNext_faces s
  have hbegun := painterNext_parts s
  rcases takeCompletion_cases s.painterNext f serial with ⟨plan, hpainting, hplan, hserial, htaken⟩ | ⟨hnot, htaken⟩
  · obtain ⟨m, hm⟩ : ∃ m, m = s.painterNext.painted f plan := ⟨_, rfl⟩
    have hpainted : OnlyIn [.panels, .faces] s.painterNext m := hm ▸ painted_only _ f plan
    have hraised := raiseAll_only m .glyphSubstituted (plan.substituteLocales f)
    have honly : OnlyIn faceParts s m := hbegun.trans (hpainted.mono (by decide))
    rw [htaken, ← hm]
    rw [hfaces] at hpainting hplan
    refine ⟨?_, fun g hg => ?_, fun g => ?_, fun plan' _ hplan' _ => ?_, fun hnot => ?_, ?_⟩
    · rw [hraised.painter, hpainted.painter, painterNext_painter]
    · rw [hraised.faces, hm, ← hfaces]
      exact modFace_other _ hg _
    · rw [hraised.panels, hm]
      exact (congrArg (fun p : Panel => { p with back := (s.panels.get g).back }) (painted_panel s.painterNext f g plan)).trans
        (painterNext_panels s g)
    · obtain rfl : plan = plan' := Option.some.inj (hplan.symm.trans hplan')
      refine ⟨?_, fun x y hx hy => ?_, ?_⟩
      · rw [hraised.faces, hm, ← hfaces]
        exact modFace_own _ f _
      · rw [hraised.panels, hm]
        rw [painted_own]
        exact paint_lit plan hx hy
      · dsimp only
        rw [← substituteLocales_eq]
        refine ⟨raiseAll_reports honly (by decide) _ _, fun hnone => ?_⟩
        rw [hnone]
        exact honly
    · exact absurd hserial (hnot plan hplan)
    · exact (honly.mono (by decide)).trans (hraised.mono (by decide))
  · rw [htaken]
    refine ⟨painterNext_painter s, fun g _ => by rw [hfaces], fun g => painterNext_panels s g,
      fun plan hpainting hplan hserial => ?_, fun _ => ⟨hfaces, hbegun⟩, hbegun.mono (by decide)⟩
    rw [← hfaces] at hpainting hplan
    exact absurd hserial (hnot plan hpainting hplan)

/-! ## Frame boundaries (R142, R143, R145, R149) -/

/-- R149: whether the source lists of two plans differ. -/
def Plan.showsOther (p q : Plan) : Bool := decide (∃ k : Fin 4, p.lines[k].source ≠ q.lines[k].source)

theorem signalShown_events (s : State) (o : Port) :
    ((s.signalAll .shownChanged).events.get o).shownChanged = true := by
  cases o <;> rfl

/-- R142, R149: a pending swap taken. -/
theorem swap_taken {s : State} {f : Face} {plan : Plan} (hpending : (s.faces.get f).rebuild = .swapPending)
    (hplan : (s.faces.get f).inHand = some plan) :
    (s.swap f).panels.get f = { s.panels.get f with
      front := (s.panels.get f).back, back := (s.panels.get f).front, frontPlan := plan } ∧
    (s.swap f).faces.get f = { s.faces.get f with rebuild := .idle, inHand := none } ∧
    ∀ o, ((s.swap f).events.get o).shownChanged
      = ((s.events.get o).shownChanged || plan.showsOther (s.panels.get f).frontPlan) := by
  have hpanel : (s.swapBuffers f plan).panels.get f = { s.panels.get f with
      front := (s.panels.get f).back, back := (s.panels.get f).front, frontPlan := plan } := by
    unfold State.swapBuffers
    rw [(modFace_only _ _ _).panels, modPanel_own]
  have hface : (s.swapBuffers f plan).faces.get f = { s.faces.get f with rebuild := .idle, inHand := none } := by
    unfold State.swapBuffers
    rw [modFace_own, (modPanel_only _ _ _).faces]
  unfold State.swap Plan.showsOther
  rw [hpending, hplan]
  dsimp only
  split
  next hsame =>
    rw [decide_eq_false ((sources_ne _ _).mp hsame)]
    exact ⟨hpanel, hface, fun o => by rw [Bool.or_false]; rfl⟩
  next hdiffers =>
    rw [decide_eq_true (Classical.not_not.mp (mt (sources_ne _ _).mpr hdiffers))]
    exact ⟨hpanel, hface, fun o => by rw [Bool.or_true]; exact signalShown_events _ o⟩

theorem swap_left {s : State} {f : Face} (h : ∀ plan, (s.faces.get f).rebuild = .swapPending → (s.faces.get f).inHand ≠ some plan) :
    s.swap f = s := by
  unfold State.swap
  split
  next plan hpending hplan => exact absurd hplan (h plan hpending)
  · rfl

/-- R142: what a swap leaves of a panel, and of the state of a face. -/
theorem swap_keeps (s : State) (f : Face) :
    { (s.swap f).panels.get f with
      front := (s.panels.get f).front, back := (s.panels.get f).back, frontPlan := (s.panels.get f).frontPlan }
        = s.panels.get f ∧
    ((s.swap f).faces.get f).state = (s.faces.get f).state ∧
    ∀ g, g ≠ f → (s.swap f).faces.get g = s.faces.get g ∧ (s.swap f).panels.get g = s.panels.get g := by
  by_cases h : ∃ plan, (s.faces.get f).rebuild = .swapPending ∧ (s.faces.get f).inHand = some plan
  · obtain ⟨plan, hpending, hplan⟩ := h
    obtain ⟨hpanel, hface, -⟩ := swap_taken hpending hplan
    refine ⟨by rw [hpanel], by rw [hface], fun g hg => ?_⟩
    have hother : (s.swapBuffers f plan).faces.get g = s.faces.get g ∧ (s.swapBuffers f plan).panels.get g = s.panels.get g := by
      unfold State.swapBuffers
      rw [modFace_other _ hg, (modFace_only _ _ _).panels, modPanel_other _ hg, (modPanel_only _ _ _).faces]
      exact ⟨rfl, rfl⟩
    unfold State.swap
    rw [hpending, hplan]
    dsimp only
    split <;> exact hother
  · rw [swap_left fun plan hpending hplan => h ⟨plan, hpending, hplan⟩]
    exact ⟨rfl, rfl, fun _ _ => ⟨rfl, rfl⟩⟩

/-- The state in which a frame begins: the chain check made, the swap taken. -/
def State.swapped (s : State) (f : Face) (echo : Vector (BitVec 32) 4) : State := (s.chainCheck f echo).swap f

theorem frameBoundary_eq (f : Face) (e0 e1 e2 e3 : BitVec 32) (s : State) :
    exec (.frameBoundary f e0 e1 e2 e3) s = .next (s.frameBoundary f #v[e0, e1, e2, e3]) := rfl

theorem frameBoundary_panel (s : State) (f : Face) (echo : Vector (BitVec 32) 4) :
    (s.frameBoundary f echo).panels.get f = { (s.swapped f echo).panels.get f with
      frame := (s.swapped f echo).frameOf f, elapsed := 0, period := (s.swapped f echo).params.framePeriod } :=
  modPanel_own _ f _

theorem frameBoundary_swapped (s : State) (f : Face) (echo : Vector (BitVec 32) 4) :
    OnlyIn [.panels] (s.swapped f echo) (s.frameBoundary f echo) :=
  modPanel_only _ f _

/-- R146: the chain check leaves what the panel shows. -/
theorem chainCheck_shown (s : State) (f : Face) (echo : Vector (BitVec 32) 4) :
    ((s.chainCheck f echo).panels.get f).front = (s.panels.get f).front ∧
    ((s.chainCheck f echo).panels.get f).back = (s.panels.get f).back ∧
    ((s.chainCheck f echo).panels.get f).frontPlan = (s.panels.get f).frontPlan ∧
    ((s.chainCheck f echo).panels.get f).out = (s.panels.get f).out ∧
    ((s.chainCheck f echo).panels.get f).duties = (s.panels.get f).duties := by
  have h := (chainCheck_spec s f echo).2.1
  dsimp only at h
  exact ⟨(congrArg Panel.front h :), (congrArg Panel.back h :), (congrArg Panel.frontPlan h :), (congrArg Panel.out h :),
    (congrArg Panel.duties h :)⟩

theorem swapped_out (s : State) (f : Face) (echo : Vector (BitVec 32) 4) :
    ((s.swapped f echo).panels.get f).out = (s.panels.get f).out ∧
    ((s.swapped f echo).panels.get f).duties = (s.panels.get f).duties ∧
    ((s.swapped f echo).faces.get f).state = (s.faces.get f).state := by
  obtain ⟨hpanel, hstate, -⟩ := swap_keeps (s.chainCheck f echo) f
  obtain ⟨-, -, -, hout, hduties⟩ := chainCheck_shown s f echo
  refine ⟨(congrArg Panel.out hpanel :).trans hout, (congrArg Panel.duties hpanel :).trans hduties, hstate.trans ?_⟩
  rw [(chainCheck_only s f echo).faces]

/-- R145: the frame that begins at a DRIVING output. -/
theorem frameOf_driving {s : State} {f : Face} (h : (s.panels.get f).out = .driving) :
    ∃ frame, s.frameOf f = some frame ∧ frame.duties = (s.panels.get f).duties ∧
      (∀ x y, x < 256 → y < 64 → frame.pixels.lit x y
        = ((s.faces.get f).state == .lampTest || (s.panels.get f).front.lit x y)) ∧
      ∀ sent, frame.pattern = some sent ↔ (s.panels.get f).check = .inFlight sent := by
  unfold State.frameOf
  dsimp only
  rw [h]
  refine ⟨_, rfl, rfl, fun x y hx hy => ?_, fun sent => ?_⟩
  · by_cases hlamp : (s.faces.get f).state = .lampTest
    · rw [hlamp, if_pos rfl, allLit_lit hx hy]; rfl
    · rw [if_neg hlamp, beq_false_of_ne hlamp, Bool.false_or]
  · cases (s.panels.get f).check <;> simp

theorem frameOf_not_driving {s : State} {f : Face} (h : (s.panels.get f).out ≠ .driving) : s.frameOf f = none := by
  unfold State.frameOf
  dsimp only
  cases hout : (s.panels.get f).out with
  | off => rfl
  | starting => rfl
  | driving => exact absurd hout h

theorem light_frame {s : State} {f : Face} {frame : ScanFrame} (h : (s.panels.get f).frame = some frame) (x : Fin 256) (y : Fin 64) :
    s.light f x y = frame.light x y := by
  unfold State.light
  rw [h]

theorem light_none {s : State} {f : Face} (h : (s.panels.get f).frame = none) (x : Fin 256) (y : Fin 64) :
    s.light f x y = 0 := by
  unfold State.light
  rw [h]

/-- Settles O43: the check made, the swap taken, and the frame of the panel as it then stands. -/
theorem frameBoundarySwaps : Obligations.FrameBoundarySwaps := by
  unfold Obligations.FrameBoundarySwaps
  intro f e0 e1 e2 e3 s
  obtain ⟨echo, hecho⟩ : ∃ echo : Vector (BitVec 32) 4, echo = #v[e0, e1, e2, e3] := ⟨_, rfl⟩
  refine ⟨s.frameBoundary f echo, hecho ▸ frameBoundary_eq f e0 e1 e2 e3 s, ?_⟩
  have hchecked := chainCheck_only s f echo
  obtain ⟨hotherCheck, -, hshownCheck⟩ := chainCheck_spec s f echo
  obtain ⟨hfront, hback, hfrontPlan, -, -⟩ := chainCheck_shown s f echo
  obtain ⟨-, -, hotherSwap⟩ := swap_keeps (s.chainCheck f echo) f
  obtain ⟨hout, hduties, hstate⟩ := swapped_out s f echo
  have hbegun := frameBoundary_swapped s f echo
  have hparams : (s.swapped f echo).params = s.params := ((swap_only _ f).params).trans hchecked.params
  rw [frameBoundary_panel]
  refine ⟨rfl, by rw [hparams], fun g hg => ⟨?_, ?_⟩, fun plan hpending hplan => ?_, fun hnot => ?_, fun hdark => ?_,
    fun hdriving => ?_, frameBoundary_only s f echo⟩
  · rw [hbegun.faces, ← hchecked.faces]; exact (hotherSwap g hg).1
  · refine (modPanel_other _ hg _).trans ?_
    rw [← hotherCheck g hg]; exact (hotherSwap g hg).2
  · rw [← hchecked.faces] at hpending hplan
    obtain ⟨hpanel, hface, hshown⟩ := swap_taken hpending hplan
    rw [hbegun.faces, hbegun.events]
    unfold State.swapped
    rw [hpanel, hface, hchecked.faces, hfront, hback]
    refine ⟨rfl, rfl, rfl, rfl, fun o => ?_⟩
    rw [hshown, hshownCheck, hfrontPlan]
    rfl
  · have hleft : s.swapped f echo = s.chainCheck f echo := swap_left fun plan hpending =>
      absurd (hchecked.faces ▸ hpending) hnot
    rw [hbegun.faces, hbegun.events, hleft]
    exact ⟨hfront, hback, hfrontPlan, hchecked.faces, hshownCheck⟩
  · have hnone : (s.swapped f echo).frameOf f = none := frameOf_not_driving (by rw [hout]; exact hdark)
    refine ⟨hnone, fun x y => light_none ?_ x y⟩
    rw [frameBoundary_panel]
    exact hnone
  · obtain ⟨frame, hframe, hframeDuties, hlit, hpattern⟩ := frameOf_driving (hout.trans hdriving)
    rw [hduties] at hframeDuties
    rw [hstate] at hlit
    refine ⟨frame, hframe, hframeDuties, hlit, fun _ _ => rfl, fun x y => ⟨light_frame ?_ x y, ?_⟩, hpattern⟩
    · rw [frameBoundary_panel]
      exact hframe
    · rw [light_eq, hlit x y x.isLt y.isLt, hframeDuties]
      exact if_congr (by rw [Bool.or_eq_true, beq_iff_eq]) rfl rfl

end Sys2Proof.Machine
end

section
/-! PROOFS. Chain checks (O44). -/

namespace Sys2Proof.Machine
set_option Elab.async false

/-! ## Chain checks (R146, R147, R176) -/

theorem judge_eq (c : ChainState) (echo sent : BitVec 32) : c.judge (echo == sent) =
    if echo = sent then .good else if c = .good then .suspect1 else if c = .suspect1 then .suspect2 else .failed := by
  unfold ChainState.judge
  by_cases h : echo = sent
  · rw [if_pos (beq_iff_eq.mpr h), if_pos h]
  · rw [if_neg (mt beq_iff_eq.mp h), if_neg h]
    cases c <;> rfl

/-- R146: the panel after a judged check, at an output that is DRIVING. -/
def Panel.judged (echo : Vector (BitVec 32) 4) (p : Panel) : Panel :=
  match p.check with
  | .none => p
  | .inFlight sent => { p with check := .none, chains := Vector.ofFn fun c => p.chains[c].judge (echo[c] == sent) }

theorem chainCheck_driving {s : State} {f : Face} (h : (s.panels.get f).out = .driving) (echo : Vector (BitVec 32) 4) :
    (s.chainCheck f echo).panels.get f
      = ((s.panels.get f).judged echo).countCheck s.params.checkInterval := by
  unfold State.chainCheck
  rw [h]
  dsimp only
  rw [modPanel_own, judge_get, PerFace.get_set_same]
  rfl

theorem chainCheck_idle {s : State} {f : Face} (h : (s.panels.get f).out ≠ .driving) (echo : Vector (BitVec 32) 4) :
    s.chainCheck f echo = s := by
  unfold State.chainCheck
  cases hout : (s.panels.get f).out with
  | off => rfl
  | starting => rfl
  | driving => exact absurd hout h

theorem judged_none {p : Panel} (h : p.check = .none) (echo : Vector (BitVec 32) 4) : p.judged echo = p := by
  unfold Panel.judged
  rw [h]

theorem judged_chains {p : Panel} {sent : BitVec 32} (h : p.check = .inFlight sent) (echo : Vector (BitVec 32) 4) (k : Fin 4) :
    (p.judged echo).chains[k] = p.chains[k].judge (echo[k] == sent) := by
  unfold Panel.judged
  rw [h]
  exact Vector.getElem_ofFn _

theorem judged_keeps (p : Panel) (echo : Vector (BitVec 32) 4) : (p.judged echo).check = .none ∧
    (p.judged echo).counter = p.counter ∧ (p.judged echo).nextPattern = p.nextPattern := by
  unfold Panel.judged
  cases h : p.check with
  | none => exact ⟨h, rfl, rfl⟩
  | inFlight sent => exact ⟨rfl, rfl, rfl⟩

theorem countCheck_chains (interval : Nat) (p : Panel) : (p.countCheck interval).chains = p.chains := by
  unfold Panel.countCheck
  split <;> rfl

theorem countCheck_counts {interval : Nat} {p : Panel} (h : p.counter + 1 < interval) :
    p.countCheck interval = { p with counter := p.counter + 1 } :=
  if_neg (Nat.not_le.mpr h)

theorem countCheck_sends {interval : Nat} {p : Panel} (h : interval ≤ p.counter + 1) :
    p.countCheck interval = { p with
      counter := 0, check := .inFlight p.nextPattern, nextPattern := ~~~p.nextPattern } :=
  if_pos h

/-- R147: the chains that a check coming back enters into FAILED. -/
def State.chainsFailing (s : State) (f : Face) (echo : Vector (BitVec 32) 4) (sent : BitVec 32) : List (Fin 4) :=
  (List.finRange 4).filter fun k => (s.panels.get f).chains[k] = .suspect2 ∧ echo[k] ≠ sent

theorem chainsFailing_ne_nil {s : State} {f : Face} {echo : Vector (BitVec 32) 4} {sent : BitVec 32} :
    s.chainsFailing f echo sent ≠ [] ↔ ∃ k : Fin 4, (s.panels.get f).chains[k] = .suspect2 ∧ echo[k] ≠ sent := by
  unfold State.chainsFailing
  rw [Ne, List.filter_eq_nil_iff]
  simp only [List.mem_finRange, decide_eq_true_eq, forall_const, not_forall, Classical.not_not]

/-- R176: CHAIN_FAILED raised for each chain of a list. -/
def State.chainFaults (s : State) (f : Face) (failed : List (Fin 4)) : State :=
  failed.foldl (fun u k => u.raise .chainFailed ⟨.face f, some k.val, none⟩) s

theorem chainFaults_eq (s : State) (f : Face) (failed : List (Fin 4)) : s.chainFaults f failed =
    s.raiseAll .chainFailed (failed.map fun k => ⟨.face f, some k.val, none⟩) := by
  unfold State.chainFaults State.raiseAll
  rw [List.foldl_map]

/-- R176: what a frame boundary leaves reported: the chain faults, whatever the swap signals. -/
def State.ChainsReported (s t : State) (f : Face) (failed : List (Fin 4)) : Prop :=
  t.capture = (s.chainFaults f failed).capture ∧ t.seen = (s.chainFaults f failed).seen ∧
    ∀ o, { t.events.get o with shownChanged := ((s.chainFaults f failed).events.get o).shownChanged }
      = (s.chainFaults f failed).events.get o

theorem frameBoundary_reported {s : State} {f : Face} {echo : Vector (BitVec 32) 4} {failed : List (Fin 4)}
    (h : ReportsRaised s (s.chainCheck f echo) .chainFailed (failed.map fun k => ⟨.face f, some k.val, none⟩)) :
    s.ChainsReported (s.frameBoundary f echo) f failed := by
  have hfaults : ReportsRaised s (s.chainFaults f failed) .chainFailed (failed.map fun k => ⟨.face f, some k.val, none⟩) := by
    rw [chainFaults_eq]; exact ⟨rfl, rfl, rfl⟩
  obtain ⟨hcapture, hseen, hevents⟩ := h
  obtain ⟨hcapture', hseen', hevents'⟩ := hfaults
  obtain ⟨hswapCapture, hswapSeen, hswapEvents⟩ := swap_reports (s.chainCheck f echo) f
  have hbegun := frameBoundary_swapped s f echo
  refine ⟨hbegun.capture.trans (hswapCapture.trans (hcapture.trans hcapture'.symm)),
    hbegun.seen.trans (hswapSeen.trans (hseen.trans hseen'.symm)), fun o => ?_⟩
  rw [hbegun.events, hevents', ← hevents]
  exact hswapEvents o

theorem chainsReported_seen {s t : State} {f : Face} {failed : List (Fin 4)} (h : s.ChainsReported t f failed) :
    t.seen[4] = true ↔ s.seen[4] = true ∨ failed ≠ [] := by
  rw [h.2.1, chainFaults_eq]
  show (s.raiseAll _ _).seen[(4 : Fin 9)] = true ↔ _
  rw [raiseAll_seen]
  cases failed <;> simp [FaultKind.index]

/-- R146: the chain columns of a panel at a boundary are those of the check. -/
theorem frameBoundary_chains (s : State) (f : Face) (echo : Vector (BitVec 32) 4) :
    ((s.frameBoundary f echo).panels.get f).chains = ((s.chainCheck f echo).panels.get f).chains ∧
    ((s.frameBoundary f echo).panels.get f).check = ((s.chainCheck f echo).panels.get f).check ∧
    ((s.frameBoundary f echo).panels.get f).counter = ((s.chainCheck f echo).panels.get f).counter ∧
    ((s.frameBoundary f echo).panels.get f).nextPattern = ((s.chainCheck f echo).panels.get f).nextPattern := by
  have h := (swap_keeps (s.chainCheck f echo) f).1
  rw [frameBoundary_panel]
  exact ⟨(congrArg Panel.chains h :), (congrArg Panel.check h :), (congrArg Panel.counter h :),
    (congrArg Panel.nextPattern h :)⟩

/-- Settles O44: the check's columns, counter and faults, which the swap and the frame that begins leave. -/
theorem chainChecksAreJudgedAndSent : Obligations.ChainChecksAreJudgedAndSent := by
  unfold Obligations.ChainChecksAreJudgedAndSent
  intro f e0 e1 e2 e3 s
  obtain ⟨echo, hecho⟩ : ∃ echo : Vector (BitVec 32) 4, echo = #v[e0, e1, e2, e3] := ⟨_, rfl⟩
  refine ⟨s.frameBoundary f echo, hecho ▸ frameBoundary_eq f e0 e1 e2 e3 s, ?_⟩
  dsimp only
  rw [← hecho]
  obtain ⟨hchains, hcheck, hcounter, hpattern⟩ := frameBoundary_chains s f echo
  have hreports := chainCheck_reports s f echo
  rw [hchains, hcheck, hcounter, hpattern]
  refine ⟨fun hidle => ?_, fun hdriving => ?_⟩
  · have hsame := chainCheck_idle hidle echo
    have hreported : s.ChainsReported (s.frameBoundary f echo) f [] :=
      frameBoundary_reported (by rw [hsame]; exact ⟨rfl, rfl, rfl⟩)
    rw [hsame]
    exact ⟨rfl, rfl, rfl, rfl, hreported.2.1, hreported⟩
  · rw [chainCheck_driving hdriving, countCheck_chains]
    rw [hdriving] at hreports
    obtain ⟨hjudged, hcount, hnext⟩ := judged_keeps (s.panels.get f) echo
    refine ⟨fun hnone => ?_, fun sent hsent => ?_, fun hearly => ?_, fun hdue => ?_⟩
    · rw [hnone] at hreports
      have hreported : s.ChainsReported (s.frameBoundary f echo) f [] := frameBoundary_reported hreports
      rw [judged_none hnone]
      exact ⟨rfl, hreported.2.1, hreported⟩
    · rw [hsent] at hreports
      have hreported : s.ChainsReported (s.frameBoundary f echo) f (s.chainsFailing f echo sent) :=
        frameBoundary_reported hreports
      exact ⟨fun k => (judged_chains hsent echo k).trans (judge_eq _ _ _),
        (chainsReported_seen hreported).trans (or_congr Iff.rfl chainsFailing_ne_nil), hreported⟩
    · rw [← hcount] at hearly
      rw [countCheck_counts hearly, hjudged, hcount, hnext]
      exact ⟨rfl, rfl, rfl⟩
    · rw [← hcount] at hdue
      rw [countCheck_sends hdue, hnext]
      exact ⟨rfl, rfl, rfl⟩

end Sys2Proof.Machine
end

section
/-! PROOFS. Panel outputs and duties (O45). -/

namespace Sys2Proof.Machine
set_option Elab.async false

/-! ## The start-up delay (R144, R153, R154) -/

theorem panelStartup_next (f : Face) (s : State) : exec (.panelStartupDelayExpiry f) s =
    .next (if (s.panels.get f).out = .starting then s.startDriving f else s) := rfl

/-- R153: the face duty of a DRIVING output. -/
theorem faceDutyOf_driving {s : State} {f : Face} (h : (s.panels.get f).out = .driving) : s.faceDutyOf f =
    if (s.faces.get f).state = .dark then 0
    else if (s.faces.get f).state = .lampTest then (s.panels.get f).cap
    else min (curveDuty s.ambient.curve s.ambient.level) (s.panels.get f).cap := by
  rw [faceDutyOf_table]
  simp only [h, ne_eq, not_true_eq_false, false_or]

theorem moduleDuty_eq (faceDuty trim : Nat) : moduleDuty faceDuty trim = min 255 (faceDuty * trim / 128) := rfl

/-- R144: the output DRIVING, its check counter at 0. -/
def State.drives (s : State) (f : Face) : State := s.modPanel f fun p => { p with out := .driving, counter := 0 }

theorem drives_panel (s : State) (f : Face) :
    (s.drives f).panels.get f = { s.panels.get f with out := .driving, counter := 0 } := modPanel_own s f _

theorem startDriving_panel (s : State) (f : Face) : (s.startDriving f).panels.get f = { s.panels.get f with
    out := .driving, counter := 0, faceDuty := (s.drives f).faceDutyOf f
    duties := (s.panels.get f).trims.map (moduleDuty ((s.drives f).faceDutyOf f)) } := by
  show ((s.drives f).recomputeDuties f).panels.get f = _
  rw [recompute_panels, if_pos rfl, drives_panel]

theorem startDriving_other (s : State) {f g : Face} (h : g ≠ f) :
    (s.startDriving f).panels.get g = s.panels.get g := by
  show ((s.drives f).recomputeDuties f).panels.get g = _
  rw [recompute_panels, if_neg h]
  exact modPanel_other s h _

theorem drives_faceDuty (s : State) (f : Face) : (s.drives f).faceDutyOf f =
    if (s.faces.get f).state = .dark then 0
    else if (s.faces.get f).state = .lampTest then (s.panels.get f).cap
    else min (curveDuty s.ambient.curve s.ambient.level) (s.panels.get f).cap := by
  rw [faceDutyOf_driving (by rw [drives_panel]), drives_panel]
  rfl

/-! ## Conversions (R150, R151, R154) -/

/-- R150: the reading taken into the ring. -/
def State.sampled (s : State) (reading : BitVec 10) : State := { s with ambient := s.ambient.enter reading.toNat }

theorem conversionCompletion_idle {reading : BitVec 10} {s : State} (h : s.ambient.converting = false) :
    exec (.conversionCompletion reading) s = .next s := by
  show execConversionCompletion reading s = _
  unfold execConversionCompletion
  rw [h]
  rfl

theorem conversionCompletion_taken {reading : BitVec 10} {s : State} (h : s.ambient.converting = true) :
    exec (.conversionCompletion reading) s = .next (if (s.sampled reading).ambient.level = s.ambient.level
      then s.sampled reading else (s.sampled reading).eachFace fun f u => u.recomputeDuties f) := by
  show execConversionCompletion reading s = _
  unfold execConversionCompletion
  rw [h]
  rfl

theorem sampled_only (s : State) (reading : BitVec 10) : OnlyIn [.ambient] s (s.sampled reading) := by
  intro q hq; cases q <;> first | rfl | exact absurd (by decide) hq

/-- R151: a ring takes the reading last, the oldest leaving it. -/
theorem enter_ring (m : Ambient) (reading : Nat) : (m.enter reading).ring.toList =
    if m.filled then m.ring.toList.tail ++ [reading] else List.replicate 8 reading := by
  unfold Ambient.enter
  dsimp only
  split
  · apply List.ext_getElem
    · simp
    · intro i h1 h2
      have hi : i < 8 := by simpa using h1
      rcases Nat.lt_or_ge i 7 with h | h
      · simp [h]
      · obtain rfl : i = 7 := by omega
        simp
  · exact Vector.toList_replicate

theorem enter_level (m : Ambient) (reading : Nat) :
    (m.enter reading).level = (m.enter reading).ring.toList.sum / 8 := rfl

theorem recomputeBoth_only (s : State) : OnlyIn [.panels] s (s.eachFace fun f u => u.recomputeDuties f) :=
  OnlyIn.eachFace fun f u => recomputeDuties_only u f

/-- Settles O45: the tables of the duties, then the two commands that work them out. -/
theorem outputsAndDutiesFollow : Obligations.OutputsAndDutiesFollow := by
  unfold Obligations.OutputsAndDutiesFollow
  refine ⟨curve_table, faceDutyOf_table, moduleDuty_eq, fun f s => ⟨fun h => ?_, fun h => ?_⟩,
    fun reading s => ⟨conversionCompletion_idle, fun h => ?_⟩⟩
  · exact (panelStartup_next f s).trans (congrArg _ (if_neg h))
  · refine ⟨_, (panelStartup_next f s).trans (congrArg _ (if_pos h)), startDriving_only s f, ?_⟩
    rw [startDriving_panel]
    exact ⟨rfl, rfl, drives_faceDuty s f, fun m => Vector.getElem_map .., rfl, rfl, fun g hg => startDriving_other s hg⟩
  · have hsampled := sampled_only s reading
    have hring := enter_ring s.ambient reading.toNat
    have hlevel := enter_level s.ambient reading.toNat
    rw [conversionCompletion_taken h]
    split
    next hsame =>
      exact ⟨_, rfl, hsampled.mono (by decide), rfl, rfl, rfl, hring, hlevel, fun _ => rfl, fun hne => absurd hsame hne⟩
    next hdiffers =>
      have hanew := recomputeBoth_only (s.sampled reading)
      refine ⟨_, rfl, (hsampled.mono (by decide)).trans (hanew.mono (by decide)), ?_⟩
      rw [hanew.ambient]
      refine ⟨rfl, rfl, rfl, hring, hlevel, fun hsame => absurd hsame hdiffers, fun _ f => ?_⟩
      obtain ⟨hduty, hduties⟩ := recomputeBoth_anew (s.sampled reading) f
      obtain ⟨-, htrims⟩ := KeepsCaps.eachFace (s := s.sampled reading) (fun g u => recomputeDuties_caps u g) f
      exact ⟨hduty, hduties.trans (congrArg (Vector.map _) htrims)⟩

end Sys2Proof.Machine
end

section
/-! PROOFS. Input lines (O46). -/

namespace Sys2Proof.Machine
set_option Elab.async false

/-! ## The records that an APPROACH edge changes (R19, R158) -/

/-- R19: a record after the local approach. -/
def Departure.approached (r : Departure) : Departure :=
  if r.approaching then r else { r with approaching := true, revision := r.revision + 1, writer := .loc }

theorem approach_named {s : State} {code : Nat} {r : Departure} (h : s.record? code = some r) :
    (s.approach code).record? code = some r.approached := (approach_spec s code).1 r h

theorem approach_unnamed (s : State) {code c : Nat} (h : c ≠ code) : (s.approach code).record? c = s.record? c :=
  (approach_spec s code).2 c h

/-- R19, R158: what an edge leaves under a code that a selected face names, and under every other. -/
theorem approachEdge_records (s : State) (sel : FaceSel) (code : Nat) :
    ((∃ f, s.namedBy sel f = some code) → ∀ r, s.record? code = some r →
      (s.approachEdge sel).record? code = some r.approached) ∧
    ((∀ f, s.namedBy sel f ≠ some code) → (s.approachEdge sel).record? code = s.record? code) := by
  have hface : ∀ {P : Face → Prop}, (∃ f, P f) → P .a ∨ P .b := fun ⟨f, h⟩ => by
    cases f
    · exact .inl h
    · exact .inr h
  unfold State.approachEdge
  cases ha : s.namedBy sel .a with
  | none =>
    cases hb : s.namedBy sel .b with
    | none =>
      refine ⟨fun h => ?_, fun _ => rfl⟩
      rcases hface h with h | h
      · rw [ha] at h; cases h
      · rw [hb] at h; cases h
    | some y =>
      refine ⟨fun h r hr => ?_, fun h => approach_unnamed s fun e => h .b (by rw [hb, e])⟩
      rcases hface h with h | h
      · rw [ha] at h; cases h
      · rw [hb] at h; cases h; exact approach_named hr
  | some x =>
    cases hb : s.namedBy sel .b with
    | none =>
      refine ⟨fun h r hr => ?_, fun h => approach_unnamed s fun e => h .a (by rw [ha, e])⟩
      rcases hface h with h | h
      · rw [ha] at h; cases h; exact approach_named hr
      · rw [hb] at h; cases h
    | some y =>
      dsimp only
      split
      next hxy =>
        refine ⟨fun h r hr => ?_, fun h => approach_unnamed s fun e => h .a (by rw [ha, e])⟩
        rcases hface h with h | h
        · rw [ha] at h; cases h; exact approach_named hr
        · rw [hb] at h; cases h; rw [hxy]; exact approach_named hr
      next hxy =>
        refine ⟨fun h r hr => ?_, fun h => ?_⟩
        · rcases hface h with h | h
          · rw [ha] at h; cases h
            rw [approach_unnamed _ hxy]
            exact approach_named hr
          · rw [hb] at h; cases h
            exact approach_named ((approach_unnamed s (Ne.symm hxy)).trans hr)
        · rw [approach_unnamed _ fun e => h .b (by rw [hb, e]), approach_unnamed s fun e => h .a (by rw [ha, e])]

theorem namedBy_iff (s : State) (sel : FaceSel) (f : Face) (code : Nat) :
    s.namedBy sel f = some code ↔ sel.has f = true ∧ ∃ r, (s.view f).head? = some r ∧ r.code = code := by
  unfold State.namedBy
  by_cases h : sel.has f = true
  · rw [if_pos h, Option.map_eq_some_iff]
    exact ⟨fun hr => ⟨h, hr⟩, fun hr => hr.2⟩
  · rw [if_neg h]
    exact ⟨fun hr => (nomatch hr), fun hr => absurd hr.1 h⟩

/-- R158: the records of the view entries named, in a table whose codes differ. -/
theorem approachEdge_entry {s : State} (hn : (s.table.map fun r => r.code).Nodup) {sel : FaceSel} {f : Face} {r : Departure}
    (hsel : sel.has f = true) (hr : (s.view f).head? = some r) :
    (s.approachEdge sel).record? r.code = some r.approached := by
  have hmem := ((mem_view s f r).mp (List.mem_of_mem_head? hr)).1
  exact (approachEdge_records s sel r.code).1 ⟨f, (namedBy_iff s sel f r.code).mpr ⟨hsel, r, hr, rfl⟩⟩ r (findCode_unique hn hmem)

theorem approachEdge_others {s : State} {sel : FaceSel} {code : Nat}
    (h : ∀ f r, sel.has f = true → (s.view f).head? = some r → r.code ≠ code) :
    (s.approachEdge sel).record? code = s.record? code := by
  refine (approachEdge_records s sel code).2 fun f hf => ?_
  obtain ⟨hsel, r, hr, hcode⟩ := (namedBy_iff s sel f code).mp hf
  exact h f r hsel hr hcode

/-! ## A sample, and a change that counts (R155, R156) -/

theorem pinSample_next (l : Fin 4) (level : Level) (s : State) : exec (.pinSample l level) s = .next
    (if level = s.lines[l].settled then s.modLine l fun x => { x with pending := 0 }
    else if s.lines[l].pending < s.lines[l].debounce then s.modLine l fun x => { x with pending := x.pending + 1 }
    else s.countChange l) := rfl

theorem changeCounts_next (l : Fin 4) (s : State) : exec (.changeCounts l) s = .next (s.countChange l) := rfl

theorem modLine_eq (s : State) (l : Fin 4) (g : InputLine → InputLine) :
    s.modLine l g = { s with lines := s.lines.set l (g s.lines[l]) } := rfl

theorem flipLevel_eq (v : Level) : flipLevel v = if v = .low then .high else .low := by cases v <;> rfl

/-- R156: a line whose settled level has moved. -/
def InputLine.moved (x : InputLine) : InputLine := { x with settled := flipLevel x.settled, pending := 0 }

theorem modLine_own (s : State) (l : Fin 4) (g : InputLine → InputLine) : (s.modLine l g).lines[l] = g s.lines[l] :=
  Vector.getElem_set_self _

/-- R155: the edges of a sense, by the level before. -/
theorem isEdge_iff (sense : Nat) (v : Level) : isEdge sense (flipLevel v) = true ↔
    if sense = 0 then v = .low else if sense = 1 then v = .high else True := by
  match sense with
  | 0 => cases v <;> simp [isEdge, flipLevel]
  | 1 => cases v <;> simp [isEdge, flipLevel]
  | n + 2 => cases v <;> simp [isEdge, flipLevel]

/-- R155: a level function is active before or after a change of its settled level, not both. -/
theorem active_moved {x : InputLine} (h : x.function = .blank ∨ x.function = .lampTest) : x.moved.active ≠ x.active := by
  obtain ⟨function, face, sense, debounce, settled, pending⟩ := x
  unfold InputLine.moved InputLine.active
  dsimp only at h ⊢
  rcases h with rfl | rfl <;> dsimp only <;> split <;> cases settled <;> simp [flipLevel]

/-! ## What a counted change hands on, by the function of the line (R156) -/

section
variable {s : State} {l : Fin 4}

/-- R156: the state in which a line hands on: its settled level moved. -/
def State.lineMoved (s : State) (l : Fin 4) : State := s.modLine l InputLine.moved

theorem lineMoved_line (s : State) (l : Fin 4) : (s.lineMoved l).lines[l] = s.lines[l].moved := modLine_own s l _

theorem lineMoved_only (s : State) (l : Fin 4) : OnlyIn [.lines] s (s.lineMoved l) := modLine_only s l _

theorem lineMoved_lines (s : State) (l : Fin 4) : (s.lineMoved l).lines = s.lines.set l { s.lines[l] with
    settled := (if s.lines[l].settled = .low then .high else .low), pending := 0 } := by
  rw [← flipLevel_eq]
  rfl

theorem countChange_eq (s : State) (l : Fin 4) : s.countChange l = (s.lineMoved l).handLineOn l s.lines[l] := rfl

theorem countChange_lines (s : State) (l : Fin 4) : (s.countChange l).lines = (s.lineMoved l).lines :=
  (handLineOn_only _ l _).lines

theorem countChange_none (h : s.lines[l].function = .none) : s.countChange l = s.lineMoved l := by
  rw [countChange_eq]
  unfold State.handLineOn
  dsimp only
  rw [lineMoved_line, show s.lines[l].moved.function = .none from h]

theorem countChange_blank (h : s.lines[l].function = .blank) :
    s.countChange l = (s.lineMoved l).settleSelected s.lines[l].face := by
  rw [countChange_eq]
  unfold State.handLineOn
  dsimp only
  rw [lineMoved_line, show s.lines[l].moved.function = .blank from h]
  exact if_neg (active_moved (.inl h))

theorem countChange_lampTest (h : s.lines[l].function = .lampTest) :
    s.countChange l = (s.lineMoved l).settleSelected .both := by
  rw [countChange_eq]
  unfold State.handLineOn
  dsimp only
  rw [lineMoved_line, show s.lines[l].moved.function = .lampTest from h]
  exact if_neg (active_moved (.inr h))

/-- R155: the change of a line to its new level is an edge. -/
def InputLine.makesEdge (x : InputLine) : Prop :=
  if x.sense = 0 then x.settled = .low else if x.sense = 1 then x.settled = .high else True

theorem countChange_approach (h : s.lines[l].function = .approach) :
    (s.lines[l].makesEdge → s.countChange l = (s.lineMoved l).approachEdge s.lines[l].face) ∧
    (¬ s.lines[l].makesEdge → s.countChange l = s.lineMoved l) := by
  rw [countChange_eq]
  unfold State.handLineOn InputLine.makesEdge
  dsimp only
  rw [lineMoved_line, show s.lines[l].moved.function = .approach from h, ← isEdge_iff]
  exact ⟨fun he => if_pos he, fun he => if_neg he⟩

theorem countChange_wake (h : s.lines[l].function = .wake) :
    (s.lines[l].makesEdge → s.countChange l = (s.lineMoved l).wakeEdge s.lines[l].face) ∧
    (¬ s.lines[l].makesEdge → s.countChange l = s.lineMoved l) := by
  rw [countChange_eq]
  unfold State.handLineOn InputLine.makesEdge
  dsimp only
  rw [lineMoved_line, show s.lines[l].moved.function = .wake from h, ← isEdge_iff]
  exact ⟨fun he => if_pos he, fun he => if_neg he⟩

end

/-- R97: the faces of a selection whose states are worked out, seen from the state before the line moved. -/
theorem settleSelected_faces (s : State) (l : Fin 4) (sel : FaceSel) (f : Face) :
    let t := (s.lineMoved l).settleSelected sel
    (sel.has f = true → (t.faces.get f).state = t.effState f ∧ StateEffects s t f ∧ LayoutLeft s t f ∧
      (t.faces.get f).countdown = (s.faces.get f).countdown ∧ DirtyByState s t f false) ∧
    (sel.has f = false → FaceLeft s t f false) := by
  dsimp only
  obtain ⟨-, hcountdown, hstate, hsel, -⟩ := settleSel_spec (s.lineMoved l) sel.has f
  obtain ⟨hlayout, hleft⟩ := settleSel_faces (s.lineMoved l) sel.has f
  refine ⟨fun h => ?_, hleft⟩
  obtain ⟨hown, heffects, -, -⟩ := hsel h
  obtain ⟨hlaid, hdirty⟩ := hlayout h
  exact ⟨hown.trans hstate.symm, heffects, hlaid, hcountdown, hdirty⟩

/-- Settles O46: the samples, then a counted change by the function of its line. -/
theorem inputLinesAreDebouncedAndHandOn : Obligations.InputLinesAreDebouncedAndHandOn := by
  unfold Obligations.InputLinesAreDebouncedAndHandOn
  refine ⟨fun f s => effState_eq s f, fun l level s => ⟨fun h => ?_, fun h hp => ?_, fun h hp => ?_⟩, fun l s hsound => ?_⟩
  · rw [pinSample_next, if_pos h, modLine_eq]
  · rw [pinSample_next, if_neg h, if_pos hp, modLine_eq]
  · rw [pinSample_next, if_neg h, if_neg (Nat.not_lt.mpr hp), changeCounts_next]
  dsimp only
  have hmoved := lineMoved_only s l
  have hcodes : ((s.lineMoved l).table.map fun r => r.code).Nodup := hsound.codesDistinct
  refine ⟨s.countChange l, changeCounts_next l s, (countChange_lines s l).trans (lineMoved_lines s l),
    fun h => ?none, fun h => ?levels, fun h he => ?approachQuiet, fun h he => ?approachEdge, fun h he => ?wakeQuiet,
    fun h he => ?wakeEdge⟩
  case none => rw [countChange_none h]; exact hmoved
  case levels =>
    rcases h with h | h
    · rw [countChange_blank h]
      refine ⟨(hmoved.mono (by decide)).trans ((settleSelected_only _ _).mono (by decide)), fun f => ?_⟩
      obtain ⟨hin, hout⟩ := settleSelected_faces s l s.lines[l].face f
      exact ⟨fun hsel => hin (hsel.resolve_left (by rw [h]; decide)), fun _ => hout⟩
    · rw [countChange_lampTest h]
      refine ⟨(hmoved.mono (by decide)).trans ((settleSelected_only _ _).mono (by decide)), fun f => ?_⟩
      obtain ⟨hin, -⟩ := settleSelected_faces s l .both f
      exact ⟨fun _ => hin (by cases f <;> rfl), fun hblank => absurd (h.symm.trans hblank) (by decide)⟩
  case approachQuiet => rw [(countChange_approach h).2 he]; exact hmoved
  case approachEdge =>
    rw [(countChange_approach h).1 he]
    exact ⟨(hmoved.mono (by decide)).trans ((approachEdge_only _ _).mono (by decide)),
      fun f r hsel hr => approachEdge_entry hcodes hsel hr, fun code hother => approachEdge_others hother,
      approachEdge_loses hcodes _, approachEdge_touches hcodes _⟩
  case wakeQuiet => rw [(countChange_wake h).2 he]; exact hmoved
  case wakeEdge =>
    rw [(countChange_wake h).1 he]
    refine ⟨(hmoved.mono (by decide)).trans ((wakeEdge_only _ _).mono (by decide)), fun f => ?_⟩
    obtain ⟨-, hin, hout⟩ := wakeSel_spec (s.lineMoved l) .input s.lines[l].face.has f
    exact ⟨fun hsel => ⟨(hin hsel).2, (hin hsel).1⟩, hout⟩

end Sys2Proof.Machine
end

section
/-! PROOFS. The fault capture and its requests, and the event sets (O47, O48). -/

namespace Sys2Proof.Machine
set_option Elab.async false

/-! ## Capture (R176, R177) -/

theorem take_open {c : Capture} (h : c.held = none) (f : Captured) : c.take f = ⟨some f, c.more⟩ := by
  unfold Capture.take
  rw [h]

theorem take_held {c : Capture} {g : Captured} (h : c.held = some g) (f : Captured) : c.take f =
    if f.kind.major = true ∧ ¬ g.kind.major = true then ⟨some f, true⟩ else ⟨some g, true⟩ := by
  unfold Capture.take
  rw [h]
  simp only [Bool.and_eq_true, Bool.not_eq_true', Bool.not_eq_true]

/-- R176: a fault as it arrives at the capture record. -/
def State.arriving (s : State) (kind : FaultKind) (locale : Sys2Proof.Machine.Locale) : Captured :=
  ⟨kind, locale, if s.clock.valid then some (s.clock.hh * 60 + s.clock.mm) else none⟩

theorem raise_capture (s : State) (kind : FaultKind) (locale : Sys2Proof.Machine.Locale) :
    (s.raise kind locale).capture = s.capture.take (s.arriving kind locale) := rfl

theorem index_inj {k kind : FaultKind} : k.index = kind.index ↔ k = kind := by
  cases k <;> cases kind <;> decide

theorem raise_seenAt (s : State) (kind k : FaultKind) (locale : Sys2Proof.Machine.Locale) :
    (s.raise kind locale).seen[k.index] = (s.seen[k.index] || decide (k = kind)) := by
  rw [raise_seen]
  show (s.seen.set kind.index true)[k.index.val] = _
  rw [Vector.getElem_set]
  by_cases h : k = kind
  · rw [h, if_pos rfl, decide_eq_true rfl, Bool.or_true]
  · have hne : ¬ kind.index.val = k.index.val := fun e => h (index_inj.mp (Fin.ext e.symm))
    rw [if_neg hne, decide_eq_false h, Bool.or_false]
    rfl

theorem raise_events (s : State) (kind : FaultKind) (locale : Sys2Proof.Machine.Locale) (p : Port) :
    (s.raise kind locale).events.get p = { s.events.get p with fault := true } := by
  cases p <;> rfl

/-- Settles O47. -/
theorem faultsAreCaptured : Obligations.FaultsAreCaptured := by
  unfold Obligations.FaultsAreCaptured
  intro kind locale s
  dsimp only
  rw [raise_capture]
  refine ⟨fun hopen => take_open hopen _, fun held hheld => ?_, fun k => raise_seenAt s kind k locale,
    fun p => raise_events s kind locale p, raise_only s kind locale⟩
  rw [take_held hheld, ← major_iff, ← major_iff]
  exact ⟨fun h => if_pos h, fun h => if_neg h⟩

/-! ## READ FAULTS, CLEAR FAULTS and READ EVENTS (R168, R178, R180) -/

theorem takeReadFaults_eq (s : State) : takeReadFaults [] s = (s, .okWith s.faultBytes) := rfl

theorem yesNo_ite (b : Bool) : yesNo b = if b then 1 else 0 := by cases b <;> rfl

theorem faultBytes_eq (s : State) : s.faultBytes =
    [if s.capture.held = none then 0 else 1, if s.capture.more then 1 else 0]
      ++ ((s.capture.held.map capturedBlock).getD [0, 0, 0, 0, 0, 0xFF, 0xFF])
      ++ byte (seenCodes s.seen).length :: (seenCodes s.seen).map byte := by
  unfold State.faultBytes
  rw [yesNo_ite, yesNo_ite]
  cases s.capture.held with
  | none => rfl
  | some c => rw [Option.map_some, Option.getD_some, capturedBlock_eq]; rfl

theorem seenCodes_increasing (seen : Vector Bool 9) : (seenCodes seen).Pairwise fun x y => x < y := by
  unfold seenCodes
  rw [List.pairwise_map]
  have hall : (List.finRange 9).Pairwise fun i j => i.val + 1 < j.val + 1 := by decide
  exact hall.filter _

theorem mem_seenCodes (seen : Vector Bool 9) (code : Nat) :
    code ∈ seenCodes seen ↔ ∃ k : Fin 9, seen[k] = true ∧ k.val + 1 = code := by
  unfold seenCodes
  simp only [List.mem_map, List.mem_filter, List.mem_finRange, true_and]

/-- R178: the record opened and the seen kinds emptied. -/
def State.faultsCleared (s : State) : State := { s with capture := ⟨none, false⟩, seen := Vector.replicate 9 false }

theorem faultsCleared_only (s : State) : OnlyIn [.capture, .seen] s s.faultsCleared := by
  intro q hq; cases q <;> first | rfl | exact absurd (by decide) hq

theorem takeClearFaults_allowed {s : State} {p : Port} (h : s.allows p .config [0]) :
    takeClearFaults p [] s = (s.faultsCleared, .plain .ok) := withRights_ok h _

/-- R180: the event set of a port emptied. -/
def State.eventsTaken (s : State) (p : Port) : State := s.modEvents p fun _ => EventSet.empty

theorem takeReadEvents_eq (s : State) (p : Port) :
    takeReadEvents p [] s = (s.eventsTaken p, .okWith [(s.events.get p).summary]) := rfl

/-- Settles O48. -/
theorem faultAndEventRequests : Obligations.FaultAndEventRequests := by
  unfold Obligations.FaultAndEventRequests
  intro p tag s hready
  refine ⟨?faults, fun hallowed => ?clear, ?events⟩
  case faults =>
    obtain ⟨t, hnext, htouches, hserved⟩ := answers_reading hready (c := .readFaults p tag []) rfl
      (takeReadFaults_eq (s.acceptFrame p))
    rw [Reply.okWith, faultBytes_eq, acceptFrame_capture, acceptFrame_seen] at hserved
    refine ⟨t, seenCodes s.seen, hnext, htouches, hserved, seenCodes_increasing _, fun code hcode => ?_, fun k => ?_⟩
    · obtain ⟨k, -, rfl⟩ := (mem_seenCodes _ _).mp hcode
      omega
    · rw [mem_seenCodes]
      refine ⟨fun ⟨j, hj, he⟩ => ?_, fun h => ⟨k, h, rfl⟩⟩
      obtain rfl : j = k := Fin.ext (by omega)
      exact hj
  case clear =>
    have hcleared := faultsCleared_only (s.acceptFrame p)
    obtain ⟨hnext, hserved, -⟩ := serve_answers hready (c := .clearFaults p tag []) rfl
      (takeClearFaults_allowed ((acceptFrame_allows_iff ..).mpr hallowed)) hcleared
    exact ⟨_, hnext, hserved, rfl, fun k => Vector.getElem_replicate _, touches hcleared _ _ _⟩
  case events =>
    have htaken := modEvents_only (s.acceptFrame p) p fun _ => EventSet.empty
    obtain ⟨hnext, hserved, -⟩ := serve_answers hready (c := .readEvents p tag []) rfl
      (takeReadEvents_eq (s.acceptFrame p) p) htaken
    have hevents : ((s.acceptFrame p).eventsTaken p).events = s.events.set p ⟨false, false, false, false, false⟩ := by
      rw [State.eventsTaken, State.modEvents_events, acceptFrame_events]
      rfl
    rw [acceptFrame_events] at hserved hnext
    refine ⟨_, hnext, hserved, hevents, ?_, touches htaken _ _ _⟩
    unfold State.attn
    rw [State.sendReply_events, hevents]
    cases p <;> rfl

end Sys2Proof.Machine
end

section
/-! PROOFS. Requests that name more than one platform, refused (O60). -/

namespace Sys2Proof.Machine
set_option Elab.async false

/-! ## The first platform missing (R7, R45, R47) -/

/-- R47: the first platform of a list, in its order, on which a right is missing. -/
def State.FirstMissing (s : State) (p : Port) (right : Right) (platforms : List Nat) (pl : Nat) : Prop :=
  ∃ before after, platforms = before ++ pl :: after ∧ s.allows p right before ∧ granted s.zones p right pl = false

theorem missing_first {s : State} {p : Port} {right : Right} {platforms : List Nat} {pl : Nat}
    (h : s.FirstMissing p right platforms pl) : missing s.zones p right platforms = some pl := by
  obtain ⟨before, after, hsplit, hallowed, hmissing⟩ := h
  unfold missing
  rw [List.find?_eq_some_iff_append]
  refine ⟨by rw [hmissing]; rfl, before, after, hsplit, fun x hx => ?_⟩
  rw [hallowed x hx]
  rfl

/-- R7: a platform examined twice is examined once. -/
theorem missing_platformsFor (zones : Vector Zone 8) (p : Port) (right : Right) (present : Option Departure) (new : Option Nat) :
    missing zones p right (platformsFor present new)
      = missing zones p right ((present.map fun r => r.platform).toList ++ new.toList) := by
  cases present with
  | none => cases new <;> rfl
  | some r =>
    cases new with
    | none => rfl
    | some n =>
      unfold platformsFor
      dsimp only
      split
      next hsame =>
        subst hsame
        cases hg : granted zones p right r.platform <;> simp [missing, hg]
      · rfl

theorem allows_platformsFor {s : State} {p : Port} {right : Right} {new : Option Nat} (h : s.allows p right new.toList) :
    s.allows p right (platformsFor none new) := by
  cases new <;> exact h

/-- R7: the rights of a request that names a code and may carry a platform, on the accepted frame. -/
theorem missing_ofCode {s : State} {p : Port} {right : Right} {code pl : Nat} {new : Option Nat}
    (h : s.FirstMissing p right (((s.record? code).map fun r => r.platform).toList ++ new.toList) pl) :
    missing (s.acceptFrame p).zones p right (platformsFor ((s.acceptFrame p).record? code) new) = some pl := by
  rw [acceptFrame_zones, acceptFrame_record?, missing_platformsFor]
  exact missing_first h

/-- R46: the platforms of a selection of faces, face A before B and the primary before the second. -/
theorem facePlatforms_eq (s : State) (sel : Face → Bool) : s.facePlatforms sel = [Face.a, .b].flatMap fun f =>
    if sel f then (s.faces.get f).settings.primary ::
      (if (s.faces.get f).settings.second = 0 then [] else [(s.faces.get f).settings.second]) else [] := by
  unfold State.facePlatforms faceList FaceSettings.platforms
  congr 1
  funext f
  by_cases h : (s.faces.get f).settings.second = 0 <;> simp [h]

/-! ## Requests refused (R47) -/

section
variable {s : State} {p : Port} {fields : List Byte}

theorem takePutDeparture_refused {q : PutRequest} {pl : Nat} (hq : parsePut fields = .ok q)
    (h : missing s.zones p .depart (platformsFor (s.record? q.code) (some q.platform)) = some pl) :
    takePutDeparture p fields s = (s, .refusal .depart pl) :=
  (withOperands_ok hq _ _).trans (withRights_missing h _)

theorem takeAmend_refused {q : AmendRequest} {pl : Nat} (hq : parseAmend fields = .ok q)
    (h : missing s.zones p .status (platformsFor (s.record? q.code) q.platform.toOption) = some pl) :
    takeAmend p fields s = (s, .refusal .status pl) :=
  (withOperands_ok hq _ _).trans (withRights_missing h _)

theorem takeAmendIfReserved_refused {q : AmendRequest} {pl : Nat} (hq : parseAmend fields = .ok q)
    (h : missing s.zones p .status (platformsFor (s.record? q.code) q.platform.toOption) = some pl) :
    takeAmendIfReserved p fields s = (s, .refusal .status pl) :=
  (withOperands_ok hq _ _).trans (withRights_missing h _)

theorem takeAmend_notFound {q : AmendRequest} (hq : parseAmend fields = .ok q) (hr : s.record? q.code = none)
    (h : s.allows p .status q.platform.toOption.toList) : takeAmend p fields s = (s, .plain .notFound) := by
  unfold takeAmend
  rw [withOperands_ok hq, hr, withRights_ok (allows_platformsFor h)]

theorem takeAmendIfReserved_notFound {q : AmendRequest} (hq : parseAmend fields = .ok q) (hr : s.record? q.code = none)
    (h : s.allows p .status q.platform.toOption.toList) : takeAmendIfReserved p fields s = (s, .plain .notFound) := by
  unfold takeAmendIfReserved
  rw [withOperands_ok hq, hr, withRights_ok (allows_platformsFor h)]

theorem takePostNotice_refused {q : NoticeRequest} {pl : Nat} (hq : parseNotice fields = .ok q)
    (h : missing s.zones p .notice (s.facePlatforms (s.postFaces q)) = some pl) :
    takePostNotice p fields s = (s, .refusal .notice pl) :=
  (withOperands_ok hq _ _).trans (withRights_missing h _)

theorem takeWithdrawNotice_refused {id pl : Nat} {n : Notice} (hq : parseNonZero fields = .ok id) (hn : s.notice? id = some n)
    (h : missing s.zones p .notice (s.facePlatforms n.targets.has) = some pl) :
    takeWithdrawNotice p fields s = (s, .refusal .notice pl) := by
  unfold takeWithdrawNotice
  rw [withOperands_ok hq, hn]
  exact withRights_missing h _

end

/-- R46: the platforms of a selection of faces, on the accepted frame. -/
theorem missing_ofFaces {s : State} {p : Port} {sel : Face → Bool} {pl : Nat}
    (h : s.FirstMissing p .notice (s.facePlatforms sel) pl) :
    missing (s.acceptFrame p).zones p .notice ((s.acceptFrame p).facePlatforms sel) = some pl := by
  rw [acceptFrame_zones, acceptFrame_facePlatforms]
  exact missing_first h

theorem acceptFrame_postFaces (s : State) (p : Port) (q : NoticeRequest) :
    (s.acceptFrame p).postFaces q = s.postFaces q := by
  unfold State.postFaces
  rw [acceptFrame_notice?]

/-- Settles O60: each request's platforms in the order that its work examines them. -/
theorem refusedRequestsNameTheFirstPlatform : Obligations.RefusedRequestsNameTheFirstPlatform := by
  unfold Obligations.RefusedRequestsNameTheFirstPlatform
  intro p tag fields s hready
  dsimp only
  refine ⟨fun q pl hq hmissing => ?_, fun q hq => ⟨fun pl hmissing => ⟨?_, ?_⟩, fun hr hallowed => ⟨?_, ?_⟩⟩,
    fun q pl hlow hhigh hd ht1 ht2 hfields hmissing => ?_, fun id n pl hlow hhigh hfields hn hmissing => ?_⟩
  · exact answers_plain hready rfl (takePutDeparture_refused hq (missing_ofCode hmissing))
  · exact answers_plain hready rfl (takeAmend_refused hq (missing_ofCode hmissing))
  · exact answers_plain hready rfl (takeAmendIfReserved_refused hq (missing_ofCode hmissing))
  · exact answers_plain hready rfl (takeAmend_notFound hq ((acceptFrame_record? ..).trans hr) ((acceptFrame_allows_iff ..).mpr hallowed))
  · exact answers_plain hready rfl
      (takeAmendIfReserved_notFound hq ((acceptFrame_record? ..).trans hr) ((acceptFrame_allows_iff ..).mpr hallowed))
  · refine answers_plain hready rfl (takePostNotice_refused (hfields ▸ noticeBlock_parse q hlow hhigh hd ht1 ht2) ?_)
    rw [acceptFrame_postFaces]
    exact missing_ofFaces (by rw [facePlatforms_eq]; exact hmissing)
  · refine answers_plain hready rfl (takeWithdrawNotice_refused (hfields ▸ parseNonZero_byte hlow hhigh)
      ((acceptFrame_notice? ..).trans hn) (missing_ofFaces ?_))
    rw [facePlatforms_eq]
    exact hmissing

end Sys2Proof.Machine
end

section
/-! PROOFS. The state after reset (O59). -/

namespace Sys2Proof.Machine
set_option Elab.async false

/-! ## What the state after reset holds (R182) -/

theorem dark_lit (x y : Nat) : Bitmap.dark.lit x y = false := by
  unfold Bitmap.lit Bitmap.dark
  rw [Vector.getElem?_replicate]
  by_cases h : y < 64
  · rw [if_pos h]
    exact BitVec.getLsbD_zero
  · rw [if_neg h]

theorem reset_zones (n : Fin 8) : State.reset.zones[n] = if n = 0 then ⟨true, .global, 0, 31, ⟨true, true, true, true⟩⟩
    else ⟨false, .global, 0, 31, ⟨false, false, false, false⟩⟩ := by
  revert n
  decide

theorem reset_panel (f : Face) : State.reset.panels.get f = Panel.reset := by cases f <;> rfl

theorem reset_face (f : Face) : State.reset.faces.get f = Composer.reset (FaceSettings.defaults.get f) := by cases f <;> rfl

theorem reset_port (p : Port) : State.reset.ports.get p = LinkPort.reset := by cases p <;> rfl

theorem reset_places (n : Nat) : State.reset.place? n = none := by
  rw [Option.eq_none_iff_forall_ne_some]
  exact reset_place?_none n

theorem panelReset_chains (k : Fin 4) : Panel.reset.chains[k] = .good ∧ Panel.reset.frontPlan.lines[k].source = .none := by
  revert k
  decide

theorem reset_timers (i : Fin 6) : State.reset.timers[i].counter = 0 ∧ State.reset.timers[i].sub = 0 ∧
    State.reset.timers[i].running = true := by
  revert i
  decide

/-- R97, R120, R144, R155: the faces after reset. -/
theorem reset_facesSound : FacesSound State.reset :=
  .ofReset rfl (fun f => by cases f <;> exact ⟨rfl, rfl, rfl⟩) (fun f => by cases f <;> exact .refl _)
    fun l => ⟨.low, reset_line l⟩

theorem reset_linkFine : LinkFine none State.reset := .ofReset rfl rfl rfl

theorem reset_agrees : Agrees State.reset := .empty rfl fun f => by cases f <;> exact ⟨rfl, rfl⟩

theorem reset_memorySound : MemorySound State.reset :=
  ⟨reset_wf, fun n e h => absurd h (reset_place?_none n e), fun _ h => (nomatch h)⟩

/-- Settles O59: the fields of the state after reset, and each way of being sound from the law that carries it. -/
theorem resetIsSound : Obligations.ResetIsSound := by
  unfold Obligations.ResetIsSound
  refine ⟨⟨reset_defaults, reset_zones, fun f => by cases f <;> rfl, reset_places, rfl, rfl, rfl, fun p => by cases p <;> rfl,
    rfl, rfl, ⟨rfl, rfl, rfl, rfl, rfl, rfl, rfl, rfl, rfl⟩, reset_timers, rfl, rfl, fun f => ?faces,
    ⟨rfl, rfl, rfl, fun i => Vector.getElem_replicate _⟩, fun l => by rw [reset_line]; rfl, fun p => ?ports, rfl,
    fun k => Vector.getElem_replicate _, rfl⟩, ?sound⟩
  case faces =>
    dsimp only
    rw [reset_face, reset_panel]
    exact ⟨rfl, rfl, rfl, rfl, rfl, rfl, rfl, rfl, rfl, rfl, rfl, rfl, rfl, rfl, rfl, rfl, rfl, rfl, rfl, rfl, rfl,
      panelReset_chains, fun x y => ⟨dark_lit x y, dark_lit x y⟩⟩
  case ports =>
    dsimp only
    rw [reset_port]
    exact ⟨rfl, rfl, rfl, rfl, rfl, rfl, rfl, by cases p <;> rfl⟩
  case sound =>
    obtain ⟨hports, hloader⟩ := (linkFine_iff _).mp reset_linkFine
    obtain ⟨hfaces, hlines⟩ := (facesSound_iff _).mp reset_facesSound
    exact ⟨.empty rfl rfl rfl fun p => by cases p <;> rfl, notices_reset _ rfl, .ofReset rfl, reset_inRange,
      reset_memorySound, by decide, hports, hloader, hfaces, hlines, (agrees_iff _).mp reset_agrees⟩

end Sys2Proof.Machine
end

section
/-! PROOFS. RESET and BOARD RESTART (O52). -/

namespace Sys2Proof.Machine
set_option Elab.async false

/-! ## The settings memory where a store is abandoned (R184) -/

theorem abandonedMemory_kept {s : State} (h : s.loader.phase ≠ .storing) : s.abandonedMemory = s.mem := by
  unfold State.abandonedMemory
  split
  next hphase _ => exact absurd hphase h
  · rfl

theorem acceptFrame_abandonedMemory (s : State) (p : Port) : (s.acceptFrame p).abandonedMemory = s.abandonedMemory := by
  unfold State.abandonedMemory
  rw [acceptFrame_loader, acceptFrame_free, acceptFrame_mem]

/-! ## RESET (R182) -/

theorem reset_next (i0 i1 i2 i3 : Level) (s : State) :
    exec (.reset i0 i1 i2 i3) s = .next (s.resetTo #v[i0, i1, i2, i3]) := rfl

/-! ## BOARD RESTART (R166, R185) -/

theorem boardRestart_next {s : State} {p : Port} {tag : Byte} (hready : s.ready p) (hallowed : s.allows p .config [0]) :
    exec (.boardRestart p tag []) s
      = .next ((s.acceptFrame p).restart p (replyBytes 0x43 tag (.plain .ok) (s.events.get p))) := by
  show Host.Outcome.next (s.serveRestart p tag []) = _
  unfold State.serveRestart
  rw [serveWith_ready hready]
  show Host.Outcome.next ((s.acceptFrame p).takeBoardRestart p tag []) = _
  unfold State.takeBoardRestart
  rw [missing_eq_none ((acceptFrame_allows_iff ..).mpr hallowed), replyFrame_eq, acceptFrame_events]
  rfl

/-- R185: what a restart keeps, seen from the state before its frame was accepted. -/
theorem restart_accepted (s : State) (p : Port) (frame : List Byte) :
    let t := (s.acceptFrame p).restart p frame
    t = { State.reset with
      clock := s.clock
      faces := ⟨{ State.reset.faces.a with serial := s.faces.a.serial },
        { State.reset.faces.b with serial := s.faces.b.serial }⟩
      panels := ⟨{ State.reset.panels.a with
          elapsed := s.panels.a.elapsed, period := s.panels.a.period, counter := s.panels.a.counter },
        { State.reset.panels.b with
          elapsed := s.panels.b.elapsed, period := s.panels.b.period, counter := s.panels.b.counter }⟩
      ambient := { State.reset.ambient with converting := s.ambient.converting }
      lines := (s.lines.map fun line => ⟨.none, .both, 0, 20, line.settled, 0⟩)
      ports := t.ports, capture := s.capture, seen := s.seen, events := s.events
      mem := t.mem, free := s.free + 1, pending := s.pending } := by
  have hserial : ∀ f, ((s.acceptFrame p).faces.get f).serial = (s.faces.get f).serial := fun f => by
    rw [acceptFrame_face]
  have hfaces : Composer.restart FaceSettings.defaults.a (s.acceptFrame p).faces.a
        = { State.reset.faces.a with serial := s.faces.a.serial } ∧
      Composer.restart FaceSettings.defaults.b (s.acceptFrame p).faces.b
        = { State.reset.faces.b with serial := s.faces.b.serial } := by
    constructor
    · exact congrArg (fun n => { Composer.reset FaceSettings.defaults.a with serial := n }) (hserial .a)
    · exact congrArg (fun n => { Composer.reset FaceSettings.defaults.b with serial := n }) (hserial .b)
  dsimp only
  unfold State.restart
  rw [hfaces.1, hfaces.2, acceptFrame_clock, acceptFrame_panels, acceptFrame_ambient, acceptFrame_lines,
    acceptFrame_capture, acceptFrame_seen, acceptFrame_events, acceptFrame_free, acceptFrame_pending]
  rfl

theorem restart_port (s : State) (p q : Port) (frame : List Byte) :
    (s.restart p frame).ports.get q = ((s.ports.get q).cutBy p frame q).withDefaults := PerPort.get_mapWith ..

/-- R166: the port that restarts: as after reset, its reply sent, its limit and stale action governing on. -/
theorem cutBy_own (port : LinkPort) (p : Port) (frame : List Byte) : (port.accepted.cutBy p frame p).withDefaults =
    { LinkPort.reset with limitInForce := port.limitInForce, staleInForce := port.staleInForce, reply := frame } := by
  unfold LinkPort.cutBy LinkPort.withDefaults LinkPort.setBaud
  rw [if_pos rfl]
  rfl

/-- R166: another port, cut or left receiving. -/
theorem cutBy_other {p q : Port} (h : q ≠ p) (port : LinkPort) (frame : List Byte) :
    let cut := (port.cutBy p frame q).withDefaults
    cut.count = port.count ∧ cut.silent = port.silent ∧ cut.baud = .b38400 ∧ cut.limit = 120 ∧ cut.stale = .hold ∧
    cut.limitInForce = port.limitInForce ∧ cut.staleInForce = port.staleInForce ∧
    (port.state = .receive → cut.state = .receive ∧ cut.len = port.len ∧ cut.data = port.data ∧
      cut.lineBaud = port.lineBaud) ∧
    (port.state ≠ .receive → cut.state = .hunt ∧ cut.lineBaud = .b38400) ∧
    (port.state = .reply → cut.reply = []) := by
  unfold LinkPort.cutBy
  dsimp only
  rw [if_neg h]
  cases hstate : port.state <;>
    simp [LinkPort.withDefaults, LinkPort.setBaud, LinkPort.toHunt, hstate]

/-- Settles O52: RESET directly, BOARD RESTART on the state that accepted its frame. -/
theorem resetAndRestart : Obligations.ResetAndRestart := by
  unfold Obligations.ResetAndRestart
  refine ⟨fun i0 i1 i2 i3 s => ⟨_, reset_next i0 i1 i2 i3 s, rfl, abandonedMemory_kept,
    fun job hjob => abandonedMemory_spec hjob rfl⟩, fun p tag s hready hallowed => ?_⟩
  have hmem : ((s.acceptFrame p).restart p (replyBytes 0x43 tag (.plain .ok) (s.events.get p))).mem = s.abandonedMemory :=
    acceptFrame_abandonedMemory s p
  refine ⟨_, boardRestart_next hready hallowed, restart_accepted s p _, fun h => hmem.trans (abandonedMemory_kept h),
    fun job hjob => abandonedMemory_spec hjob hmem, ?_, fun q hq => ?_⟩
  · rw [restart_port, acceptFrame_ports, PerPort.get_set_same]
    exact cutBy_own _ p _
  · rw [restart_port, acceptFrame_ports, PerPort.get_set_other _ _ hq]
    exact cutBy_other hq _ _

end Sys2Proof.Machine
end

section
/-! PROOFS. The settings image (O53). -/

namespace Sys2Proof.Machine
set_option Elab.async false

/-! ## The image part by part (R181) -/

/-- A run of bytes inside the middle of three parts. -/
theorem slice_part {before part after : List Byte} {i j n : Nat} (hi : before.length = i) (h : j + n ≤ part.length) :
    slice (before ++ (part ++ after)) (i + j) n = slice part j n := by
  rw [← hi, slice_skip, slice_inside _ _ _ _ h]

/-- The whole of the middle of three parts. -/
theorem slice_whole {before part after : List Byte} {i n : Nat} (hi : before.length = i) (hn : part.length = n) :
    slice (before ++ (part ++ after)) i n = part := by
  rw [← hi, ← hn]
  exact slice_append before part after

/-- R181: the block of a place list entry, of one length whatever the entry. -/
def fittedBlock (e : Option Place) : List Byte := if e.all Place.fits then placeBlock e else List.replicate 39 0

theorem fittedBlock_length (e : Option Place) : (fittedBlock e).length = 39 := by
  unfold fittedBlock
  split
  next h => exact placeBlock_length e fun x hx => by rw [hx] at h; exact h
  · simp

theorem fittedBlock_eq {e : Option Place} (h : ∀ x, e = some x → x.fits = true) : fittedBlock e = placeBlock e := by
  unfold fittedBlock
  refine if_pos ?_
  cases e with
  | none => rfl
  | some x => exact h x rfl

section
variable (s : State)

/-- R181: the zones, the parameters and the places of the image. -/
def State.zoneBytes : List Byte := s.zones.toList.flatMap Zone.bytes
def State.paramBytes : List Byte := Param.all.flatMap s.readParam
def State.placeBytes : List Byte := s.places.toList.flatMap placeBlock

theorem image_eq : s.image = [0x01] ++ (s.zoneBytes ++ (s.faces.a.settings.bytes ++ (s.faces.b.settings.bytes
    ++ (s.paramBytes ++ (s.placeBytes ++ crcBytes s.imageBody))))) := by
  unfold State.image
  rw [State.imageBody]
  simp only [List.append_assoc, List.cons_append, List.nil_append]
  rfl

theorem settings_params : s.settings.params = Param.all.map fun q => (q, s.readParam q) := rfl

theorem zoneBytes_length : s.zoneBytes.length = 40 := by
  unfold State.zoneBytes
  rw [blocks_length _ 5 fun _ => rfl, Vector.length_toList]

theorem paramBytes_length : s.paramBytes.length = 154 := by
  unfold State.paramBytes
  rw [flatMap_length_sum, List.map_congr_left fun q _ => readParam_length s q, bytes_total]

theorem zone_slice (n : Fin 8) : slice s.image (1 + 5 * n.val) 5 = s.zones[n].bytes := by
  have hfit : 5 * n.val + 5 ≤ s.zoneBytes.length := by rw [zoneBytes_length]; omega
  rw [image_eq, slice_part (i := 1) rfl hfit]
  unfold State.zoneBytes
  rw [slice_blocks _ 5 (fun _ => rfl) _ n.val (by rw [Vector.length_toList]; exact n.isLt)]
  rfl

theorem faceA_slice : slice s.image 41 8 = s.faces.a.settings.bytes := by
  rw [image_eq, ← List.append_assoc]
  exact slice_whole (by rw [List.length_append, zoneBytes_length]; rfl) rfl

theorem faceB_slice : slice s.image 49 8 = s.faces.b.settings.bytes := by
  rw [image_eq, ← List.append_assoc, ← List.append_assoc]
  exact slice_whole (by rw [List.length_append, List.length_append, zoneBytes_length]; rfl) rfl

theorem param_slice : slice s.image 57 154 = s.paramBytes := by
  rw [image_eq, ← List.append_assoc, ← List.append_assoc, ← List.append_assoc]
  exact slice_whole (by simp only [List.length_append, zoneBytes_length]; rfl) (paramBytes_length s)

variable {s}

/-- R181: names that fit make every place block one of 39 bytes. -/
theorem placeBytes_eq (h : ∀ n e, s.place? n = some e → e.fits = true) :
    s.placeBytes = s.places.toList.flatMap fittedBlock := by
  unfold State.placeBytes
  refine List.flatMap_congr fun e he => (fittedBlock_eq fun x hx => ?_).symm
  obtain ⟨i, hi, rfl⟩ := Vector.mem_iff_getElem.mp (Vector.mem_toList_iff.mp he)
  exact h (i + 1) x ((place_get s i hi).symm.trans hx)

theorem placeBytes_length (h : ∀ n e, s.place? n = some e → e.fits = true) : s.placeBytes.length = 9945 := by
  rw [placeBytes_eq h, blocks_length _ 39 fittedBlock_length, Vector.length_toList]

theorem place_slice (h : ∀ n e, s.place? n = some e → e.fits = true) (n : Fin 255) :
    slice s.image (211 + 39 * n.val) 39 = placeBlock s.places[n] := by
  have hfit : 39 * n.val + 39 ≤ s.placeBytes.length := by rw [placeBytes_length h]; omega
  rw [image_eq, ← List.append_assoc, ← List.append_assoc, ← List.append_assoc, ← List.append_assoc,
    slice_part (i := 211) (by simp only [List.length_append, zoneBytes_length, paramBytes_length]; rfl) hfit,
    placeBytes_eq h, slice_blocks _ 39 fittedBlock_length _ n.val (by rw [Vector.length_toList]; exact n.isLt)]
  exact fittedBlock_eq fun x hx => h (n.val + 1) x ((place_get s n.val n.isLt).symm.trans hx)

/-- R181: the check word of an image is that of its body. -/
theorem image_check (h : s.image.length = 10158) :
    bytesAt s.image 10156 2 = checkBytes (s.image.take 10156) := by
  obtain ⟨-, hlayout⟩ := image_layout s
  have hcheck : (checkBytes s.imageBody).length = 2 := by rw [← crcBytes_eq]; rfl
  have hbody : s.imageBody.length = 10156 := by
    rw [hlayout, List.length_append, hcheck] at h
    omega
  unfold bytesAt
  rw [hlayout, ← hbody, List.drop_left, List.take_left, ← hcheck, List.take_length]

/-- R181, R182: an image of settings in their ranges holds those settings. -/
theorem image_holds (h : SettingsInRange s) : ImageHolds s.image s.settings := by
  have hfits : ∀ n e, s.place? n = some e → e.fits = true := fun n e he => (h.names n e he).2.2
  refine ⟨image_check (image_length s hfits), ?_, fun n => ?_, fun f => ?_, ⟨?_, fun q => ?_, fun x hx => ?_, ?_⟩, fun n => ?_⟩
  · rw [image_eq]
    rfl
  · rw [bytesAt_eq, zone_slice]
    exact (readZone_iff _ _).mp (h.zones n)
  · cases f
    · rw [bytesAt_eq, if_pos rfl, faceA_slice]
      exact (readSettings_iff _ _).mp (h.faces .a)
    · rw [bytesAt_eq, if_neg (by decide), faceB_slice]
      exact (readSettings_iff _ _).mp (h.faces .b)
  · rw [settings_params, List.pairwise_map]
    refine (List.pairwise_map.mp numbers_rise).imp fun hlt => ?_
    rw [← number_row, ← number_row]
    exact hlt
  · exact ⟨s.readParam q, List.mem_map.mpr ⟨q, mem_all q, rfl⟩⟩
  · obtain ⟨q, -, rfl⟩ := List.mem_map.mp hx
    obtain ⟨hlen, haccepts⟩ := h.params q
    rw [bytes_row] at hlen
    exact ⟨hlen, (accepts_row q _ hlen).mp haccepts⟩
  · rw [bytesAt_eq, param_slice, settings_params, List.flatMap_map]
    rfl
  · rw [bytesAt_eq, place_slice hfits]
    have hblock : readPlaceBlock (placeBlock s.places[n]) = some s.places[n] :=
      readPlaceBlock_block _ fun x hx => h.names (n.val + 1) x ((place_get s n.val n.isLt).symm.trans hx)
    refine (readPlaceBlock_iff _ (placeBlock_length _ fun x hx => ?_) _).mp hblock
    exact hfits (n.val + 1) x ((place_get s n.val n.isLt).symm.trans hx)

end

/-- Settles O53: the parts of the image, and that the settings read are those it holds. -/
theorem imageReadsBackAsTheSettings : Obligations.ImageReadsBackAsTheSettings := by
  unfold Obligations.ImageReadsBackAsTheSettings
  refine ⟨fun s => ⟨rfl, fun f => by cases f <;> rfl, rfl, fun q value => ?_⟩, fun s => ⟨_, image_layout s⟩,
    fun s h => ?_, fun bytes st hlen => ⟨readImage_holds hlen, holds_readImage hlen⟩⟩
  · rw [settings_params, List.mem_map, ← readParam_held]
    refine ⟨fun ⟨x, _, hx⟩ => ?_, fun hv => ⟨q, mem_all q, by rw [hv]⟩⟩
    cases hx
    rfl
  · have hlen := image_length s fun n e he => (h.names n e he).2.2
    exact ⟨hlen, holds_readImage hlen (image_holds h)⟩

end Sys2Proof.Machine
end

section
/-! PROOFS. Loading (O51). -/

namespace Sys2Proof.Machine
set_option Elab.async false

/-! ## The outcome of a load (R182) -/

section
variable {m : Memory}

theorem loadOutcome_invalid (h : readImage (m.readBlock 0 10158) = none) : loadOutcome true m = .invalid := by
  unfold loadOutcome
  rw [show readImage (m.readBlock 0 Config.imageSize) = none from h]
  rw [if_neg (by decide)]
  split <;> rfl

/-- R182: an image that is read has the version byte. -/
theorem loadOutcome_read {st : Settings} (h : readImage (m.readBlock 0 10158) = some st) :
    loadOutcome true m = if lockoutPasses st.zones then .valid st else .zonesFail st := by
  have hversion : m.read 0 = 0x01 := by
    rw [← readBlock_zero]
    exact readImage_version h
  unfold loadOutcome
  rw [show readImage (m.readBlock 0 Config.imageSize) = some st from h, hversion]
  rfl

end

theorem settingsReadComplete_idle {acknowledged : Bool} {s : State} (h : s.loader.phase ≠ .loading) :
    exec (.settingsReadComplete acknowledged) s = .next s := by
  show execSettingsReadComplete acknowledged s = _
  unfold execSettingsReadComplete
  cases hphase : s.loader.phase with
  | ready => rfl
  | storing => rfl
  | loading => exact absurd hphase h

/-- R182: a load's outcome applied: its fault, then its settings. -/
def State.loadedBy (s : State) (out : LoadOutcome) : State := (s.raiseLoad out.fault).applySettings out.applied

theorem settingsReadComplete_loads {acknowledged : Bool} {s : State} (h : s.loader.phase = .loading) :
    exec (.settingsReadComplete acknowledged) s = .next (s.loadedBy (loadOutcome acknowledged s.mem)) := by
  show execSettingsReadComplete acknowledged s = _
  unfold execSettingsReadComplete
  rw [h]
  rfl

/-! ## The fault and the settings of an outcome (R176, R182) -/

/-- R182: settings that name every parameter once with values in its range. -/
def Settings.Complete (st : Settings) : Prop :=
  st.params.map (fun x => x.1) = Param.all ∧ ∀ x ∈ st.params, x.2.length = x.1.bytes ∧ x.1.accepts x.2 = true

theorem loadOutcome_complete (acknowledged : Bool) (m : Memory) : (loadOutcome acknowledged m).applied.Complete :=
  applied_params acknowledged m

/-- The parts that an applied outcome leaves. -/
theorem applySettings_only {st : Settings} (s : State) (h : st.Complete) :
    OnlyIn ([.params, .table, .zones, .places, .timers, .ambient, .lines, .ports, .loader] ++ faceParts) s (s.applySettings st) :=
  (apply_spec s st h.1 h.2).2.2.2

theorem loadedBy_settings (s : State) {out : LoadOutcome} (h : out.applied.Complete) :
    (s.loadedBy out).settings = out.applied := (apply_spec _ _ h.1 h.2).1

/-- R176: an outcome that is a fault reports it, without a locale. -/
theorem loadedBy_reports (s : State) {out : LoadOutcome} (h : out.applied.Complete) {kind : FaultKind}
    (hfault : out.fault = some kind) : (s.loadedBy out).seen = s.seen.set kind.index true ∧
      ReportsRaised s (s.loadedBy out) kind [⟨.none, none, none⟩] := by
  have honly := applySettings_only (s.raiseLoad out.fault) h
  have hraised : s.raiseLoad out.fault = s.raise kind Locale.none := by rw [hfault]; rfl
  have hreports : ReportsRaised s (s.raise kind Locale.none) kind [⟨.none, none, none⟩] :=
    raise_reports (OnlyIn.refl [] s) (by simp) kind Locale.none
  refine ⟨honly.seen.trans (by rw [hraised, raise_seen]), ?_⟩
  rw [← hraised] at hreports
  exact hreports.after honly (by decide)

/-- R182: an outcome that is none leaves the reports. -/
theorem loadedBy_quiet (s : State) {out : LoadOutcome} (h : out.applied.Complete) (hfault : out.fault = none) :
    (s.loadedBy out).seen = s.seen ∧ (s.loadedBy out).capture = s.capture ∧ (s.loadedBy out).events = s.events := by
  have honly := applySettings_only (s.raiseLoad out.fault) h
  have hquiet : s.raiseLoad out.fault = s := by rw [hfault]; rfl
  exact ⟨honly.seen.trans (by rw [hquiet]), honly.capture.trans (by rw [hquiet]), honly.events.trans (by rw [hquiet])⟩

/-- Settles O51: the four outcomes, and what applying any of them does. -/
theorem loadingAppliesTheImage : Obligations.LoadingAppliesTheImage := by
  unfold Obligations.LoadingAppliesTheImage
  intro acknowledged s
  refine ⟨settingsReadComplete_idle, fun hloading => ⟨_, settingsReadComplete_loads hloading, ?_⟩⟩
  have hcomplete := loadOutcome_complete acknowledged s.mem
  obtain ⟨u, hu⟩ : ∃ u, u = s.raiseLoad (loadOutcome acknowledged s.mem).fault := ⟨_, rfl⟩
  have hraised : OnlyIn [.capture, .seen, .events] s u := hu ▸ raiseLoad_only s _
  obtain ⟨-, hloader, hfaces, honly⟩ := apply_spec u _ hcomplete.1 hcomplete.2
  have hinForce := applySettings_inForce u _ hcomplete.1
  dsimp only at hinForce ⊢
  refine ⟨?_, fun hack => ?_, fun hack hnone => ?_, fun st hack hst hlocks => ?_, fun st hack hst hpasses => ?_, ?_⟩
  · rw [← hraised.loader]; rw [hu] at hloader ⊢; exact hloader
  · subst hack
    exact ⟨loadedBy_settings s hcomplete, loadedBy_reports s hcomplete rfl⟩
  · subst hack
    rw [loadOutcome_invalid hnone] at hcomplete ⊢
    exact ⟨loadedBy_settings s hcomplete, loadedBy_reports s hcomplete rfl⟩
  · subst hack
    rw [loadOutcome_read hst, hlocks] at hcomplete ⊢
    exact ⟨loadedBy_settings s hcomplete, loadedBy_reports s hcomplete rfl⟩
  · subst hack
    rw [loadOutcome_read hst, hpasses] at hcomplete ⊢
    exact ⟨loadedBy_settings s hcomplete, loadedBy_quiet s hcomplete rfl⟩
  · unfold State.loadedBy
    rw [← hu]
    rw [hraised.ports] at hinForce
    rw [hraised.panels] at hfaces
    exact ⟨hinForce, hfaces, (hraised.mono (by decide)).trans (honly.mono (by decide))⟩

end Sys2Proof.Machine
end

section
/-! PROOFS. Stores of the settings (O50). -/

namespace Sys2Proof.Machine
set_option Elab.async false

/-! ## STORE SETTINGS (R166, R184) -/

section
variable {s : State} {p : Port} {tag : Byte}

theorem takeStoreSettings_starts (hallowed : s.allows p .config [0]) (h : s.loader.phase ≠ .storing) :
    takeStoreSettings p tag [] s = (s.startStore p tag, none) := by
  unfold takeStoreSettings
  rw [missing_eq_none hallowed]
  exact if_neg h

theorem takeStoreSettings_busy (hallowed : s.allows p .config [0]) (h : s.loader.phase = .storing) :
    takeStoreSettings p tag [] s = (s, some (.plain .busy)) := by
  unfold takeStoreSettings
  rw [missing_eq_none hallowed]
  exact if_pos h

/-- R184: a store that starts: the snapshot taken, and no reply. -/
theorem storeSettings_starts (hready : s.ready p) (hallowed : s.allows p .config [0]) (h : s.loader.phase ≠ .storing) :
    exec (.storeSettings p tag []) s = .next ((s.acceptFrame p).startStore p tag) := by
  show Host.Outcome.next (s.serveStore p tag []) = _
  unfold State.serveStore
  rw [serveWith_ready hready, takeStoreSettings_starts ((acceptFrame_allows_iff ..).mpr hallowed)
    (by rw [acceptFrame_loader]; exact h)]
  rfl

theorem storeSettings_busy (hready : s.ready p) (hallowed : s.allows p .config [0]) (h : s.loader.phase = .storing) :
    ∃ t, exec (.storeSettings p tag []) s = .next t ∧ Served s t p 0x42 tag (.plain .busy) ∧ RequestTouches [] s t p := by
  refine answers_work hready rfl ?_
  rw [takeStoreSettings_busy ((acceptFrame_allows_iff ..).mpr hallowed) (by rw [acceptFrame_loader]; exact h)]
  rfl

/-- R184: what a store that starts leaves: its port in EXECUTE, and the image of the settings before. -/
theorem startStore_accepted (s : State) (p : Port) (tag : Byte) :
    let t := (s.acceptFrame p).startStore p tag
    t.loader = ⟨.storing, some ⟨p, tag, s.image⟩⟩ ∧
    t.ports = s.ports.set p { s.ports.get p with
      state := .execute, len := none, data := [], gap := 0, count := 0, silent := false } ∧
    RequestTouches [.loader] s t p := by
  have hstarted := startStore_only (s.acceptFrame p) p tag
  dsimp only
  refine ⟨?_, hstarted.ports.trans (acceptFrame_ports s p), ?_, fun f => ?_⟩
  · unfold State.startStore
    rw [image_accept]
  · exact ((acceptFrame_only s p).mono (by decide)).trans (hstarted.mono (by decide))
  · rw [hstarted.faces, acceptFrame_face]

/-! ## STORE_COMPLETE (R184) -/

theorem storeComplete_idle {outcome : StoreOutcome} (h : s.loader.phase ≠ .storing) :
    exec (.storeComplete outcome) s = .next s := by
  show execStoreComplete outcome s = _
  unfold execStoreComplete
  split
  next hphase _ => exact absurd hphase h
  · rfl

theorem storeComplete_verified {job : StoreJob} (h : s.loader = ⟨.storing, some job⟩) : exec (.storeComplete .verified) s =
    .next ((s.endStore job.image).sendReply job.port 0x42 job.tag (.plain .ok)) := by
  show execStoreComplete .verified s = _
  unfold execStoreComplete
  rw [h]

theorem storeComplete_failed {job : StoreJob} (h : s.loader = ⟨.storing, some job⟩) {outcome : StoreOutcome}
    (ho : outcome ≠ .verified) : exec (.storeComplete outcome) s =
    .next (s.failStore.sendReply job.port 0x42 job.tag (.plain .storeFailed)) := by
  show execStoreComplete outcome s = _
  unfold execStoreComplete
  rw [h]
  cases outcome with
  | verified => exact absurd rfl ho
  | mismatch => rfl
  | noAcknowledge => rfl

end

theorem read_writeBlock_zero (m : Memory) (a : Nat) (bytes : List Byte) :
    (m.writeBlock 0 bytes).read a = if h : a < bytes.length then bytes[a] else m.read a := by
  rw [read_writeBlock]
  by_cases h : a < bytes.length
  · rw [dif_pos h, dif_pos ⟨Nat.zero_le a, h⟩]
    rfl
  · rw [dif_neg h, dif_neg fun hin => h hin.2]

/-- R164, R168: the ports after a reply. -/
theorem sendReply_frame (s : State) (p : Port) (kind tag : Byte) (r : Reply) : (s.sendReply p kind tag r).ports
    = s.ports.set p { s.ports.get p with state := .reply, reply := replyBytes kind tag r (s.events.get p) } := by
  rw [State.sendReply_ports, replyFrame_eq]

/-- R184: what a store that fails leaves, its fault raised last. -/
theorem failStore_spec (s : State) : s.failStore.loader = ⟨.ready, none⟩ ∧
    (∀ a, 10158 ≤ a → s.failStore.mem.read a = s.mem.read a) ∧ s.failStore.seen = s.seen.set 7 true ∧
    (∀ o, (s.failStore.events.get o).fault = true) ∧ ReportsRaised s s.failStore .storeFailed [⟨.none, none, none⟩] := by
  have hended : OnlyIn [.mem, .loader, .free] s (State.endStore { s with free := s.free + 1 } (freeImage s.free)) := by
    intro q hq; cases q <;> first | rfl | exact absurd (by decide) hq
  refine ⟨rfl, fun a ha => ?_, rfl, fun o => ?_, raise_reports hended (by decide) .storeFailed Locale.none⟩
  · show (s.mem.writeBlock 0 (freeImage s.free)).read a = _
    rw [read_writeBlock_zero, dif_neg (by rw [freeImage_length]; omega)]
  · unfold State.failStore
    rw [raise_events]

/-- Settles O50: the start of a store, its two ends, and no end without a start. -/
theorem storesAreBracketed : Obligations.StoresAreBracketed := by
  unfold Obligations.StoresAreBracketed
  refine ⟨fun p tag s hready hallowed => ⟨fun hphase => ?starts, storeSettings_busy hready hallowed⟩,
    fun job s hjob => ⟨?verified, fun outcome houtcome => ?failed⟩, fun outcome s => storeComplete_idle⟩
  case starts =>
    obtain ⟨hloader, hports, htouches⟩ := startStore_accepted s p tag
    exact ⟨_, storeSettings_starts hready hallowed (by rw [hphase]; decide), hloader, hports, htouches⟩
  case verified =>
    have hended := endStore_only s job.image
    have hreplied := sendReply_only (s.endStore job.image) job.port 0x42 job.tag (.plain .ok)
    refine ⟨_, storeComplete_verified hjob, hreplied.loader, fun a => ?_, ?_, ?_⟩
    · rw [hreplied.mem, State.endStore_mem, read_writeBlock_zero]
    · rw [sendReply_frame, hended.ports, hreplied.events]
    · exact (hended.mono (by decide)).trans (hreplied.mono (by decide))
  case failed =>
    have hfailed := failStore_only s
    have hreplied := sendReply_only s.failStore job.port 0x42 job.tag (.plain .storeFailed)
    obtain ⟨hloader, hmem, hseen, hevents, hreports⟩ := failStore_spec s
    refine ⟨_, storeComplete_failed hjob (fun he => ?_), hreplied.loader.trans hloader, fun a ha => ?_, ?_,
      hreplied.seen.trans hseen, fun o => ?_, hreports.after hreplied (by decide),
      (hfailed.mono (by decide)).trans (hreplied.mono (by decide))⟩
    · subst he
      revert houtcome
      decide
    · rw [hreplied.mem]
      exact hmem a ha
    · rw [sendReply_frame, hfailed.ports, hreplied.events]
    · rw [hreplied.events]
      exact hevents o

end Sys2Proof.Machine
end

section
/-! PROOFS. Parameters written and read (O49). -/

namespace Sys2Proof.Machine
set_option Elab.async false

/-! ## A request leaves the parameters but by its handling -/

/-- R183: a state that differs from another at the ports and the composers alone, the settings of each port the same,
holds the same parameters. -/
theorem readParam_of_frame {s t : State} (h : OnlyIn [.ports, .faces] s t)
    (hports : ∀ o, (t.ports.get o).baud = (s.ports.get o).baud ∧ (t.ports.get o).limit = (s.ports.get o).limit ∧
      (t.ports.get o).stale = (s.ports.get o).stale) (q : Param) : t.readParam q = s.readParam q := by
  refine readParam_congr h.params (fun i => ?_) (by rw [h.ambient]) (fun f => ?_) (fun l => ?_) hports q
  · rw [h.timers]; exact ⟨rfl, rfl, rfl⟩
  · rw [h.panels]; exact ⟨rfl, rfl⟩
  · rw [h.lines]; exact ⟨rfl, rfl, rfl, rfl⟩

theorem acceptFrame_port (s : State) (p o : Port) : (s.acceptFrame p).ports.get o =
    if o = p then (s.ports.get o).accepted else s.ports.get o := by
  rw [acceptFrame_ports, PerPort.get_set]
  by_cases h : o = p
  · rw [if_pos h, if_pos h, h]
  · rw [if_neg h, if_neg h]

/-- R168: what a reply leaves of each port. -/
theorem sendReply_port (s : State) (p : Port) (kind tag : Byte) (r : Reply) (o : Port) :
    ∃ (state : PortState) (reply : List Byte),
      (s.sendReply p kind tag r).ports.get o = { s.ports.get o with state := state, reply := reply } := by
  rw [sendReply_frame, PerPort.get_set]
  by_cases h : o = p
  · rw [if_pos h, h]; exact ⟨_, _, rfl⟩
  · rw [if_neg h]; exact ⟨_, _, rfl⟩

theorem readParam_acceptFrame (s : State) (p : Port) (q : Param) : (s.acceptFrame p).readParam q = s.readParam q := by
  refine readParam_of_frame (acceptFrame_only s p) (fun o => ?_) q
  rw [acceptFrame_port]
  split <;> exact ⟨rfl, rfl, rfl⟩

theorem readParam_sendReply (s : State) (p : Port) (kind tag : Byte) (r : Reply) (q : Param) :
    (s.sendReply p kind tag r).readParam q = s.readParam q := by
  refine readParam_of_frame ((sendReply_only s p kind tag r).mono (by decide)) (fun o => ?_) q
  obtain ⟨state, reply, hport⟩ := sendReply_port s p kind tag r o
  rw [hport]
  exact ⟨rfl, rfl, rfl⟩

/-! ## READ PARAMETER (R183) -/

theorem parseByte_one (n : Byte) : parseByte [n] = .ok n.toNat := rfl

theorem takeReadParameter_found {q : Param} {n : Byte} (h : q.row.number = n.toNat) (s : State) :
    takeReadParameter [n] s = (s, .okWith (s.readParam q)) := by
  unfold takeReadParameter
  rw [withOperands_ok (parseByte_one n), ofNumber_row h]

theorem takeReadParameter_absent {n : Byte} (h : ∀ q : Param, q.row.number ≠ n.toNat) (s : State) :
    takeReadParameter [n] s = (s, .plain .badField) := by
  unfold takeReadParameter
  rw [withOperands_ok (parseByte_one n), ofNumber_none h]

theorem row_number_inj {q r : Param} (h : q.row.number = r.row.number) : q = r :=
  number_inj (by rw [number_row, number_row, h])

theorem readParameter_served {s : State} {p : Port} (hready : s.ready p) (tag n : Byte) :
    ∃ t, exec (.readParameter p tag [n]) s = .next t ∧ RequestTouches [] s t p ∧
      (∀ q : Param, q.row.number = n.toNat → Served s t p 0x41 tag ⟨.ok, s.readParam q⟩) ∧
      ((∀ q : Param, q.row.number ≠ n.toNat) → Served s t p 0x41 tag (.plain .badField)) := by
  by_cases hfound : ∃ q : Param, q.row.number = n.toNat
  case pos =>
    obtain ⟨q, hq⟩ := hfound
    have htake := takeReadParameter_found hq (s.acceptFrame p)
    rw [readParam_acceptFrame] at htake
    obtain ⟨t, hnext, htouches, hserved⟩ := answers_reading (c := .readParameter p tag [n]) hready rfl htake
    refine ⟨t, hnext, htouches, fun r hr => ?_, fun hnone => absurd hq (hnone q)⟩
    rw [row_number_inj (hr.trans hq.symm)]
    exact hserved
  case neg =>
    have habsent : ∀ q : Param, q.row.number ≠ n.toNat := fun q hq => hfound ⟨q, hq⟩
    obtain ⟨t, hnext, htouches, hserved⟩ :=
      answers_reading (c := .readParameter p tag [n]) hready rfl (takeReadParameter_absent habsent (s.acceptFrame p))
    exact ⟨t, hnext, htouches, fun r hr => absurd hr (habsent r), fun _ => hserved⟩

/-! ## SET PARAMETER (R183) -/

/-- What SET PARAMETER leaves before its reply: the frame accepted, the value written, and its effects. -/
def State.withParam (s : State) (p : Port) (q : Param) (value : List Byte) : State :=
  ((s.acceptFrame p).writeParam q value).paramEffects (s.acceptFrame p) q

theorem setParameter_next {s : State} {p : Port} (tag : Byte) {q : Param} {value : List Byte} (hready : s.ready p)
    (hlength : value.length = q.row.bytes) (htakes : q.row.takes value) (hallowed : s.allows p .config [0]) :
    exec (.setParameter p tag (byte q.row.number :: value)) s =
      .next ((s.withParam p q value).sendReply p 0x40 tag (.plain .ok)) := by
  have hparsed : parseSetParameter (byte q.row.number :: value) = .ok (q, value) := by
    rw [← number_row]
    exact parseSetParameter_eq q value (by rw [bytes_row, hlength]) ((accepts_row q value hlength).mpr htakes)
  have htake : takeSetParameter p (byte q.row.number :: value) (s.acceptFrame p) =
      (s.withParam p q value, .plain .ok) := by
    unfold takeSetParameter
    rw [withOperands_ok hparsed, withRights_ok ((acceptFrame_allows_iff ..).mpr hallowed)]
    rfl
  show Host.Outcome.next (s.serve p 0x40 tag _) = _
  rw [serve_ready hready, htake]

section
variable (s : State) (p : Port) (q : Param) (value : List Byte) (kind tag : Byte) (r : Reply)

theorem withParam_effects : OnlyIn faceParts ((s.acceptFrame p).writeParam q value) (s.withParam p q value) :=
  paramEffects_only _ _ _

theorem withParam_only :
    OnlyIn ([.params, .table, .timers, .ambient, .lines, .ports] ++ faceParts) s (s.withParam p q value) :=
  ((acceptFrame_only s p).mono (by decide)).trans
    (((writeParam_only _ q value).mono (by decide)).trans ((withParam_effects s p q value).mono (by decide)))

theorem readParam_withParam (o : Param) :
    (s.withParam p q value).readParam o = ((s.acceptFrame p).writeParam q value).readParam o :=
  readParam_faceWork (withParam_effects s p q value) (paramEffects_caps _ _ _) o

/-- R163, R169, R170: what SET PARAMETER leaves of each port. -/
theorem withParam_port (o : Port) : ∃ (state : PortState) (reply : List Byte),
    ((s.withParam p q value).sendReply p kind tag r).ports.get o =
      { ((s.acceptFrame p).writeParam q value).ports.get o with state := state, reply := reply } := by
  rw [← (withParam_effects s p q value).ports]
  exact sendReply_port ..

/-- R163: the port's own line, and a line in a frame, keep their baud until HUNT. -/
theorem withParam_lineBaud (o : Port) :
    let t := (s.withParam p (.baud o) value).sendReply p kind tag r
    (t.ports.get o).lineBaud =
      if o ≠ p ∧ (s.ports.get o).state = .hunt then (t.ports.get o).baud else (s.ports.get o).lineBaud := by
  obtain ⟨state, reply, hport⟩ := withParam_port s p (.baud o) value kind tag r o
  dsimp only
  rw [hport, writeParam_port, if_pos rfl, acceptFrame_port]
  by_cases hown : o = p
  case pos =>
    rw [if_pos hown, if_neg fun h => h.1 hown]
    rfl
  case neg =>
    rw [if_neg hown]
    simp only [LinkPort.setBaud, hown, ne_eq, not_false_eq_true, true_and]

/-- R169, R170: what SET PARAMETER leaves of the silence of each port. -/
theorem withParam_silence (o : Port) :
    let t := (s.withParam p q value).sendReply p kind tag r
    (t.ports.get o).limitInForce = (if q = .limit o then (t.ports.get o).limit else (s.ports.get o).limitInForce) ∧
      (t.ports.get o).staleInForce = (if q = .stale o then (t.ports.get o).stale else (s.ports.get o).staleInForce) ∧
      (t.ports.get o).silent = (if o = p then false else (s.ports.get o).silent) ∧
      (t.ports.get o).count = (if o = p then 0 else (s.ports.get o).count) := by
  obtain ⟨state, reply, hport⟩ := withParam_port s p q value kind tag r o
  obtain ⟨hlimit, hstale, -, -, hcount, hsilent⟩ := writeParam_inForce (s.acceptFrame p) q value o
  dsimp only
  rw [hport]
  dsimp only
  rw [hcount, hsilent]
  rw [acceptFrame_port] at hlimit hstale ⊢
  by_cases hown : o = p
  case pos =>
    rw [if_pos hown] at hlimit hstale
    rw [if_pos hown, if_pos hown, if_pos hown]
    exact ⟨hlimit, hstale, rfl, rfl⟩
  case neg =>
    rw [if_neg hown] at hlimit hstale
    rw [if_neg hown, if_neg hown, if_neg hown]
    exact ⟨hlimit, hstale, rfl, rfl⟩

/-- R23: what SET PARAMETER leaves of the table. -/
theorem withParam_table : (s.withParam p q value).table =
    if q = .ro then sortRecords (beValue value) s.table else s.table := by
  rw [(withParam_effects s p q value).table, writeParam_table, acceptFrame_table]

theorem withParam_ro_params : (s.withParam p .ro value).params.ro = beValue value := by
  rw [(withParam_effects s p .ro value).params]
  rfl

/-- R74: a write of a timer restarts it. -/
theorem withParam_timer {i : Fin 6} (h : q = .reload i ∨ q = .unit i ∨ q = .mode i) :
    ∃ x : Timer, (s.withParam p q value).timers[i] = x.restart := by
  rw [(withParam_effects s p q value).timers]
  rcases h with rfl | rfl | rfl
  all_goals
    unfold State.writeParam
    dsimp only
    rw [modTimer_get, if_pos rfl]
    exact ⟨_, rfl⟩

/-- R157: a write of an input line drops its pending count. -/
theorem withParam_line {l : Fin 4} (hlength : value.length = (Param.line l).row.bytes)
    (htakes : (Param.line l).row.takes value) :
    (s.withParam p (.line l) value).lines[l].settled = s.lines[l].settled ∧
      (s.withParam p (.line l) value).lines[l].pending = 0 := by
  obtain ⟨c, hc⟩ := Option.isSome_iff_exists.mp ((accepts_row (.line l) value hlength).mpr htakes)
  rw [(withParam_effects s p (.line l) value).lines]
  unfold State.writeParam
  rw [hc]
  dsimp only
  rw [modLine_get, if_pos rfl, (acceptFrame_only s p).lines]
  exact ⟨rfl, rfl⟩

/-- R6, R114, R170: a write that changes what may be shown leaves both faces dirty. -/
theorem withParam_dirty (h : q ∈ [.ro, .rotateDepth, .tickerHold, .stale .lp0, .stale .lp1, .stale .lp2]) (f : Face) :
    ((s.withParam p q value).faces.get f).dirty = true := by
  have hmarked : ∀ w : State, (w.markBoth.faces.get f).dirty = true := fun w => by cases f <;> rfl
  unfold State.withParam
  fin_cases h <;> exact hmarked _

/-- R114, R152, R153: what a write of any parameter but RO and the input lines leaves of a face. -/
theorem withParam_faces (hro : q ≠ .ro) (hline : ∀ l, q ≠ .line l) :
    let t := (s.withParam p q value).sendReply p kind tag r
    t.painter = s.painter ∧ t.free = s.free ∧ ∀ f,
      t.faces.get f = { s.faces.get f with
        dirty := (s.faces.get f).dirty || (s.ports.get p).silent
          || decide (q ∈ [.rotateDepth, .tickerHold, .stale .lp0, .stale .lp1, .stale .lp2]) } ∧
      (q = .curve ∨ q = .cap f ∨ (∃ m, q = .trim f m) → DutiesAnew t f) ∧
      (¬ (q = .curve ∨ q = .cap f ∨ ∃ m, q = .trim f m) → t.panels.get f = s.panels.get f) := by
  obtain ⟨hpainter, hfree, hfaces⟩ := writeParam_faces (s.acceptFrame p) (s.acceptFrame p) q value hro hline
  have haccepted := acceptFrame_only s p
  have hreplied := sendReply_only (s.withParam p q value) p kind tag r
  refine ⟨hreplied.painter.trans (hpainter.trans haccepted.painter),
    hreplied.free.trans (hfree.trans haccepted.free), fun f => ?_⟩
  obtain ⟨hface, hanew, hpanel⟩ := hfaces f
  refine ⟨?_, hanew, fun h => ?_⟩
  · rw [hreplied.faces]
    refine hface.trans ?_
    rw [acceptFrame_face]
  · rw [hreplied.panels]
    refine (hpanel h).trans ?_
    rw [haccepted.panels]

end

/-- Settles O49: each clause of a write by the lemma on its part, a read by the row of its number, and the rows. -/
theorem parametersAreWrittenAndRead : Obligations.ParametersAreWrittenAndRead := by
  unfold Obligations.ParametersAreWrittenAndRead
  refine fun p tag s hready => ⟨fun q value hlength htakes hallowed => ?write, readParameter_served hready tag,
    fun q => ⟨number_row q, bytes_row q, readParam_held s q, accepts_row q⟩⟩
  have hreplied := sendReply_only (s.withParam p q value) p 0x40 tag (.plain .ok)
  have hport : ((s.withParam p q value).sendReply p 0x40 tag (.plain .ok)).ports.get p = { (s.withParam p q value).ports.get p with
      state := .reply, reply := replyBytes 0x40 tag (.plain .ok) ((s.withParam p q value).events.get p) } := by
    rw [sendReply_frame, PerPort.get_set_same]
  refine ⟨_, setParameter_next tag hready hlength htakes hallowed, ?state, ?reply, ?value, fun other hother => ?others,
    fun hro => ?ro, fun hro => ?table, fun i hi => ?timer, fun l hl => ?line, fun o ho => ?baud,
    fun o => withParam_silence s p q value 0x40 tag _ o, fun hmarks f => ?marks, fun hro hline => ?faces,
    (withParam_only s p q value).trans (hreplied.mono (by decide))⟩
  case state => rw [hport]
  case reply => rw [hport, hreplied.events]
  case value =>
    rw [readParam_sendReply, readParam_withParam]
    exact readParam_written _ q value (by rw [bytes_row, hlength]) ((accepts_row q value hlength).mpr htakes)
  case others =>
    rw [readParam_sendReply, readParam_withParam, readParam_other _ value hother, readParam_acceptFrame]
  case ro =>
    subst hro
    refine ⟨?_, ?_, fun f => writeRo_wakes s p value 0x40 tag _ f⟩
    · rw [hreplied.table, withParam_table, if_pos rfl]
      exact sortRecords_perm _ _
    · rw [hreplied.table, hreplied.params, withParam_table, if_pos rfl, withParam_ro_params]
      exact sortRecords_sorted _ _
  case table => rw [hreplied.table, withParam_table, if_neg hro]
  case timer =>
    obtain ⟨x, hx⟩ := withParam_timer s p q value hi
    rw [hreplied.timers, hx]
    exact restart_counts x
  case line =>
    subst hl
    obtain ⟨hsettled, hpending⟩ := withParam_line s p value hlength htakes
    rw [hreplied.lines]
    exact ⟨hsettled, hpending, fun f => writeLine_effects s p l value 0x40 tag _ f⟩
  case baud =>
    subst ho
    exact withParam_lineBaud s p value 0x40 tag _ o
  case marks =>
    rw [hreplied.faces]
    exact withParam_dirty s p q value hmarks f
  case faces =>
    obtain ⟨hpainter, hfree, hfaces⟩ := withParam_faces s p q value 0x40 tag (.plain .ok) hro hline
    exact ⟨hpainter, hfree, hfaces⟩

end Sys2Proof.Machine
end
